-- ==== Sys2Proof/Word.lean ====
section
/-! DEFINITION. The byte, the bit string and the table type every other file is written with
(00_scope.md R8, R9, R13). -/

namespace Sys2Proof

/-- A byte: bits 7 (most significant) down to 0 (R8). -/
abbrev Byte := BitVec 8

/-- A bit string, first bit leftmost (R9); `false` is the bit 0, `true` the bit 1. -/
abbrev Bits := List Bool

/-- One indexed memory of the engine, written sparsely: pairs of index and entry, indices strictly
rising, no entry equal to what an unlisted index reads as.  Reading and writing are in
`Sys2Proof/Machine/Operands.lean`. -/
abbrev Table (α : Type) := List (Nat × α)

end Sys2Proof
end

