-- ==== Sys2Proof/Syntax.lean ====
section
/-! DEFINITION. The 23 commands of 30_encoding.md R92, one constructor a row of the opcode table; their
class and mnemonics (R92, R95); what the host can do (70_reset_and_hazards.md R384, R388; 60_exceptions.md
R355); and what it can read back (10_state.md R21 to R31, 60_exceptions.md R366, R370). -/

namespace Sys2Proof

/-- A command: one row of the table of R92.  No command has an operand (R90). -/
inductive Instr where
  | nop
  | reset
  | count
  | dist
  | ranges
  | treeFromScheme
  | treeTrunc
  | treeDerive
  | bldShannon
  | bldFano
  | bldHuffman
  | cmpShannon
  | cmpFano
  | cmpHuffman
  | cmpContext
  | cmpAdaptive
  | cmpArith
  | decShannon
  | decFano
  | decHuffman
  | decContext
  | decAdaptive
  | decArith
  deriving DecidableEq, Repr

/-- The class column of R92. -/
inductive CmdClass where
  | system
  | primitive
  | stream
  deriving DecidableEq, Repr

/-- The class of each command (R92). -/
def Instr.cmdClass : Instr → CmdClass
  | .nop | .reset => .system
  | .count | .dist | .ranges | .treeFromScheme | .treeTrunc | .treeDerive
  | .bldShannon | .bldFano | .bldHuffman => .primitive
  | .cmpShannon | .cmpFano | .cmpHuffman | .cmpContext | .cmpAdaptive | .cmpArith
  | .decShannon | .decFano | .decHuffman | .decContext | .decAdaptive | .decArith => .stream

/-- The assembler's line for a command: its mnemonic alone (R95). -/
def Instr.mnemonic : Instr → String
  | .nop => "NOP"
  | .reset => "RESET"
  | .count => "COUNT"
  | .dist => "DIST"
  | .ranges => "RANGES"
  | .treeFromScheme => "TREE.FROMSCHEME"
  | .treeTrunc => "TREE.TRUNC"
  | .treeDerive => "TREE.DERIVE"
  | .bldShannon => "BLD.SHANNON"
  | .bldFano => "BLD.FANO"
  | .bldHuffman => "BLD.HUFFMAN"
  | .cmpShannon => "CMP.SHANNON"
  | .cmpFano => "CMP.FANO"
  | .cmpHuffman => "CMP.HUFFMAN"
  | .cmpContext => "CMP.CONTEXT"
  | .cmpAdaptive => "CMP.ADAPTIVE"
  | .cmpArith => "CMP.ARITH"
  | .decShannon => "DEC.SHANNON"
  | .decFano => "DEC.FANO"
  | .decHuffman => "DEC.HUFFMAN"
  | .decContext => "DEC.CONTEXT"
  | .decAdaptive => "DEC.ADAPTIVE"
  | .decArith => "DEC.ARITH"

/-- All commands, in the table's order. -/
def Instr.all : List Instr :=
  [.nop, .reset, .count, .dist, .ranges, .treeFromScheme, .treeTrunc, .treeDerive,
    .bldShannon, .bldFano, .bldHuffman,
    .cmpShannon, .cmpFano, .cmpHuffman, .cmpContext, .cmpAdaptive, .cmpArith,
    .decShannon, .decFano, .decHuffman, .decContext, .decAdaptive, .decArith]

/-- Reading an assembler line (R95): the command with that mnemonic, if any. -/
def Instr.ofMnemonic (line : String) : Option Instr :=
  Instr.all.find? (fun i => i.mnemonic == line)

/-- One act of the host.  The host acts between commands (R80, R388), but for a hardware reset, the only
way to stop a running one (R355); a program for the LCE is a list of these (R95, R384). -/
inductive HostAct where
  /-- Write a byte to `CMD` (R21, R362). -/
  | writeCmd (c : Byte)
  /-- Attach an input stream holding `bytes`, the cursor at `cursor` (R384).  `again` is `none` for a
  stream that keeps the duty of R390 (the second pass returns the same bytes); `some b` is a stream
  that breaks it: after the next `InRewind()` it holds `b`. -/
  | attachIn (bytes : List Byte) (again : Option (List Byte)) (cursor : Nat)
  /-- Position the input cursor (R384). -/
  | seekIn (cursor : Nat)
  /-- Attach an output stream that already holds `bytes` (R384: none for a fresh stream). -/
  | attachOut (bytes : List Byte)
  /-- The I/O-failure oracle of R68 from here on: the ordinals, counted from 1 in each command and each
  stream, of the accesses that fail. -/
  | setOracle (failIn failOut : List Nat)
  /-- Hardware reset (R380). -/
  | hwReset
  /-- Write a byte to `CMD`, and apply hardware reset while the command runs (R355): just before it makes
  its `k`-th access to the input stream (`onInput`), or to the output stream; a command that makes fewer
  has ended by then. -/
  | resetDuring (c : Byte) (onInput : Bool) (k : Nat)
  deriving DecidableEq, Repr

/-! ### What the host can read back -/

/-- The registers the host can read (R21 to R25, R31). -/
inductive Reg where
  | CMD | STATUS | FAULTCODE | PHASE
  | IN_POS | IN_BASE | OUT_LEN
  | TOTAL | NSYM | NDIST | NRANGE | RT | NNODES | ROOT | CUR | PREV | NCTX
  | OBITS | OCNT | IBITS | ICNT | LOW | HIGH | PEND | VAL
  | FGK_N | FGK_ROOT | FGK_NYT
  deriving DecidableEq, Repr

/-- A field of a code scheme with its tree of `slots` slots: `SCHEME[s]`, `TREE[n]`, `NNODES`, `ROOT` (R27,
R28). -/
inductive ModelField (slots : Nat) where
  | schemePresent (s : Byte)
  | schemeLen (s : Byte)
  | schemeBits (s : Byte)
  | treeSym (n : Fin slots)
  | treeLeft (n : Fin slots)
  | treeRight (n : Fin slots)
  | nnodes
  | root
  deriving DecidableEq, Repr

/-- A field of a slot of `FGK` (R31). -/
inductive FgkField where
  | weight
  | rank
  | kind
  | sym
  | parent
  | left
  | right
  deriving DecidableEq, Repr

/-- What the host can name when it reads back: a register, or a field of an entry of a memory (R27 to R32,
R388: every register and memory).  The indices are those that exist. -/
inductive Field where
  | reg (r : Reg)
  | freq (s : Byte)
  | distSym (i : Fin 256)
  | distCnt (i : Fin 256)
  | rangeSym (i : Fin 257)
  | rangeLo (i : Fin 257)
  | rangeHi (i : Fin 257)
  | main (f : ModelField 10241)
  | ctxPresent (c : Byte)
  | ctxFreq (c s : Byte)
  | ctx (c : Byte) (f : ModelField 511)
  | fgk (n : Fin 513) (f : FgkField)
  | fgkLeaf (s : Byte)
  deriving DecidableEq, Repr

/-- The kind of an adaptive-tree node (R31). -/
inductive NodeKind where
  | leaf
  | nyt
  | internal
  deriving DecidableEq, Repr

/-- What a read gives: a word of the field's width; the bit string of a codeword (R27); the symbol of a
`TREE` slot, `none` where it is -1 (R28); the kind of an `FGK` slot (R31). -/
inductive ReadValue where
  | word (width : Nat) (v : BitVec width)
  | bits (b : Bits)
  | sym (s : Option Byte)
  | kind (k : NodeKind)
  deriving DecidableEq, Repr

end Sys2Proof
end

