-- ==== Sys2Proof/WellFormed.lean ====
section
/-! DEFINITION. What is checked before the machine runs a term.  A command has no operand (R90), so every
`Instr` is well formed; the checks are on the host's acts: the cursor and the length of a stream. -/

namespace Sys2Proof

/-- R90: no register field, no immediate, no modifier; nothing of a command can be ill formed. -/
def Instr.wf (_ : Instr) : Bool := true

/-- R24: a stream longer than 2^64 - 1 bytes is outside the model. -/
def streamLenOk (bytes : List Byte) : Bool := bytes.length < 2 ^ 64

/-- R384: the cursor is at the first byte to consume, so it lies in the stream or at its end. -/
def cursorOk (bytes : List Byte) (cursor : Nat) : Bool := cursor ≤ bytes.length

/-- The check on a host act that does not depend on the state: `attachIn`'s streams are not longer than
2^64 - 1 bytes and its cursor lies in the stream; so is `attachOut`'s length. -/
def HostAct.wf : HostAct → Bool
  | .writeCmd _ => true
  | .attachIn bytes again cursor =>
      streamLenOk bytes && cursorOk bytes cursor &&
        (match again with
          | none => true
          | some b => streamLenOk b)
  | .seekIn _ => true
  | .attachOut bytes => streamLenOk bytes
  | .setOracle _ _ => true
  | .hwReset => true
  | .resetDuring _ _ _ => true

end Sys2Proof
end

