-- ==== Sys2Proof/Decode.lean ====
section
/-! DEFINITION. The command word (30_encoding.md R90 to R94): the decoder, total on the 256 bytes, and the
encoder. -/

namespace Sys2Proof

/-- Why a byte written to `CMD` selects no command. -/
inductive DecodeReject where
  /-- R93, R94: the byte is none of the 23 codes; it selects ILLEGAL. -/
  | illegal (c : Byte)
  deriving DecidableEq, Repr

/-- One row of the opcode table: a byte `c` matches when `c &&& mask = code` (R93). -/
structure OpRow where
  code : Byte
  mask : Byte
  instr : Instr
  deriving DecidableEq, Repr

/-- The system and primitive rows of R92. -/
def flatRows : List OpRow :=
  [⟨0x00, 0xFF, .nop⟩, ⟨0x01, 0xFF, .reset⟩,
    ⟨0x10, 0xFF, .count⟩, ⟨0x11, 0xFF, .dist⟩, ⟨0x12, 0xFF, .ranges⟩,
    ⟨0x18, 0xFF, .treeFromScheme⟩, ⟨0x19, 0xFF, .treeTrunc⟩, ⟨0x1A, 0xFF, .treeDerive⟩,
    ⟨0x20, 0xFF, .bldShannon⟩, ⟨0x21, 0xFF, .bldFano⟩, ⟨0x22, 0xFF, .bldHuffman⟩]

/-- The stream rows of R92. -/
def streamRows : List OpRow :=
  [⟨0x40, 0xFF, .cmpShannon⟩, ⟨0x41, 0xFF, .cmpFano⟩, ⟨0x42, 0xFF, .cmpHuffman⟩,
    ⟨0x43, 0xFF, .cmpContext⟩, ⟨0x44, 0xFF, .cmpAdaptive⟩, ⟨0x45, 0xFF, .cmpArith⟩,
    ⟨0x48, 0xFF, .decShannon⟩, ⟨0x49, 0xFF, .decFano⟩, ⟨0x4A, 0xFF, .decHuffman⟩,
    ⟨0x4B, 0xFF, .decContext⟩, ⟨0x4C, 0xFF, .decAdaptive⟩, ⟨0x4D, 0xFF, .decArith⟩]

/-- The complete command set of R92. -/
def opTable : List OpRow := flatRows ++ streamRows

/-- R93: compare the whole byte with the 23 codes; no match selects ILLEGAL. -/
def decode (c : Byte) : Except DecodeReject Instr :=
  match opTable.find? (fun r => c &&& r.mask == r.code) with
  | some r => .ok r.instr
  | none => .error (.illegal c)

/-- R91: bits 7:4 are 0100, bit 3 is the direction (0 compress, 1 decompress), bits 2:0 the method. -/
def streamCode (dir : Bool) (method : Nat) : Byte :=
  BitVec.ofNat 8 (0b01000000 + (if dir then 8 else 0) + method)

/-- The code of each command: a flat number (R92), or for the stream commands the fields of R91 with the
method numbers 0 SHANNON, 1 FANO, 2 HUFFMAN, 3 CONTEXT, 4 ADAPTIVE, 5 ARITH. -/
def encode : Instr → Byte
  | .nop => 0x00
  | .reset => 0x01
  | .count => 0x10
  | .dist => 0x11
  | .ranges => 0x12
  | .treeFromScheme => 0x18
  | .treeTrunc => 0x19
  | .treeDerive => 0x1A
  | .bldShannon => 0x20
  | .bldFano => 0x21
  | .bldHuffman => 0x22
  | .cmpShannon => streamCode false 0
  | .cmpFano => streamCode false 1
  | .cmpHuffman => streamCode false 2
  | .cmpContext => streamCode false 3
  | .cmpAdaptive => streamCode false 4
  | .cmpArith => streamCode false 5
  | .decShannon => streamCode true 0
  | .decFano => streamCode true 1
  | .decHuffman => streamCode true 2
  | .decContext => streamCode true 3
  | .decAdaptive => streamCode true 4
  | .decArith => streamCode true 5

/-- The byte that the table's word `w` of `nbits` bits lays out: the command is its first byte; every bit
above `nbits` is 0. -/
def tableByte (nbits w : Nat) : Byte := BitVec.ofNat 8 (w % 2 ^ nbits)

/-- The command the decoder reads from a word numbered as the opcode table numbers it. -/
def decodeTableWord (nbits w : Nat) : Option Instr :=
  match decode (tableByte nbits w) with
  | .ok i => some i
  | .error _ => none

end Sys2Proof
end

