-- ==== Sys2Proof/Config.lean ====
section
/-! DEFINITION. The parameters of 00_scope.md R6, the constants of 46_arithmetic.md R290, and the
values the spec leaves unstated (opaque: nothing can prove anything of them). -/

namespace Sys2Proof.Config

/-- ALPHABET: 256 symbols (R6). -/
def alphabet : Nat := 256

/-- IN_LEN_MAX = 2^32 - 1: the most bytes a counting command accepts (R6, R131). -/
def inLenMax : Nat := 2 ^ 32 - 1

/-- M = 2^31, the arithmetic coder's scale (R6, R290). -/
def scaleM : Nat := 2 ^ 31

/-- HALF = M / 2 (R290). -/
def half : Nat := 2 ^ 30

/-- QUARTER = M / 4 (R290). -/
def quarter : Nat := 2 ^ 29

/-- THREE_QUARTERS = 3 * QUARTER (R290). -/
def threeQuarters : Nat := 3 * 2 ^ 29

/-- N = 31: the width of the arithmetic decoder's window (R290, R316). -/
def windowBits : Nat := 31

/-- ARITH_T_MAX = 2^29: the largest range-table total (R6, R136). -/
def arithTMax : Nat := 2 ^ 29

/-- TREE_CAP = 10241 node slots in the static tree arena (R6, R28). -/
def treeCap : Nat := 10241

/-- FGK_CAP = 513 node slots in the adaptive tree arena (R6, R31). -/
def fgkCap : Nat := 513

/-- RANK_MAX = 512: the rank of the adaptive tree's first node (R6, R251). -/
def rankMax : Nat := 512

/-- The symbol number of the synthetic end-of-stream symbol (R29). -/
def eosSym : Nat := 256

/-- `PREV = 256` means NONE (R25). -/
def prevNone : Nat := 256

/-- The longest Shannon codeword: counts are at least 1 and sums below 2^40 (R176). -/
def shannonLenMax : Nat := 40

/-- FREE VALUE (log entry 5).  What a 30-bit `cum_lo`/`cum_hi` field holds after `RANGES` wrote it a
number of more than 30 bits, just before it raises RANGE_TOTAL: R29 gives the width, R134 the write,
R14 no result.  The argument is the state's counter `fresh`. -/
opaque freeCum : Nat → BitVec 30

/-- FREE VALUE (log entry 6).  What the 9-bit `NCTX` holds after `ReadContextHeader` wrote it a field of
more than 9 bits, just before it raises MALFORMED_CONTEXT (R25, R241). -/
opaque freeNctx : Nat → BitVec 9

/-- FREE VALUE (log entry 7).  What the 40-bit `NSYM` holds after its increment from 2^40 - 1, which only
the adaptive commands can reach (R25, R260: no count limit). -/
opaque freeNsym : Nat → BitVec 40

/-- FREE VALUE (log entry 8).  What the host reads from a field other than `STATUS` and `CMD` while
`STATUS.BUSY = 1` (R393: an unspecified value); the arguments are the counter `fresh`, the field and a width. -/
opaque freeReadBack : Nat → Field → (width : Nat) → BitVec width

/-- FREE VALUE (log entry 8).  The bit string of a codeword, read while `STATUS.BUSY = 1` (R393). -/
opaque freeReadBits : Nat → Field → Bits

end Sys2Proof.Config
end

