-- ==== Sys2Proof/Machine/State.lean ====
section
/-! DEFINITION. The state of the LCE (10_state.md), as plain data, the state after hardware reset (R35),
and the reasons a step can stop. -/

namespace Sys2Proof.Machine

/-- `STATUS` (R22), a read-only register whose bits 7:3 read as 0: the three bits that are stored.  The
8-bit word is `Status.word` in Flags.lean. -/
structure Status where
  /-- bit 0 -/
  busy : Bool
  /-- bit 1 -/
  done : Bool
  /-- bit 2 -/
  fault : Bool
  deriving DecidableEq, Repr

/-- The values of the sequencer register `PHASE` (R23). -/
inductive Phase where
  | idle
  | scan1
  | build
  | hdrWr
  | enc
  | term
  | hdrRd
  | dec
  | prim
  deriving DecidableEq, Repr

/-- The fault codes 1 to 12 of R341. -/
inductive FaultCode where
  | ioRead
  | ioWrite
  | illegalCmd
  | countOverflow
  | rangeTotal
  | arenaOverflow
  | malformedHeader
  | malformedTruncated
  | malformedPath
  | malformedNoSymbol
  | malformedContext
  | malformedLiteral
  deriving DecidableEq, Repr

/-- One entry of `DIST` (R27): symbol and count. -/
structure DistEntry where
  sym : Byte
  cnt : BitVec 32
  deriving DecidableEq, Repr

/-- One entry of `RANGE` (R29): symbol 0..256 and the half-open interval `[cumLo, cumHi)` over `RT`. -/
structure RangeEntry where
  sym : BitVec 9
  cumLo : BitVec 30
  cumHi : BitVec 30
  deriving DecidableEq, Repr

/-- One slot of `TREE` (R28): `none` is the -1 of R26. -/
structure TreeNode where
  sym : Option Byte
  left : Option Nat
  right : Option Nat
  deriving DecidableEq, Repr

/-- A slot of `TREE` after reset: `(-1, -1, -1)` (R28). -/
def TreeNode.empty : TreeNode := ⟨none, none, none⟩

/-- A code scheme with its tree: `SCHEME`, `TREE`, `NNODES`, `ROOT` (R27, R28).  The engine has one of
these and each context has one (R30).  A `SCHEME` entry is `none` when not present; its `len` field is
the length of the bit string. -/
structure TreeMem where
  scheme : Table (Option Bits)
  tree : Table TreeNode
  nnodes : BitVec 14
  root : Option Nat
  deriving DecidableEq, Repr

/-- The reset value of `SCHEME`, `TREE`, `NNODES`, `ROOT` (R35). -/
def TreeMem.empty : TreeMem := ⟨[], [], 0, none⟩

/-- One entry `CTX[c]` of the context model (R30). -/
structure CtxEntry where
  present : Bool
  freq : Table (BitVec 32)
  model : TreeMem
  deriving DecidableEq, Repr

/-- The reset value of every `CTX[c]` (R35). -/
def CtxEntry.empty : CtxEntry := ⟨false, [], TreeMem.empty⟩

/-- One slot of `FGK` (R31). -/
structure FgkNode where
  weight : BitVec 64
  rank : BitVec 10
  kind : NodeKind
  sym : Byte
  parent : Option Nat
  left : Option Nat
  right : Option Nat
  deriving DecidableEq, Repr

/-- A slot of `FGK` after reset (R31). -/
def FgkNode.empty : FgkNode := ⟨0, 0, .internal, 0, none, none, none⟩

/-- The adaptive tree: `FGK`, `FGK_LEAF`, `FGK_N`, `FGK_ROOT`, `FGK_NYT` (R25, R31). -/
structure FgkMem where
  nodes : Table FgkNode
  leaf : Table (Option Nat)
  n : BitVec 10
  root : Option Nat
  nyt : Option Nat
  deriving DecidableEq, Repr

/-- The reset value of the adaptive tree (R31, R35). -/
def FgkMem.empty : FgkMem := ⟨[], [], 0, none, none⟩

/-- The two streams, the position registers (R24, R60, R61) and what the environment does to them. -/
structure Streams where
  /-- `IN[0 .. IN_LEN-1]` (R60) -/
  input : List Byte
  /-- what the input stream holds after the next rewind, where that differs (R390); `none` for a stream
  that keeps its promise -/
  again : Option (List Byte)
  /-- `IN_POS` (R24) -/
  inPos : BitVec 64
  /-- `IN_BASE` (R24) -/
  inBase : BitVec 64
  /-- `OUT[0 .. OUT_LEN-1]` (R61), the last byte first -/
  outRev : List Byte
  /-- `OUT_LEN` (R24) -/
  outLen : BitVec 64
  /-- the oracle of R68 for the input stream: the ordinals, from 1 in each command, that fail -/
  failIn : List Nat
  /-- the oracle of R68 for the output stream -/
  failOut : List Nat
  /-- how many accesses to the input stream the current (or last) command has made -/
  inAcc : Nat
  /-- how many accesses to the output stream the current (or last) command has made -/
  outAcc : Nat
  deriving DecidableEq, Repr

/-- No streams attached yet, no access fails: the state before the host's first act (log entry 2). -/
def Streams.empty : Streams := ⟨[], none, 0, 0, [], 0, [], [], 0, 0⟩

/-- The working registers of R25 that are not part of `TreeMem` or `FgkMem`. -/
structure Working where
  /-- `TOTAL` -/
  total : BitVec 40
  /-- `NSYM` -/
  nsym : BitVec 40
  /-- `NDIST` -/
  ndist : BitVec 9
  /-- `NRANGE` -/
  nrange : BitVec 9
  /-- `RT` -/
  rt : BitVec 30
  /-- `CUR` -/
  cur : Option Nat
  /-- `PREV`, 256 = NONE -/
  prev : BitVec 9
  /-- `NCTX` -/
  nctx : BitVec 9
  /-- `OBITS` -/
  obits : BitVec 8
  /-- `OCNT` -/
  ocnt : BitVec 4
  /-- `IBITS` -/
  ibits : BitVec 8
  /-- `ICNT` -/
  icnt : BitVec 4
  /-- `LOW` -/
  low : BitVec 32
  /-- `HIGH` -/
  high : BitVec 32
  /-- `PEND` -/
  pend : BitVec 64
  /-- `VAL` -/
  val : BitVec 31
  deriving DecidableEq, Repr

/-- The reset values of the working registers (R25, R35): 0, but `CUR` -1 and `PREV` 256. -/
def Working.empty : Working := ⟨0, 0, 0, 0, 0, none, 256, 0, 0, 0, 0, 0, 0, 0, 0, 0⟩

/-- The state of the LCE (10_state.md) and of its surroundings. -/
structure State where
  /-- `STATUS` (R22) -/
  status : Status
  /-- `FAULTCODE` (R22): `none` is 0 -/
  faultCode : Option FaultCode
  /-- `PHASE` (R23) -/
  phase : Phase
  /-- the streams and the position registers (R24, R60, R61, R68) -/
  io : Streams
  /-- the working registers (R25) -/
  w : Working
  /-- `FREQ` (R27) -/
  freq : Table (BitVec 32)
  /-- `DIST` (R27) -/
  dist : Table DistEntry
  /-- `RANGE` (R29) -/
  range : Table RangeEntry
  /-- `SCHEME`, `TREE`, `NNODES`, `ROOT` (R27, R28) -/
  main : TreeMem
  /-- `CTX` (R30) -/
  ctx : Table CtxEntry
  /-- `FGK`, `FGK_LEAF`, `FGK_N`, `FGK_ROOT`, `FGK_NYT` (R31) -/
  fgk : FgkMem
  /-- the acts of the host still to come (R362, R384); the model's own field (log entry 1) -/
  host : List HostAct
  /-- how many free values have been drawn; the model's own field (log entry 4) -/
  fresh : Nat
  deriving DecidableEq, Repr

/-- The machine right after hardware reset (R35, R380), no stream attached and no act of the host
waiting (log entry 2). -/
def State.reset : State where
  status := ⟨false, false, false⟩
  faultCode := none
  phase := .idle
  io := Streams.empty
  w := Working.empty
  freq := []
  dist := []
  range := []
  main := TreeMem.empty
  ctx := []
  fgk := FgkMem.empty
  host := []
  fresh := 0

/-- Why the machine stops for good. -/
inductive Fault where
  /-- A loop of the pseudocode has no next move or no end: `TREE.TRUNC`, `TREE.DERIVE` on a `TREE` whose
  links run in a circle, the Shannon length of a count 0, an adaptive-tree walk along broken links.
  Raised by the loops of Tree.lean, Builders.lean, Fgk.lean, Static.lean, Context.lean and Arith.lean
  when their bound is used up.  No run reaches it: the engine alone writes these memories (R25, R400).
  Safe (log entry 9). -/
  | stuck
  deriving DecidableEq, Repr

/-- Why the machine gives no meaning to a step. -/
inductive Refusal where
  /-- An instruction that has no meaning yet, by its mnemonic; no arm of `exec` answers it.  Safe. -/
  | notModelled (mnemonic : String)
  /-- `CMD` written while `STATUS.BUSY = 1` (R392, V1: a model makes it impossible).  Raised by every
  command and by an illegal code.  Safe. -/
  | cmdWhileBusy
  /-- A stream attached or positioned while `STATUS.BUSY = 1` (R391, V3: a model refuses it).  Raised by
  the host's acts.  Safe. -/
  | hostActWhileBusy
  /-- A host act that is not well formed: a stream longer than 2^64 - 1 bytes (R24: outside the model) or
  a cursor outside its stream (R384).  Raised by the host's acts.  Safe. -/
  | illFormedHostAct
  deriving DecidableEq, Repr

/-- The three outcomes of a step of this machine. -/
abbrev Out := Host.Outcome State Fault Refusal

end Sys2Proof.Machine
end

