-- ==== Sys2Proof/Machine/Flags.lean ====
section
/-! DEFINITION. `STATUS` (10_state.md R22), the only flags of the LCE: its bits, its word, and what sets and
clears them (60_exceptions.md R350, R362). -/

namespace Sys2Proof.Machine

/-- `STATUS` as the host reads it: bit 0 BUSY, bit 1 DONE, bit 2 FAULT, bits 7:3 zero (R22). -/
def Status.word (st : Status) : BitVec 8 :=
  BitVec.ofNat 8 ((if st.busy then 1 else 0) + (if st.done then 2 else 0) + (if st.fault then 4 else 0))

/-- A command is accepted: `BUSY <- 1`, `DONE <- 0` (R362). -/
def Status.accepted (st : Status) : Status := { st with busy := true, done := false }

/-- A command ends without a fault: `BUSY <- 0`, `DONE <- 1` (R362). -/
def Status.ended (st : Status) : Status := { st with busy := false, done := true }

/-- `DONE <- 0`: what an illegal code does before it faults (R362). -/
def Status.notDone (st : Status) : Status := { st with done := false }

/-- `raise`: `FAULT <- 1`, `BUSY <- 0` (R350). -/
def Status.faulted (st : Status) : Status := { st with busy := false, fault := true }

/-- `FAULTCODE`'s number (R341). -/
def FaultCode.number : FaultCode → Nat
  | .ioRead => 1
  | .ioWrite => 2
  | .illegalCmd => 3
  | .countOverflow => 4
  | .rangeTotal => 5
  | .arenaOverflow => 6
  | .malformedHeader => 7
  | .malformedTruncated => 8
  | .malformedPath => 9
  | .malformedNoSymbol => 10
  | .malformedContext => 11
  | .malformedLiteral => 12

/-- `FAULTCODE` as the host reads it: 0 when there has been no fault (R22, R341). -/
def faultCodeWord : Option FaultCode → BitVec 8
  | none => 0
  | some c => BitVec.ofNat 8 c.number

/-- `PHASE` as the host reads it (R23). -/
def Phase.word : Phase → BitVec 8
  | .idle => 0
  | .scan1 => 1
  | .build => 2
  | .hdrWr => 3
  | .enc => 4
  | .term => 5
  | .hdrRd => 6
  | .dec => 7
  | .prim => 8

end Sys2Proof.Machine
end

