-- ==== Sys2Proof/Machine/Operands.lean ====
section
/-! DEFINITION. How the engine reaches its memories: by symbol value, by position or by node slot
(30_encoding.md R98; 10_state.md R32).  Every memory is a sparse table; its reads and writes are the two
operations `Table.get` and `Table.set`, and every use of them is one of the accessors below. -/

namespace Sys2Proof.Machine

/-- Entry `k` of a table whose unlisted entries read as `d`. -/
def Table.get {α : Type} (d : α) : Table α → Nat → α
  | [], _ => d
  | (j, v) :: t, k => if j = k then v else Table.get d t k

/-- Put the pair `(k, v)` at its place. -/
def Table.insert {α : Type} : Table α → Nat → α → Table α
  | [], k, v => [(k, v)]
  | (j, u) :: t, k, v =>
    if k < j then (k, v) :: (j, u) :: t
    else if k = j then (k, v) :: t
    else (j, u) :: Table.insert t k v

/-- Write entry `k`: writing what an unlisted entry reads as takes the entry out. -/
def Table.set {α : Type} [DecidableEq α] (d : α) (t : Table α) (k : Nat) (v : α) : Table α :=
  if v = d then t.filter (fun e => decide (e.1 ≠ k)) else Table.insert t k v

/-- Write the entries of a list at positions `k`, `k + 1`, and so on. -/
def Table.setList {α : Type} [DecidableEq α] (d : α) : Table α → Nat → List α → Table α
  | t, _, [] => t
  | t, k, v :: vs => Table.setList d (Table.set d t k v) (k + 1) vs

/-- The canonical form: indices strictly rising and below `size`, no entry equal to `d`. -/
def Table.wf {α : Type} [DecidableEq α] (d : α) (size : Nat) (t : Table α) : Bool :=
  decide (t.Pairwise (fun a b => a.1 < b.1)) && t.all (fun e => decide (e.1 < size) && decide (e.2 ≠ d))

/-- `FREQ[s]` of a frequency table (R27). -/
def freqGet (f : Table (BitVec 32)) (s : Nat) : BitVec 32 := Table.get 0 f s

/-- `FREQ[s] <- v` (R27). -/
def freqSet (f : Table (BitVec 32)) (s : Nat) (v : BitVec 32) : Table (BitVec 32) := Table.set 0 f s v

/-- `FREQ[s] <- FREQ[s] + 1` (R130). -/
def freqBump (f : Table (BitVec 32)) (s : Nat) : Table (BitVec 32) := freqSet f s (freqGet f s + 1)

/-- The sum of the 256 entries of a frequency table (R25, R214). -/
def freqSum (f : Table (BitVec 32)) : Nat := ((List.range 256).map (fun s => (freqGet f s).toNat)).sum

/-- A `DIST` entry after reset (R35). -/
def DistEntry.empty : DistEntry := ⟨0, 0⟩

/-- `DIST[i]` (R27). -/
def distGet (t : Table DistEntry) (i : Nat) : DistEntry := Table.get DistEntry.empty t i

/-- `DIST[i] <- e` (R27). -/
def distSet (t : Table DistEntry) (i : Nat) (e : DistEntry) : Table DistEntry :=
  Table.set DistEntry.empty t i e

/-- The valid entries `DIST[0 .. NDIST-1]` in order (R27). -/
def State.distList (s : State) : List DistEntry :=
  (List.range s.w.ndist.toNat).map (fun i => distGet s.dist i)

/-- A `RANGE` entry after reset (R29). -/
def RangeEntry.empty : RangeEntry := ⟨0, 0, 0⟩

/-- `RANGE[i]` (R29). -/
def rangeGet (t : Table RangeEntry) (i : Nat) : RangeEntry := Table.get RangeEntry.empty t i

/-- `RANGE[i] <- e` (R29). -/
def rangeSet (t : Table RangeEntry) (i : Nat) (e : RangeEntry) : Table RangeEntry :=
  Table.set RangeEntry.empty t i e

/-- The valid entries `RANGE[0 .. NRANGE-1]` in order (R29). -/
def State.rangeList (s : State) : List RangeEntry :=
  (List.range s.w.nrange.toNat).map (fun i => rangeGet s.range i)

/-- `SCHEME[s]`: the codeword of a symbol, `none` when not present (R27). -/
def schemeGet (t : Table (Option Bits)) (s : Nat) : Option Bits := Table.get none t s

/-- `SCHEME[s] <- e` (R27). -/
def schemeSet (t : Table (Option Bits)) (s : Nat) (e : Option Bits) : Table (Option Bits) :=
  Table.set none t s e

/-- `TREE[n]` (R28). -/
def treeGet (t : Table TreeNode) (n : Nat) : TreeNode := Table.get TreeNode.empty t n

/-- `TREE[n] <- e` (R28). -/
def treeSet (t : Table TreeNode) (n : Nat) (e : TreeNode) : Table TreeNode :=
  Table.set TreeNode.empty t n e

/-- `CTX[c]` (R30). -/
def ctxGet (t : Table CtxEntry) (c : Nat) : CtxEntry := Table.get CtxEntry.empty t c

/-- `CTX[c] <- e` (R30). -/
def ctxSet (t : Table CtxEntry) (c : Nat) (e : CtxEntry) : Table CtxEntry :=
  Table.set CtxEntry.empty t c e

/-- `FGK[n]` (R31). -/
def fgkGet (t : Table FgkNode) (n : Nat) : FgkNode := Table.get FgkNode.empty t n

/-- `FGK[n] <- e` (R31). -/
def fgkSet (t : Table FgkNode) (n : Nat) (e : FgkNode) : Table FgkNode :=
  Table.set FgkNode.empty t n e

/-- `FGK_LEAF[s]` (R31). -/
def leafGet (t : Table (Option Nat)) (s : Nat) : Option Nat := Table.get none t s

/-- `FGK_LEAF[s] <- e` (R31). -/
def leafSet (t : Table (Option Nat)) (s : Nat) (e : Option Nat) : Table (Option Nat) :=
  Table.set none t s e

/-- An index as the host reads it in a field of `width` bits: -1 is the all-ones pattern (R26). -/
def indexWord (width : Nat) : Option Nat → Nat
  | none => 2 ^ width - 1
  | some i => i

/-- The bits of a byte, bit 7 first (R8, R70, R105). -/
def byteBits (b : Byte) : Bits := [7, 6, 5, 4, 3, 2, 1, 0].map (fun i => b.getLsbD i)

/-- The `len`-bit binary numeral of `v`, most significant bit first (R174). -/
def numeral : Nat → Nat → Bits
  | 0, _ => []
  | len + 1, v => (v / 2 ^ len % 2 == 1) :: numeral len v

end Sys2Proof.Machine
end

