-- ==== Sys2Proof/Machine/Ops.lean ====
section
/-! DEFINITION. The operations every command is made of: the updates of the state, a running command as a
state transformer that can stop, the stream primitives (20_memory.md R62 to R67), the bit packer and the bit
parser (R70 to R75), taking a fault (60_exceptions.md R350) and accepting a command (R362). -/

namespace Sys2Proof.Machine

/-! ### Updates of the state -/

def State.setStatus (s : State) (x : Status) : State := { s with status := x }
def State.setFaultCode (s : State) (x : Option FaultCode) : State := { s with faultCode := x }
def State.setPhase (s : State) (x : Phase) : State := { s with phase := x }
def State.setIo (s : State) (x : Streams) : State := { s with io := x }
def State.setW (s : State) (x : Working) : State := { s with w := x }
def State.setFreq (s : State) (x : Table (BitVec 32)) : State := { s with freq := x }
def State.setDist (s : State) (x : Table DistEntry) : State := { s with dist := x }
def State.setRange (s : State) (x : Table RangeEntry) : State := { s with range := x }
def State.setMain (s : State) (x : TreeMem) : State := { s with main := x }
def State.setCtx (s : State) (x : Table CtxEntry) : State := { s with ctx := x }
def State.setFgk (s : State) (x : FgkMem) : State := { s with fgk := x }
def State.setHost (s : State) (x : List HostAct) : State := { s with host := x }
def State.setFresh (s : State) (x : Nat) : State := { s with fresh := x }

/-! ### A running command -/

/-- Why a running command stops before its end: `raise Fault(code)` (R12), or a loop without a next move
or an end (log entry 9). -/
inductive Stop where
  | raise (c : FaultCode)
  | stuck
  deriving DecidableEq, Repr

/-- A piece of a command's pseudocode over a part `σ` of the state: it ends with a value, or stops; either
way what it wrote before stays written (R351). -/
abbrev Run (σ : Type) := EStateM Stop σ

/-- A piece of a command's pseudocode over the whole state. -/
abbrev Eng := Run State

/-- The value of an expression over the state. -/
def Run.read {σ α : Type} (f : σ → α) : Run σ α := fun s => .ok (f s) s

/-- An assignment. -/
def Run.update {σ : Type} (f : σ → σ) : Run σ Unit := fun s => .ok () (f s)

/-- `raise Fault(code)` (R12, R350). -/
def Run.raise {σ α : Type} (c : FaultCode) : Run σ α := fun s => .error (.raise c) s

/-- `require cond else Fault(code)` (R12). -/
def Run.require {σ : Type} (b : Bool) (c : FaultCode) : Run σ Unit :=
  fun s => if b then .ok () s else .error (.raise c) s

/-- A loop that has no next move, or has used up the bound no run reaches (log entry 9). -/
def Run.stuck {σ α : Type} : Run σ α := fun s => .error .stuck s

/-- `for x in xs`, in the list's order (R13). -/
def Run.each {σ α : Type} : List α → (α → Run σ Unit) → Run σ Unit
  | [], _ => pure ()
  | x :: xs, f => do
    f x
    Run.each xs f

/-- `repeat n times`. -/
def Run.times {σ : Type} : Nat → Run σ Unit → Run σ Unit
  | 0, _ => pure ()
  | n + 1, m => do
    m
    Run.times n m

/-- `PHASE <- p` (R23). -/
def setPhase (p : Phase) : Eng Unit := Run.update (fun s => s.setPhase p)

/-- An assignment to working registers. -/
def setW (f : Working → Working) : Eng Unit := Run.update (fun s => s.setW (f s.w))

/-- A step that works on `SCHEME`, `TREE`, `NNODES`, `ROOT` alone. -/
def onMain {α : Type} (m : Run TreeMem α) : Eng α := fun s =>
  match m s.main with
  | .ok a t => .ok a (s.setMain t)
  | .error e t => .error e (s.setMain t)

/-- A step that works on `CTX[c].SCHEME`, `CTX[c].TREE`, `CTX[c].NNODES`, `CTX[c].ROOT` alone (R232). -/
def onCtxModel {α : Type} (c : Nat) (m : Run TreeMem α) : Eng α := fun s =>
  match m (ctxGet s.ctx c).model with
  | .ok a t => .ok a (s.setCtx (ctxSet s.ctx c { ctxGet s.ctx c with model := t }))
  | .error e t => .error e (s.setCtx (ctxSet s.ctx c { ctxGet s.ctx c with model := t }))

/-- A step that works on the adaptive tree alone. -/
def onFgk {α : Type} (m : Run FgkMem α) : Eng α := fun s =>
  match m s.fgk with
  | .ok a t => .ok a (s.setFgk t)
  | .error e t => .error e (s.setFgk t)

/-! ### The streams -/

/-- `OUT` in order, first byte first (R61). -/
def Streams.out (x : Streams) : List Byte := x.outRev.reverse

/-- The input bytes from the cursor on (R60). -/
def Streams.rest (x : Streams) : List Byte := x.input.drop x.inPos.toNat

/-- One more access to the input stream in this command: the ordinal the oracle is asked about (R68). -/
def Streams.touchIn (x : Streams) : Streams := { x with inAcc := x.inAcc + 1 }

/-- One more access to the output stream in this command (R68). -/
def Streams.touchOut (x : Streams) : Streams := { x with outAcc := x.outAcc + 1 }

/-- The oracle's answer for the access just counted (R68): it fails. -/
def Streams.inFails (x : Streams) : Bool := x.failIn.contains x.inAcc

/-- The oracle's answer for the output access just counted (R68): it fails. -/
def Streams.outFails (x : Streams) : Bool := x.failOut.contains x.outAcc

/-- The access to the input stream as R62, R63 and R64 begin: ask the oracle, and raise IO_READ where it
fails. -/
def touchInput : Eng Unit := do
  Run.update (fun s => s.setIo s.io.touchIn)
  let fails ← Run.read (fun s => s.io.inFails)
  Run.require (!fails) .ioRead

/-- `InRead()` (R62): `none` is EOS. -/
def inRead : Eng (Option Byte) := do
  touchInput
  let r ← Run.read (fun s => s.io.input[s.io.inPos.toNat]?)
  match r with
  | none => pure none
  | some b => do
    Run.update (fun s => s.setIo { s.io with inPos := s.io.inPos + 1 })
    pure (some b)

/-- `InAtEnd()` (R63). -/
def inAtEnd : Eng Bool := do
  touchInput
  Run.read (fun s => (s.io.input[s.io.inPos.toNat]?).isNone)

/-- `InRewind()` (R64): `IN_POS <- IN_BASE`, `ICNT <- 0`; a stream that breaks the duty of R390 holds
other bytes from here on.  DESIGN CHOICE (log entry 22): where the rewind fails, `IN_POS` and `ICNT` keep
what they hold, as at the other accesses; R64 does not say whether its writes come before the failure. -/
def inRewind : Eng Unit := do
  touchInput
  Run.update (fun s =>
    s.setIo { s.io with
      inPos := s.io.inBase
      input := s.io.again.getD s.io.input
      again := none })
  setW (fun w => { w with icnt := 0 })

/-- `OutWrite(v)` (R65). -/
def outWrite (v : Byte) : Eng Unit := do
  Run.update (fun s => s.setIo s.io.touchOut)
  let fails ← Run.read (fun s => s.io.outFails)
  Run.require (!fails) .ioWrite
  Run.update (fun s => s.setIo { s.io with outRev := v :: s.io.outRev, outLen := s.io.outLen + 1 })

/-- `MemRead(-, n)` (R66): little-endian, MALFORMED_HEADER where the input ends inside the field. -/
def memRead : Nat → Eng Nat
  | 0 => pure 0
  | n + 1 => do
    let r ← inRead
    match r with
    | none => Run.raise .malformedHeader
    | some b => do
      let v ← memRead n
      pure (b.toNat + 256 * v)

/-- `MemWrite(-, n, v)` (R67): the least significant byte first. -/
def memWrite : Nat → Nat → Eng Unit
  | 0, _ => pure ()
  | n + 1, v => do
    outWrite (BitVec.ofNat 8 (v % 256))
    memWrite n (v / 256)

/-- How many more `InRead()` calls can come before the stream is at its end, and the one that finds it
there. -/
def State.readBound (s : State) : Nat := s.io.rest.length + 1

/-! ### The bit packer -/

/-- `OutWrite(OBITS)`, `OBITS <- 0`, `OCNT <- 0` (R70, R72). -/
def flushByte : Eng Unit := do
  let v ← Run.read (fun s => s.w.obits)
  outWrite v
  setW (fun w => { w with obits := 0, ocnt := 0 })

/-- `PutBit(b)` (R70): the first bit put into a byte is its bit 7. -/
def putBit (b : Bool) : Eng Unit := do
  setW (fun w => { w with
    obits := BitVec.ofNat 8 (w.obits.toNat + (if b then 2 ^ (7 - w.ocnt.toNat) else 0))
    ocnt := w.ocnt + 1 })
  let full ← Run.read (fun s => s.w.ocnt == 8)
  if full then flushByte else pure ()

/-- `PutBits(c)` (R71). -/
def putBits (c : Bits) : Eng Unit := Run.each c putBit

/-- `PadAndFlush()` (R72). -/
def padAndFlush : Eng Unit := do
  let n ← Run.read (fun s => s.w.ocnt)
  if n == 0 then pure () else flushByte

/-! ### The bit parser -/

/-- Take the highest bit of `IBITS` not yet consumed (R73). -/
def takeBit : Eng Bool := do
  let b ← Run.read (fun s => s.w.ibits.getLsbD (s.w.icnt.toNat - 1))
  setW (fun w => { w with icnt := w.icnt - 1 })
  pure b

/-- `GetBitOpt()` (R75): `none` where the input has ended. -/
def getBitOpt : Eng (Option Bool) := do
  let n ← Run.read (fun s => s.w.icnt)
  if n == 0 then do
    let r ← inRead
    match r with
    | none => pure none
    | some v => do
      setW (fun w => { w with ibits := v, icnt := 8 })
      let b ← takeBit
      pure (some b)
  else do
    let b ← takeBit
    pure (some b)

/-- `GetBit()` (R73): MALFORMED_TRUNCATED where the input has ended. -/
def getBit : Eng Bool := do
  let r ← getBitOpt
  match r with
  | none => Run.raise .malformedTruncated
  | some b => pure b

/-- `GetBitOrZero()` (R74): 0 where the input has ended, `ICNT` left 0. -/
def getBitOrZero : Eng Bool := do
  let r ← getBitOpt
  pure (r.getD false)

/-- How many bits the parser can still give before the input ends. -/
def State.bitsLeft (s : State) : Nat := 8 * s.io.rest.length + s.w.icnt.toNat

/-! ### Counters -/

/-- `NSYM <- NSYM + 1` (R25); from 2^40 - 1 on the 40-bit register holds a free value (log entry 7). -/
def bumpNsym : Eng Unit := Run.update (fun s =>
  if s.w.nsym.toNat + 1 < 2 ^ 40 then s.setW { s.w with nsym := s.w.nsym + 1 }
  else (s.setW { s.w with nsym := Config.freeNsym s.fresh }).setFresh (s.fresh + 1))

/-! ### Faults, acceptance, completion -/

/-- Taking a fault (R350): `FAULTCODE <- code`, `FAULT <- 1`, `BUSY <- 0`; nothing else changes, `PHASE`
stays where the fault was raised. -/
def State.takeFault (s : State) (c : FaultCode) : State :=
  (s.setFaultCode (some c)).setStatus s.status.faulted

/-- The acceptance of `NOP` (R360, R362): `BUSY <- 1`, `DONE <- 0`. -/
def State.acceptPlain (s : State) : State := s.setStatus s.status.accepted

/-- The acceptance of a primitive or stream command (R362): also `IN_BASE <- IN_POS`; the oracle's
ordinals start again (R68). -/
def State.accept (s : State) : State :=
  (s.setStatus s.status.accepted).setIo { s.io with inBase := s.io.inPos, inAcc := 0, outAcc := 0 }

/-- The end of a command that did not fault (R362): `PHASE <- IDLE`, `BUSY <- 0`, `DONE <- 1`. -/
def State.complete (s : State) : State := (s.setPhase .idle).setStatus s.status.ended

/-- What an accepted command's run leaves behind: completion, or the fault it raised, taken. -/
def finish : EStateM.Result Stop State Unit → Out
  | .ok _ s => .next s.complete
  | .error (.raise c) s => .next (s.takeFault c)
  | .error .stuck _ => .fault .stuck

/-- Command acceptance for a legal code other than `RESET` (R362): refused while busy, ignored while
faulted, else accepted by `accept` and run. -/
def runCommand (accept : State → State) (body : Eng Unit) (s : State) : Out :=
  if s.status.busy then .refused .cmdWhileBusy
  else if s.status.fault then .next s
  else finish (body (accept s))

/-- A primitive command (R362): phase `PRIM` (R23) around its block. -/
def runPrimitive (block : Eng Unit) (s : State) : Out :=
  runCommand State.accept (do setPhase .prim; block; setPhase .idle) s

/-- The initialisation every stream command starts with (70_reset_and_hazards.md R383). -/
def commandInit : Eng Unit := setW (fun w => { w with
  obits := 0, ocnt := 0, ibits := 0, icnt := 0, nsym := 0, prev := 256, cur := none, pend := 0 })

/-- A stream command: the initialisation of R383, then its block, which names its own phases. -/
def runStream (block : Eng Unit) (s : State) : Out :=
  runCommand State.accept (do commandInit; block; setPhase .idle) s

/-- An illegal code written to `CMD` (R94, R346, R362): refused while busy, ignored while faulted, else
`DONE <- 0` and ILLEGAL_CMD. -/
def illegalCode (s : State) : Out :=
  if s.status.busy then .refused .cmdWhileBusy
  else if s.status.fault then .next s
  else .next ((s.setStatus s.status.notDone).takeFault .illegalCmd)

end Sys2Proof.Machine
end

