-- ==== Sys2Proof/Machine/Stats.lean ====
section
/-! DEFINITION. Frequency and distribution statistics (40_statistics.md): `COUNT`, `DIST`, `RANGES`. -/

namespace Sys2Proof.Machine

/-- The loop of `COUNT` (R130, R131). -/
def countLoop : Nat → Eng Unit
  | 0 => Run.stuck
  | n + 1 => do
    let r ← inRead
    match r with
    | none => pure ()
    | some b => do
      let total ← Run.read (fun s => s.w.total.toNat)
      Run.require (decide (total < Config.inLenMax)) .countOverflow
      Run.update (fun s => s.setFreq (freqBump s.freq b.toNat))
      setW (fun w => { w with total := w.total + 1 })
      countLoop n

/-- The block of `COUNT` (R130). -/
def countBlock : Eng Unit := do
  Run.update (fun s => s.setFreq [])
  setW (fun w => { w with total := 0 })
  let bound ← Run.read State.readBound
  countLoop bound

/-- `COUNT` (R130). -/
def execCount (s : State) : Out := runPrimitive countBlock s

/-- The entries `(s, FREQ[s])` with `FREQ[s] > 0`, ascending (R132). -/
def presentEntries (f : Table (BitVec 32)) : List DistEntry :=
  (List.range 256).filterMap (fun s =>
    if freqGet f s = 0 then none else some ⟨BitVec.ofNat 8 s, freqGet f s⟩)

/-- Put an entry behind every entry whose count is not smaller: one step of a stable descending sort. -/
def insertDesc (e : DistEntry) : List DistEntry → List DistEntry
  | [] => [e]
  | x :: xs => if x.cnt.toNat < e.cnt.toNat then e :: x :: xs else x :: insertDesc e xs

/-- Stable sort by count, descending (R13, R132). -/
def sortDesc (l : List DistEntry) : List DistEntry := l.foldl (fun acc e => insertDesc e acc) []

/-- The distribution of a frequency table (R132). -/
def distribution (f : Table (BitVec 32)) : List DistEntry := sortDesc (presentEntries f)

/-- The block of `DIST` (R132): entries at and above `NDIST` keep what they hold (V7). -/
def distBlock : Eng Unit := Run.update (fun s =>
  (s.setDist (Table.setList DistEntry.empty s.dist 0 (distribution s.freq))).setW
    { s.w with ndist := BitVec.ofNat 9 (distribution s.freq).length })

/-- `DIST` (R132). -/
def execDist (s : State) : Out := runPrimitive distBlock s

/-- A number written to a 30-bit field of `RANGE`; one that needs more bits, which only a run about to
raise RANGE_TOTAL writes, leaves a free value (log entry 5). -/
def cumField (fresh v : Nat) : BitVec 30 :=
  if v < 2 ^ 30 then BitVec.ofNat 30 v else Config.freeCum fresh

/-- `RANGE[i] <- (sym, lo, hi)` (R134). -/
def writeRange (i : Nat) (sym : BitVec 9) (lo hi : Nat) : Eng Unit := Run.update (fun s =>
  (s.setRange (rangeSet s.range i
    ⟨sym, cumField s.fresh lo, cumField (s.fresh + 1) hi⟩)).setFresh
      (if hi < 2 ^ 30 then s.fresh else s.fresh + 2))

/-- The loop of `RANGES` (R134): it gives back `cum`. -/
def rangeLoop : List DistEntry → Nat → Nat → Eng Nat
  | [], _, cum => pure cum
  | e :: es, i, cum => do
    writeRange i (e.sym.setWidth 9) cum (cum + e.cnt.toNat)
    rangeLoop es (i + 1) (cum + e.cnt.toNat)

/-- The block of `RANGES` (R134, R135, R136). -/
def rangesBlock : Eng Unit := do
  distBlock
  let dl ← Run.read State.distList
  match dl.getLast? with
  | none => setW (fun w => { w with nrange := 0, rt := 0 })
  | some last => do
    let cum ← rangeLoop dl 0 0
    writeRange dl.length (BitVec.ofNat 9 Config.eosSym) cum (cum + last.cnt.toNat)
    Run.require (decide (cum + last.cnt.toNat ≤ Config.arithTMax)) .rangeTotal
    setW (fun w => { w with
      nrange := BitVec.ofNat 9 (dl.length + 1)
      rt := BitVec.ofNat 30 (cum + last.cnt.toNat) })

/-- `RANGES` (R134). -/
def execRanges (s : State) : Out := runPrimitive rangesBlock s

end Sys2Proof.Machine
end

