-- ==== Sys2Proof/Machine/Tree.lean ====
section
/-! DEFINITION. The code-tree engine (41_code_tree.md): `TREE.FROMSCHEME`, `TREE.TRUNC`, `TREE.DERIVE`, and
`WalkSymbol`.  The three blocks work on one `SCHEME`, `TREE`, `NNODES`, `ROOT` and nothing else. -/

namespace Sys2Proof.Machine

/-- `TREE[n]` of a code model. -/
def TreeMem.node (t : TreeMem) (n : Nat) : TreeNode := treeGet t.tree n

/-- `TREE[n] <- e` of a code model. -/
def TreeMem.setNode (t : TreeMem) (n : Nat) (e : TreeNode) : TreeMem :=
  { t with tree := treeSet t.tree n e }

/-- `SCHEME[s]` of a code model. -/
def TreeMem.code (t : TreeMem) (s : Nat) : Option Bits := schemeGet t.scheme s

/-- `SCHEME[s] <- (present, len(c), c)` of a code model. -/
def TreeMem.setCode (t : TreeMem) (s : Nat) (c : Bits) : TreeMem :=
  { t with scheme := schemeSet t.scheme s (some c) }

/-- `for s in 0..255: SCHEME[s] <- (not present, 0, "")`. -/
def TreeMem.clearScheme (t : TreeMem) : TreeMem := { t with scheme := [] }

/-- The child of a node that a bit selects: 0 the left, 1 the right (R9). -/
def TreeNode.child (nd : TreeNode) (b : Bool) : Option Nat := if b then nd.right else nd.left

/-- A node with its child on the side of a bit replaced. -/
def TreeNode.setChild (nd : TreeNode) (b : Bool) (c : Option Nat) : TreeNode :=
  if b then { nd with right := c } else { nd with left := c }

/-- The inner loop of `TREE.FROMSCHEME` (R150): walk or make the path of a codeword from slot `cur`; it
gives back the slot the path ends on. -/
def growPath : Bits → Nat → Run TreeMem Nat
  | [], cur => pure cur
  | b :: bs, cur => do
    let c ← Run.read (fun t => (t.node cur).child b)
    match c with
    | some child => growPath bs child
    | none => do
      let n ← Run.read (fun t => t.nnodes.toNat)
      Run.require (decide (n < Config.treeCap)) .arenaOverflow
      Run.update (fun t => { t.setNode n TreeNode.empty with nnodes := t.nnodes + 1 })
      Run.update (fun t => t.setNode cur ((t.node cur).setChild b (some n)))
      growPath bs n

/-- One symbol of `TREE.FROMSCHEME` (R150): a symbol without a codeword is skipped. -/
def plantSymbol (e : DistEntry) : Run TreeMem Unit := do
  let c ← Run.read (fun t => t.code e.sym.toNat)
  match c with
  | none => pure ()
  | some bits => do
    let cur ← growPath bits 0
    Run.update (fun t => t.setNode cur { t.node cur with sym := some e.sym })

/-- The block of `TREE.FROMSCHEME` (R150, R151). -/
def fromSchemeBlock (dl : List DistEntry) : Run TreeMem Unit := do
  Run.update (fun t => { t.setNode 0 TreeNode.empty with nnodes := 1, root := some 0 })
  Run.each dl plantSymbol

/-- `resolve(i)` of `TREE.TRUNC` (R152); the first argument bounds the depth. -/
def resolve : Nat → Nat → Run TreeMem Nat
  | 0, _ => Run.stuck
  | n + 1, i => do
    let nd ← Run.read (fun t => t.node i)
    match nd.sym, nd.left, nd.right with
    | some _, _, _ => pure i
    | none, some l, none => resolve n l
    | none, none, some r => resolve n r
    | none, none, none => pure i
    | none, some l, some r => do
      let l' ← resolve n l
      Run.update (fun t => t.setNode i { t.node i with left := some l' })
      let r' ← resolve n r
      Run.update (fun t => t.setNode i { t.node i with right := some r' })
      pure i

/-- More than the number of slots: no path of a tree is longer (R153). -/
def depthBound : Nat := Config.treeCap + 1

/-- The block of `TREE.TRUNC` (R152). -/
def truncBlock : Run TreeMem Unit := do
  let root ← Run.read (fun t => t.root)
  match root with
  | none => pure ()
  | some r => do
    let r' ← resolve depthBound r
    Run.update (fun t => { t with root := some r' })

/-- `visit(i, p)` of `TREE.DERIVE` (R154); the first argument bounds the depth. -/
def visit : Nat → Option Nat → Bits → Run TreeMem Unit
  | _, none, _ => pure ()
  | 0, some _, _ => Run.stuck
  | n + 1, some i, p => do
    let nd ← Run.read (fun t => t.node i)
    match nd.sym with
    | some s => Run.update (fun t => t.setCode s.toNat p)
    | none => do
      visit n nd.left (p ++ [false])
      visit n nd.right (p ++ [true])

/-- The block of `TREE.DERIVE` (R154). -/
def deriveBlock : Run TreeMem Unit := do
  Run.update (fun t => t.clearScheme)
  let root ← Run.read (fun t => t.root)
  visit depthBound root []

/-- A code-tree or builder block run on the engine's own memories with the distribution it finds. -/
def withDist (block : List DistEntry → Run TreeMem Unit) : Eng Unit := do
  let dl ← Run.read State.distList
  onMain (block dl)

/-- `TREE.FROMSCHEME` (R150). -/
def execTreeFromScheme (s : State) : Out := runPrimitive (withDist fromSchemeBlock) s

/-- `TREE.TRUNC` (R152). -/
def execTreeTrunc (s : State) : Out := runPrimitive (onMain truncBlock) s

/-- `TREE.DERIVE` (R154). -/
def execTreeDerive (s : State) : Out := runPrimitive (onMain deriveBlock) s

/-- The loop of `WalkSymbol` with `GetBit` as the bit source (R156). -/
def walkLoop (T : Table TreeNode) : Nat → Nat → Eng Byte
  | 0, _ => Run.stuck
  | n + 1, cur =>
    match (treeGet T cur).sym with
    | some s => pure s
    | none => do
      let b ← getBit
      let c := (treeGet T cur).child b
      setW (fun w => { w with cur := c })
      match c with
      | none => Run.raise .malformedPath
      | some next => walkLoop T n next

/-- `WalkSymbol(T, root, GetBit)` (R156): every round of the loop takes a bit, so the bits left bound
it. -/
def walkSymbol (T : Table TreeNode) (root : Option Nat) : Eng Byte :=
  match root with
  | none => Run.raise .malformedPath
  | some r => do
    setW (fun w => { w with cur := some r })
    let bound ← Run.read State.bitsLeft
    walkLoop T (bound + 2) r

end Sys2Proof.Machine
end

