-- ==== Sys2Proof/Machine/Builders.lean ====
section
/-! DEFINITION. The static scheme builders (42_scheme_builders.md): `BLD.SHANNON`, `BLD.FANO`,
`BLD.HUFFMAN`.  Each is a function of the distribution alone (R170, R187) that writes `SCHEME`, `TREE`,
`NNODES`, `ROOT` and nothing else. -/

namespace Sys2Proof.Machine

/-- A builder: the distribution in, `SCHEME`, `TREE`, `NNODES`, `ROOT` out (R170). -/
abbrev Builder := List DistEntry → Run TreeMem Unit

/-- The empty result (R171). -/
def emptyResult : Run TreeMem Unit :=
  Run.update (fun t => { t.clearScheme with nnodes := 0, root := none })

/-- The degenerate result (R172). -/
def degenerateResult (sym : Byte) : Run TreeMem Unit := Run.update (fun t =>
  { ((t.clearScheme.setCode sym.toNat [false]).setNode 0 ⟨none, some 1, none⟩).setNode 1
      ⟨some sym, none, none⟩ with nnodes := 2, root := some 0 })

/-- The sum of the counts of a list of entries: `S` (R170). -/
def cntSum (dl : List DistEntry) : Nat := (dl.map (fun e => e.cnt.toNat)).sum

/-! ### Shannon -/

/-- The length of the raw Shannon codeword (R175): the smallest `L >= 0` with `c * 2^L >= S`.  `none`
where no length up to 40 will do, which takes a count 0. -/
def shannonLen (c S : Nat) : Option Nat :=
  (List.range (Config.shannonLenMax + 1)).find? (fun L => decide (S ≤ c * 2 ^ L))

/-- The value `v` of the raw Shannon codeword of length `L` (R175). -/
def shannonValue (C S L : Nat) : Nat := C * 2 ^ L / S

/-- The loop of `BLD.SHANNON` that writes the raw codewords (R174). -/
def shannonLoop : List DistEntry → Nat → Nat → Run TreeMem Unit
  | [], _, _ => pure ()
  | e :: es, S, C =>
    match shannonLen e.cnt.toNat S with
    | none => Run.stuck
    | some L => do
      Run.update (fun t => t.setCode e.sym.toNat (numeral L (shannonValue C S L)))
      shannonLoop es S (C + e.cnt.toNat)

/-- The block of `BLD.SHANNON` (R174). -/
def shannonBlock : Builder
  | [] => emptyResult
  | [e] => degenerateResult e.sym
  | dl => do
    Run.update (fun t => t.clearScheme)
    shannonLoop dl (cntSum dl) 0
    fromSchemeBlock dl
    truncBlock
    deriveBlock

/-- `BLD.SHANNON` (R174). -/
def execBldShannon (s : State) : Out := runPrimitive (withDist shannonBlock) s

/-! ### Fano -/

/-- `d = abs(2 * A - S)` (R179). -/
def fanoDiff (A S : Nat) : Nat := (2 * (A : Int) - (S : Int)).natAbs

/-- The scan of `FanoSplit` (R179), standing on split point `k` of a segment, `rest` being the entries
after it: move on while there is a further split point and it is strictly better. -/
def fanoScan (S : Nat) : List DistEntry → Nat → Nat → Nat → Nat
  | e :: e' :: rest, k, A, d =>
    if fanoDiff (A + e.cnt.toNat) S < d then
      fanoScan S (e' :: rest) (k + 1) (A + e.cnt.toNat) (fanoDiff (A + e.cnt.toNat) S)
    else k
  | _, k, _, _ => k

/-- `FanoSplit` on a segment of the distribution (R179): the split point, counted from the segment's
first entry. -/
def fanoSplit : List DistEntry → Nat
  | [] => 0
  | e :: es => fanoScan (cntSum (e :: es)) es 0 e.cnt.toNat (fanoDiff e.cnt.toNat (cntSum (e :: es)))

/-- `fano(lo, hi, p)` (R178) on the segment `DIST[lo..hi]`; the first argument bounds the depth by the
segment's length. -/
def fano : Nat → List DistEntry → Bits → Run TreeMem Unit
  | 0, _, _ => Run.stuck
  | _ + 1, [], _ => Run.stuck
  | _ + 1, [e], p => Run.update (fun t => t.setCode e.sym.toNat p)
  | n + 1, seg, p => do
    fano n (seg.take (fanoSplit seg + 1)) (p ++ [false])
    fano n (seg.drop (fanoSplit seg + 1)) (p ++ [true])

/-- The block of `BLD.FANO` (R178). -/
def fanoBlock : Builder
  | [] => emptyResult
  | [e] => degenerateResult e.sym
  | dl => do
    Run.update (fun t => t.clearScheme)
    fano dl.length dl []
    fromSchemeBlock dl

/-- `BLD.FANO` (R178). -/
def execBldFano (s : State) : Out := runPrimitive (withDist fanoBlock) s

/-! ### Huffman -/

/-- A node in the priority structure `Q`: its slot and its weight `W` (R182). -/
structure QNode where
  slot : Nat
  weight : Nat
  deriving DecidableEq, Repr

/-- `PopMin(Q)` (R183), `Q` in insertion order: the node of least weight, the first inserted among equals,
and what is left. -/
def popMin : List QNode → Option (QNode × List QNode)
  | [] => none
  | x :: xs =>
    match popMin xs with
    | none => some (x, [])
    | some (m, rest) => if m.weight < x.weight then some (m, x :: rest) else some (x, xs)

/-- The leaves of the Huffman tree, slots `0 .. NDIST-1` in distribution order (R182). -/
def plantLeaves : List DistEntry → Nat → Run TreeMem Unit
  | [], _ => pure ()
  | e :: es, i => do
    Run.update (fun t => t.setNode i ⟨some e.sym, none, none⟩)
    plantLeaves es (i + 1)

/-- `Q` after the leaves have been inserted (R182). -/
def leafQueue : List DistEntry → Nat → List QNode
  | [], _ => []
  | e :: es, i => ⟨i, e.cnt.toNat⟩ :: leafQueue es (i + 1)

/-- The merge loop (R182, R184): the node popped first becomes the right child; it gives back the one node
left in `Q`.  The first argument bounds the number of rounds by the size of `Q`. -/
def mergeLoop : Nat → List QNode → Run TreeMem Nat
  | 0, _ => Run.stuck
  | k + 1, q =>
    match popMin q with
    | none => Run.stuck
    | some (a, q1) =>
      match popMin q1 with
      | none => pure a.slot
      | some (b, q2) => do
        let n ← Run.read (fun t => t.nnodes.toNat)
        Run.update (fun t => { t with nnodes := t.nnodes + 1 })
        Run.update (fun t => t.setNode n ⟨none, some b.slot, some a.slot⟩)
        mergeLoop k (q2 ++ [⟨n, a.weight + b.weight⟩])

/-- The block of `BLD.HUFFMAN` (R182). -/
def huffmanBlock : Builder
  | [] => emptyResult
  | [e] => degenerateResult e.sym
  | dl => do
    plantLeaves dl 0
    Run.update (fun t => { t with nnodes := BitVec.ofNat 14 dl.length })
    let root ← mergeLoop dl.length (leafQueue dl 0)
    Run.update (fun t => { t with root := some root })
    deriveBlock

/-- `BLD.HUFFMAN` (R182). -/
def execBldHuffman (s : State) : Out := runPrimitive (withDist huffmanBlock) s

end Sys2Proof.Machine
end

