-- ==== Sys2Proof/Machine/Static.lean ====
section
/-! DEFINITION. The static codec (43_static_codec.md): `CMP` and `DEC` for SHANNON, FANO and HUFFMAN. -/

namespace Sys2Proof.Machine

/-- `WriteHeader(F)` (R204). -/
def writeHeader (f : Table (BitVec 32)) : Eng Unit :=
  Run.each (List.range 256) (fun s => memWrite 4 (freqGet f s).toNat)

/-- The loop of `EncodePayload()` (R205). -/
def encodeLoop : Nat → Eng Unit
  | 0 => Run.stuck
  | n + 1 => do
    let r ← inRead
    match r with
    | none => pure ()
    | some b => do
      let c ← Run.read (fun s => s.main.code b.toNat)
      let more ← Run.read (fun s => decide (s.w.nsym.toNat < s.w.total.toNat))
      Run.require (c.isSome && more) .ioRead
      putBits (c.getD [])
      bumpNsym
      encodeLoop n

/-- `require NSYM = TOTAL else Fault(IO_READ)` (R205, R207). -/
def requireAllSeen : Eng Unit := do
  let same ← Run.read (fun s => s.w.nsym == s.w.total)
  Run.require same .ioRead

/-- `EncodePayload()` (R205). -/
def encodePayload : Eng Unit := do
  setW (fun w => { w with nsym := 0 })
  let bound ← Run.read State.readBound
  encodeLoop bound
  requireAllSeen

/-- `StaticCompress(builder)` (R203) after the initialisation. -/
def staticCompress (builder : Builder) : Eng Unit := do
  setPhase .scan1
  countBlock
  setPhase .build
  distBlock
  withDist builder
  setPhase .hdrWr
  let f ← Run.read State.freq
  writeHeader f
  setPhase .enc
  inRewind
  encodePayload
  setPhase .term
  padAndFlush

/-- `CMP.SHANNON` (R200). -/
def execCmpShannon (s : State) : Out := runStream (staticCompress shannonBlock) s

/-- `CMP.FANO` (R201). -/
def execCmpFano (s : State) : Out := runStream (staticCompress fanoBlock) s

/-- `CMP.HUFFMAN` (R202). -/
def execCmpHuffman (s : State) : Out := runStream (staticCompress huffmanBlock) s

/-- `ReadHeader(F)` (R214), `F` reached through the assignment it is given. -/
def readHeaderWith (store : Nat → BitVec 32 → State → State) : Eng Unit :=
  Run.each (List.range 256) (fun i => do
    let v ← memRead 4
    Run.update (store i (BitVec.ofNat 32 v)))

/-- `ReadHeader(FREQ); TOTAL <- sum of FREQ[s]` (R213, R214). -/
def readHeader : Eng Unit := do
  readHeaderWith (fun i v s => s.setFreq (freqSet s.freq i v))
  Run.update (fun s => s.setW { s.w with total := BitVec.ofNat 40 (freqSum s.freq) })

/-- The loop of `DecodePayload()` (R215). -/
def decodeLoop : Nat → Eng Unit
  | 0 => Run.stuck
  | n + 1 => do
    let more ← Run.read (fun s => decide (s.w.nsym.toNat < s.w.total.toNat))
    if more then do
      let t ← Run.read State.main
      let b ← walkSymbol t.tree t.root
      outWrite b
      bumpNsym
      decodeLoop n
    else pure ()

/-- `DecodePayload()` (R215). -/
def decodePayload : Eng Unit := do
  setW (fun w => { w with nsym := 0, icnt := 0 })
  let total ← Run.read (fun s => s.w.total.toNat)
  decodeLoop (total + 1)

/-- `StaticDecompress(builder)` (R213) from phase `BUILD` on. -/
def staticRebuild (builder : Builder) : Eng Unit := do
  setPhase .build
  distBlock
  withDist builder
  setPhase .dec
  decodePayload

/-- `StaticDecompress(builder)` (R213, R216) after the initialisation. -/
def staticDecompress (builder : Builder) : Eng Unit := do
  setPhase .hdrRd
  readHeader
  let atEnd ← inAtEnd
  if atEnd then pure () else staticRebuild builder

/-- `DEC.SHANNON` (R210). -/
def execDecShannon (s : State) : Out := runStream (staticDecompress shannonBlock) s

/-- `DEC.FANO` (R211). -/
def execDecFano (s : State) : Out := runStream (staticDecompress fanoBlock) s

/-- `DEC.HUFFMAN` (R212). -/
def execDecHuffman (s : State) : Out := runStream (staticDecompress huffmanBlock) s

end Sys2Proof.Machine
end

