-- ==== Sys2Proof/Machine/Arith.lean ====
section
/-! DEFINITION. The arithmetic range coder (46_arithmetic.md): `CMP.ARITH`, `DEC.ARITH`. -/

namespace Sys2Proof.Machine

/-- `LOW + floor(cum * R / RT)` with `R = HIGH - LOW` (R303): exact, on the full product. -/
def subBound (low high rt cum : Nat) : Nat := low + cum * (high - low) / rt

/-- The lower end of entry `e`'s sub-interval of the current interval (R303, R320). -/
def Working.entryLow (w : Working) (e : RangeEntry) : Nat :=
  subBound w.low.toNat w.high.toNat w.rt.toNat e.cumLo.toNat

/-- The upper end of entry `e`'s sub-interval of the current interval (R303, R320). -/
def Working.entryHigh (w : Working) (e : RangeEntry) : Nat :=
  subBound w.low.toNat w.high.toNat w.rt.toNat e.cumHi.toNat

/-- `LOW <- a; HIGH <- b`. -/
def Working.setInterval (w : Working) (a b : Nat) : Working :=
  { w with low := BitVec.ofNat 32 a, high := BitVec.ofNat 32 b }

/-- `Narrow(i)` (R303): both bounds from the old ones. -/
def narrow (e : RangeEntry) : Eng Unit := setW (fun w => w.setInterval (w.entryLow e) (w.entryHigh e))

/-- `EmitWithPending(b)` (R304). -/
def emitWithPending (b : Bool) : Eng Unit := do
  putBit b
  let n ← Run.read (fun s => s.w.pend.toNat)
  Run.times n (putBit (!b))
  setW (fun w => { w with pend := 0 })

/-- Which of the three renormalisation rules fires, tried in this order (R304, R322). -/
inductive Renorm where
  | lower
  | upper
  | middle
  | done
  deriving DecidableEq, Repr

/-- The test of one pass of the renormalisation loops (R304, R322). -/
def Working.renorm (w : Working) : Renorm :=
  if w.high.toNat ≤ Config.half then .lower
  else if Config.half ≤ w.low.toNat then .upper
  else if Config.quarter ≤ w.low.toNat ∧ w.high.toNat ≤ Config.threeQuarters then .middle
  else .done

/-- The map of one pass on a bound or the window (R304, R322). -/
def Renorm.map : Renorm → Nat → Nat
  | .lower, x => 2 * x
  | .upper, x => 2 * x - Config.scaleM
  | .middle, x => 2 * (x - Config.quarter)
  | .done, x => x

/-- Both bounds mapped by one pass. -/
def Working.rescale (w : Working) (r : Renorm) : Working :=
  w.setInterval (r.map w.low.toNat) (r.map w.high.toNat)

/-- More than the passes one renormalisation can make: the width doubles in each and stays below 2^32. -/
def renormBound : Nat := 33

/-- `EncRenorm()` (R304). -/
def encRenorm : Nat → Eng Unit
  | 0 => Run.stuck
  | n + 1 => do
    let r ← Run.read (fun s => s.w.renorm)
    match r with
    | .lower => do
      emitWithPending false
      setW (fun w => w.rescale .lower)
      encRenorm n
    | .upper => do
      emitWithPending true
      setW (fun w => w.rescale .upper)
      encRenorm n
    | .middle => do
      setW (fun w => { w with pend := w.pend + 1 })
      setW (fun w => w.rescale .middle)
      encRenorm n
    | .done => pure ()

/-- `ArithEncode(i)` (R302). -/
def arithEncode (e : RangeEntry) : Eng Unit := do
  narrow e
  encRenorm renormBound

/-- `ArithFlush()` (R306). -/
def arithFlush : Eng Unit := do
  setW (fun w => { w with pend := w.pend + 1 })
  let low ← Run.read (fun s => s.w.low.toNat)
  if low < Config.quarter then emitWithPending false else emitWithPending true

/-- The entry of `RANGE` for a symbol: `RangeIndex(s)` and the entry it names (R292). -/
def State.rangeFor (s : State) (sym : Nat) : Option RangeEntry :=
  s.rangeList.find? (fun e => e.sym.toNat == sym)

/-- `ArithEncode(RangeIndex(sym))`; every symbol that gets here has its entry (R292). -/
def arithEncodeSym (sym : Nat) : Eng Unit := do
  let e ← Run.read (fun s => s.rangeFor sym)
  match e with
  | none => Run.stuck
  | some x => arithEncode x

/-- The loop of `CMP.ARITH` (R300). -/
def arithEncodeLoop : Nat → Eng Unit
  | 0 => Run.stuck
  | n + 1 => do
    let r ← inRead
    match r with
    | none => pure ()
    | some b => do
      let ok ← Run.read (fun s =>
        decide (freqGet s.freq b.toNat ≠ 0) && decide (s.w.nsym.toNat < s.w.total.toNat))
      Run.require ok .ioRead
      arithEncodeSym b.toNat
      bumpNsym
      arithEncodeLoop n

/-- The coding pass of `CMP.ARITH` (R300, R301), from phase `ENC` on. -/
def arithSecondPass : Eng Unit := do
  setPhase .enc
  inRewind
  setW (fun w => { w.setInterval 0 Config.scaleM with pend := 0, nsym := 0 })
  let bound ← Run.read State.readBound
  arithEncodeLoop bound
  requireAllSeen
  let last ← Run.read (fun s => rangeGet s.range (s.w.nrange.toNat - 1))
  arithEncode last
  setPhase .term
  arithFlush
  padAndFlush

/-- `CMP.ARITH` (R300, R301) after the initialisation. -/
def arithCompress : Eng Unit := do
  setPhase .scan1
  countBlock
  setPhase .build
  rangesBlock
  setPhase .hdrWr
  let f ← Run.read State.freq
  writeHeader f
  let total ← Run.read (fun s => s.w.total)
  if total = 0 then pure () else arithSecondPass

/-- `CMP.ARITH` (R300). -/
def execCmpArith (s : State) : Out := runStream arithCompress s

/-- `VAL <- f(VAL) + GetBitOrZero()` (R315, R322). -/
def shiftVal (f : Nat → Nat) : Eng Unit := do
  let b ← getBitOrZero
  setW (fun w => { w with val := BitVec.ofNat 31 (f w.val.toNat + (if b then 1 else 0)) })

/-- `ArithFind()` (R320). -/
def arithFind : Eng RangeEntry := do
  let e ← Run.read (fun s => s.rangeList.find? (fun e =>
    decide (s.w.entryLow e ≤ s.w.val.toNat) && decide (s.w.val.toNat < s.w.entryHigh e)))
  match e with
  | none => Run.raise .malformedNoSymbol
  | some x => pure x

/-- `DecRenorm()` (R322). -/
def decRenorm : Nat → Eng Unit
  | 0 => Run.stuck
  | n + 1 => do
    let r ← Run.read (fun s => s.w.renorm)
    if r = .done then pure ()
    else do
      setW (fun w => w.rescale r)
      shiftVal r.map
      decRenorm n

/-- The loop of `DEC.ARITH` (R315, R323). -/
def arithDecodeLoop : Nat → Eng Unit
  | 0 => Run.stuck
  | n + 1 => do
    let more ← Run.read (fun s => decide (s.w.nsym.toNat < s.w.total.toNat))
    if more then do
      let e ← arithFind
      if e.sym.toNat = Config.eosSym then pure ()
      else do
        outWrite (e.sym.setWidth 8)
        bumpNsym
        narrow e
        decRenorm renormBound
        arithDecodeLoop n
    else pure ()

/-- `DEC.ARITH` (R315) from phase `BUILD` on. -/
def arithRebuild (total : Nat) : Eng Unit := do
  setPhase .build
  rangesBlock
  setPhase .dec
  setW (fun w => { w with icnt := 0, nsym := 0, val := 0 })
  Run.times Config.windowBits (shiftVal (fun v => 2 * v))
  setW (fun w => w.setInterval 0 Config.scaleM)
  arithDecodeLoop (total + 1)

/-- `DEC.ARITH` (R315) after the initialisation. -/
def arithDecompress : Eng Unit := do
  setPhase .hdrRd
  readHeader
  let total ← Run.read (fun s => s.w.total)
  if total = 0 then pure () else arithRebuild total.toNat

/-- `DEC.ARITH` (R315). -/
def execDecArith (s : State) : Out := runStream arithDecompress s

end Sys2Proof.Machine
end

