-- ==== Sys2Proof/Machine/Context.lean ====
section
/-! DEFINITION. The context codec (44_context_codec.md): `CMP.CONTEXT`, `DEC.CONTEXT`. -/

namespace Sys2Proof.Machine

/-- `CTX[c] <- f(CTX[c])`. -/
def updateCtx (c : Nat) (f : CtxEntry → CtxEntry) : Eng Unit :=
  Run.update (fun s => s.setCtx (ctxSet s.ctx c (f (ctxGet s.ctx c))))

/-- The contexts with `CTX[c].present = 1`, ascending. -/
def State.presentCtxs (s : State) : List Nat :=
  (List.range 256).filter (fun c => (ctxGet s.ctx c).present)

/-- The loop of `CountPairs()` (R231). -/
def countPairsLoop : Nat → Eng Unit
  | 0 => Run.stuck
  | n + 1 => do
    let r ← inRead
    match r with
    | none => pure ()
    | some b => do
      let total ← Run.read (fun s => s.w.total.toNat)
      Run.require (decide (total < Config.inLenMax)) .countOverflow
      Run.update (fun s => s.setFreq (freqBump s.freq b.toNat))
      setW (fun w => { w with total := w.total + 1 })
      let prev ← Run.read (fun s => s.w.prev.toNat)
      if prev = Config.prevNone then pure ()
      else updateCtx prev (fun e => { e with freq := freqBump e.freq b.toNat, present := true })
      setW (fun w => { w with prev := b.setWidth 9 })
      countPairsLoop n

/-- `CountPairs()` (R231): `present` and `FREQ` of every context; the scheme and tree of a context that is not
present keep what they hold, and no command reads them (log entry 23). -/
def countPairs : Eng Unit := do
  Run.update (fun s => s.setFreq [])
  Run.each (List.range 256) (fun c => updateCtx c (fun e => { e with present := false, freq := [] }))
  setW (fun w => { w with total := 0, prev := 256 })
  let bound ← Run.read State.readBound
  countPairsLoop bound
  Run.update (fun s => s.setW { s.w with nctx := BitVec.ofNat 9 s.presentCtxs.length })

/-- `BuildAllModels()` (R232): every model is a Huffman model; the distribution of a context's table is
not kept. -/
def buildAllModels : Eng Unit := do
  distBlock
  withDist huffmanBlock
  let cs ← Run.read State.presentCtxs
  Run.each cs (fun c => do
    let f ← Run.read (fun s => (ctxGet s.ctx c).freq)
    onCtxModel c (huffmanBlock (distribution f)))

/-- `WriteContextHeader()` (R233). -/
def writeContextHeader : Eng Unit := do
  let f ← Run.read State.freq
  writeHeader f
  let k ← Run.read (fun s => s.w.nctx.toNat)
  memWrite 8 k
  let cs ← Run.read State.presentCtxs
  Run.each cs (fun c => do
    memWrite 1 c
    let g ← Run.read (fun s => (ctxGet s.ctx c).freq)
    writeHeader g)

/-- The codeword `EncodeContextPayload()` puts for a byte after `PREV` (R234): the global one for the first byte,
then the one of the context `PREV`.  DEDUCED (log entry 23): a context that is not present in this run, which
only a differing second pass brings up, has no codeword, so the byte is IO_READ (R383, R390). -/
def State.contextCode (s : State) (b : Byte) : Option Bits :=
  if s.w.prev.toNat = Config.prevNone then s.main.code b.toNat
  else if (ctxGet s.ctx s.w.prev.toNat).present then (ctxGet s.ctx s.w.prev.toNat).model.code b.toNat
  else none

/-- The loop of `EncodeContextPayload()` (R234). -/
def encodeContextLoop : Nat → Eng Unit
  | 0 => Run.stuck
  | n + 1 => do
    let r ← inRead
    match r with
    | none => pure ()
    | some b => do
      let c ← Run.read (fun s => s.contextCode b)
      let more ← Run.read (fun s => decide (s.w.nsym.toNat < s.w.total.toNat))
      Run.require (c.isSome && more) .ioRead
      putBits (c.getD [])
      setW (fun w => { w with prev := b.setWidth 9 })
      bumpNsym
      encodeContextLoop n

/-- `EncodeContextPayload()` (R234). -/
def encodeContextPayload : Eng Unit := do
  setW (fun w => { w with nsym := 0, prev := 256 })
  let bound ← Run.read State.readBound
  encodeContextLoop bound
  requireAllSeen

/-- `CMP.CONTEXT` (R230) after the initialisation. -/
def contextCompress : Eng Unit := do
  setPhase .scan1
  countPairs
  setPhase .build
  buildAllModels
  setPhase .hdrWr
  writeContextHeader
  setPhase .enc
  inRewind
  encodeContextPayload
  setPhase .term
  padAndFlush

/-- `CMP.CONTEXT` (R230). -/
def execCmpContext (s : State) : Out := runStream contextCompress s

/-- `NCTX <- MemRead(-, 8)`: a number of more than 9 bits, which only a run about to raise
MALFORMED_CONTEXT reads, leaves a free value (R241; log entry 6). -/
def writeNctx (v : Nat) : Eng Unit := Run.update (fun s =>
  if v < 2 ^ 9 then s.setW { s.w with nctx := BitVec.ofNat 9 v }
  else (s.setW { s.w with nctx := Config.freeNctx s.fresh }).setFresh (s.fresh + 1))

/-- One record of `ReadContextHeader()` (R241). -/
def readRecord : Eng Unit := do
  let c ← memRead 1
  let there ← Run.read (fun s => (ctxGet s.ctx c).present)
  Run.require (!there) .malformedContext
  readHeaderWith (fun i v s =>
    s.setCtx (ctxSet s.ctx c { ctxGet s.ctx c with freq := freqSet (ctxGet s.ctx c).freq i v }))
  updateCtx c (fun e => { e with present := true })

/-- `ReadContextHeader()` (R241). -/
def readContextHeader : Eng Unit := do
  Run.each (List.range 256) (fun c => updateCtx c (fun e => { e with present := false }))
  readHeader
  let k ← memRead 8
  writeNctx k
  Run.require (decide (k ≤ 256)) .malformedContext
  Run.times k readRecord

/-- One symbol of `DecodeContextPayload()` (R242). -/
def decodeContextSymbol : Eng Byte := do
  let prev ← Run.read (fun s => s.w.prev.toNat)
  if prev = Config.prevNone then do
    let t ← Run.read State.main
    walkSymbol t.tree t.root
  else do
    let e ← Run.read (fun s => ctxGet s.ctx prev)
    Run.require e.present .malformedContext
    walkSymbol e.model.tree e.model.root

/-- The loop of `DecodeContextPayload()` (R242). -/
def decodeContextLoop : Nat → Eng Unit
  | 0 => Run.stuck
  | n + 1 => do
    let more ← Run.read (fun s => decide (s.w.nsym.toNat < s.w.total.toNat))
    if more then do
      let b ← decodeContextSymbol
      outWrite b
      setW (fun w => { w with prev := b.setWidth 9 })
      bumpNsym
      decodeContextLoop n
    else pure ()

/-- `DecodeContextPayload()` (R242). -/
def decodeContextPayload : Eng Unit := do
  setW (fun w => { w with nsym := 0, icnt := 0, prev := 256 })
  let total ← Run.read (fun s => s.w.total.toNat)
  decodeContextLoop (total + 1)

/-- `DEC.CONTEXT` (R240) from phase `BUILD` on. -/
def contextRebuild : Eng Unit := do
  setPhase .build
  buildAllModels
  setPhase .dec
  decodeContextPayload

/-- `DEC.CONTEXT` (R240) after the initialisation. -/
def contextDecompress : Eng Unit := do
  setPhase .hdrRd
  readContextHeader
  contextRebuild

/-- `DEC.CONTEXT` (R240). -/
def execDecContext (s : State) : Out := runStream contextDecompress s

end Sys2Proof.Machine
end

