-- ==== Sys2Proof/Machine/Fgk.lean ====
section
/-! DEFINITION. The adaptive Huffman engine (45_adaptive_fgk.md): `CMP.ADAPTIVE`, `DEC.ADAPTIVE`. -/

namespace Sys2Proof.Machine

/-- `FGK[n]`. -/
def FgkMem.node (g : FgkMem) (n : Nat) : FgkNode := fgkGet g.nodes n

/-- `FGK[n] <- e`. -/
def FgkMem.setNode (g : FgkMem) (n : Nat) (e : FgkNode) : FgkMem := { g with nodes := fgkSet g.nodes n e }

/-- `FGK[n] <- f(FGK[n])`. -/
def FgkMem.modNode (g : FgkMem) (n : Nat) (f : FgkNode → FgkNode) : FgkMem := g.setNode n (f (g.node n))

/-- More than the number of slots: no walk of a tree is longer. -/
def fgkBound : Nat := Config.fgkCap + 1

/-- `FgkInit()` (R251): slots at and above 1 keep what they hold (V7). -/
def fgkInit : Run FgkMem Unit := Run.update (fun g =>
  { g.setNode 0 ⟨0, BitVec.ofNat 10 Config.rankMax, .nyt, 0, none, none, none⟩ with
    n := 1, root := some 0, nyt := some 0, leaf := [] })

/-- The climb of `FgkPath(n)` (R254): `p` is the path below `n` already read. -/
def fgkPathFrom (g : FgkMem) : Nat → Nat → Bits → Option Bits
  | 0, _, _ => none
  | k + 1, n, p =>
    match (g.node n).parent with
    | none => some p
    | some q => fgkPathFrom g k q ((if (g.node q).left = some n then false else true) :: p)

/-- `FgkPath(n)` (R254); `none` where the climb has no end, which no run reaches. -/
def fgkPath (g : FgkMem) (n : Nat) : Option Bits := fgkPathFrom g fgkBound n []

/-- `FgkSplit(b)` (R256). -/
def fgkSplit (b : Byte) : Run FgkMem Nat := do
  let used ← Run.read (fun g => g.n.toNat)
  Run.require (decide (used + 2 ≤ Config.fgkCap)) .arenaOverflow
  let nyt ← Run.read (fun g => g.nyt)
  match nyt with
  | none => Run.stuck
  | some o => do
    let r ← Run.read (fun g => (g.node o).rank)
    Run.update (fun g => { g with n := g.n + 2 })
    Run.update (fun g => g.setNode used ⟨0, r - 1, .leaf, b, some o, none, none⟩)
    Run.update (fun g => g.setNode (used + 1) ⟨0, r - 2, .nyt, 0, some o, none, none⟩)
    Run.update (fun g => g.modNode o (fun e =>
      { e with kind := .internal, left := some (used + 1), right := some used }))
    Run.update (fun g => { g with nyt := some (used + 1), leaf := leafSet g.leaf b.toNat (some used) })
    pure used

/-- The scan for the leader of node `n` (R257): the node of highest rank among those in use whose weight
equals `n`'s. -/
def fgkLeader (g : FgkMem) (n : Nat) : Nat :=
  (List.range g.n.toNat).foldl (fun ld i =>
    if (g.node i).weight = (g.node n).weight ∧ (g.node ld).rank.toNat < (g.node i).rank.toNat then i
    else ld) n

/-- `FGK[p].left <- c` or `FGK[p].right <- c` (R258). -/
def FgkMem.relink (g : FgkMem) (p : Nat) (isLeft : Bool) (c : Nat) : FgkMem :=
  g.modNode p (fun e => if isLeft then { e with left := some c } else { e with right := some c })

/-- `FgkSwap(a, b)` (R258).  A node without a parent has no place to exchange: never the case (R259). -/
def fgkSwap (a b : Nat) : Run FgkMem Unit := do
  let pa? ← Run.read (fun g => (g.node a).parent)
  let pb? ← Run.read (fun g => (g.node b).parent)
  match pa?, pb? with
  | some pa, some pb => do
    let aLeft ← Run.read (fun g => decide ((g.node pa).left = some a))
    let bLeft ← Run.read (fun g => decide ((g.node pb).left = some b))
    Run.update (fun g => g.relink pa aLeft b)
    Run.update (fun g => g.relink pb bLeft a)
    Run.update (fun g => g.modNode a (fun e => { e with parent := some pb }))
    Run.update (fun g => g.modNode b (fun e => { e with parent := some pa }))
    let ra ← Run.read (fun g => (g.node a).rank)
    let rb ← Run.read (fun g => (g.node b).rank)
    Run.update (fun g => g.modNode a (fun e => { e with rank := rb }))
    Run.update (fun g => g.modNode b (fun e => { e with rank := ra }))
  | _, _ => Run.stuck

/-- `FgkUpdate(n)` (R257), the rebalance step; the first argument bounds the climb. -/
def fgkUpdate : Nat → Option Nat → Run FgkMem Unit
  | _, none => pure ()
  | 0, some _ => Run.stuck
  | k + 1, some n => do
    let ld ← Run.read (fun g => fgkLeader g n)
    let par ← Run.read (fun g => (g.node n).parent)
    if ld ≠ n ∧ some ld ≠ par then fgkSwap n ld else pure ()
    Run.update (fun g => g.modNode n (fun e => { e with weight := e.weight + 1 }))
    let next ← Run.read (fun g => (g.node n).parent)
    fgkUpdate k next

/-- `PutBits(FgkPath(n))`. -/
def putPath (n : Nat) : Eng Unit := do
  let p ← Run.read (fun s => fgkPath s.fgk n)
  match p with
  | none => Run.stuck
  | some bits => putBits bits

/-- The `NYT` node's slot; there is always one (R250). -/
def nytSlot : Eng Nat := do
  let n ← Run.read (fun s => s.fgk.nyt)
  match n with
  | none => Run.stuck
  | some i => pure i

/-- `FgkEncodeSymbol(b)` (R255). -/
def fgkEncodeSymbol (b : Byte) : Eng Unit := do
  let lf ← Run.read (fun s => leafGet s.fgk.leaf b.toNat)
  match lf with
  | some n => do
    putPath n
    onFgk (fgkUpdate fgkBound (some n))
  | none => do
    let nyt ← nytSlot
    putPath nyt
    putBits (byteBits b)
    let n ← onFgk (fgkSplit b)
    onFgk (fgkUpdate fgkBound (some n))

/-- The loop of `CMP.ADAPTIVE` (R260). -/
def adaptiveEncodeLoop : Nat → Eng Unit
  | 0 => Run.stuck
  | n + 1 => do
    let r ← inRead
    match r with
    | none => pure ()
    | some b => do
      fgkEncodeSymbol b
      bumpNsym
      adaptiveEncodeLoop n

/-- The pad bits of `FgkPad()` (R263): the first `p` bits of `path ++ "00000000"`, `p` the bits missing from
the last byte. -/
def padBits (path : Bits) (ocnt : Nat) : Bits :=
  (path ++ List.replicate 8 false).take ((8 - ocnt) % 8)

/-- `FgkPad()` (R263). -/
def fgkPad : Eng Unit := do
  let nyt ← nytSlot
  let path ← Run.read (fun s => fgkPath s.fgk nyt)
  match path with
  | none => Run.stuck
  | some p => do
    let n ← Run.read (fun s => s.w.ocnt.toNat)
    putBits (padBits p n)

/-- `CMP.ADAPTIVE` (R260) after the initialisation. -/
def adaptiveCompress : Eng Unit := do
  onFgk fgkInit
  setPhase .enc
  setW (fun w => { w with nsym := 0 })
  let bound ← Run.read State.readBound
  adaptiveEncodeLoop bound
  setPhase .term
  fgkPad
  padAndFlush

/-- `CMP.ADAPTIVE` (R260). -/
def execCmpAdaptive (s : State) : Out := runStream adaptiveCompress s

/-- The descent of `FgkDecodeSymbol()` (R267) from node `cur`: the node it ends on, or `none` where the
input ended first.  Every round takes a bit, so the bits left bound it. -/
def fgkDescend : Nat → Nat → Eng (Option Nat)
  | 0, _ => Run.stuck
  | k + 1, cur => do
    let nd ← Run.read (fun s => s.fgk.node cur)
    if nd.kind = .internal then do
      let b ← getBitOpt
      match b with
      | none => pure none
      | some bit => do
        let c := if bit then nd.right else nd.left
        setW (fun w => { w with cur := c })
        match c with
        | none => Run.stuck
        | some next => fgkDescend k next
    else pure (some cur)

/-- The 8 literal bits of `FgkDecodeSymbol()` (R267): `v` after `n` more bits, or `none` where the input
ended first. -/
def readLiteral : Nat → Nat → Eng (Option Nat)
  | 0, v => pure (some v)
  | n + 1, v => do
    let b ← getBitOpt
    match b with
    | none => pure none
    | some bit => readLiteral n (2 * v + (if bit then 1 else 0))

/-- `FgkDecodeSymbol()` (R267, R268); `none` is NONE. -/
def fgkDecodeSymbol : Eng (Option Byte) := do
  let root ← Run.read (fun s => s.fgk.root)
  setW (fun w => { w with cur := root })
  match root with
  | none => Run.stuck
  | some r => do
    let bound ← Run.read State.bitsLeft
    let found ← fgkDescend (bound + 2) r
    match found with
    | none => pure none
    | some n => do
      let nd ← Run.read (fun s => s.fgk.node n)
      if nd.kind = .nyt then do
        let lit ← readLiteral 8 0
        match lit with
        | none => pure none
        | some v => do
          let seen ← Run.read (fun s => leafGet s.fgk.leaf v)
          Run.require seen.isNone .malformedLiteral
          let m ← onFgk (fgkSplit (BitVec.ofNat 8 v))
          onFgk (fgkUpdate fgkBound (some m))
          pure (some (BitVec.ofNat 8 v))
      else do
        onFgk (fgkUpdate fgkBound (some n))
        pure (some nd.sym)

/-- The loop of `DEC.ADAPTIVE` (R265, R266).  Every symbol takes at least one bit, so the bits left bound
it. -/
def adaptiveDecodeLoop : Nat → Eng Unit
  | 0 => Run.stuck
  | n + 1 => do
    let r ← fgkDecodeSymbol
    match r with
    | none => pure ()
    | some b => do
      outWrite b
      bumpNsym
      adaptiveDecodeLoop n

/-- `DEC.ADAPTIVE` (R265) after the initialisation. -/
def adaptiveDecompress : Eng Unit := do
  onFgk fgkInit
  setPhase .dec
  setW (fun w => { w with nsym := 0, icnt := 0 })
  let bound ← Run.read State.bitsLeft
  adaptiveDecodeLoop (bound + 2)

/-- `DEC.ADAPTIVE` (R265). -/
def execDecAdaptive (s : State) : Out := runStream adaptiveDecompress s

end Sys2Proof.Machine
end

