-- ==== Sys2Proof/Machine/System.lean ====
section
/-! DEFINITION. The system commands (60_exceptions.md R360, R361) and the two resets
(70_reset_and_hazards.md R380, R381). -/

namespace Sys2Proof.Machine

/-- The state a reset leaves (R35), with the streams `x`; the host's acts to come and the count of free
values drawn are not the engine's. -/
def State.resetWith (s : State) (x : Streams) : State :=
  ((State.reset.setIo x).setHost s.host).setFresh s.fresh

/-- The `RESET` command's state (R361, R381): `IN_POS`, `IN_BASE`, `OUT_LEN` and both streams keep. -/
def State.softReset (s : State) : State := s.resetWith s.io

/-- Hardware reset (R35, R380): the three position registers are 0 too; the streams' contents are not
engine state. -/
def State.hardReset (s : State) : State :=
  s.resetWith { s.io with inPos := 0, inBase := 0, outLen := 0, inAcc := 0, outAcc := 0 }

/-- `NOP` (R360). -/
def execNop (s : State) : Out := runCommand State.acceptPlain (pure ()) s

/-- `RESET` (R361, R362): the one command accepted while `FAULT = 1`; it does not set `DONE`. -/
def execReset (s : State) : Out :=
  if s.status.busy then .refused .cmdWhileBusy else .next s.softReset

end Sys2Proof.Machine
end

