-- ==== Sys2Proof/Machine/Dispatch.lean ====
section
/-! DEFINITION. One arm for every command of 30_encoding.md R92. -/

namespace Sys2Proof.Machine

def exec (i : Instr) (s : State) : Host.Outcome State Fault Refusal :=
  match i with
  | .nop => Sys2Proof.Machine.execNop s
  | .reset => Sys2Proof.Machine.execReset s
  | .count => Sys2Proof.Machine.execCount s
  | .dist => Sys2Proof.Machine.execDist s
  | .ranges => Sys2Proof.Machine.execRanges s
  | .treeFromScheme => Sys2Proof.Machine.execTreeFromScheme s
  | .treeTrunc => Sys2Proof.Machine.execTreeTrunc s
  | .treeDerive => Sys2Proof.Machine.execTreeDerive s
  | .bldShannon => Sys2Proof.Machine.execBldShannon s
  | .bldFano => Sys2Proof.Machine.execBldFano s
  | .bldHuffman => Sys2Proof.Machine.execBldHuffman s
  | .cmpShannon => Sys2Proof.Machine.execCmpShannon s
  | .cmpFano => Sys2Proof.Machine.execCmpFano s
  | .cmpHuffman => Sys2Proof.Machine.execCmpHuffman s
  | .cmpContext => Sys2Proof.Machine.execCmpContext s
  | .cmpAdaptive => Sys2Proof.Machine.execCmpAdaptive s
  | .cmpArith => Sys2Proof.Machine.execCmpArith s
  | .decShannon => Sys2Proof.Machine.execDecShannon s
  | .decFano => Sys2Proof.Machine.execDecFano s
  | .decHuffman => Sys2Proof.Machine.execDecHuffman s
  | .decContext => Sys2Proof.Machine.execDecContext s
  | .decAdaptive => Sys2Proof.Machine.execDecAdaptive s
  | .decArith => Sys2Proof.Machine.execDecArith s

end Sys2Proof.Machine
end

