-- ==== Sys2Proof/Machine/HostPort.lean ====
section
/-! DEFINITION. What the host does to the machine (70_reset_and_hazards.md R384, R388; 60_exceptions.md R355)
and what it reads back (10_state.md R21 to R31; 60_exceptions.md R366, R370). -/

namespace Sys2Proof.Machine

/-- A byte written to `CMD` (R362): a legal code runs its command, every other is ILLEGAL (R93, R94). -/
def writeCmd (c : Byte) (s : State) : Out :=
  match decode c with
  | .ok i => exec i s
  | .error (.illegal _) => illegalCode s

/-- The input stream attached or re-positioned (R384): `IN` and `IN_POS`, nothing else. -/
def State.attachInput (s : State) (bytes : List Byte) (again : Option (List Byte)) (cursor : Nat) : State :=
  s.setIo { s.io with input := bytes, again := again, inPos := BitVec.ofNat 64 cursor }

/-- The output stream attached (R384): `OUT`, and `OUT_LEN` the length it already has. -/
def State.attachOutput (s : State) (bytes : List Byte) : State :=
  s.setIo { s.io with outRev := bytes.reverse, outLen := BitVec.ofNat 64 bytes.length }

/-- Attaching or positioning a stream is refused while a command runs (R391, V3) or where the act is not
well formed (R24, R384). -/
def hostOnly (ok : Bool) (s t : State) : Out :=
  if s.status.busy then .refused .hostActWhileBusy
  else if ok then .next t
  else .refused .illFormedHostAct

/-- The oracle of R68 with one more failing access. -/
def Streams.cutAt (x : Streams) (onInput : Bool) (k : Nat) : Streams :=
  if onInput then { x with failIn := k :: x.failIn } else { x with failOut := k :: x.failOut }

/-- The oracle of R68 replaced; the oracle is not the engine's, so at any time. -/
def State.setOracle (s : State) (failIn failOut : List Nat) : State :=
  s.setIo { s.io with failIn := failIn, failOut := failOut }

/-- A command stopped by hardware reset (R355).  What it did to the streams before stays (R381) and all else
is reset, so the reset just before an access leaves what the reset after a failing access would: a failing
access has no effect of its own (R62 to R65, R351; log entry 10). -/
def resetDuring (c : Byte) (onInput : Bool) (k : Nat) (s : State) : Out :=
  match writeCmd c (s.setIo (s.io.cutAt onInput k)) with
  | .next t => .next (t.setOracle s.io.failIn s.io.failOut).hardReset
  | .fault e => .fault e
  | .refused r => .refused r

/-- One act of the host, on the state in which it is no longer waiting. -/
def hostStep (a : HostAct) (s : State) : Out :=
  match a with
  | .writeCmd c => writeCmd c s
  | .attachIn bytes again cursor => hostOnly a.wf s (s.attachInput bytes again cursor)
  | .seekIn cursor =>
      hostOnly (cursorOk s.io.input cursor) s (s.attachInput s.io.input s.io.again cursor)
  | .attachOut bytes => hostOnly a.wf s (s.attachOutput bytes)
  | .setOracle failIn failOut => .next (s.setOracle failIn failOut)
  | .hwReset => .next s.hardReset
  | .resetDuring c onInput k => resetDuring c onInput k s

/-! ### Read-back -/

/-- What a register holds, as a number; -1 is the all-ones pattern of the field (R26), `CMD` reads as 0
(R21).  `CUR` has the 14 bits of a `TREE` index (log entry 14). -/
def State.reg (s : State) : Reg → Nat
  | .CMD => 0
  | .STATUS => s.status.word.toNat
  | .FAULTCODE => (faultCodeWord s.faultCode).toNat
  | .PHASE => s.phase.word.toNat
  | .IN_POS => s.io.inPos.toNat
  | .IN_BASE => s.io.inBase.toNat
  | .OUT_LEN => s.io.outLen.toNat
  | .TOTAL => s.w.total.toNat
  | .NSYM => s.w.nsym.toNat
  | .NDIST => s.w.ndist.toNat
  | .NRANGE => s.w.nrange.toNat
  | .RT => s.w.rt.toNat
  | .NNODES => s.main.nnodes.toNat
  | .ROOT => indexWord 14 s.main.root
  | .CUR => indexWord 14 s.w.cur
  | .PREV => s.w.prev.toNat
  | .NCTX => s.w.nctx.toNat
  | .OBITS => s.w.obits.toNat
  | .OCNT => s.w.ocnt.toNat
  | .IBITS => s.w.ibits.toNat
  | .ICNT => s.w.icnt.toNat
  | .LOW => s.w.low.toNat
  | .HIGH => s.w.high.toNat
  | .PEND => s.w.pend.toNat
  | .VAL => s.w.val.toNat
  | .FGK_N => s.fgk.n.toNat
  | .FGK_ROOT => indexWord 10 s.fgk.root
  | .FGK_NYT => indexWord 10 s.fgk.nyt

/-- The width of a register (R21 to R26). -/
def regWidth : Reg → Nat
  | .CMD | .STATUS | .FAULTCODE | .PHASE => 8
  | .IN_POS | .IN_BASE | .OUT_LEN => 64
  | .TOTAL | .NSYM => 40
  | .NDIST | .NRANGE | .PREV | .NCTX => 9
  | .RT => 30
  | .NNODES | .ROOT | .CUR => 14
  | .OBITS | .IBITS => 8
  | .OCNT | .ICNT => 4
  | .LOW | .HIGH => 32
  | .PEND => 64
  | .VAL => 31
  | .FGK_N | .FGK_ROOT | .FGK_NYT => 10

/-- An index field of `width` bits as it is read (R26): the slot, or the all-ones pattern for -1. -/
def indexRead (width : Nat) (i : Option Nat) : ReadValue := .word width (BitVec.ofNat width (indexWord width i))

/-- A field of a code scheme with its tree (R27, R28). -/
def TreeMem.field {slots : Nat} (t : TreeMem) : ModelField slots → ReadValue
  | .schemePresent s => .word 1 (BitVec.ofBool (schemeGet t.scheme s.toNat).isSome)
  | .schemeLen s => .word 8 (BitVec.ofNat 8 ((schemeGet t.scheme s.toNat).getD []).length)
  | .schemeBits s => .bits ((schemeGet t.scheme s.toNat).getD [])
  | .treeSym n => .sym (treeGet t.tree n.val).sym
  | .treeLeft n => indexRead 14 (treeGet t.tree n.val).left
  | .treeRight n => indexRead 14 (treeGet t.tree n.val).right
  | .nnodes => .word 14 t.nnodes
  | .root => indexRead 14 t.root

/-- A field of a slot of `FGK` (R31). -/
def FgkNode.field (e : FgkNode) : FgkField → ReadValue
  | .weight => .word 64 e.weight
  | .rank => .word 10 e.rank
  | .kind => .kind e.kind
  | .sym => .word 8 e.sym
  | .parent => indexRead 10 e.parent
  | .left => indexRead 10 e.left
  | .right => indexRead 10 e.right

/-- What a field holds (R25 to R31). -/
def State.field (s : State) : Field → ReadValue
  | .reg r => .word (regWidth r) (BitVec.ofNat (regWidth r) (s.reg r))
  | .freq b => .word 32 (freqGet s.freq b.toNat)
  | .distSym i => .word 8 (distGet s.dist i.val).sym
  | .distCnt i => .word 32 (distGet s.dist i.val).cnt
  | .rangeSym i => .word 9 (rangeGet s.range i.val).sym
  | .rangeLo i => .word 30 (rangeGet s.range i.val).cumLo
  | .rangeHi i => .word 30 (rangeGet s.range i.val).cumHi
  | .main f => s.main.field f
  | .ctxPresent c => .word 1 (BitVec.ofBool (ctxGet s.ctx c.toNat).present)
  | .ctxFreq c b => .word 32 (freqGet (ctxGet s.ctx c.toNat).freq b.toNat)
  | .ctx c f => (ctxGet s.ctx c.toNat).model.field f
  | .fgk n f => (fgkGet s.fgk.nodes n.val).field f
  | .fgkLeaf b => indexRead 10 (leafGet s.fgk.leaf b.toNat)

/-- An unspecified value of the same form: what field `f` may read as while a command runs (R393). -/
def freeRead (n : Nat) (f : Field) : ReadValue → ReadValue
  | .word width _ => .word width (Config.freeReadBack n f width)
  | .bits _ => .bits (Config.freeReadBits n f)
  | .sym _ => .sym (if Config.freeReadBack n f 1 = 0 then none else some (Config.freeReadBack n f 8))
  | .kind _ => .kind
      (if Config.freeReadBack n f 2 = 0 then .leaf else if Config.freeReadBack n f 2 = 1 then .nyt else .internal)

/-- What the host reads (R25, R366, R370, R393): the field; while a command runs, an unspecified value for
any but `STATUS` and `CMD`. -/
def readBack (s : State) (f : Field) : ReadValue :=
  if s.status.busy && f != .reg .STATUS && f != .reg .CMD then freeRead s.fresh f (s.field f) else s.field f

end Sys2Proof.Machine
end

