-- ==== Sys2Proof/Machine/Step.lean ====
section
/-! DEFINITION. One step of the machine: the next act of the host, a command being one atomic step (R362). -/

namespace Sys2Proof.Machine

/-- The next waiting act of the host is done; with none waiting the engine waits (R380). -/
def step (s : State) : Host.Outcome State Fault Refusal :=
  match s.host with
  | [] => .next s
  | a :: rest => hostStep a (s.setHost rest)

/-- The state in which the next step writes the table's word `w` of `nbits` bits to `CMD`. -/
def State.withFetchWord (s : State) (nbits w : Nat) : State :=
  s.setHost (.writeCmd (tableByte nbits w) :: s.host)

end Sys2Proof.Machine
end

