-- ==== Sys2Proof/Safety.lean ====
section
/-! DEFINITION. The terms the claims are stated in: when a command is accepted and served, how a command ends,
the invariants of the engine, code trees as plain trees, the codes of the builders, and the artifacts of
30_encoding.md R100 to R107 as functions of the input bytes. -/

namespace Sys2Proof.Machine

/-! ### Accepted and served -/

/-- The engine is idle and not faulted: it accepts a command (R362). -/
abbrev State.Ready (s : State) : Prop := s.status.busy = false ∧ s.status.fault = false

/-- The premise of R68 and R390: the oracle answers `ok` to every access and the second pass over the input
returns the same bytes. -/
abbrev Streams.Honest (x : Streams) : Prop := x.failIn = [] ∧ x.failOut = [] ∧ x.again = none

/-- R24, R384: the input is shorter than 2^64 bytes and the cursor lies in it or at its end. -/
abbrev Streams.Sound (x : Streams) : Prop := x.input.length < 2 ^ 64 ∧ x.inPos.toNat ≤ x.input.length

/-- A command is accepted and the host keeps its duties (R388). -/
abbrev State.Served (s : State) : Prop := s.Ready ∧ s.io.Honest ∧ s.io.Sound

/-- The host breaks the duty of R390, no access fails: after the rewind the input holds `b`. -/
structure State.Rewound (s : State) (b : List Byte) : Prop where
  ready : s.Ready
  failIn : s.io.failIn = []
  failOut : s.io.failOut = []
  sound : s.io.Sound
  again : s.io.again = some b
  len : b.length < 2 ^ 64

/-- What the second pass then reads. -/
def State.secondPass (s : State) (b : List Byte) : List Byte := b.drop s.io.inPos.toNat

/-! ### How a command ends -/

/-- `t` ends a command that was accepted in `s` without a fault (R362). -/
structure State.Ended (s t : State) : Prop where
  status : t.status = ⟨false, true, false⟩
  phase : t.phase = .idle
  faultCode : t.faultCode = s.faultCode

/-- `t` ends a command in fault `c`, raised in phase `p` (R350). -/
structure State.Trapped (t : State) (c : FaultCode) (p : Phase) : Prop where
  status : t.status = ⟨false, false, true⟩
  phase : t.phase = p
  faultCode : t.faultCode = some c

/-- The command appended `bytes` to the output (R61). -/
structure State.Appended (s t : State) (bytes : List Byte) : Prop where
  out : t.io.out = s.io.out ++ bytes
  len : t.io.outLen = s.io.outLen + BitVec.ofNat 64 bytes.length

/-- The command consumed the input to its end (R60). -/
def State.Drained (t : State) : Prop := t.io.inPos = BitVec.ofNat 64 t.io.input.length

/-- The faults a command can raise, by R342, an unreachable one left out. -/
def mayRaise : Instr → List FaultCode
  | .nop | .reset | .dist | .treeTrunc | .treeDerive | .bldShannon | .bldFano | .bldHuffman => []
  | .count => [.ioRead, .countOverflow]
  | .ranges => [.rangeTotal]
  | .treeFromScheme => [.arenaOverflow]
  | .cmpShannon | .cmpFano | .cmpHuffman | .cmpContext => [.ioRead, .ioWrite, .countOverflow]
  | .cmpAdaptive => [.ioRead, .ioWrite]
  | .cmpArith => [.ioRead, .ioWrite, .countOverflow, .rangeTotal]
  | .decShannon | .decFano | .decHuffman =>
    [.ioRead, .ioWrite, .malformedHeader, .malformedTruncated, .malformedPath]
  | .decContext =>
    [.ioRead, .ioWrite, .malformedHeader, .malformedTruncated, .malformedPath, .malformedContext]
  | .decAdaptive => [.ioRead, .ioWrite, .malformedLiteral]
  | .decArith => [.ioRead, .ioWrite, .rangeTotal, .malformedHeader]

/-! ### Invariants -/

/-- Between two acts of the host: not busy; `FAULT` and `FAULTCODE` agree; a fault and `DONE` exclude each
other; without a fault the phase is `IDLE` (R22, R23, R350, R362). -/
structure State.ControlInv (s : State) : Prop where
  idle : s.status.busy = false
  agree : s.status.fault = s.faultCode.isSome
  exclusive : ¬(s.status.done = true ∧ s.status.fault = true)
  phase : s.status.fault = false → s.phase = .idle

/-- An index field is absent or a slot of a memory of `size` slots (R26). -/
def slotOk (size : Nat) : Option Nat → Bool
  | none => true
  | some i => decide (i < size)

/-- The canonical form of a code model whose tree has `size` slots, with every index a slot (R27, R28). -/
def TreeMem.wf (size : Nat) (t : TreeMem) : Bool :=
  Table.wf none 256 t.scheme && Table.wf TreeNode.empty size t.tree && slotOk size t.root &&
    t.tree.all (fun e => slotOk size e.2.left && slotOk size e.2.right)

/-- The canonical form of a context entry (R30: 511 tree slots). -/
def CtxEntry.wf (e : CtxEntry) : Bool := Table.wf 0 256 e.freq && TreeMem.wf 511 e.model

/-- The canonical form of the adaptive tree, with every index a slot (R31). -/
def FgkMem.wf (g : FgkMem) : Bool :=
  Table.wf FgkNode.empty Config.fgkCap g.nodes && Table.wf none 256 g.leaf &&
    slotOk Config.fgkCap g.root && slotOk Config.fgkCap g.nyt &&
    g.leaf.all (fun e => slotOk Config.fgkCap e.2) &&
    g.nodes.all (fun e =>
      slotOk Config.fgkCap e.2.parent && slotOk Config.fgkCap e.2.left && slotOk Config.fgkCap e.2.right)

/-- The canonical form of all memories of the engine (R27 to R31): indices strictly rising and inside the
memory, no entry equal to its reset value, every node index a slot of its arena. -/
def Memory.wf (s : State) : Bool :=
  Table.wf 0 256 s.freq && Table.wf DistEntry.empty 256 s.dist && Table.wf RangeEntry.empty 257 s.range &&
    TreeMem.wf Config.treeCap s.main && Table.wf CtxEntry.empty 256 s.ctx && s.ctx.all (fun e => e.2.wf) &&
    s.fgk.wf

/-- The value ranges that R25 states for the working registers whose field is wider than its range, in the
form every step keeps: `OCNT` is 8 where a fault stopped a full byte from being written (R70, R351), `HIGH`
is 0 after reset (R35), and `NCTX` holds the count read just before MALFORMED_CONTEXT (R241, log entry 6). -/
structure State.RangeInv (s : State) : Prop where
  ndist : s.w.ndist.toNat ≤ 256
  nrange : s.w.nrange.toNat ≤ 257
  rt : s.w.rt.toNat ≤ 2 ^ 29
  nnodes : s.main.nnodes.toNat ≤ Config.treeCap
  fgkN : s.fgk.n.toNat ≤ Config.fgkCap
  prev : s.w.prev.toNat ≤ 256
  ocnt : s.w.ocnt.toNat ≤ 8
  icnt : s.w.icnt.toNat ≤ 8
  low : s.w.low.toNat < 2 ^ 31
  high : s.w.high.toNat ≤ 2 ^ 31
  nctx : s.w.nctx.toNat ≤ 256 ∨ (s.status.fault = true ∧ s.faultCode = some .malformedContext)

/-! ### Code trees as plain trees -/

/-- A tree as the walks of R152, R154 and R156 see it: a node with a symbol is a leaf; `dead` is a node
with no symbol and no child. -/
inductive Shape where
  | dead
  | leaf (sym : Byte)
  | left (l : Shape)
  | right (r : Shape)
  | both (l r : Shape)
  deriving DecidableEq, Repr

/-- The nodes on the longest path. -/
def Shape.depth : Shape → Nat
  | .dead => 1
  | .leaf _ => 1
  | .left l => l.depth + 1
  | .right r => r.depth + 1
  | .both l r => max l.depth r.depth + 1

/-- The symbols of the leaves, left to right. -/
def Shape.symbols : Shape → List Byte
  | .dead => []
  | .leaf s => [s]
  | .left l => l.symbols
  | .right r => r.symbols
  | .both l r => l.symbols ++ r.symbols

/-- Each leaf with the bits from the root to it, 0 left and 1 right (R9, R154), after the bits `p`. -/
def Shape.pathsFrom : Shape → Bits → List (Byte × Bits)
  | .dead, _ => []
  | .leaf s, p => [(s, p)]
  | .left l, p => l.pathsFrom (p ++ [false])
  | .right r, p => r.pathsFrom (p ++ [true])
  | .both l r, p => l.pathsFrom (p ++ [false]) ++ r.pathsFrom (p ++ [true])

/-- Each leaf with its path from the root. -/
def Shape.paths (sh : Shape) : List (Byte × Bits) := sh.pathsFrom []

/-- Every one-child node replaced by its child (R152, R153 (b)). -/
def Shape.trunc : Shape → Shape
  | .dead => .dead
  | .leaf s => .leaf s
  | .left l => l.trunc
  | .right r => r.trunc
  | .both l r => .both l.trunc r.trunc

/-- Every node is a leaf or has two children. -/
def Shape.full : Shape → Bool
  | .dead => false
  | .leaf _ => true
  | .left _ => false
  | .right _ => false
  | .both l r => l.full && r.full

/-- The tree with a codeword walked in and its symbol put at the end (R150).  Below a node that has a
symbol nothing is seen. -/
def Shape.graft (sym : Byte) : Bits → Shape → Shape
  | [], _ => .leaf sym
  | b :: bs, .dead => if b then .right (Shape.graft sym bs .dead) else .left (Shape.graft sym bs .dead)
  | _ :: _, .leaf s => .leaf s
  | b :: bs, .left l => if b then .both l (Shape.graft sym bs .dead) else .left (Shape.graft sym bs l)
  | b :: bs, .right r => if b then .right (Shape.graft sym bs r) else .both (Shape.graft sym bs .dead) r
  | b :: bs, .both l r =>
    if b then .both l (Shape.graft sym bs r) else .both (Shape.graft sym bs l) r

/-- A list of codewords walked in, in order, from a lone root. -/
def Shape.ofCodes (codes : List (Byte × Bits)) : Shape :=
  codes.foldl (fun sh c => sh.graft c.1 c.2) .dead

/-- Slot `i` of a code model is the root of a tree of this shape. -/
def TreeMem.Holds (t : TreeMem) : Shape → Nat → Prop
  | .dead, i => t.node i = TreeNode.empty
  | .leaf s, i => (t.node i).sym = some s
  | .left l, i => ∃ j, t.node i = ⟨none, some j, none⟩ ∧ t.Holds l j
  | .right r, i => ∃ k, t.node i = ⟨none, none, some k⟩ ∧ t.Holds r k
  | .both l r, i => ∃ j k, t.node i = ⟨none, some j, some k⟩ ∧ t.Holds l j ∧ t.Holds r k

/-- The slots of that tree, a node before its children. -/
def TreeMem.slots (t : TreeMem) : Shape → Nat → List Nat
  | .dead, i => [i]
  | .leaf _, i => [i]
  | .left l, i => i :: t.slots l ((t.node i).left.getD 0)
  | .right r, i => i :: t.slots r ((t.node i).right.getD 0)
  | .both l r, i =>
    i :: (t.slots l ((t.node i).left.getD 0) ++ t.slots r ((t.node i).right.getD 0))

/-- A node with no symbol and exactly one child: what `TREE.TRUNC` goes past (R152). -/
def TreeNode.unary (nd : TreeNode) : Bool := nd.sym.isNone && nd.left.isSome != nd.right.isSome

/-- A node with no symbol and two children: what `TREE.TRUNC` writes (R152). -/
def TreeNode.binary (nd : TreeNode) : Bool := nd.sym.isNone && nd.left.isSome && nd.right.isSome

/-- `ROOT` is the root of a tree of this shape. -/
def TreeMem.Roots (t : TreeMem) (sh : Shape) : Prop := ∃ r, t.root = some r ∧ t.Holds sh r

/-- The codeword a list of codewords gives a symbol. -/
def codeIn (codes : List (Byte × Bits)) (b : Byte) : Option Bits :=
  (codes.find? (fun c => c.1 == b)).map Prod.snd

/-- The codewords `TREE.FROMSCHEME` takes, in distribution order, a symbol without one skipped (R150). -/
def State.codewords (s : State) : List (Byte × Bits) :=
  s.distList.filterMap (fun e => (s.main.code e.sym.toNat).map (fun c => (e.sym, c)))

/-- `SCHEME` and `TREE` agree on a tree (R155): the present entries are the leaves, each with its path. -/
def TreeMem.Agrees (t : TreeMem) (sh : Shape) : Prop :=
  t.Roots sh ∧ ∀ b : Byte, t.code b.toNat = codeIn sh.paths b

/-- No codeword of the list begins another, and no symbol has two (R170). -/
def PrefixFree (codes : List (Byte × Bits)) : Prop :=
  codes.Pairwise (fun c d => c.1 ≠ d.1 ∧ ¬(c.2 <+: d.2) ∧ ¬(d.2 <+: c.2))

/-! ### The builders' codes, as plain trees -/

/-- A distribution as `DIST` leaves it: no symbol twice, no count 0 (R132). -/
def IsDist (dl : List DistEntry) : Prop := (dl.map DistEntry.sym).Nodup ∧ ∀ e ∈ dl, e.cnt ≠ 0

/-- The order of a distribution: descending counts, ties in ascending byte order (R132). -/
def distBefore (e f : DistEntry) : Prop :=
  f.cnt.toNat < e.cnt.toNat ∨ (e.cnt = f.cnt ∧ e.sym.toNat < f.sym.toNat)

/-- The degenerate tree (R172): the leaf under the left side of the root. -/
def degenerateShape (sym : Byte) : Shape := .left (.leaf sym)

/-- The raw Shannon codewords (R174, R175): `C` is the sum of the counts before. -/
def shannonWords (S : Nat) : List DistEntry → Nat → List (Byte × Bits)
  | [], _ => []
  | e :: es, C =>
    let L := (shannonLen e.cnt.toNat S).getD 0
    (e.sym, numeral L (shannonValue C S L)) :: shannonWords S es (C + e.cnt.toNat)

/-- A bit string as a number, its first bit the most significant (R174). -/
def bitsValue (c : Bits) : Nat := c.foldl (fun v b => 2 * v + if b then 1 else 0) 0

/-- The Shannon tree of a distribution (R171, R172, R174). -/
def shannonShape : List DistEntry → Shape
  | [] => .dead
  | [e] => degenerateShape e.sym
  | dl => (Shape.ofCodes (shannonWords (cntSum dl) dl 0)).trunc

/-- `d_k` of R179: the difference of the two partial sums where entries `0 .. k` of a segment go left. -/
def fanoGap (seg : List DistEntry) (k : Nat) : Nat :=
  (2 * (cntSum (seg.take (k + 1)) : Int) - (cntSum seg : Int)).natAbs

/-- The Fano tree of a segment (R178, R179); the first argument bounds the depth by the segment's length. -/
def fanoTree : Nat → List DistEntry → Shape
  | 0, _ => .dead
  | _ + 1, [] => .dead
  | _ + 1, [e] => .leaf e.sym
  | n + 1, seg =>
    .both (fanoTree n (seg.take (fanoSplit seg + 1))) (fanoTree n (seg.drop (fanoSplit seg + 1)))

/-- The Fano tree of a distribution (R171, R172, R178). -/
def fanoShape : List DistEntry → Shape
  | [] => .dead
  | [e] => degenerateShape e.sym
  | dl => fanoTree dl.length dl

/-- The least weight of a nonempty queue, the first among equals, and what is left (R183). -/
def takeLeast : List (Nat × Shape) → Option ((Nat × Shape) × List (Nat × Shape))
  | [] => none
  | x :: xs =>
    match takeLeast xs with
    | none => some (x, [])
    | some (m, rest) => if m.1 < x.1 then some (m, x :: rest) else some (x, xs)

/-- Huffman's merges on a queue of weighted trees (R182, R184): the first taken becomes the right child. -/
def huffmanTree : Nat → List (Nat × Shape) → Shape
  | 0, _ => .dead
  | k + 1, q =>
    match takeLeast q with
    | none => .dead
    | some (a, q1) =>
      match takeLeast q1 with
      | none => a.2
      | some (b, q2) => huffmanTree k (q2 ++ [(a.1 + b.1, .both b.2 a.2)])

/-- The Huffman tree of a distribution (R171, R172, R182). -/
def huffmanShape : List DistEntry → Shape
  | [] => .dead
  | [e] => degenerateShape e.sym
  | dl => huffmanTree dl.length (dl.map (fun e => (e.cnt.toNat, .leaf e.sym)))

/-- The three static methods (R91). -/
inductive StaticMethod where
  | shannon
  | fano
  | huffman
  deriving DecidableEq, Repr

/-- The `CMP` command of a static method. -/
def StaticMethod.cmp : StaticMethod → Instr
  | .shannon => .cmpShannon
  | .fano => .cmpFano
  | .huffman => .cmpHuffman

/-- The `DEC` command of a static method. -/
def StaticMethod.dec : StaticMethod → Instr
  | .shannon => .decShannon
  | .fano => .decFano
  | .huffman => .decHuffman

/-- The builder of a static method. -/
def StaticMethod.bld : StaticMethod → Instr
  | .shannon => .bldShannon
  | .fano => .bldFano
  | .huffman => .bldHuffman

/-- The tree a static method makes of a distribution. -/
def StaticMethod.shape : StaticMethod → List DistEntry → Shape
  | .shannon => shannonShape
  | .fano => fanoShape
  | .huffman => huffmanShape

/-! ### Artifacts -/

/-- The frequency table of a byte sequence: one increment a byte (R130). -/
def countTable (S : List Byte) : Table (BitVec 32) := S.foldl (fun f b => freqBump f b.toNat) []

/-- `n` bytes of a number, the least significant first (R67, R76). -/
def leBytes : Nat → Nat → List Byte
  | 0, _ => []
  | n + 1, v => BitVec.ofNat 8 (v % 256) :: leBytes n (v / 256)

/-- The frequency header (R101). -/
def headerBytes (f : Table (BitVec 32)) : List Byte :=
  (List.range 256).flatMap (fun s => leBytes 4 (freqGet f s).toNat)

/-- A byte from at most 8 bits, the first its bit 7, zero padded (R70, R72). -/
def byteOf (c : Bits) : Byte :=
  BitVec.ofNat 8 (((c ++ List.replicate 8 false).take 8).foldl (fun v b => 2 * v + (if b then 1 else 0)) 0)

/-- A bit string packed into bytes, the last one zero padded (R70 to R72). -/
def packBits (c : Bits) : List Byte :=
  (List.range ((c.length + 7) / 8)).map (fun i => byteOf ((c.drop (8 * i)).take 8))

/-- The codewords of a byte sequence under one tree, joined (R102). -/
def codeBits (sh : Shape) (S : List Byte) : Bits := S.flatMap (fun b => (codeIn sh.paths b).getD [])

/-- The static artifact of a byte sequence (R102). -/
def staticArtifact (m : StaticMethod) (S : List Byte) : List Byte :=
  headerBytes (countTable S) ++ packBits (codeBits (m.shape (distribution (countTable S))) S)

/-- The bytes that follow an occurrence of byte `c` (R231). -/
def successors (c : Nat) : List Byte → List Byte
  | [] => []
  | [_] => []
  | a :: b :: S => if a.toNat = c then b :: successors c (b :: S) else successors c (b :: S)

/-- The contexts of a byte sequence, ascending (R231). -/
def contextsOf (S : List Byte) : List Nat := (List.range 256).filter (fun c => successors c S ≠ [])

/-- The Huffman tree of a frequency table (R232). -/
def huffmanOf (f : Table (BitVec 32)) : Shape := huffmanShape (distribution f)

/-- The context payload after the first byte (R104): each byte in the tree of the byte before it. -/
def contextBitsFrom (model : Nat → Shape) : Byte → List Byte → Bits
  | _, [] => []
  | a, b :: S => (codeIn (model a.toNat).paths b).getD [] ++ contextBitsFrom model b S

/-- The context payload (R104). -/
def contextBits (S : List Byte) : Bits :=
  match S with
  | [] => []
  | b :: rest =>
    (codeIn (huffmanOf (countTable S)).paths b).getD [] ++
      contextBitsFrom (fun c => huffmanOf (countTable (successors c S))) b rest

/-- The header of the context artifact (R103, R233). -/
def contextHeaderOf (S : List Byte) : List Byte :=
  headerBytes (countTable S) ++ leBytes 8 (contextsOf S).length ++
    (contextsOf S).flatMap (fun c => BitVec.ofNat 8 c :: headerBytes (countTable (successors c S)))

/-- The context artifact (R103). -/
def contextArtifact (S : List Byte) : List Byte := contextHeaderOf S ++ packBits (contextBits S)

/-- Records of a context header (R103): the context byte and its table. -/
def contextRecords (recs : List (Byte × Table (BitVec 32))) : List Byte :=
  recs.flatMap (fun r => r.1 :: headerBytes r.2)

/-- A context header (R103) over any tables: the global table, the number of records, the records. -/
def contextHeader (f : Table (BitVec 32)) (recs : List (Byte × Table (BitVec 32))) : List Byte :=
  headerBytes f ++ leBytes 8 recs.length ++ contextRecords recs

/-- The tree `DEC.CONTEXT` walks after symbol `prev` (R242) under a context header: the global one at the start, then
that of the record of `prev`; with no record, or an all-zero one (R241), a tree with no leaf. -/
def contextTree (f : Table (BitVec 32)) (recs : List (Byte × Table (BitVec 32))) : Option Byte → Shape
  | none => huffmanOf f
  | some a =>
    match recs.find? (fun r => r.1 == a) with
    | none => .dead
    | some r => huffmanOf r.2

/-- A byte sequence has the bits `c` under trees chosen by the symbol before (R242): the codewords, joined. -/
def ContextBits (tree : Option Byte → Shape) : Option Byte → List Byte → Bits → Prop
  | _, [], c => c = []
  | prev, b :: L, c => ∃ w r, codeIn (tree prev).paths b = some w ∧ c = w ++ r ∧ ContextBits tree (some b) L r

/-- A payload as the bit parser takes it, each byte's bit 7 first (R73). -/
def payloadBits (p : List Byte) : Bits := p.flatMap byteBits

/-- The adaptive tree both sides start from (R251), over what its slots held before. -/
def fgkStart (g : FgkMem) : FgkMem :=
  { g.setNode 0 ⟨0, BitVec.ofNat 10 Config.rankMax, .nyt, 0, none, none, none⟩ with
    n := 1, root := some 0, nyt := some 0, leaf := [] }

/-- What a step on the adaptive tree leaves. -/
def FgkMem.after {α : Type} (m : Run FgkMem α) (g : FgkMem) : FgkMem :=
  match m g with
  | .ok _ h => h
  | .error _ h => h

/-- The path of the `NYT` node (R254). -/
def nytPath (g : FgkMem) : Bits := (g.nyt.bind (fgkPath g)).getD []

/-- The bits of a byte in the adaptive tree as it stands (R105, R255). -/
def fgkBits (g : FgkMem) (b : Byte) : Bits :=
  match leafGet g.leaf b.toNat with
  | some n => (fgkPath g n).getD []
  | none => nytPath g ++ byteBits b

/-- The adaptive tree after a byte has been processed (R255). -/
def fgkAfter (g : FgkMem) (b : Byte) : FgkMem :=
  match leafGet g.leaf b.toNat with
  | some n => FgkMem.after (fgkUpdate fgkBound (some n)) g
  | none => FgkMem.after (do
      let n ← fgkSplit b
      fgkUpdate fgkBound (some n)) g

/-- The bits of a byte sequence and the tree after it (R105). -/
def adaptiveBits : FgkMem → List Byte → Bits
  | _, [] => []
  | g, b :: S => fgkBits g b ++ adaptiveBits (fgkAfter g b) S

/-- The adaptive artifact (R105, R263), the tree's slots having held `g` before. -/
def adaptiveArtifact (g : FgkMem) (S : List Byte) : List Byte :=
  let bits := adaptiveBits (fgkStart g) S
  let last := S.foldl fgkAfter (fgkStart g)
  packBits (bits ++ padBits (nytPath last) (bits.length % 8))

/-- The sibling property (R252), (a) to (h), with the root and the number of slots (R253). -/
structure FgkMem.Sibling (g : FgkMem) : Prop where
  used : g.n.toNat ≤ Config.fgkCap
  root : ∃ r, g.root = some r ∧ r < g.n.toNat ∧ (g.node r).parent = none ∧
    (g.node r).rank.toNat = Config.rankMax
  ranks : ∀ i, i < g.n.toNat → Config.rankMax + 1 ≤ (g.node i).rank.toNat + g.n.toNat ∧
    (g.node i).rank.toNat ≤ Config.rankMax ∧
    ∀ j, j < g.n.toNat → (g.node i).rank = (g.node j).rank → i = j
  sorted : ∀ i j, i < g.n.toNat → j < g.n.toNat → (g.node i).rank.toNat < (g.node j).rank.toNat →
    (g.node i).weight.toNat ≤ (g.node j).weight.toNat
  inner : ∀ i, i < g.n.toNat → (g.node i).kind = .internal →
    ∃ l r, (g.node i).left = some l ∧ (g.node i).right = some r ∧ l < g.n.toNat ∧ r < g.n.toNat ∧
      (g.node l).parent = some i ∧ (g.node r).parent = some i ∧
      (g.node l).rank.toNat + 1 = (g.node r).rank.toNat ∧
      (g.node i).weight.toNat = (g.node l).weight.toNat + (g.node r).weight.toNat
  outer : ∀ i, i < g.n.toNat → (g.node i).kind ≠ .internal →
    (g.node i).left = none ∧ (g.node i).right = none
  parent : ∀ i, i < g.n.toNat → g.root ≠ some i →
    ∃ p, (g.node i).parent = some p ∧ p < g.n.toNat ∧ (g.node p).kind = .internal ∧
      ((g.node p).left = some i ∨ (g.node p).right = some i) ∧
      (g.node i).rank.toNat < (g.node p).rank.toNat
  nyt : ∃ y, g.nyt = some y ∧ y < g.n.toNat ∧ (g.node y).kind = .nyt ∧ (g.node y).weight = 0 ∧
    (g.node y).rank.toNat + g.n.toNat = Config.rankMax + 1 ∧
    (∀ i, i < g.n.toNat → (g.node i).kind = .nyt → i = y) ∧
    ∀ p, (g.node y).parent = some p → (g.node p).rank.toNat = (g.node y).rank.toNat + 2
  leaf : ∀ b : Byte, ∀ i, leafGet g.leaf b.toNat = some i ↔
    i < g.n.toNat ∧ (g.node i).kind = .leaf ∧ (g.node i).sym = b

/-- R250: the weights count the bytes processed: each leaf its symbol, the root all of them; a symbol has a leaf
exactly if it has been seen. -/
structure FgkMem.Weighs (g : FgkMem) (S : List Byte) : Prop where
  seen : ∀ b ∈ S, ∃ n, leafGet g.leaf b.toNat = some n ∧ (g.node n).weight.toNat = S.count b
  unseen : ∀ b : Byte, b ∉ S → leafGet g.leaf b.toNat = none
  root : ∃ r, g.root = some r ∧ (g.node r).weight.toNat = S.length

/-! ### The arithmetic code -/

/-- The entries of `RANGE` for the symbols of a distribution, from `cum` on (R134). -/
def rangesFrom : List DistEntry → Nat → List RangeEntry
  | [], _ => []
  | e :: es, cum =>
    ⟨e.sym.setWidth 9, BitVec.ofNat 30 cum, BitVec.ofNat 30 (cum + e.cnt.toNat)⟩ ::
      rangesFrom es (cum + e.cnt.toNat)

/-- The weight of the end-of-stream symbol: the count of the last entry (R134). -/
def eosWeight (dl : List DistEntry) : Nat := (dl.getLast?.map (fun e => e.cnt.toNat)).getD 0

/-- `RT` (R134). -/
def rangeTotal (dl : List DistEntry) : Nat := cntSum dl + eosWeight dl

/-- The valid entries of `RANGE` (R134, R135). -/
def rangeTable (dl : List DistEntry) : List RangeEntry :=
  match dl with
  | [] => []
  | _ => rangesFrom dl 0 ++
      [⟨BitVec.ofNat 9 Config.eosSym, BitVec.ofNat 30 (cntSum dl), BitVec.ofNat 30 (rangeTotal dl)⟩]

/-- `LOW`, `HIGH` and `PEND` as numbers (R291). -/
structure Interval where
  low : Nat
  high : Nat
  pend : Nat
  deriving DecidableEq, Repr

/-- The whole scale, nothing deferred (R291). -/
def Interval.whole : Interval := ⟨0, Config.scaleM, 0⟩

/-- `Narrow` (R303). -/
def Interval.narrow (rt : Nat) (e : RangeEntry) (x : Interval) : Interval :=
  ⟨subBound x.low x.high rt e.cumLo.toNat, subBound x.low x.high rt e.cumHi.toNat, x.pend⟩

/-- A bit and the deferred opposite bits after it (R304). -/
def emitted (b : Bool) (pend : Nat) : Bits := b :: List.replicate pend (!b)

/-- `EncRenorm` (R304): the bits it emits and the interval it leaves; the first argument bounds the passes. -/
def Interval.renorm : Nat → Interval → Bits × Interval
  | 0, x => ([], x)
  | n + 1, x =>
    if x.high ≤ Config.half then
      let r := Interval.renorm n ⟨2 * x.low, 2 * x.high, 0⟩
      (emitted false x.pend ++ r.1, r.2)
    else if Config.half ≤ x.low then
      let r := Interval.renorm n ⟨2 * x.low - Config.scaleM, 2 * x.high - Config.scaleM, 0⟩
      (emitted true x.pend ++ r.1, r.2)
    else if Config.quarter ≤ x.low ∧ x.high ≤ Config.threeQuarters then
      Interval.renorm n ⟨2 * (x.low - Config.quarter), 2 * (x.high - Config.quarter), x.pend + 1⟩
    else ([], x)

/-- `ArithEncode` (R302). -/
def Interval.encode (rt : Nat) (e : RangeEntry) (x : Interval) : Bits × Interval :=
  Interval.renorm renormBound (x.narrow rt e)

/-- A list of entries encoded, one after the other. -/
def Interval.encodeAll (rt : Nat) : List RangeEntry → Interval → Bits × Interval
  | [], x => ([], x)
  | e :: es, x =>
    let r := x.encode rt e
    let q := Interval.encodeAll rt es r.2
    (r.1 ++ q.1, q.2)

/-- `ArithFlush` (R306). -/
def Interval.flush (x : Interval) : Bits := emitted (decide (Config.quarter ≤ x.low)) (x.pend + 1)

/-- The entry of a symbol (R292). -/
def entryOf (table : List RangeEntry) (sym : Nat) : RangeEntry :=
  (table.find? (fun e => e.sym.toNat == sym)).getD RangeEntry.empty

/-- The entries the arithmetic encoder goes through: one a byte, then the end-of-stream symbol's (R300). -/
def arithEntries (dl : List DistEntry) (S : List Byte) : List RangeEntry :=
  (S.map (fun b => b.toNat) ++ [Config.eosSym]).map (entryOf (rangeTable dl))

/-- The bits of all symbols of a byte sequence and the end-of-stream symbol, and the interval left (R300). -/
def arithRun (S : List Byte) : Bits × Interval :=
  let dl := distribution (countTable S)
  Interval.encodeAll (rangeTotal dl) (arithEntries dl S) Interval.whole

/-- The arithmetic payload (R106). -/
def arithBits (S : List Byte) : Bits := (arithRun S).1 ++ (arithRun S).2.flush

/-- The interval `CMP.ARITH` leaves in `LOW` and `HIGH` (R300). -/
def arithFinal (S : List Byte) : Interval := (arithRun S).2

/-- The arithmetic artifact (R106, R309 (a)). -/
def arithArtifact (S : List Byte) : List Byte :=
  headerBytes (countTable S) ++ (if S = [] then [] else packBits (arithBits S))

/-- The bound of R136 on a byte sequence: its length and the end-of-stream weight. -/
def arithFits (S : List Byte) : Prop := S.length + eosWeight (distribution (countTable S)) ≤ Config.arithTMax

end Sys2Proof.Machine
end

