-- ==== Sys2Proof/Certificates/Slice0/Obligations.lean ====
section
/-! DEFINITION. The statements for the provers. -/

open Sys2Proof Sys2Proof.Machine

/-! ### Reset, decoding, the step, the system commands -/

/-- R380, R35: the state after hardware reset, register by register and memory by memory; the engine waits
for the first act of the host.  Two clauses are the model's choice: the width of `CUR`, 14 bits in this read
(log entry 14: R25 gives none, R26 gives 14 or 10 by memory), and that a step with no act of the host waiting
leaves the state as it is (log entry 1).  That the streams are empty is log entry 2. -/
def Obligations.ResetState : Prop :=
  (∀ r : Reg, State.reset.reg r =
    match r with
    | .ROOT | .CUR => 2 ^ 14 - 1
    | .FGK_ROOT | .FGK_NYT => 2 ^ 10 - 1
    | .PREV => 256
    | _ => 0) ∧
  State.reset.main.root = none ∧ State.reset.w.cur = none ∧ State.reset.fgk.root = none ∧
  State.reset.fgk.nyt = none ∧
  (∀ n : Nat,
    freqGet State.reset.freq n = 0 ∧ distGet State.reset.dist n = ⟨0, 0⟩ ∧
    rangeGet State.reset.range n = ⟨0, 0, 0⟩ ∧ State.reset.main.code n = none ∧
    State.reset.main.node n = ⟨none, none, none⟩ ∧
    ctxGet State.reset.ctx n = ⟨false, [], ⟨[], [], 0, none⟩⟩ ∧
    State.reset.fgk.node n = ⟨0, 0, .internal, 0, none, none, none⟩ ∧
    leafGet State.reset.fgk.leaf n = none) ∧
  step State.reset = .next State.reset

/-- R380, R381, R35, R355: hardware reset and the `RESET` command give the state of R35; the command keeps the
three position registers, hardware reset zeroes them and stops a command that runs, whatever the command did
to the streams before.  The model's choices: the count of accesses is kept by `RESET` and zeroed by hardware
reset (log entry 17); the host's acts (log entry 1) and the count of free values (log entry 4) are no engine
state; `OUT_LEN` is 0 while the content of the output stays (log entry 10). -/
def Obligations.BothResets : Prop :=
  (∀ s : State, s.status.busy = false →
    exec .reset s = .next { State.reset with io := s.io, host := s.host, fresh := s.fresh }) ∧
  (∀ s : State, hostStep .hwReset s = .next { State.reset with
    io := { s.io with inPos := 0, inBase := 0, outLen := 0, inAcc := 0, outAcc := 0 }
    host := s.host, fresh := s.fresh }) ∧
  (∀ (s t : State) (c : Byte) (onInput : Bool) (k : Nat),
    hostStep (.resetDuring c onInput k) s = .next t →
    t = { State.reset with
      io := { t.io with inPos := 0, inBase := 0, outLen := 0, inAcc := 0, outAcc := 0 }
      host := s.host, fresh := t.fresh } ∧
    s.io.out <+: t.io.out ∧ (t.io.input = s.io.input ∨ s.io.again = some t.io.input) ∧
    t.io.failIn = s.io.failIn ∧ t.io.failOut = s.io.failOut)

/-- R360, R362: `NOP` ends with `DONE` set and `PHASE` idle, and nothing else done; while the engine is faulted it
is ignored.  That its end writes `PHASE` is R362's "at its end" read for `NOP` too (log entry 20): a difference only
in a state without a fault whose phase is not `IDLE`, which no run reaches. -/
def Obligations.NopEffect : Prop :=
  encode .nop = 0x00 ∧
  (∀ s : State, s.Ready →
    exec .nop s = .next { s with status := ⟨false, true, false⟩, phase := .idle }) ∧
  (∀ s : State, s.status.busy = false → s.status.fault = true → exec .nop s = .next s) ∧
  (∀ t : State, exec .nop State.reset = .next t → t.status.word = 0b00000010)

/-- Some command words, written out from R91 and R92. -/
def Obligations.KnownWords : Prop :=
  decode 0b00000000 = .ok .nop ∧ decode 0b00000001 = .ok .reset ∧ decode 0b00010000 = .ok .count ∧
  decode 0b00010010 = .ok .ranges ∧ decode 0b00011001 = .ok .treeTrunc ∧
  decode 0b00100010 = .ok .bldHuffman ∧ decode 0b01000000 = .ok .cmpShannon ∧
  decode 0b01000101 = .ok .cmpArith ∧ decode 0b01001010 = .ok .decHuffman ∧
  decode 0b01001100 = .ok .decAdaptive

/-- R90, R93: the decoder and the encoder are each other's inverse, and a byte that is the code of no command
is rejected; 233 bytes are. -/
def Obligations.DecodeEncode : Prop :=
  (∀ i : Instr, i.wf = true → decode (encode i) = .ok i) ∧
  (∀ (c : Byte) (i : Instr), decode c = .ok i → encode i = c) ∧
  (∀ c : Byte, (∀ i : Instr, encode i ≠ c) → decode c = .error (.illegal c)) ∧
  ((List.range 256).filter (fun n =>
    decide (decode (BitVec.ofNat 8 n) = .error (.illegal (BitVec.ofNat 8 n))))).length = 233

/-- R21, R362: the byte that the host's next act writes to `CMD` runs the command it decodes to, at the state
in which that act is no longer waiting. -/
def Obligations.StepRunsCommand : Prop :=
  ∀ (s : State) (c : Byte) (i : Instr) (rest : List HostAct),
    s.host = .writeCmd c :: rest → decode c = .ok i → i.wf = true → step s = exec i (s.setHost rest)

/-- R346, R94, R353: an illegal code written to an idle, unfaulted engine; `DONE` is 0, no stream and no other
state is touched, `PHASE` stays. -/
def Obligations.IllegalCodeFaults : Prop :=
  ∀ (s : State) (c : Byte) (rest : List HostAct),
    s.Ready → s.host = .writeCmd c :: rest → (∀ i : Instr, encode i ≠ c) →
    step s = .next { s with
      host := rest, status := ⟨false, false, true⟩, faultCode := some .illegalCmd }

/-- R354, R21, R362 (2): a faulted engine ignores every byte but the code of `RESET`, which clears the fault. -/
def Obligations.FaultIsSticky : Prop :=
  ∀ (s : State) (c : Byte) (rest : List HostAct),
    s.status.busy = false → s.status.fault = true → s.host = .writeCmd c :: rest →
    (c ≠ 0x01 → step s = .next (s.setHost rest)) ∧
    (c = 0x01 → ∃ t, step s = .next t ∧ t.status = ⟨false, false, false⟩ ∧ t.faultCode = none)

/-- R391, R392 (the model's choice, log entry 15): while a command runs the model offers no write to `CMD` and
no change of a stream; hardware reset it does (`BothResets`). -/
def Obligations.BusyRefused : Prop :=
  ∀ s : State, s.status.busy = true →
    (∀ i : Instr, exec i s = .refused .cmdWhileBusy) ∧
    (∀ c : Byte, hostStep (.writeCmd c) s = .refused .cmdWhileBusy) ∧
    (∀ (c : Byte) (onInput : Bool) (k : Nat),
      hostStep (.resetDuring c onInput k) s = .refused .cmdWhileBusy) ∧
    (∀ (bytes : List Byte) (again : Option (List Byte)) (cursor : Nat),
      hostStep (.attachIn bytes again cursor) s = .refused .hostActWhileBusy) ∧
    (∀ cursor : Nat, hostStep (.seekIn cursor) s = .refused .hostActWhileBusy) ∧
    (∀ bytes : List Byte, hostStep (.attachOut bytes) s = .refused .hostActWhileBusy)

/-- R384: attaching or positioning a stream between commands rewrites that stream's part of the state and
nothing else. -/
def Obligations.HostAttaches : Prop :=
  ∀ s : State, s.status.busy = false →
    (∀ (bytes : List Byte) (cursor : Nat), bytes.length < 2 ^ 64 → cursor ≤ bytes.length →
      ∃ t, hostStep (.attachIn bytes none cursor) s = .next t ∧ t.io.inPos.toNat = cursor ∧
        t = { s with io := { s.io with input := bytes, again := none, inPos := t.io.inPos } }) ∧
    (∀ cursor : Nat, cursor ≤ s.io.input.length → s.io.input.length < 2 ^ 64 →
      ∃ t, hostStep (.seekIn cursor) s = .next t ∧ t.io.inPos.toNat = cursor ∧
        t = { s with io := { s.io with inPos := t.io.inPos } }) ∧
    (∀ bytes : List Byte, bytes.length < 2 ^ 64 →
      ∃ t, hostStep (.attachOut bytes) s = .next t ∧ t.io.out = bytes ∧
        t.io.outLen.toNat = bytes.length ∧
        t = { s with io := { s.io with outRev := t.io.outRev, outLen := t.io.outLen } })

/-- R21, R22, R23, R26, R341, R366, R370: what the host reads of `CMD`, `STATUS`, `FAULTCODE`, `PHASE`, of the index
registers and of the index fields of the memories, the engine not being busy; `STATUS` at all times (R393).  Two
clauses are the model's choice: the width of `CUR`, log entry 14 (R25 gives none); and that `CMD` reads 0 while busy too, log entry 8
(R21 against R393, which leaves every read but that of `STATUS` open). -/
def Obligations.ReadBack : Prop :=
  (∀ s : State, readBack s (.reg .CMD) = .word 8 0 ∧
    readBack s (.reg .STATUS) = .word 8 (BitVec.ofNat 8
      ((if s.status.busy then 1 else 0) + (if s.status.done then 2 else 0) + (if s.status.fault then 4 else 0)))) ∧
  ∀ s : State, s.status.busy = false →
    readBack s (.reg .FAULTCODE) = .word 8 (match s.faultCode with
      | none => 0
      | some .ioRead => 1
      | some .ioWrite => 2
      | some .illegalCmd => 3
      | some .countOverflow => 4
      | some .rangeTotal => 5
      | some .arenaOverflow => 6
      | some .malformedHeader => 7
      | some .malformedTruncated => 8
      | some .malformedPath => 9
      | some .malformedNoSymbol => 10
      | some .malformedContext => 11
      | some .malformedLiteral => 12) ∧
    readBack s (.reg .PHASE) = .word 8 (match s.phase with
      | .idle => 0
      | .scan1 => 1
      | .build => 2
      | .hdrWr => 3
      | .enc => 4
      | .term => 5
      | .hdrRd => 6
      | .dec => 7
      | .prim => 8) ∧
    (∀ (x : Option Nat) (f : Field),
      (f = .reg .ROOT ∧ x = s.main.root) ∨ (f = .main .root ∧ x = s.main.root) ∨
      (f = .reg .CUR ∧ x = s.w.cur) ∨
      (∃ n, f = .main (.treeLeft n) ∧ x = (s.main.node n.val).left) ∨
      (∃ n, f = .main (.treeRight n) ∧ x = (s.main.node n.val).right) ∨
      (∃ c : Byte, f = .ctx c .root ∧ x = (ctxGet s.ctx c.toNat).model.root) ∨
      (∃ (c : Byte) (n : Fin 511), f = .ctx c (.treeLeft n) ∧
        x = ((ctxGet s.ctx c.toNat).model.node n.val).left) ∨
      (∃ (c : Byte) (n : Fin 511), f = .ctx c (.treeRight n) ∧
        x = ((ctxGet s.ctx c.toNat).model.node n.val).right) →
      (x = none → readBack s f = .word 14 16383) ∧
      ∀ i, x = some i → i < Config.treeCap → readBack s f = .word 14 (BitVec.ofNat 14 i) ∧
        BitVec.ofNat 14 i ≠ 16383) ∧
    (∀ (x : Option Nat) (f : Field),
      (f = .reg .FGK_ROOT ∧ x = s.fgk.root) ∨ (f = .reg .FGK_NYT ∧ x = s.fgk.nyt) ∨
      (∃ b : Byte, f = .fgkLeaf b ∧ x = leafGet s.fgk.leaf b.toNat) ∨
      (∃ n, f = .fgk n .parent ∧ x = (s.fgk.node n.val).parent) ∨
      (∃ n, f = .fgk n .left ∧ x = (s.fgk.node n.val).left) ∨
      (∃ n, f = .fgk n .right ∧ x = (s.fgk.node n.val).right) →
      (x = none → readBack s f = .word 10 1023) ∧
      ∀ i, x = some i → i < Config.fgkCap → readBack s f = .word 10 (BitVec.ofNat 10 i) ∧
        BitVec.ofNat 10 i ≠ 1023)

/-! ### Acceptance, endings, faults, invariants: every command -/

/-- R362, R24: accepting a primitive or stream command latches `IN_BASE`, and no command changes it after;
`NOP` and `RESET` keep it. -/
def Obligations.InBaseLatched : Prop :=
  ∀ (i : Instr) (s t : State), s.Ready → exec i s = .next t →
    t.io.inBase = if i.cmdClass = .system then s.io.inBase else s.io.inPos

/-- R350, R362: an accepted command other than `RESET` ends in one of two ways: done, in `IDLE`; or in a fault,
in a phase other than `IDLE`.  (Which phase goes with which fault is said where the fault is raised.) -/
def Obligations.TwoEndings : Prop :=
  ∀ (i : Instr) (s t : State), i ≠ .reset → s.Ready → exec i s = .next t →
    s.Ended t ∨ ∃ c p, t.Trapped c p ∧ p ≠ .idle

/-- R342: which command can raise which fault; an illegal code raises ILLEGAL_CMD.  Every step keeps the
premise `RangeInv` (`RangesKept`). -/
def Obligations.FaultsByCommand : Prop :=
  (∀ (i : Instr) (s t : State) (c : FaultCode), s.Ready → s.RangeInv → s.io.Sound →
    8 * s.io.rest.length < 2 ^ 64 → exec i s = .next t → t.status.fault = true → t.faultCode = some c →
    c ∈ mayRaise i) ∧
  (∀ (c : Byte) (s : State), s.Ready → (∀ i : Instr, encode i ≠ c) →
    ∃ t, writeCmd c s = .next t ∧ t.status.fault = true ∧ t.faultCode = some .illegalCmd)

/-- R22, R23, R350, R362: every step keeps the agreement of `STATUS`, `FAULTCODE` and `PHASE`. -/
def Obligations.ControlKept : Prop :=
  ∀ s t : State, s.ControlInv → step s = .next t → t.ControlInv

/-- R27 to R31: every step keeps the canonical form of the memories, with every index inside its arena. -/
def Obligations.MemoryKept : Prop :=
  ∀ s t : State, Memory.wf s = true → step s = .next t → Memory.wf t = true

/-- R25: every step keeps the value ranges of the working registers whose field is wider than its range. -/
def Obligations.RangesKept : Prop :=
  ∀ s t : State, s.RangeInv → step s = .next t → t.RangeInv

/-- The three invariants hold after reset. -/
def Obligations.InvariantsAtReset : Prop :=
  State.reset.ControlInv ∧ Memory.wf State.reset = true ∧ State.reset.RangeInv

/-- R60, R61: no command writes the input stream (one that breaks the promise of R390 changes at the rewind),
and the output stream only grows. -/
def Obligations.StreamsKept : Prop :=
  ∀ (i : Instr) (s t : State), exec i s = .next t →
    (t.io.input = s.io.input ∨ s.io.again = some t.io.input) ∧
    (∃ bytes, s.Appended t bytes) ∧ t.io.failIn = s.io.failIn ∧ t.io.failOut = s.io.failOut

/-- R400: every command ends on every input of fewer than 2^61 bytes, whatever the oracle answers and whatever
the streams and memories hold; for `TREE.TRUNC` and `TREE.DERIVE`, `ROOT` is absent or the root of a tree in the
arena, and for `BLD.SHANNON`, `DIST` is a distribution, as the engine's own commands leave them (log entry 21). -/
def Obligations.CommandsEnd : Prop :=
  ∀ (i : Instr) (s : State), s.Ready → s.io.Sound → 8 * s.io.rest.length < 2 ^ 64 →
    (∀ b, s.io.again = some b → 8 * b.length < 2 ^ 64) →
    (i = .treeTrunc ∨ i = .treeDerive → s.main.root = none ∨ ∃ (r : Nat) (sh : Shape),
      s.main.root = some r ∧ s.main.Holds sh r ∧ (s.main.slots sh r).Nodup ∧ sh.depth ≤ Config.treeCap) →
    (i = .bldShannon → IsDist s.distList) → ∃ t, exec i s = .next t

/-- R351, R352, R355: with failing accesses, or stopped by hardware reset, a command has appended a prefix of
what it appends with none. -/
def Obligations.FaultLeavesPrefix : Prop :=
  ∀ (i : Instr) (s u : State), s.Ready →
    exec i (s.setIo { s.io with failIn := [], failOut := [] }) = .next u →
    (∀ t, exec i s = .next t → t.io.out <+: u.io.out) ∧
    ∀ (onInput : Bool) (k : Nat) (t : State),
      hostStep (.resetDuring (encode i) onInput k) s = .next t → t.io.out <+: u.io.out

/-! ### Frames -/

/-- R130, R92: what `COUNT` leaves alone, however it ends. -/
def Obligations.CountFrame : Prop :=
  ∀ s t : State, exec .count s = .next t →
    t = { s with
      status := t.status, faultCode := t.faultCode, phase := t.phase, freq := t.freq
      w := { s.w with total := t.w.total }
      io := { s.io with
        inPos := t.io.inPos, inBase := t.io.inBase, inAcc := t.io.inAcc, outAcc := t.io.outAcc } }

/-- R132, R134, R92: what `DIST` and `RANGES` leave alone.  That entries behind the new table keep what they hold
is the model's choice, log entry 19: V7 leaves them open and lets a model keep them. -/
def Obligations.DistRangesFrame : Prop :=
  (∀ s t : State, exec .dist s = .next t →
    t = { s with
      status := t.status, faultCode := t.faultCode, phase := t.phase, dist := t.dist
      w := { s.w with ndist := t.w.ndist }
      io := { s.io with inBase := t.io.inBase, inAcc := t.io.inAcc, outAcc := t.io.outAcc } } ∧
    ∀ k, (distribution s.freq).length ≤ k → distGet t.dist k = distGet s.dist k) ∧
  (∀ s t : State, exec .ranges s = .next t →
    t = { s with
      status := t.status, faultCode := t.faultCode, phase := t.phase, dist := t.dist, range := t.range
      fresh := t.fresh
      w := { s.w with ndist := t.w.ndist, nrange := t.w.nrange, rt := t.w.rt }
      io := { s.io with inBase := t.io.inBase, inAcc := t.io.inAcc, outAcc := t.io.outAcc } } ∧
    ∀ k, (distribution s.freq).length ≤ k →
      distGet t.dist k = distGet s.dist k ∧ rangeGet t.range (k + 1) = rangeGet s.range (k + 1))

/-- R92, R150, R152, R154, R170: the code-tree and builder commands touch `SCHEME`, `TREE`, `NNODES`, `ROOT`
and no stream; `TREE.FROMSCHEME` keeps `SCHEME`, `TREE.TRUNC` also `NNODES`, `TREE.DERIVE` all but `SCHEME`. -/
def Obligations.TreeFrame : Prop :=
  (∀ (i : Instr) (s t : State),
    i ∈ [.treeFromScheme, .treeTrunc, .treeDerive, .bldShannon, .bldFano, .bldHuffman] →
    exec i s = .next t →
    t = { s with
      status := t.status, faultCode := t.faultCode, phase := t.phase, main := t.main
      io := { s.io with inBase := t.io.inBase, inAcc := t.io.inAcc, outAcc := t.io.outAcc } }) ∧
  (∀ s t : State, exec .treeFromScheme s = .next t → t.main.scheme = s.main.scheme) ∧
  (∀ s t : State, exec .treeTrunc s = .next t →
    t.main.scheme = s.main.scheme ∧ t.main.nnodes = s.main.nnodes) ∧
  (∀ s t : State, exec .treeDerive s = .next t → t.main = { s.main with scheme := t.main.scheme })

/-- R203, R213, R383: what the static stream commands leave alone, however they end. -/
def Obligations.StaticFrame : Prop :=
  ∀ (m : StaticMethod) (i : Instr) (s t : State), i = m.cmp ∨ i = m.dec → exec i s = .next t →
    t = { s with
      status := t.status, faultCode := t.faultCode, phase := t.phase
      freq := t.freq, dist := t.dist, main := t.main
      w := { s.w with
        total := t.w.total, nsym := t.w.nsym, ndist := t.w.ndist, cur := t.w.cur, prev := t.w.prev
        obits := t.w.obits, ocnt := t.w.ocnt, ibits := t.w.ibits, icnt := t.w.icnt, pend := t.w.pend }
      io := { s.io with
        input := t.io.input, again := t.io.again, inPos := t.io.inPos, inBase := t.io.inBase
        outRev := t.io.outRev, outLen := t.io.outLen, inAcc := t.io.inAcc, outAcc := t.io.outAcc } }

/-- R230, R240, R383: what the context commands leave alone, however they end. -/
def Obligations.ContextFrame : Prop :=
  ∀ (i : Instr) (s t : State), i = .cmpContext ∨ i = .decContext → exec i s = .next t →
    t = { s with
      status := t.status, faultCode := t.faultCode, phase := t.phase
      freq := t.freq, dist := t.dist, main := t.main, ctx := t.ctx, fresh := t.fresh
      w := { s.w with
        total := t.w.total, nsym := t.w.nsym, ndist := t.w.ndist, cur := t.w.cur, prev := t.w.prev
        nctx := t.w.nctx
        obits := t.w.obits, ocnt := t.w.ocnt, ibits := t.w.ibits, icnt := t.w.icnt, pend := t.w.pend }
      io := { s.io with
        input := t.io.input, again := t.io.again, inPos := t.io.inPos, inBase := t.io.inBase
        outRev := t.io.outRev, outLen := t.io.outLen, inAcc := t.io.inAcc, outAcc := t.io.outAcc } }

/-- R260, R265, R383: what the adaptive commands leave alone, however they end. -/
def Obligations.AdaptiveFrame : Prop :=
  ∀ (i : Instr) (s t : State), i = .cmpAdaptive ∨ i = .decAdaptive → exec i s = .next t →
    t = { s with
      status := t.status, faultCode := t.faultCode, phase := t.phase, fgk := t.fgk, fresh := t.fresh
      w := { s.w with
        nsym := t.w.nsym, cur := t.w.cur, prev := t.w.prev
        obits := t.w.obits, ocnt := t.w.ocnt, ibits := t.w.ibits, icnt := t.w.icnt, pend := t.w.pend }
      io := { s.io with
        inPos := t.io.inPos, inBase := t.io.inBase
        outRev := t.io.outRev, outLen := t.io.outLen, inAcc := t.io.inAcc, outAcc := t.io.outAcc } }

/-- R300, R315, R383: what the arithmetic commands leave alone, however they end. -/
def Obligations.ArithFrame : Prop :=
  ∀ (i : Instr) (s t : State), i = .cmpArith ∨ i = .decArith → exec i s = .next t →
    t = { s with
      status := t.status, faultCode := t.faultCode, phase := t.phase
      freq := t.freq, dist := t.dist, range := t.range, fresh := t.fresh
      w := { t.w with nctx := s.w.nctx }
      io := { s.io with
        input := t.io.input, again := t.io.again, inPos := t.io.inPos, inBase := t.io.inBase
        outRev := t.io.outRev, outLen := t.io.outLen, inAcc := t.io.inAcc, outAcc := t.io.outAcc } }

/-! ### Statistics -/

/-- R130: `COUNT` completes: every byte from the cursor to the end is counted, `TOTAL` is their number and
the sum of the counts, the cursor is at the end. -/
def Obligations.CountCompletes : Prop :=
  ∀ s : State, s.Served → s.io.rest.length ≤ Config.inLenMax →
    ∃ t, exec .count s = .next t ∧ s.Ended t ∧ t.Drained ∧
      (∀ b : Byte, (freqGet t.freq b.toNat).toNat = s.io.rest.count b) ∧
      t.w.total.toNat = s.io.rest.length ∧ t.w.total.toNat = freqSum t.freq

/-- R131, R347: on more than 2^32 - 1 bytes `COUNT` traps on the 2^32-th, read and not counted; every
compressor that counts traps in `SCAN1` before a byte is written. -/
def Obligations.CountOverflows : Prop :=
  ∀ s : State, s.Served → Config.inLenMax < s.io.rest.length →
    (∃ t, exec .count s = .next t ∧ t.Trapped .countOverflow .prim ∧
      t.io.inPos = s.io.inPos + BitVec.ofNat 64 (2 ^ 32) ∧ t.w.total.toNat = 2 ^ 32 - 1 ∧
      ∀ b : Byte, (freqGet t.freq b.toNat).toNat = (s.io.rest.take (2 ^ 32 - 1)).count b) ∧
    ∀ i ∈ [Instr.cmpShannon, .cmpFano, .cmpHuffman, .cmpContext, .cmpArith],
      ∃ t, exec i s = .next t ∧ t.Trapped .countOverflow .scan1 ∧ s.Appended t [] ∧
        t.io.inPos = s.io.inPos + BitVec.ofNat 64 (2 ^ 32) ∧ t.w.total.toNat = 2 ^ 32 - 1

/-- R62, R68, R351, R353: where the oracle fails the `k`-th access to the input, and none before, `COUNT`
traps with the `k - 1` bytes before it counted and the cursor behind them; at the end of the input as well.
R207, R234, R390: a second pass of another length, with a byte the first pass did not have, or for `CMP.CONTEXT`
with a byte that followed no such byte, traps in `ENC` behind the header; any other second pass is encoded.  What the
host holds after the rewind is log entry 13.  That a byte whose predecessor has no context in this run has no codeword
either, whatever an earlier command left in `CTX`, is the model's reading, log entry 23 (DEDUCED): R234's block alone
would read the scheme left there, R383 and D18 exclude it. -/
def Obligations.CountReadFault : Prop :=
  (∀ (s : State) (k : Nat), s.Ready → s.io.Sound → s.io.rest.length ≤ Config.inLenMax →
    1 ≤ k → k ≤ s.io.rest.length + 1 → k ∈ s.io.failIn → (∀ j ∈ s.io.failIn, 1 ≤ j → k ≤ j) →
    ∃ t, exec .count s = .next t ∧ t.Trapped .ioRead .prim ∧
      t.io.inPos.toNat = s.io.inPos.toNat + (k - 1) ∧ t.w.total.toNat = k - 1 ∧
      ∀ b : Byte, (freqGet t.freq b.toNat).toNat = (s.io.rest.take (k - 1)).count b) ∧
  (∀ (m : StaticMethod) (s : State) (b : List Byte), s.Rewound b → s.io.rest.length ≤ Config.inLenMax →
    ((s.secondPass b).length ≠ s.io.rest.length ∨ (∃ x ∈ s.secondPass b, x ∉ s.io.rest) →
      ∃ t bytes, exec m.cmp s = .next t ∧ t.Trapped .ioRead .enc ∧
        s.Appended t (headerBytes (countTable s.io.rest) ++ bytes)) ∧
    ((s.secondPass b).length = s.io.rest.length → (∀ x ∈ s.secondPass b, x ∈ s.io.rest) →
      ∃ t, exec m.cmp s = .next t ∧ s.Ended t ∧ s.Appended t (headerBytes (countTable s.io.rest) ++
        packBits (codeBits (m.shape (distribution (countTable s.io.rest))) (s.secondPass b))))) ∧
  (∀ (s : State) (b : List Byte), s.Rewound b → s.io.rest.length ≤ Config.inLenMax →
    ((s.secondPass b).length ≠ s.io.rest.length ∨ (∃ x ∈ s.secondPass b, x ∉ s.io.rest) ∨
      (∃ c, c < 256 ∧ ∃ x ∈ successors c (s.secondPass b), x ∉ successors c s.io.rest) →
      ∃ t bytes, exec .cmpContext s = .next t ∧ t.Trapped .ioRead .enc ∧
        s.Appended t (contextHeaderOf s.io.rest ++ bytes)) ∧
    ((s.secondPass b).length = s.io.rest.length → (∀ x ∈ s.secondPass b, x ∈ s.io.rest) →
      (∀ c, c < 256 → ∀ x ∈ successors c (s.secondPass b), x ∈ successors c s.io.rest) →
      ∃ t, exec .cmpContext s = .next t ∧ s.Ended t)) ∧
  (∀ (s : State) (b : List Byte), s.Rewound b → s.io.rest ≠ [] → arithFits s.io.rest →
    ((s.secondPass b).length ≠ s.io.rest.length ∨ (∃ x ∈ s.secondPass b, x ∉ s.io.rest) →
      ∃ t bytes, exec .cmpArith s = .next t ∧ t.Trapped .ioRead .enc ∧
        s.Appended t (headerBytes (countTable s.io.rest) ++ bytes)) ∧
    ((s.secondPass b).length = s.io.rest.length → (∀ x ∈ s.secondPass b, x ∈ s.io.rest) →
      ∃ t, exec .cmpArith s = .next t ∧ s.Ended t))

/-- R132: `DIST` completes: the valid entries are exactly the symbols with a nonzero count, each with its
count, in descending order of the counts and ascending byte order among equals. -/
def Obligations.DistCompletes : Prop :=
  ∀ s : State, s.Ready →
    ∃ t, exec .dist s = .next t ∧ s.Ended t ∧ t.distList.Pairwise distBefore ∧
      ∀ e : DistEntry, e ∈ t.distList ↔ e.cnt = freqGet s.freq e.sym.toNat ∧ e.cnt ≠ 0

/-- R134, R135, R29: `RANGES` completes where the total allows it: the distribution, and one entry for each
symbol and one for the end of the stream, which tile `[0, RT)`; an empty table where no symbol is present. -/
def Obligations.RangesCompletes : Prop :=
  ∀ s : State, s.Ready → rangeTotal (distribution s.freq) ≤ Config.arithTMax →
    ∃ t, exec .ranges s = .next t ∧ s.Ended t ∧ t.distList = distribution s.freq ∧
      t.rangeList = rangeTable (distribution s.freq) ∧
      t.w.rt.toNat = rangeTotal (distribution s.freq) ∧
      (distribution s.freq = [] → t.w.nrange = 0) ∧
      (distribution s.freq ≠ [] →
        t.w.nrange.toNat = (distribution s.freq).length + 1 ∧
        (∀ e, t.rangeList.head? = some e → e.cumLo = 0) ∧
        (∀ e, t.rangeList.getLast? = some e → e.sym.toNat = Config.eosSym ∧ e.cumHi = t.w.rt) ∧
        t.rangeList.IsChain (fun a b => a.cumHi = b.cumLo) ∧
        ∀ e ∈ t.rangeList, e.cumLo.toNat < e.cumHi.toNat)

/-- R136, R347: `RANGES` traps where the total and the end-of-stream weight exceed 2^29; `NRANGE` and `RT` keep.
So do `CMP.ARITH`, on such an input, and `DEC.ARITH`, on such a header, in `BUILD` before a byte is written. -/
def Obligations.RangesTraps : Prop :=
  (∀ s : State, s.Ready → Config.arithTMax < rangeTotal (distribution s.freq) →
    ∃ t, exec .ranges s = .next t ∧ t.Trapped .rangeTotal .prim ∧ t.w.nrange = s.w.nrange ∧
      t.w.rt = s.w.rt ∧ t.distList = distribution s.freq) ∧
  (∀ s : State, s.Served → s.io.rest.length ≤ Config.inLenMax → ¬arithFits s.io.rest →
    ∃ t, exec .cmpArith s = .next t ∧ t.Trapped .rangeTotal .build ∧ s.Appended t [] ∧
      t.w.nrange = s.w.nrange ∧ t.w.rt = s.w.rt) ∧
  (∀ (s : State) (f : Table (BitVec 32)) (p : List Byte), s.Served → s.io.rest = headerBytes f ++ p →
    Config.arithTMax < rangeTotal (distribution f) →
    ∃ t, exec .decArith s = .next t ∧ t.Trapped .rangeTotal .build ∧ s.Appended t [] ∧
      t.w.nrange = s.w.nrange ∧ t.w.rt = s.w.rt)

/-! ### Code trees and builders -/

/-- R150: `TREE.FROMSCHEME` completes where the arena has room for every codeword: slot 0 is the root of the
tree that walking the codewords in, one after the other, makes. -/
def Obligations.FromSchemeCompletes : Prop :=
  ∀ s : State, s.Ready →
    (s.codewords.map (fun c => c.2.length)).sum < Config.treeCap →
    ∃ t, exec .treeFromScheme s = .next t ∧ s.Ended t ∧ t.main.root = some 0 ∧
      t.main.Holds (Shape.ofCodes s.codewords) 0 ∧
      1 ≤ t.main.nnodes.toNat ∧
      t.main.nnodes.toNat ≤ 1 + (s.codewords.map (fun c => c.2.length)).sum

/-- R152: `TREE.TRUNC` completes on every tree the arena can hold: every one-child node is replaced by its
child; with no root nothing happens.  A slot that is bypassed, is a leaf or lies outside the tree keeps its content;
`NNODES` counts as before; no slot reached from the new root is a bypassed one. -/
def Obligations.TruncCompletes : Prop :=
  (∀ s : State, s.Ready → s.main.root = none →
    ∃ t, exec .treeTrunc s = .next t ∧ s.Ended t ∧ t.main = s.main) ∧
  (∀ (s : State) (r : Nat) (sh : Shape), s.Ready → s.main.root = some r → s.main.Holds sh r →
    (s.main.slots sh r).Nodup → sh.depth ≤ Config.treeCap →
    ∃ t r', exec .treeTrunc s = .next t ∧ s.Ended t ∧ t.main.root = some r' ∧ t.main.Holds sh.trunc r' ∧
      t.main.nnodes = s.main.nnodes ∧
      (∀ i, (i ∈ s.main.slots sh r → (s.main.node i).binary = false) → t.main.node i = s.main.node i) ∧
      ∀ i ∈ t.main.slots sh.trunc r', i ∈ s.main.slots sh r ∧ (s.main.node i).unary = false)

/-- R154: `TREE.DERIVE` completes on every tree the arena can hold: the entries present are the symbols of the
leaves, each with the path to it (to the last of its leaves, should a symbol have several). -/
def Obligations.DeriveCompletes : Prop :=
  (∀ s : State, s.Ready → s.main.root = none →
    ∃ t, exec .treeDerive s = .next t ∧ s.Ended t ∧ ∀ b : Byte, t.main.code b.toNat = none) ∧
  (∀ (s : State) (r : Nat) (sh : Shape), s.Ready → s.main.root = some r → s.main.Holds sh r →
    sh.depth ≤ Config.treeCap →
    ∃ t, exec .treeDerive s = .next t ∧ s.Ended t ∧
      ∀ b : Byte, t.main.code b.toNat = codeIn sh.paths.reverse b)

/-- R171, R172: the three builders on a distribution of no entry and of one. -/
def Obligations.BuildersSmall : Prop :=
  ∀ (m : StaticMethod) (s : State), s.Ready →
    (s.distList = [] → ∃ t, exec m.bld s = .next t ∧ s.Ended t ∧ t.main.nnodes = 0 ∧
      t.main.root = none ∧ ∀ b : Byte, t.main.code b.toNat = none) ∧
    (∀ e, s.distList = [e] → ∃ t, exec m.bld s = .next t ∧ s.Ended t ∧ t.main.nnodes = 2 ∧
      t.main.root = some 0 ∧ t.main.node 0 = ⟨none, some 1, none⟩ ∧
      t.main.node 1 = ⟨some e.sym, none, none⟩ ∧
      ∀ b : Byte, t.main.code b.toNat = if b = e.sym then some [false] else none)

/-- R174, R175: `BLD.SHANNON` completes on a distribution of two entries or more: `SCHEME` and `TREE` agree on
the truncated tree of the raw Shannon codewords; on a sorted distribution the root stays slot 0.  R175: the raw
codeword of a symbol of count `c`, the counts before it summing to `C` and all to `S`: its length is the least `L` with
`c * 2^L >= S`, at least 1, and its value is `floor(C * 2^L / S)`, below `2^L`. -/
def Obligations.ShannonCompletes : Prop :=
  (∀ s : State, s.Ready → IsDist s.distList → 2 ≤ s.distList.length →
    ∃ t, exec .bldShannon s = .next t ∧ s.Ended t ∧ t.main.Agrees (shannonShape s.distList) ∧
      (s.distList.Pairwise distBefore → t.main.root = some 0)) ∧
  (∀ (dl : List DistEntry) (i : Nat) (e : DistEntry), IsDist dl → 2 ≤ dl.length → dl[i]? = some e →
    ∃ w : Bits, (shannonWords (cntSum dl) dl 0)[i]? = some (e.sym, w) ∧
      cntSum dl ≤ e.cnt.toNat * 2 ^ w.length ∧ (∀ k, k < w.length → e.cnt.toNat * 2 ^ k < cntSum dl) ∧
      1 ≤ w.length ∧ bitsValue w < 2 ^ w.length ∧
      bitsValue w * cntSum dl ≤ cntSum (dl.take i) * 2 ^ w.length ∧
      cntSum (dl.take i) * 2 ^ w.length < (bitsValue w + 1) * cntSum dl)

/-- R178, R179, R176: `BLD.FANO` completes on a distribution of two entries or more: `SCHEME` and `TREE` agree
on the tree of the recursive partition; the root is slot 0 and there are `2 * NDIST - 1` nodes.  Each split is at
the first point where the difference of the two sides stops falling. -/
def Obligations.FanoCompletes : Prop :=
  (∀ s : State, s.Ready → IsDist s.distList → 2 ≤ s.distList.length →
    ∃ t, exec .bldFano s = .next t ∧ s.Ended t ∧ t.main.Agrees (fanoShape s.distList) ∧
      t.main.root = some 0 ∧ t.main.nnodes.toNat = 2 * s.distList.length - 1) ∧
  (∀ seg : List DistEntry, 2 ≤ seg.length →
    fanoSplit seg + 1 < seg.length ∧
    (∀ k, k < fanoSplit seg → fanoGap seg (k + 1) < fanoGap seg k) ∧
    (fanoSplit seg + 2 = seg.length ∨ fanoGap seg (fanoSplit seg) ≤ fanoGap seg (fanoSplit seg + 1)))

/-- R182, R183, R184: `BLD.HUFFMAN` completes on a distribution of two entries or more: `SCHEME` and `TREE`
agree on the tree of the merges; the leaves are the first slots in distribution order, there are
`2 * NDIST - 1` nodes and the root is the last. -/
def Obligations.HuffmanCompletes : Prop :=
  ∀ s : State, s.Ready → IsDist s.distList → 2 ≤ s.distList.length →
    ∃ t, exec .bldHuffman s = .next t ∧ s.Ended t ∧ t.main.Agrees (huffmanShape s.distList) ∧
      t.main.nnodes.toNat = 2 * s.distList.length - 1 ∧
      t.main.root = some (2 * s.distList.length - 2) ∧
      ∀ (k : Nat) (e : DistEntry), s.distList[k]? = some e → t.main.node k = ⟨some e.sym, none, none⟩

/-- R170, R155: after any builder on a sorted distribution exactly its symbols are present, no codeword begins
another's, and `SCHEME` and `TREE` agree.  R153, R178, R186: with two symbols or more every internal node has two
children and a codeword has at most `NDIST - 1` bits.  (The least total length of R186 is not claimed here.) -/
def Obligations.BuilderContract : Prop :=
  ∀ (m : StaticMethod) (s : State), s.Ready → IsDist s.distList → s.distList.Pairwise distBefore →
    ∃ t, exec m.bld s = .next t ∧ s.Ended t ∧
      (∀ b : Byte, (t.main.code b.toNat).isSome = true ↔ b ∈ s.distList.map DistEntry.sym) ∧
      (∀ (a b : Byte) (c d : Bits), a ≠ b → t.main.code a.toNat = some c → t.main.code b.toNat = some d →
        ¬(c <+: d)) ∧
      (s.distList ≠ [] → ∃ sh, t.main.Agrees sh) ∧
      (2 ≤ s.distList.length → (∃ sh, t.main.Agrees sh ∧ sh.full = true) ∧
        ∀ (b : Byte) (c : Bits), t.main.code b.toNat = some c → c.length ≤ s.distList.length - 1)

/-! ### The static codec -/

/-- R203, R102: the static compressors complete and append the artifact; the state they leave. -/
def Obligations.CmpStaticCompletes : Prop :=
  ∀ (m : StaticMethod) (s : State), s.Served → s.io.rest.length ≤ Config.inLenMax →
    ∃ t, exec m.cmp s = .next t ∧ s.Ended t ∧ s.Appended t (staticArtifact m s.io.rest) ∧ t.Drained ∧
      t.freq = countTable s.io.rest ∧ t.distList = distribution (countTable s.io.rest) ∧
      (s.io.rest ≠ [] → t.main.Agrees (m.shape (distribution (countTable s.io.rest)))) ∧
      t.w.total.toNat = s.io.rest.length ∧ t.w.nsym = t.w.total ∧ t.w.obits = 0 ∧ t.w.ocnt = 0

/-- R213, R215, R216: the static decompressors complete on the artifact of any byte sequence, with any bytes
behind it: they append the sequence and read no byte behind the artifact; the state they leave. -/
def Obligations.DecStaticCompletes : Prop :=
  ∀ (m : StaticMethod) (s : State) (S extra : List Byte), s.Served → S.length ≤ Config.inLenMax →
    s.io.rest = staticArtifact m S ++ extra →
    ∃ t, exec m.dec s = .next t ∧ s.Ended t ∧ s.Appended t S ∧
      t.io.inPos.toNat = s.io.inPos.toNat + (staticArtifact m S).length ∧ t.w.nsym.toNat = S.length ∧
      (∀ b : Byte, freqGet t.freq b.toNat = freqGet (countTable S) b.toNat) ∧ t.w.total.toNat = S.length ∧
      (S ≠ [] → t.distList = distribution (countTable S) ∧
        t.main.Agrees (m.shape (distribution (countTable S))))

/-- R217: the round trip of the static methods. -/
def Obligations.StaticRoundTrip : Prop :=
  ∀ (m : StaticMethod) (s u : State), s.Served → u.Served → s.io.rest.length ≤ Config.inLenMax →
    ∃ t artifact, exec m.cmp s = .next t ∧ s.Appended t artifact ∧
      (u.io.rest = artifact → ∃ v, exec m.dec u = .next v ∧ u.Ended v ∧ u.Appended v s.io.rest)

/-- R216 (a), R243, R345: a header followed by nothing: the static decompressors end at once and write nothing,
whatever the counts say; `DEC.CONTEXT` traps where the counts say that there is a symbol. -/
def Obligations.DecHeaderOnly : Prop :=
  (∀ (m : StaticMethod) (s : State), s.Served → s.io.rest.length = 1024 →
    ∃ t, exec m.dec s = .next t ∧ s.Ended t ∧ s.Appended t [] ∧ t.Drained ∧
      t.dist = s.dist ∧ t.main = s.main) ∧
  (∀ (s : State) (f : Table (BitVec 32)) (recs : List (Byte × Table (BitVec 32))), s.Served →
    (recs.map Prod.fst).Nodup → 0 < freqSum f → s.io.rest = contextHeader f recs →
    ∃ t, exec .decContext s = .next t ∧ t.Trapped .malformedTruncated .dec ∧ s.Appended t [] ∧ t.Drained)

/-- R214, R241, R345: every decompressor with a header traps where the input ends inside it, `DEC.CONTEXT` also
inside the context header; a context count above 256 and a repeated context id trap; no output. -/
def Obligations.DecHeaderCut : Prop :=
  (∀ (i : Instr) (s : State), i ∈ [.decShannon, .decFano, .decHuffman, .decContext, .decArith] →
    s.Served → s.io.rest.length < 1024 →
    ∃ t, exec i s = .next t ∧ t.Trapped .malformedHeader .hdrRd ∧ s.Appended t [] ∧ t.Drained) ∧
  (∀ (s : State) (f : Table (BitVec 32)) (recs : List (Byte × Table (BitVec 32))), s.Served →
    (recs.map Prod.fst).Nodup → s.io.rest <+: contextHeader f recs →
    s.io.rest.length < (contextHeader f recs).length →
    ∃ t, exec .decContext s = .next t ∧ t.Trapped .malformedHeader .hdrRd ∧ s.Appended t [] ∧ t.Drained) ∧
  (∀ (s : State) (f : Table (BitVec 32)) (k : Nat) (p : List Byte), s.Served → 256 < k → k < 2 ^ 64 →
    s.io.rest = headerBytes f ++ leBytes 8 k ++ p →
    ∃ t, exec .decContext s = .next t ∧ t.Trapped .malformedContext .hdrRd ∧ s.Appended t [] ∧
      t.io.inPos.toNat = s.io.inPos.toNat + 1032) ∧
  (∀ (s : State) (f : Table (BitVec 32)) (k : Nat) (recs : List (Byte × Table (BitVec 32))) (c : Byte)
    (p : List Byte), s.Served → (recs.map Prod.fst).Nodup → c ∈ recs.map Prod.fst → recs.length < k →
    k ≤ 256 →
    s.io.rest = headerBytes f ++ leBytes 8 k ++ contextRecords recs ++ c :: p →
    ∃ t, exec .decContext s = .next t ∧ t.Trapped .malformedContext .hdrRd ∧ s.Appended t [])

/-- R65, R350, R351: where the oracle fails the `k`-th write of the header, and none before, a compressor with a
header traps with the `k - 1` bytes before it written.  The exact length is this spec's own byte-at-once rule (D33,
V4); of other implementations R352 lets a proof claim the prefix only, as `FaultLeavesPrefix` does. -/
def Obligations.HeaderWriteFault : Prop :=
  ∀ (s : State) (k : Nat), s.Ready → s.io.Sound → s.io.failIn = [] →
    s.io.rest.length ≤ Config.inLenMax → 1 ≤ k → k ∈ s.io.failOut → (∀ j ∈ s.io.failOut, 1 ≤ j → k ≤ j) →
    (∀ i : Instr, i ∈ [.cmpShannon, .cmpFano, .cmpHuffman, .cmpArith] → k ≤ 1024 →
      (i = .cmpArith → arithFits s.io.rest) →
      ∃ t, exec i s = .next t ∧ t.Trapped .ioWrite .hdrWr ∧
        s.Appended t ((headerBytes (countTable s.io.rest)).take (k - 1))) ∧
    (k ≤ (contextHeaderOf s.io.rest).length →
      ∃ t, exec .cmpContext s = .next t ∧ t.Trapped .ioWrite .hdrWr ∧
        s.Appended t ((contextHeaderOf s.io.rest).take (k - 1)))

/-! ### The context codec -/

/-- R230, R103, R104: `CMP.CONTEXT` completes and appends the artifact; the state it leaves. -/
def Obligations.CmpContextCompletes : Prop :=
  ∀ s : State, s.Served → s.io.rest.length ≤ Config.inLenMax →
    ∃ t, exec .cmpContext s = .next t ∧ s.Ended t ∧ s.Appended t (contextArtifact s.io.rest) ∧ t.Drained ∧
      t.freq = countTable s.io.rest ∧ t.w.total.toNat = s.io.rest.length ∧ t.w.nsym = t.w.total ∧
      t.w.nctx.toNat = (contextsOf s.io.rest).length ∧
      t.distList = distribution (countTable s.io.rest) ∧
      (s.io.rest ≠ [] → t.main.Agrees (huffmanOf (countTable s.io.rest))) ∧
      (∀ c, c < 256 → (ctxGet t.ctx c).freq = countTable (successors c s.io.rest) ∧
        ((ctxGet t.ctx c).present = true ↔ successors c s.io.rest ≠ []) ∧
        (successors c s.io.rest ≠ [] →
          (ctxGet t.ctx c).model.Agrees (huffmanOf (countTable (successors c s.io.rest))))) ∧
      t.w.prev.toNat = ((s.io.rest.getLast?).map (fun b => b.toNat)).getD 256

/-- R240, R242, R243: `DEC.CONTEXT` completes on the artifact of any byte sequence, with any bytes behind it; the
state it leaves. -/
def Obligations.DecContextCompletes : Prop :=
  ∀ (s : State) (S extra : List Byte), s.Served → S.length ≤ Config.inLenMax →
    s.io.rest = contextArtifact S ++ extra →
    ∃ t, exec .decContext s = .next t ∧ s.Ended t ∧ s.Appended t S ∧
      t.io.inPos.toNat = s.io.inPos.toNat + (contextArtifact S).length ∧ t.w.nsym.toNat = S.length ∧
      (∀ b : Byte, freqGet t.freq b.toNat = freqGet (countTable S) b.toNat) ∧ t.w.total.toNat = S.length ∧
      t.distList = distribution (countTable S) ∧ t.w.nctx.toNat = (contextsOf S).length ∧
      (S ≠ [] → t.main.Agrees (huffmanOf (countTable S))) ∧
      (∀ c, c < 256 → ((ctxGet t.ctx c).present = true ↔ successors c S ≠ []) ∧
        (successors c S ≠ [] →
          (∀ b : Byte, freqGet (ctxGet t.ctx c).freq b.toNat = freqGet (countTable (successors c S)) b.toNat) ∧
          (ctxGet t.ctx c).model.Agrees (huffmanOf (countTable (successors c S))))) ∧
      t.w.prev.toNat = ((S.getLast?).map (fun b => b.toNat)).getD 256

/-- R244: the round trip of the context method. -/
def Obligations.ContextRoundTrip : Prop :=
  ∀ s u : State, s.Served → u.Served → s.io.rest.length ≤ Config.inLenMax →
    ∃ t artifact, exec .cmpContext s = .next t ∧ s.Appended t artifact ∧
      (u.io.rest = artifact → ∃ v, exec .decContext u = .next v ∧ u.Ended v ∧ u.Appended v s.io.rest)

/-! ### The adaptive codec -/

/-- R252, R253: the tree satisfies the sibling property after an adaptive command, however it ended.  R257: the
leader of a node is a node in use of its weight, of the highest rank among those. -/
def Obligations.SiblingProperty : Prop :=
  (∀ (i : Instr) (s t : State), i = .cmpAdaptive ∨ i = .decAdaptive → s.Ready → s.io.Sound →
    8 * s.io.rest.length < 2 ^ 64 → exec i s = .next t → t.fgk.Sibling) ∧
  (∀ (g : FgkMem) (n : Nat), n < g.n.toNat →
    fgkLeader g n < g.n.toNat ∧ (g.node (fgkLeader g n)).weight = (g.node n).weight ∧
    ∀ i, i < g.n.toNat → (g.node i).weight = (g.node n).weight →
      (g.node i).rank.toNat ≤ (g.node (fgkLeader g n)).rank.toNat)

/-- R260, R263, R105, R250, R257: `CMP.ADAPTIVE` completes and appends the artifact; the tree it leaves, whose
weights count the bytes.  That the slots of `FGK` not in use keep what they hold, which the equation on the whole
memory includes, is the model's choice, log entry 19 (V7). -/
def Obligations.CmpAdaptiveCompletes : Prop :=
  ∀ s : State, s.Served →
    ∃ t, exec .cmpAdaptive s = .next t ∧ s.Ended t ∧
      s.Appended t (adaptiveArtifact s.fgk s.io.rest) ∧ t.Drained ∧
      t.fgk = s.io.rest.foldl fgkAfter (fgkStart s.fgk) ∧ t.fgk.Weighs s.io.rest ∧
      (s.io.rest.length < 2 ^ 40 → t.w.nsym.toNat = s.io.rest.length) ∧ t.w.obits = 0 ∧ t.w.ocnt = 0

/-- R265, R266, R267, R250: `DEC.ADAPTIVE` completes on the artifact of any byte sequence: it appends the sequence
and leaves the tree the compressor left, whose weights count the bytes, and their number (above 2^40 - 1: log entry 7).
That the slots of `FGK` not in use keep what
they hold, which the equation on the whole memory includes, is the model's choice, log entry 19 (V7). -/
def Obligations.DecAdaptiveCompletes : Prop :=
  ∀ (s : State) (g : FgkMem) (S : List Byte), s.Served → S.length < 2 ^ 64 →
    s.io.rest = adaptiveArtifact g S →
    ∃ t, exec .decAdaptive s = .next t ∧ s.Ended t ∧ s.Appended t S ∧ t.Drained ∧
      t.fgk = S.foldl fgkAfter (fgkStart s.fgk) ∧ t.fgk.Weighs S ∧
      (S.length < 2 ^ 40 → t.w.nsym.toNat = S.length)

/-- R269: the round trip of the adaptive method. -/
def Obligations.AdaptiveRoundTrip : Prop :=
  ∀ s u : State, s.Served → u.Served →
    ∃ t artifact, exec .cmpAdaptive s = .next t ∧ s.Appended t artifact ∧
      (u.io.rest = artifact → ∃ v, exec .decAdaptive u = .next v ∧ u.Ended v ∧ u.Appended v s.io.rest)

/-! ### The arithmetic codec -/

/-- R300, R106, R305, R309: `CMP.ARITH` completes where the total allows it and appends the artifact; it leaves the
tables it coded with and the interval of the last symbol, the end of the stream, which is wider than a quarter of the
scale. -/
def Obligations.CmpArithCompletes : Prop :=
  ∀ s : State, s.Served → arithFits s.io.rest →
    ∃ t, exec .cmpArith s = .next t ∧ s.Ended t ∧ s.Appended t (arithArtifact s.io.rest) ∧ t.Drained ∧
      t.freq = countTable s.io.rest ∧ t.distList = distribution (countTable s.io.rest) ∧
      t.w.ndist.toNat = (distribution (countTable s.io.rest)).length ∧
      t.rangeList = rangeTable (distribution (countTable s.io.rest)) ∧
      t.w.nrange.toNat = (rangeTable (distribution (countTable s.io.rest))).length ∧
      t.w.rt.toNat = rangeTotal (distribution (countTable s.io.rest)) ∧
      t.w.total.toNat = s.io.rest.length ∧ t.w.nsym = t.w.total ∧ t.w.pend = 0 ∧
      (s.io.rest ≠ [] →
        (t.w.low.toNat = (arithFinal s.io.rest).low ∧ t.w.high.toNat = (arithFinal s.io.rest).high) ∧
        t.w.low.toNat + Config.quarter < t.w.high.toNat ∧ t.w.high.toNat ≤ Config.scaleM)

/-- R315, R318, R323, R324: `DEC.ARITH` completes on the artifact of any byte sequence that fits; and on any
payload behind any header whose total fits, writing at most `TOTAL` symbols; the state it leaves. -/
def Obligations.DecArithCompletes : Prop :=
  (∀ (s : State) (S : List Byte), s.Served → arithFits S → s.io.rest = arithArtifact S →
    ∃ t, exec .decArith s = .next t ∧ s.Ended t ∧ s.Appended t S ∧ t.w.nsym.toNat = S.length) ∧
  (∀ (s : State) (f : Table (BitVec 32)) (p : List Byte), s.Served → s.io.rest = headerBytes f ++ p →
    rangeTotal (distribution f) ≤ Config.arithTMax →
    ∃ t bytes, exec .decArith s = .next t ∧ s.Ended t ∧ s.Appended t bytes ∧ bytes.length ≤ freqSum f ∧
      t.w.nsym.toNat = bytes.length ∧ (∀ b : Byte, freqGet t.freq b.toNat = freqGet f b.toNat) ∧
      t.w.total.toNat = freqSum f ∧
      (0 < freqSum f → t.distList = distribution f ∧ t.rangeList = rangeTable (distribution f) ∧
        t.w.rt.toNat = rangeTotal (distribution f) ∧ t.w.low.toNat ≤ t.w.val.toNat ∧
        t.w.val.toNat < t.w.high.toNat ∧ t.w.low.toNat + Config.quarter < t.w.high.toNat ∧
        t.w.high.toNat ≤ Config.scaleM))

/-- R325: the round trip of the arithmetic method, for every byte sequence within the bound; one of at most
2^28 bytes is. -/
def Obligations.ArithRoundTrip : Prop :=
  (∀ s u : State, s.Served → u.Served → arithFits s.io.rest →
    ∃ t artifact, exec .cmpArith s = .next t ∧ s.Appended t artifact ∧
      (u.io.rest = artifact → ∃ v, exec .decArith u = .next v ∧ u.Ended v ∧ u.Appended v s.io.rest)) ∧
  (∀ S : List Byte, S.length ≤ 2 ^ 28 → arithFits S)

/-- R187, R218, R261, R383: what a compressor appends is a function of the input from the cursor on, and of
nothing else the engine or the host holds; for every input within the method's own bound (none for the adaptive
method). -/
def Obligations.CompressDeterministic : Prop :=
  ∀ (i : Instr) (s u : State),
    i ∈ [.cmpShannon, .cmpFano, .cmpHuffman, .cmpContext, .cmpAdaptive, .cmpArith] →
    s.Served → u.Served → s.io.rest = u.io.rest →
    (i ≠ .cmpAdaptive → i ≠ .cmpArith → s.io.rest.length ≤ Config.inLenMax) →
    (i = .cmpArith → arithFits s.io.rest) →
    ∃ t v bytes, exec i s = .next t ∧ exec i u = .next v ∧ s.Appended t bytes ∧ u.Appended v bytes

/-! ### Malformed payloads -/

/-- R73, R156, R215, R242, R266, R268, R345: payloads behind any header, which no compressor need have written.  One
that codes `TOTAL` symbols is accepted (records in any order, tables not checked against each other).  One that codes
fewer: it ends inside a codeword; its next bit selects the absent child of the degenerate tree; its last symbol names
no context record, or one with an all-zero table.  An adaptive input that ends inside a symbol, and one with the
literal of a symbol already seen.  The symbols decoded so far are written. -/
def Obligations.MalformedPayload : Prop :=
  (∀ (m : StaticMethod) (s : State) (f : Table (BitVec 32)) (p L : List Byte) (r : Bits), s.Served → p ≠ [] →
    s.io.rest = headerBytes f ++ p →
    (∀ b ∈ L, (codeIn (m.shape (distribution f)).paths b).isSome = true) →
    payloadBits p = codeBits (m.shape (distribution f)) L ++ r →
    (L.length = freqSum f → ∃ t, exec m.dec s = .next t ∧ s.Ended t ∧ s.Appended t L) ∧
    (L.length < freqSum f →
      (∃ c ∈ (m.shape (distribution f)).paths, r <+: c.2 ∧ r.length < c.2.length) →
      ∃ t, exec m.dec s = .next t ∧ t.Trapped .malformedTruncated .dec ∧ s.Appended t L ∧ t.Drained)) ∧
  (∀ (m : StaticMethod) (s : State) (f : Table (BitVec 32)) (e : DistEntry) (p : List Byte) (k : Nat) (r : Bits),
    s.Served → s.io.rest = headerBytes f ++ p → distribution f = [e] →
    payloadBits p = List.replicate k false ++ true :: r → k < e.cnt.toNat →
    ∃ t, exec m.dec s = .next t ∧ t.Trapped .malformedPath .dec ∧ s.Appended t (List.replicate k e.sym)) ∧
  (∀ (s : State) (f : Table (BitVec 32)) (recs : List (Byte × Table (BitVec 32))) (p L : List Byte) (c r : Bits),
    s.Served → (recs.map Prod.fst).Nodup → s.io.rest = contextHeader f recs ++ p →
    ContextBits (contextTree f recs) none L c → payloadBits p = c ++ r →
    (L.length = freqSum f → ∃ t, exec .decContext s = .next t ∧ s.Ended t ∧ s.Appended t L) ∧
    (L.length < freqSum f →
      ((∃ w ∈ (contextTree f recs L.getLast?).paths, r <+: w.2 ∧ r.length < w.2.length) →
        ∃ t, exec .decContext s = .next t ∧ t.Trapped .malformedTruncated .dec ∧ s.Appended t L ∧ t.Drained) ∧
      (∀ b q, contextTree f recs L.getLast? = degenerateShape b → r = true :: q →
        ∃ t, exec .decContext s = .next t ∧ t.Trapped .malformedPath .dec ∧ s.Appended t L) ∧
      (∀ b, L.getLast? = some b → b ∉ recs.map Prod.fst →
        ∃ t, exec .decContext s = .next t ∧ t.Trapped .malformedContext .dec ∧ s.Appended t L) ∧
      (∀ b g, L.getLast? = some b → (b, g) ∈ recs → distribution g = [] →
        ∃ t, exec .decContext s = .next t ∧ t.Trapped .malformedPath .dec ∧ s.Appended t L))) ∧
  (∀ (s : State) (g : FgkMem) (S : List Byte) (b : Byte) (r : Bits), s.Served → S.length < 2 ^ 64 →
    payloadBits s.io.rest = adaptiveBits (fgkStart g) S ++ r →
    r <+: fgkBits (S.foldl fgkAfter (fgkStart g)) b →
    r.length < (fgkBits (S.foldl fgkAfter (fgkStart g)) b).length →
    ∃ t, exec .decAdaptive s = .next t ∧ s.Ended t ∧ s.Appended t S ∧ t.Drained) ∧
  (∀ (s : State) (g : FgkMem) (S : List Byte) (b : Byte) (r : Bits), s.Served → S.length < 2 ^ 64 → b ∈ S →
    payloadBits s.io.rest =
      adaptiveBits (fgkStart g) S ++ nytPath (S.foldl fgkAfter (fgkStart g)) ++ byteBits b ++ r →
    ∃ t, exec .decAdaptive s = .next t ∧ t.Trapped .malformedLiteral .dec ∧ s.Appended t S)
end

