-- ==== Sys2Proof/Laws/State.lean ====
section
/-! SUPPORT. What each update of the state leaves in each of its fields: one lemma per field per update. -/

namespace Sys2Proof.Machine

section
variable (s : State) (x : Status)
@[simp] theorem State.setStatus_status : (s.setStatus x).status = x := rfl
@[simp] theorem State.setStatus_faultCode : (s.setStatus x).faultCode = s.faultCode := rfl
@[simp] theorem State.setStatus_phase : (s.setStatus x).phase = s.phase := rfl
@[simp] theorem State.setStatus_io : (s.setStatus x).io = s.io := rfl
@[simp] theorem State.setStatus_w : (s.setStatus x).w = s.w := rfl
@[simp] theorem State.setStatus_freq : (s.setStatus x).freq = s.freq := rfl
@[simp] theorem State.setStatus_dist : (s.setStatus x).dist = s.dist := rfl
@[simp] theorem State.setStatus_range : (s.setStatus x).range = s.range := rfl
@[simp] theorem State.setStatus_main : (s.setStatus x).main = s.main := rfl
@[simp] theorem State.setStatus_ctx : (s.setStatus x).ctx = s.ctx := rfl
@[simp] theorem State.setStatus_fgk : (s.setStatus x).fgk = s.fgk := rfl
@[simp] theorem State.setStatus_host : (s.setStatus x).host = s.host := rfl
@[simp] theorem State.setStatus_fresh : (s.setStatus x).fresh = s.fresh := rfl
end

section
variable (s : State) (x : Option FaultCode)
@[simp] theorem State.setFaultCode_status : (s.setFaultCode x).status = s.status := rfl
@[simp] theorem State.setFaultCode_faultCode : (s.setFaultCode x).faultCode = x := rfl
@[simp] theorem State.setFaultCode_phase : (s.setFaultCode x).phase = s.phase := rfl
@[simp] theorem State.setFaultCode_io : (s.setFaultCode x).io = s.io := rfl
@[simp] theorem State.setFaultCode_w : (s.setFaultCode x).w = s.w := rfl
@[simp] theorem State.setFaultCode_freq : (s.setFaultCode x).freq = s.freq := rfl
@[simp] theorem State.setFaultCode_dist : (s.setFaultCode x).dist = s.dist := rfl
@[simp] theorem State.setFaultCode_range : (s.setFaultCode x).range = s.range := rfl
@[simp] theorem State.setFaultCode_main : (s.setFaultCode x).main = s.main := rfl
@[simp] theorem State.setFaultCode_ctx : (s.setFaultCode x).ctx = s.ctx := rfl
@[simp] theorem State.setFaultCode_fgk : (s.setFaultCode x).fgk = s.fgk := rfl
@[simp] theorem State.setFaultCode_host : (s.setFaultCode x).host = s.host := rfl
@[simp] theorem State.setFaultCode_fresh : (s.setFaultCode x).fresh = s.fresh := rfl
end

section
variable (s : State) (x : Phase)
@[simp] theorem State.setPhase_status : (s.setPhase x).status = s.status := rfl
@[simp] theorem State.setPhase_faultCode : (s.setPhase x).faultCode = s.faultCode := rfl
@[simp] theorem State.setPhase_phase : (s.setPhase x).phase = x := rfl
@[simp] theorem State.setPhase_io : (s.setPhase x).io = s.io := rfl
@[simp] theorem State.setPhase_w : (s.setPhase x).w = s.w := rfl
@[simp] theorem State.setPhase_freq : (s.setPhase x).freq = s.freq := rfl
@[simp] theorem State.setPhase_dist : (s.setPhase x).dist = s.dist := rfl
@[simp] theorem State.setPhase_range : (s.setPhase x).range = s.range := rfl
@[simp] theorem State.setPhase_main : (s.setPhase x).main = s.main := rfl
@[simp] theorem State.setPhase_ctx : (s.setPhase x).ctx = s.ctx := rfl
@[simp] theorem State.setPhase_fgk : (s.setPhase x).fgk = s.fgk := rfl
@[simp] theorem State.setPhase_host : (s.setPhase x).host = s.host := rfl
@[simp] theorem State.setPhase_fresh : (s.setPhase x).fresh = s.fresh := rfl
end

section
variable (s : State) (x : Streams)
@[simp] theorem State.setIo_status : (s.setIo x).status = s.status := rfl
@[simp] theorem State.setIo_faultCode : (s.setIo x).faultCode = s.faultCode := rfl
@[simp] theorem State.setIo_phase : (s.setIo x).phase = s.phase := rfl
@[simp] theorem State.setIo_io : (s.setIo x).io = x := rfl
@[simp] theorem State.setIo_w : (s.setIo x).w = s.w := rfl
@[simp] theorem State.setIo_freq : (s.setIo x).freq = s.freq := rfl
@[simp] theorem State.setIo_dist : (s.setIo x).dist = s.dist := rfl
@[simp] theorem State.setIo_range : (s.setIo x).range = s.range := rfl
@[simp] theorem State.setIo_main : (s.setIo x).main = s.main := rfl
@[simp] theorem State.setIo_ctx : (s.setIo x).ctx = s.ctx := rfl
@[simp] theorem State.setIo_fgk : (s.setIo x).fgk = s.fgk := rfl
@[simp] theorem State.setIo_host : (s.setIo x).host = s.host := rfl
@[simp] theorem State.setIo_fresh : (s.setIo x).fresh = s.fresh := rfl
end

section
variable (s : State) (x : Working)
@[simp] theorem State.setW_status : (s.setW x).status = s.status := rfl
@[simp] theorem State.setW_faultCode : (s.setW x).faultCode = s.faultCode := rfl
@[simp] theorem State.setW_phase : (s.setW x).phase = s.phase := rfl
@[simp] theorem State.setW_io : (s.setW x).io = s.io := rfl
@[simp] theorem State.setW_w : (s.setW x).w = x := rfl
@[simp] theorem State.setW_freq : (s.setW x).freq = s.freq := rfl
@[simp] theorem State.setW_dist : (s.setW x).dist = s.dist := rfl
@[simp] theorem State.setW_range : (s.setW x).range = s.range := rfl
@[simp] theorem State.setW_main : (s.setW x).main = s.main := rfl
@[simp] theorem State.setW_ctx : (s.setW x).ctx = s.ctx := rfl
@[simp] theorem State.setW_fgk : (s.setW x).fgk = s.fgk := rfl
@[simp] theorem State.setW_host : (s.setW x).host = s.host := rfl
@[simp] theorem State.setW_fresh : (s.setW x).fresh = s.fresh := rfl
end

section
variable (s : State) (x : Table (BitVec 32))
@[simp] theorem State.setFreq_status : (s.setFreq x).status = s.status := rfl
@[simp] theorem State.setFreq_faultCode : (s.setFreq x).faultCode = s.faultCode := rfl
@[simp] theorem State.setFreq_phase : (s.setFreq x).phase = s.phase := rfl
@[simp] theorem State.setFreq_io : (s.setFreq x).io = s.io := rfl
@[simp] theorem State.setFreq_w : (s.setFreq x).w = s.w := rfl
@[simp] theorem State.setFreq_freq : (s.setFreq x).freq = x := rfl
@[simp] theorem State.setFreq_dist : (s.setFreq x).dist = s.dist := rfl
@[simp] theorem State.setFreq_range : (s.setFreq x).range = s.range := rfl
@[simp] theorem State.setFreq_main : (s.setFreq x).main = s.main := rfl
@[simp] theorem State.setFreq_ctx : (s.setFreq x).ctx = s.ctx := rfl
@[simp] theorem State.setFreq_fgk : (s.setFreq x).fgk = s.fgk := rfl
@[simp] theorem State.setFreq_host : (s.setFreq x).host = s.host := rfl
@[simp] theorem State.setFreq_fresh : (s.setFreq x).fresh = s.fresh := rfl
end

section
variable (s : State) (x : Table DistEntry)
@[simp] theorem State.setDist_status : (s.setDist x).status = s.status := rfl
@[simp] theorem State.setDist_faultCode : (s.setDist x).faultCode = s.faultCode := rfl
@[simp] theorem State.setDist_phase : (s.setDist x).phase = s.phase := rfl
@[simp] theorem State.setDist_io : (s.setDist x).io = s.io := rfl
@[simp] theorem State.setDist_w : (s.setDist x).w = s.w := rfl
@[simp] theorem State.setDist_freq : (s.setDist x).freq = s.freq := rfl
@[simp] theorem State.setDist_dist : (s.setDist x).dist = x := rfl
@[simp] theorem State.setDist_range : (s.setDist x).range = s.range := rfl
@[simp] theorem State.setDist_main : (s.setDist x).main = s.main := rfl
@[simp] theorem State.setDist_ctx : (s.setDist x).ctx = s.ctx := rfl
@[simp] theorem State.setDist_fgk : (s.setDist x).fgk = s.fgk := rfl
@[simp] theorem State.setDist_host : (s.setDist x).host = s.host := rfl
@[simp] theorem State.setDist_fresh : (s.setDist x).fresh = s.fresh := rfl
end

section
variable (s : State) (x : Table RangeEntry)
@[simp] theorem State.setRange_status : (s.setRange x).status = s.status := rfl
@[simp] theorem State.setRange_faultCode : (s.setRange x).faultCode = s.faultCode := rfl
@[simp] theorem State.setRange_phase : (s.setRange x).phase = s.phase := rfl
@[simp] theorem State.setRange_io : (s.setRange x).io = s.io := rfl
@[simp] theorem State.setRange_w : (s.setRange x).w = s.w := rfl
@[simp] theorem State.setRange_freq : (s.setRange x).freq = s.freq := rfl
@[simp] theorem State.setRange_dist : (s.setRange x).dist = s.dist := rfl
@[simp] theorem State.setRange_range : (s.setRange x).range = x := rfl
@[simp] theorem State.setRange_main : (s.setRange x).main = s.main := rfl
@[simp] theorem State.setRange_ctx : (s.setRange x).ctx = s.ctx := rfl
@[simp] theorem State.setRange_fgk : (s.setRange x).fgk = s.fgk := rfl
@[simp] theorem State.setRange_host : (s.setRange x).host = s.host := rfl
@[simp] theorem State.setRange_fresh : (s.setRange x).fresh = s.fresh := rfl
end

section
variable (s : State) (x : TreeMem)
@[simp] theorem State.setMain_status : (s.setMain x).status = s.status := rfl
@[simp] theorem State.setMain_faultCode : (s.setMain x).faultCode = s.faultCode := rfl
@[simp] theorem State.setMain_phase : (s.setMain x).phase = s.phase := rfl
@[simp] theorem State.setMain_io : (s.setMain x).io = s.io := rfl
@[simp] theorem State.setMain_w : (s.setMain x).w = s.w := rfl
@[simp] theorem State.setMain_freq : (s.setMain x).freq = s.freq := rfl
@[simp] theorem State.setMain_dist : (s.setMain x).dist = s.dist := rfl
@[simp] theorem State.setMain_range : (s.setMain x).range = s.range := rfl
@[simp] theorem State.setMain_main : (s.setMain x).main = x := rfl
@[simp] theorem State.setMain_ctx : (s.setMain x).ctx = s.ctx := rfl
@[simp] theorem State.setMain_fgk : (s.setMain x).fgk = s.fgk := rfl
@[simp] theorem State.setMain_host : (s.setMain x).host = s.host := rfl
@[simp] theorem State.setMain_fresh : (s.setMain x).fresh = s.fresh := rfl
end

section
variable (s : State) (x : Table CtxEntry)
@[simp] theorem State.setCtx_status : (s.setCtx x).status = s.status := rfl
@[simp] theorem State.setCtx_faultCode : (s.setCtx x).faultCode = s.faultCode := rfl
@[simp] theorem State.setCtx_phase : (s.setCtx x).phase = s.phase := rfl
@[simp] theorem State.setCtx_io : (s.setCtx x).io = s.io := rfl
@[simp] theorem State.setCtx_w : (s.setCtx x).w = s.w := rfl
@[simp] theorem State.setCtx_freq : (s.setCtx x).freq = s.freq := rfl
@[simp] theorem State.setCtx_dist : (s.setCtx x).dist = s.dist := rfl
@[simp] theorem State.setCtx_range : (s.setCtx x).range = s.range := rfl
@[simp] theorem State.setCtx_main : (s.setCtx x).main = s.main := rfl
@[simp] theorem State.setCtx_ctx : (s.setCtx x).ctx = x := rfl
@[simp] theorem State.setCtx_fgk : (s.setCtx x).fgk = s.fgk := rfl
@[simp] theorem State.setCtx_host : (s.setCtx x).host = s.host := rfl
@[simp] theorem State.setCtx_fresh : (s.setCtx x).fresh = s.fresh := rfl
end

section
variable (s : State) (x : FgkMem)
@[simp] theorem State.setFgk_status : (s.setFgk x).status = s.status := rfl
@[simp] theorem State.setFgk_faultCode : (s.setFgk x).faultCode = s.faultCode := rfl
@[simp] theorem State.setFgk_phase : (s.setFgk x).phase = s.phase := rfl
@[simp] theorem State.setFgk_io : (s.setFgk x).io = s.io := rfl
@[simp] theorem State.setFgk_w : (s.setFgk x).w = s.w := rfl
@[simp] theorem State.setFgk_freq : (s.setFgk x).freq = s.freq := rfl
@[simp] theorem State.setFgk_dist : (s.setFgk x).dist = s.dist := rfl
@[simp] theorem State.setFgk_range : (s.setFgk x).range = s.range := rfl
@[simp] theorem State.setFgk_main : (s.setFgk x).main = s.main := rfl
@[simp] theorem State.setFgk_ctx : (s.setFgk x).ctx = s.ctx := rfl
@[simp] theorem State.setFgk_fgk : (s.setFgk x).fgk = x := rfl
@[simp] theorem State.setFgk_host : (s.setFgk x).host = s.host := rfl
@[simp] theorem State.setFgk_fresh : (s.setFgk x).fresh = s.fresh := rfl
end

section
variable (s : State) (x : List HostAct)
@[simp] theorem State.setHost_status : (s.setHost x).status = s.status := rfl
@[simp] theorem State.setHost_faultCode : (s.setHost x).faultCode = s.faultCode := rfl
@[simp] theorem State.setHost_phase : (s.setHost x).phase = s.phase := rfl
@[simp] theorem State.setHost_io : (s.setHost x).io = s.io := rfl
@[simp] theorem State.setHost_w : (s.setHost x).w = s.w := rfl
@[simp] theorem State.setHost_freq : (s.setHost x).freq = s.freq := rfl
@[simp] theorem State.setHost_dist : (s.setHost x).dist = s.dist := rfl
@[simp] theorem State.setHost_range : (s.setHost x).range = s.range := rfl
@[simp] theorem State.setHost_main : (s.setHost x).main = s.main := rfl
@[simp] theorem State.setHost_ctx : (s.setHost x).ctx = s.ctx := rfl
@[simp] theorem State.setHost_fgk : (s.setHost x).fgk = s.fgk := rfl
@[simp] theorem State.setHost_host : (s.setHost x).host = x := rfl
@[simp] theorem State.setHost_fresh : (s.setHost x).fresh = s.fresh := rfl
end

section
variable (s : State) (x : Nat)
@[simp] theorem State.setFresh_status : (s.setFresh x).status = s.status := rfl
@[simp] theorem State.setFresh_faultCode : (s.setFresh x).faultCode = s.faultCode := rfl
@[simp] theorem State.setFresh_phase : (s.setFresh x).phase = s.phase := rfl
@[simp] theorem State.setFresh_io : (s.setFresh x).io = s.io := rfl
@[simp] theorem State.setFresh_w : (s.setFresh x).w = s.w := rfl
@[simp] theorem State.setFresh_freq : (s.setFresh x).freq = s.freq := rfl
@[simp] theorem State.setFresh_dist : (s.setFresh x).dist = s.dist := rfl
@[simp] theorem State.setFresh_range : (s.setFresh x).range = s.range := rfl
@[simp] theorem State.setFresh_main : (s.setFresh x).main = s.main := rfl
@[simp] theorem State.setFresh_ctx : (s.setFresh x).ctx = s.ctx := rfl
@[simp] theorem State.setFresh_fgk : (s.setFresh x).fgk = s.fgk := rfl
@[simp] theorem State.setFresh_host : (s.setFresh x).host = s.host := rfl
@[simp] theorem State.setFresh_fresh : (s.setFresh x).fresh = x := rfl
end

end Sys2Proof.Machine
end

