-- ==== Sys2Proof/Laws/Run.lean ====
section
/-! SUPPORT. How a piece of pseudocode runs: one equation per way of putting pieces together, and the frame
rule (what every piece of a command keeps, the command keeps). -/

namespace Sys2Proof.Machine

section Equations
variable {σ α β : Type}

@[simp] theorem Run.pure_apply (a : α) (s : σ) : (pure a : Run σ α) s = .ok a s := rfl

theorem Run.bind_apply (m : Run σ α) (f : α → Run σ β) (s : σ) :
    (m >>= f) s = match m s with
      | .ok a t => f a t
      | .error e t => .error e t := by
  simp only [bind, EStateM.bind]
  cases m s <;> rfl

theorem Run.bind_ok {m : Run σ α} {f : α → Run σ β} {s t : σ} {a : α} (h : m s = .ok a t) :
    (m >>= f) s = f a t := by rw [Run.bind_apply, h]

theorem Run.bind_error {m : Run σ α} {f : α → Run σ β} {s t : σ} {e : Stop} (h : m s = .error e t) :
    (m >>= f) s = .error e t := by rw [Run.bind_apply, h]

@[simp] theorem Run.read_apply (f : σ → α) (s : σ) : Run.read f s = .ok (f s) s := rfl
@[simp] theorem Run.update_apply (f : σ → σ) (s : σ) : Run.update f s = .ok () (f s) := rfl
@[simp] theorem Run.raise_apply (c : FaultCode) (s : σ) :
    (Run.raise c : Run σ α) s = .error (.raise c) s := rfl
@[simp] theorem Run.stuck_apply (s : σ) : (Run.stuck : Run σ α) s = .error .stuck s := rfl
@[simp] theorem Run.require_true (c : FaultCode) (s : σ) : Run.require true c s = .ok () s := rfl
@[simp] theorem Run.require_false (c : FaultCode) (s : σ) :
    Run.require false c s = .error (.raise c) s := rfl

@[simp] theorem Run.read_bind (f : σ → α) (g : α → Run σ β) (s : σ) :
    (Run.read f >>= g) s = g (f s) s := rfl
@[simp] theorem Run.update_bind (f : σ → σ) (g : Unit → Run σ β) (s : σ) :
    (Run.update f >>= g) s = g () (f s) := rfl
@[simp] theorem Run.pure_bind_apply (a : α) (g : α → Run σ β) (s : σ) :
    ((pure a : Run σ α) >>= g) s = g a s := rfl
@[simp] theorem Run.raise_bind (c : FaultCode) (g : α → Run σ β) (s : σ) :
    ((Run.raise c : Run σ α) >>= g) s = .error (.raise c) s := rfl
@[simp] theorem Run.stuck_bind (g : α → Run σ β) (s : σ) :
    ((Run.stuck : Run σ α) >>= g) s = .error .stuck s := rfl
@[simp] theorem Run.require_true_bind (c : FaultCode) (g : Unit → Run σ β) (s : σ) :
    (Run.require true c >>= g) s = g () s := rfl
@[simp] theorem Run.require_false_bind (c : FaultCode) (g : Unit → Run σ β) (s : σ) :
    (Run.require false c >>= g) s = .error (.raise c) s := rfl

@[simp] theorem Run.bind_assoc_apply {γ : Type} (m : Run σ α) (f : α → Run σ β) (g : β → Run σ γ) (s : σ) :
    ((m >>= f) >>= g) s = (m >>= fun a => f a >>= g) s := by
  simp only [Run.bind_apply]
  cases m s <;> rfl

@[simp] theorem Run.each_nil (f : α → Run σ Unit) : Run.each [] f = pure () := rfl
@[simp] theorem Run.each_cons (x : α) (xs : List α) (f : α → Run σ Unit) :
    Run.each (x :: xs) f = (f x >>= fun _ => Run.each xs f) := rfl
@[simp] theorem Run.times_zero (m : Run σ Unit) : Run.times 0 m = pure () := rfl
@[simp] theorem Run.times_succ (n : Nat) (m : Run σ Unit) :
    Run.times (n + 1) m = (m >>= fun _ => Run.times n m) := rfl

@[simp] theorem setPhase_apply (p : Phase) (s : State) : setPhase p s = .ok () (s.setPhase p) := rfl
@[simp] theorem setW_apply (f : Working → Working) (s : State) : setW f s = .ok () (s.setW (f s.w)) := rfl
@[simp] theorem setPhase_bind (p : Phase) (g : Unit → Eng β) (s : State) :
    (setPhase p >>= g) s = g () (s.setPhase p) := rfl
@[simp] theorem setW_bind (f : Working → Working) (g : Unit → Eng β) (s : State) :
    (setW f >>= g) s = g () (s.setW (f s.w)) := rfl

/-- A list of pieces that all end, each taking the state on by `step`: the fold of `step`. -/
theorem Run.each_ok {f : α → Run σ Unit} {step : σ → α → σ} {P : σ → Prop}
    (hf : ∀ s x, P s → f x s = .ok () (step s x)) (hP : ∀ s x, P s → P (step s x)) :
    ∀ (xs : List α) (s : σ), P s → Run.each xs f s = .ok () (xs.foldl step s)
  | [], s, _ => rfl
  | x :: xs, s, h => by
    rw [Run.each_cons, Run.bind_ok (hf s x h)]
    exact Run.each_ok hf hP xs _ (hP s x h)

end Equations

/-! ### The frame rule -/

/-- The state a piece leaves, whether it ended or stopped. -/
def endState {σ α : Type} : EStateM.Result Stop σ α → σ
  | .ok _ t => t
  | .error _ t => t

/-- A relation between the state before and after that holds over any number of pieces. -/
structure Frame (σ : Type) where
  rel : σ → σ → Prop
  refl : ∀ s, rel s s
  trans : ∀ s t u, rel s t → rel t u → rel s u

/-- A piece keeps a frame. -/
def Run.Keeps {σ α : Type} (F : Frame σ) (m : Run σ α) : Prop := ∀ s, F.rel s (endState (m s))

section Keeps
variable {σ α β : Type} {F : Frame σ}

theorem Run.Keeps.pure (a : α) : Run.Keeps F (pure a : Run σ α) := fun s => F.refl s
theorem Run.Keeps.read (f : σ → α) : Run.Keeps F (Run.read f) := fun s => F.refl s
theorem Run.Keeps.raise (c : FaultCode) : Run.Keeps F (Run.raise c : Run σ α) := fun s => F.refl s
theorem Run.Keeps.stuck : Run.Keeps F (Run.stuck : Run σ α) := fun s => F.refl s
theorem Run.Keeps.update {f : σ → σ} (h : ∀ s, F.rel s (f s)) : Run.Keeps F (Run.update f) := h

theorem Run.Keeps.require (b : Bool) (c : FaultCode) : Run.Keeps F (Run.require b c) := fun s => by
  cases b <;> exact F.refl s

theorem Run.Keeps.bind {m : Run σ α} {f : α → Run σ β} (hm : Run.Keeps F m)
    (hf : ∀ a, Run.Keeps F (f a)) : Run.Keeps F (m >>= f) := fun s => by
  have h := hm s
  rw [Run.bind_apply]
  cases hms : m s with
  | ok a t => rw [hms] at h; exact F.trans _ _ _ h (hf a t)
  | error e t => rw [hms] at h; exact h

theorem Run.Keeps.ite {c : Prop} [Decidable c] {m n : Run σ α} (hm : Run.Keeps F m)
    (hn : Run.Keeps F n) : Run.Keeps F (if c then m else n) := by split <;> assumption

theorem Run.Keeps.each {f : α → Run σ Unit} (hf : ∀ a, Run.Keeps F (f a)) :
    ∀ xs : List α, Run.Keeps F (Run.each xs f)
  | [] => Run.Keeps.pure ()
  | x :: xs => Run.Keeps.bind (hf x) (fun _ => Run.Keeps.each hf xs)

theorem Run.Keeps.times {m : Run σ Unit} (hm : Run.Keeps F m) : ∀ n, Run.Keeps F (Run.times n m)
  | 0 => Run.Keeps.pure ()
  | n + 1 => Run.Keeps.bind hm (fun _ => Run.Keeps.times hm n)

end Keeps

/-! ### Pre- and postconditions -/

/-- From every state that meets `P` the piece ends in one that meets `Q`, or stops in one that meets `E`. -/
def Run.Sat {σ α : Type} (P : σ → Prop) (m : Run σ α) (Q : α → σ → Prop) (E : Stop → σ → Prop) : Prop :=
  ∀ s, P s →
    match m s with
    | .ok a t => Q a t
    | .error e t => E e t

section Sat
variable {σ α β : Type} {P : σ → Prop} {E : Stop → σ → Prop}

theorem Run.Sat.pure {Q : α → σ → Prop} {a : α} (h : ∀ s, P s → Q a s) :
    Run.Sat P (pure a : Run σ α) Q E := h

theorem Run.Sat.read {Q : α → σ → Prop} {f : σ → α} (h : ∀ s, P s → Q (f s) s) :
    Run.Sat P (Run.read f) Q E := h

theorem Run.Sat.update {Q : Unit → σ → Prop} {f : σ → σ} (h : ∀ s, P s → Q () (f s)) :
    Run.Sat P (Run.update f) Q E := h

theorem Run.Sat.raise {Q : α → σ → Prop} {c : FaultCode} (h : ∀ s, P s → E (.raise c) s) :
    Run.Sat P (Run.raise c : Run σ α) Q E := h

theorem Run.Sat.stuck {Q : α → σ → Prop} (h : ∀ s, P s → E .stuck s) :
    Run.Sat P (Run.stuck : Run σ α) Q E := h

theorem Run.Sat.require {Q : Unit → σ → Prop} {b : Bool} {c : FaultCode}
    (ht : b = true → ∀ s, P s → Q () s) (hf : b = false → ∀ s, P s → E (.raise c) s) :
    Run.Sat P (Run.require b c) Q E := by
  cases b with
  | true => exact ht rfl
  | false => exact hf rfl

theorem Run.Sat.bind {m : Run σ α} {f : α → Run σ β} {R : α → σ → Prop} {Q : β → σ → Prop}
    (hm : Run.Sat P m R E) (hf : ∀ a, Run.Sat (R a) (f a) Q E) : Run.Sat P (m >>= f) Q E := fun s hs => by
  have h := hm s hs
  rw [Run.bind_apply]
  cases hms : m s with
  | ok a t => rw [hms] at h; exact hf a t h
  | error e t => rw [hms] at h; exact h

theorem Run.Sat.read_bind {f : σ → α} {g : α → Run σ β} {Q : β → σ → Prop}
    (h : ∀ a, Run.Sat (fun s => P s ∧ a = f s) (g a) Q E) : Run.Sat P (Run.read f >>= g) Q E :=
  .bind (R := fun a s => P s ∧ a = f s) (.read fun s hs => ⟨hs, rfl⟩) h

theorem Run.Sat.update_bind {f : σ → σ} {g : Unit → Run σ β} {R : σ → Prop} {Q : β → σ → Prop}
    (hf : ∀ s, P s → R (f s)) (h : Run.Sat R (g ()) Q E) : Run.Sat P (Run.update f >>= g) Q E :=
  .bind (R := fun _ s => R s) (.update hf) fun _ => h

theorem Run.Sat.conseq {m : Run σ α} {P' : σ → Prop} {Q Q' : α → σ → Prop} {E' : Stop → σ → Prop}
    (h : Run.Sat P m Q E) (hP : ∀ s, P' s → P s) (hQ : ∀ a s, Q a s → Q' a s)
    (hE : ∀ e s, E e s → E' e s) : Run.Sat P' m Q' E' := fun s hs => by
  have := h s (hP s hs)
  cases hms : m s with
  | ok a t => rw [hms] at this; exact hQ a t this
  | error e t => rw [hms] at this; exact hE e t this

theorem Run.Sat.ite {c : Prop} [Decidable c] {m n : Run σ α} {Q : α → σ → Prop}
    (hm : c → Run.Sat P m Q E) (hn : ¬c → Run.Sat P n Q E) : Run.Sat P (if c then m else n) Q E := by
  by_cases h : c
  · rw [if_pos h]; exact hm h
  · rw [if_neg h]; exact hn h

theorem Run.Sat.each {f : α → Run σ Unit} (hf : ∀ a, Run.Sat P (f a) (fun _ => P) E) :
    ∀ xs : List α, Run.Sat P (Run.each xs f) (fun _ => P) E
  | [] => .pure fun _ h => h
  | x :: xs => .bind (hf x) fun _ => Run.Sat.each hf xs

theorem Run.Sat.each_mem {f : α → Run σ Unit} :
    ∀ xs : List α, (∀ a ∈ xs, Run.Sat P (f a) (fun _ => P) E) → Run.Sat P (Run.each xs f) (fun _ => P) E
  | [], _ => .pure fun _ h => h
  | x :: xs, hf => .bind (hf x (by simp)) fun _ => Run.Sat.each_mem xs fun a h => hf a (by simp [h])

theorem Run.Sat.times {m : Run σ Unit} (hm : Run.Sat P m (fun _ => P) E) :
    ∀ n, Run.Sat P (Run.times n m) (fun _ => P) E
  | 0 => .pure fun _ h => h
  | n + 1 => .bind hm fun _ => Run.Sat.times hm n

theorem Run.Sat.and {m : Run σ α} {P' : σ → Prop} {Q Q' : α → σ → Prop} {E' : Stop → σ → Prop}
    (h : Run.Sat P m Q E) (h' : Run.Sat P' m Q' E') :
    Run.Sat (fun s => P s ∧ P' s) m (fun a s => Q a s ∧ Q' a s) (fun e s => E e s ∧ E' e s) := fun s hs => by
  have h1 := h s hs.1
  have h2 := h' s hs.2
  cases hms : m s with
  | ok a t => rw [hms] at h1 h2; exact ⟨h1, h2⟩
  | error e t => rw [hms] at h1 h2; exact ⟨h1, h2⟩

/-- A kept frame as a condition on the state it starts from. -/
theorem Run.Keeps.sat {F : Frame σ} {m : Run σ α} (h : Run.Keeps F m) (s₀ : σ) :
    Run.Sat (F.rel s₀) m (fun _ => F.rel s₀) (fun _ => F.rel s₀) := fun s hs => by
  have := F.trans _ _ _ hs (h s)
  cases hms : m s with
  | ok a t => rw [hms] at this; exact this
  | error e t => rw [hms] at this; exact this

theorem Run.Keeps.of_sat {F : Frame σ} {m : Run σ α}
    (h : ∀ s₀, Run.Sat (F.rel s₀) m (fun _ => F.rel s₀) (fun _ => F.rel s₀)) : Run.Keeps F m := fun s => by
  have := h s s (F.refl s)
  cases hms : m s with
  | ok a t => rw [hms] at this; exact this
  | error e t => rw [hms] at this; exact this

/-- A condition that a frame carries over. -/
theorem Run.Keeps.carries {F : Frame σ} {m : Run σ α} (h : Run.Keeps F m)
    (hP : ∀ s t, F.rel s t → P s → P t) : Run.Sat P m (fun _ => P) (fun _ => P) := fun s hs => by
  have := hP _ _ (h s) hs
  cases hms : m s with
  | ok a t => rw [hms] at this; exact this
  | error e t => rw [hms] at this; exact this

theorem Run.Sat.endState {m : Run σ α} {Q : σ → Prop} (h : Run.Sat P m (fun _ => Q) (fun _ => Q)) {s : σ}
    (hs : P s) : Q (endState (m s)) := by
  have := h s hs
  cases hms : m s with
  | ok a t => rw [hms] at this; exact this
  | error e t => rw [hms] at this; exact this

end Sat

/-- The frame of the states that a function of the state does not tell apart. -/
def Frame.same {σ β : Type} (f : σ → β) : Frame σ :=
  ⟨fun x y => f y = f x, fun _ => rfl, fun _ _ _ h h' => h'.trans h⟩

end Sys2Proof.Machine
end

