-- ==== Sys2Proof/Laws/Ops.lean ====
section
/-! SUPPORT. What each shared operation can do, said once: accepting, ending and trapping a command; the stream
primitives; the bit packer and the bit parser. -/

namespace Sys2Proof.Machine

/-! ### A command -/

/-- An accepted command is its body run from the state `accept` leaves. -/
theorem runCommand_ready {s : State} (h : s.Ready) (accept : State → State) (body : Eng Unit) :
    runCommand accept body s = finish (body (accept s)) := by
  simp [runCommand, h.1, h.2]

theorem runCommand_busy {s : State} (h : s.status.busy = true) (accept : State → State) (body : Eng Unit) :
    runCommand accept body s = .refused .cmdWhileBusy := by
  simp [runCommand, h]

theorem runCommand_faulted {s : State} (h : s.status.busy = false) (hf : s.status.fault = true)
    (accept : State → State) (body : Eng Unit) : runCommand accept body s = .next s := by
  simp [runCommand, h, hf]

/-- Every way a command gives a next state: ignored, ended, or trapped. -/
theorem runCommand_next {s t : State} {accept : State → State} {body : Eng Unit}
    (h : runCommand accept body s = .next t) : s.status.busy = false ∧
    ((s.status.fault = true ∧ t = s) ∨
      (s.status.fault = false ∧
        ((∃ u, body (accept s) = .ok () u ∧ t = u.complete) ∨
          ∃ c u, body (accept s) = .error (.raise c) u ∧ t = u.takeFault c))) := by
  unfold runCommand at h
  cases hb : s.status.busy with
  | true => rw [hb] at h; cases h
  | false =>
    refine ⟨rfl, ?_⟩
    rw [hb] at h
    cases hf : s.status.fault with
    | true => rw [hf] at h; exact .inl ⟨rfl, by cases h; rfl⟩
    | false =>
      rw [hf] at h
      refine .inr ⟨rfl, ?_⟩
      cases hr : body (accept s) with
      | ok a u => cases a; rw [hr] at h; exact .inl ⟨u, rfl, by cases h; rfl⟩
      | error e u =>
        rw [hr] at h
        cases e with
        | raise c => exact .inr ⟨c, u, rfl, by cases h; rfl⟩
        | stuck => cases h

/-- A primitive command, its block run in phase `PRIM`. -/
theorem runPrimitive_ok {s u : State} {block : Eng Unit} (h : s.Ready)
    (hb : block (s.accept.setPhase .prim) = .ok () u) : runPrimitive block s = .next u.complete := by
  unfold runPrimitive
  rw [runCommand_ready h, setPhase_bind, Run.bind_ok hb]
  rfl

theorem runPrimitive_raise {s u : State} {c : FaultCode} {block : Eng Unit} (h : s.Ready)
    (hb : block (s.accept.setPhase .prim) = .error (.raise c) u) :
    runPrimitive block s = .next (u.takeFault c) := by
  unfold runPrimitive
  rw [runCommand_ready h, setPhase_bind, Run.bind_error hb]
  rfl

/-- The state in which a stream command's block starts (R362, R383). -/
def State.streamStart (s : State) : State :=
  s.accept.setW { s.w with
    obits := 0, ocnt := 0, ibits := 0, icnt := 0, nsym := 0, prev := 256, cur := none, pend := 0 }

theorem runStream_ok {s u : State} {block : Eng Unit} (h : s.Ready)
    (hb : block s.streamStart = .ok () u) : runStream block s = .next u.complete := by
  unfold runStream
  rw [runCommand_ready h]
  show finish ((block >>= fun _ => setPhase .idle) s.streamStart) = _
  rw [Run.bind_ok hb]
  rfl

theorem runStream_raise {s u : State} {c : FaultCode} {block : Eng Unit} (h : s.Ready)
    (hb : block s.streamStart = .error (.raise c) u) : runStream block s = .next (u.takeFault c) := by
  unfold runStream
  rw [runCommand_ready h]
  show finish ((block >>= fun _ => setPhase .idle) s.streamStart) = _
  rw [Run.bind_error hb]
  rfl

/-- What completion writes. -/
@[simp] theorem State.complete_status (s : State) : s.complete.status = s.status.ended := rfl
@[simp] theorem State.complete_phase (s : State) : s.complete.phase = .idle := rfl
@[simp] theorem State.complete_faultCode (s : State) : s.complete.faultCode = s.faultCode := rfl
@[simp] theorem State.complete_io (s : State) : s.complete.io = s.io := rfl
@[simp] theorem State.complete_w (s : State) : s.complete.w = s.w := rfl
@[simp] theorem State.complete_freq (s : State) : s.complete.freq = s.freq := rfl
@[simp] theorem State.complete_dist (s : State) : s.complete.dist = s.dist := rfl
@[simp] theorem State.complete_range (s : State) : s.complete.range = s.range := rfl
@[simp] theorem State.complete_main (s : State) : s.complete.main = s.main := rfl
@[simp] theorem State.complete_ctx (s : State) : s.complete.ctx = s.ctx := rfl
@[simp] theorem State.complete_fgk (s : State) : s.complete.fgk = s.fgk := rfl

/-- What taking a fault writes (R350). -/
@[simp] theorem State.takeFault_status (s : State) (c : FaultCode) :
    (s.takeFault c).status = s.status.faulted := rfl
@[simp] theorem State.takeFault_phase (s : State) (c : FaultCode) : (s.takeFault c).phase = s.phase := rfl
@[simp] theorem State.takeFault_faultCode (s : State) (c : FaultCode) :
    (s.takeFault c).faultCode = some c := rfl
@[simp] theorem State.takeFault_io (s : State) (c : FaultCode) : (s.takeFault c).io = s.io := rfl
@[simp] theorem State.takeFault_w (s : State) (c : FaultCode) : (s.takeFault c).w = s.w := rfl
@[simp] theorem State.takeFault_freq (s : State) (c : FaultCode) : (s.takeFault c).freq = s.freq := rfl
@[simp] theorem State.takeFault_dist (s : State) (c : FaultCode) : (s.takeFault c).dist = s.dist := rfl
@[simp] theorem State.takeFault_range (s : State) (c : FaultCode) : (s.takeFault c).range = s.range := rfl
@[simp] theorem State.takeFault_main (s : State) (c : FaultCode) : (s.takeFault c).main = s.main := rfl
@[simp] theorem State.takeFault_ctx (s : State) (c : FaultCode) : (s.takeFault c).ctx = s.ctx := rfl
@[simp] theorem State.takeFault_fgk (s : State) (c : FaultCode) : (s.takeFault c).fgk = s.fgk := rfl

/-! ### The stream primitives -/

/-- The state after an access to the input stream has been counted. -/
abbrev State.touched (s : State) : State := s.setIo s.io.touchIn

/-- The state after an access to the output stream has been counted. -/
abbrev State.touchedOut (s : State) : State := s.setIo s.io.touchOut

theorem touchInput_eq (s : State) : touchInput s =
    if s.io.failIn.contains (s.io.inAcc + 1) then .error (.raise .ioRead) s.touched else .ok () s.touched := by
  show Run.require (!s.io.failIn.contains (s.io.inAcc + 1)) .ioRead s.touched = _
  cases h : s.io.failIn.contains (s.io.inAcc + 1)
  · rfl
  · rfl

theorem touchInput_bind {β : Type} (f : Unit → Eng β) (s : State) : (touchInput >>= f) s =
    if s.io.failIn.contains (s.io.inAcc + 1) then .error (.raise .ioRead) s.touched else f () s.touched := by
  rw [Run.bind_apply, touchInput_eq]
  cases s.io.failIn.contains (s.io.inAcc + 1) <;> rfl

/-- The state after `InRead()` took a byte. -/
abbrev State.advanced (s : State) : State :=
  s.setIo { s.io with inAcc := s.io.inAcc + 1, inPos := s.io.inPos + 1 }

/-- `InRead()` (R62): the oracle's answer, then the end of the stream or a byte. -/
theorem inRead_eq (s : State) : inRead s =
    if s.io.failIn.contains (s.io.inAcc + 1) then .error (.raise .ioRead) s.touched
    else match s.io.input[s.io.inPos.toNat]? with
      | none => .ok none s.touched
      | some b => .ok (some b) s.advanced := by
  unfold inRead
  rw [touchInput_bind, Run.read_bind]
  show (if _ then _ else (match s.io.input[s.io.inPos.toNat]? with
    | none => (pure none : Eng (Option Byte))
    | some b => _) s.touched) = _
  cases s.io.input[s.io.inPos.toNat]? <;> rfl

/-- `InAtEnd()` (R63). -/
theorem inAtEnd_eq (s : State) : inAtEnd s =
    if s.io.failIn.contains (s.io.inAcc + 1) then .error (.raise .ioRead) s.touched
    else .ok (s.io.input[s.io.inPos.toNat]?).isNone s.touched := by
  unfold inAtEnd
  rw [touchInput_bind]
  rfl

/-- `InRewind()` (R64). -/
theorem inRewind_eq (s : State) : inRewind s =
    if s.io.failIn.contains (s.io.inAcc + 1) then .error (.raise .ioRead) s.touched
    else .ok () ((s.setIo { s.io with
      inAcc := s.io.inAcc + 1, inPos := s.io.inBase
      input := s.io.again.getD s.io.input, again := none }).setW { s.w with icnt := 0 }) := by
  unfold inRewind
  rw [touchInput_bind]
  rfl

/-- The state after `OutWrite(v)` appended its byte. -/
abbrev State.wrote (s : State) (v : Byte) : State :=
  s.setIo { s.io with outAcc := s.io.outAcc + 1, outRev := v :: s.io.outRev, outLen := s.io.outLen + 1 }

/-- `OutWrite(v)` (R65). -/
theorem outWrite_eq (v : Byte) (s : State) : outWrite v s =
    if s.io.failOut.contains (s.io.outAcc + 1) then .error (.raise .ioWrite) s.touchedOut
    else .ok () (s.wrote v) := by
  show (Run.require (!s.io.failOut.contains (s.io.outAcc + 1)) .ioWrite >>= _) s.touchedOut = _
  cases h : s.io.failOut.contains (s.io.outAcc + 1)
  · rfl
  · rfl

/-- What is left to read, one byte at a time. -/
theorem Streams.rest_cons {x : Streams} {b : Byte} {l : List Byte} (h : x.rest = b :: l) :
    x.input[x.inPos.toNat]? = some b := by
  have := congrArg List.head? h
  rwa [Streams.rest, List.head?_drop] at this

theorem Streams.rest_nil {x : Streams} (h : x.rest = []) : x.input[x.inPos.toNat]? = none := by
  rw [List.getElem?_eq_none_iff]
  exact List.drop_eq_nil_iff.1 h

/-- The cursor moves by one: no carry out of `IN_POS`, for the input is shorter than 2^64 bytes. -/
theorem Streams.pos_succ {x : Streams} (hs : x.Sound) {b : Byte} {l : List Byte} (h : x.rest = b :: l) :
    (x.inPos + 1).toNat = x.inPos.toNat + 1 := by
  have hlt : x.inPos.toNat < x.input.length := by
    rcases List.getElem?_eq_some_iff.1 (Streams.rest_cons h) with ⟨h1, _⟩
    exact h1
  have := hs.1
  rw [BitVec.toNat_add, show (1 : BitVec 64).toNat = 1 from rfl, Nat.mod_eq_of_lt (by omega)]

/-- `InRead()` where the oracle answers `ok` and a byte is left: the byte, and the cursor behind it. -/
theorem inRead_some {s : State} (hf : s.io.failIn = []) {b : Byte} {l : List Byte}
    (h : s.io.rest = b :: l) : inRead s = .ok (some b) s.advanced := by
  rw [inRead_eq, hf, Streams.rest_cons h]
  rfl

theorem State.advanced_rest {s : State} (hs : s.io.Sound) {b : Byte} {l : List Byte}
    (h : s.io.rest = b :: l) : s.advanced.io.rest = l := by
  have h' : s.advanced.io.rest = s.io.input.drop (s.io.inPos + 1).toNat := rfl
  have h2 := congrArg List.tail h
  rw [h', Streams.pos_succ hs h, ← List.tail_drop]
  exact h2

theorem State.advanced_sound {s : State} (hs : s.io.Sound) {b : Byte} {l : List Byte}
    (h : s.io.rest = b :: l) : s.advanced.io.Sound := by
  refine ⟨hs.1, ?_⟩
  show (s.io.inPos + 1).toNat ≤ s.io.input.length
  rw [Streams.pos_succ hs h]
  rcases List.getElem?_eq_some_iff.1 (Streams.rest_cons h) with ⟨h1, _⟩
  exact h1

/-- `InRead()` at the end of the input. -/
theorem inRead_end {s : State} (hf : s.io.failIn = []) (h : s.io.rest = []) :
    inRead s = .ok none s.touched := by
  rw [inRead_eq, hf, Streams.rest_nil h]
  rfl

/-- At the end of a sound input the cursor is the input's length. -/
theorem Streams.drained {x : Streams} (hs : x.Sound) (h : x.rest = []) :
    x.inPos = BitVec.ofNat 64 x.input.length := by
  have h1 := List.drop_eq_nil_iff.1 h
  apply BitVec.eq_of_toNat_eq
  rw [BitVec.toNat_ofNat, Nat.mod_eq_of_lt hs.1]
  exact Nat.le_antisymm hs.2 h1

/-- `OutWrite(v)` where the oracle answers `ok`. -/
theorem outWrite_ok {s : State} (hf : s.io.failOut = []) (v : Byte) : outWrite v s = .ok () (s.wrote v) := by
  rw [outWrite_eq, hf]
  rfl

/-- The state after a list of bytes has been written. -/
abbrev State.wroteAll (s : State) (bytes : List Byte) : State :=
  s.setIo { s.io with
    outAcc := s.io.outAcc + bytes.length
    outRev := bytes.reverse ++ s.io.outRev
    outLen := s.io.outLen + BitVec.ofNat 64 bytes.length }

theorem State.wroteAll_nil (s : State) : s.wroteAll [] = s := by
  simp [State.wroteAll, State.setIo]

theorem State.wroteAll_wroteAll (s : State) (a b : List Byte) :
    (s.wroteAll a).wroteAll b = s.wroteAll (a ++ b) := by
  simp [State.wroteAll, State.setIo, Nat.add_assoc, BitVec.add_assoc, BitVec.ofNat_add]

theorem State.wrote_eq (s : State) (v : Byte) : s.wrote v = s.wroteAll [v] := rfl

theorem State.wroteAll_out (s : State) (bytes : List Byte) : (s.wroteAll bytes).io.out = s.io.out ++ bytes := by
  simp [State.wroteAll, Streams.out]

/-- `MemWrite(-, n, v)` where the oracle answers `ok` (R67). -/
theorem memWrite_ok {s : State} (hf : s.io.failOut = []) : ∀ (n v : Nat),
    memWrite n v s = .ok () (s.wroteAll (leBytes n v)) := by
  intro n
  induction n generalizing s with
  | zero => intro v; rw [leBytes, State.wroteAll_nil]; rfl
  | succ n ih =>
    intro v
    rw [memWrite, Run.bind_ok (outWrite_ok hf _)]
    refine (ih (s := s.wrote _) hf _).trans ?_
    rw [State.wrote_eq, State.wroteAll_wroteAll]
    rfl

theorem leBytes_length : ∀ n v : Nat, (leBytes n v).length = n
  | 0, _ => rfl
  | n + 1, v => by rw [leBytes, List.length_cons, leBytes_length n]

theorem headerBytes_length (f : Table (BitVec 32)) : (headerBytes f).length = 1024 := by
  rw [headerBytes, List.length_flatMap, List.map_congr_left (g := fun _ => 4) fun i _ => leBytes_length 4 _,
    List.map_const', List.sum_replicate, List.length_range]
  rfl

/-- The number a field of bytes stands for, the least significant first (R66, R76). -/
def leValue : List Byte → Nat
  | [] => 0
  | b :: bs => b.toNat + 256 * leValue bs

theorem leValue_leBytes : ∀ n v : Nat, v < 256 ^ n → leValue (leBytes n v) = v
  | 0, v, h => by simp at h; simp [leBytes, leValue, h]
  | n + 1, v, h => by
    rw [leBytes, leValue, leValue_leBytes n (v / 256) (by rw [Nat.pow_succ] at h; omega)]
    simp
    omega

/-- The state after `n` bytes have been read. -/
abbrev State.advancedBy (s : State) (n : Nat) : State :=
  s.setIo { s.io with inAcc := s.io.inAcc + n, inPos := s.io.inPos + BitVec.ofNat 64 n }

/-- `MemRead(-, n)` where the oracle answers `ok` and the field is there (R66). -/
theorem memRead_ok : ∀ {s : State} {field l : List Byte}, s.io.failIn = [] → s.io.Sound →
    s.io.rest = field ++ l →
    memRead field.length s = .ok (leValue field) (s.advancedBy field.length) ∧
      (s.advancedBy field.length).io.rest = l ∧ (s.advancedBy field.length).io.Sound := by
  intro s field
  induction field generalizing s with
  | nil =>
    intro l _ hs h
    have : s.advancedBy 0 = s := by simp [State.advancedBy, State.setIo]
    refine ⟨?_, ?_, ?_⟩
    · show memRead 0 s = _
      rw [show ([] : List Byte).length = 0 from rfl, this]
      rfl
    · rw [show ([] : List Byte).length = 0 from rfl, this]; exact h
    · rw [show ([] : List Byte).length = 0 from rfl, this]; exact hs
  | cons b bs ih =>
    intro l hf hs h
    have h1 := State.advanced_rest hs h
    have h2 := State.advanced_sound hs h
    have := ih (s := s.advanced) hf h2 h1
    have he : s.advanced.advancedBy bs.length = s.advancedBy (b :: bs).length := by
      simp only [State.advancedBy, State.advanced, State.setIo, List.length_cons]
      rw [BitVec.add_assoc, Nat.add_assoc, Nat.add_comm 1, BitVec.add_comm 1, BitVec.ofNat_add]
      rfl
    rw [he] at this
    refine ⟨?_, this.2⟩
    rw [List.length_cons, memRead, Run.bind_ok (inRead_some hf h)]
    show (memRead bs.length >>= _) s.advanced = _
    rw [Run.bind_ok this.1]
    rfl

/-! ### The counter of symbols -/

theorem bumpNsym_small {s : State} (h : s.w.nsym.toNat + 1 < 2 ^ 40) :
    bumpNsym s = .ok () (s.setW { s.w with nsym := s.w.nsym + 1 }) := by
  simp only [bumpNsym, Run.update_apply, if_pos h]

/-! ### The bit packer -/

/-- `PutBit(b)` before a full byte is written out. -/
abbrev Working.pushBit (w : Working) (b : Bool) : Working := { w with
  obits := BitVec.ofNat 8 (w.obits.toNat + (if b then 2 ^ (7 - w.ocnt.toNat) else 0))
  ocnt := w.ocnt + 1 }

theorem flushByte_ok {s : State} (hf : s.io.failOut = []) : flushByte s =
    .ok () ((s.wrote s.w.obits).setW { s.w with obits := 0, ocnt := 0 }) := by
  unfold flushByte
  rw [Run.read_bind, Run.bind_ok (outWrite_ok hf _)]
  rfl

theorem putBit_ok {s : State} (hf : s.io.failOut = []) (b : Bool) : putBit b s =
    .ok () (if s.w.ocnt + 1 = 8 then
      (s.wrote (s.w.pushBit b).obits).setW { s.w with obits := 0, ocnt := 0 }
    else s.setW (s.w.pushBit b)) := by
  show (if (s.w.ocnt + 1 == 8) = true then flushByte else pure ()) (s.setW (s.w.pushBit b)) = _
  by_cases h : s.w.ocnt + 1 = 8
  · rw [if_pos h, if_pos (beq_iff_eq.2 h)]
    exact flushByte_ok hf
  · rw [if_neg h, if_neg (fun h' => h (beq_iff_eq.1 h'))]
    rfl

/-- The number a byte's bits stand for, the first bit its bit 7, missing bits 0. -/
def packValue (c : Bits) : Nat :=
  ((c ++ List.replicate 8 false).take 8).foldl (fun v b => 2 * v + (if b then 1 else 0)) 0

theorem packValue_append : ∀ (c : Bits) (b : Bool), c.length < 8 →
    packValue (c ++ [b]) = packValue c + (if b then 2 ^ (7 - c.length) else 0) := by
  intro c b h
  rcases c with _ | ⟨a0, _ | ⟨a1, _ | ⟨a2, _ | ⟨a3, _ | ⟨a4, _ | ⟨a5, _ | ⟨a6, _ | ⟨a7, c⟩⟩⟩⟩⟩⟩⟩⟩
  all_goals first
    | (simp only [List.length_cons] at h; omega)
    | (simp only [packValue, List.cons_append, List.nil_append, List.replicate, List.take, List.foldl,
        List.length_cons, List.length_nil, Bool.false_eq_true, if_false]
       cases b <;> simp only [Bool.false_eq_true, if_false, if_true, Nat.zero_add, Nat.reduceAdd,
         Nat.reduceSub, Nat.reducePow] <;> omega)

theorem packValue_lt (c : Bits) : packValue c < 256 := by
  have key : ∀ (l : Bits) (v : Nat), l.foldl (fun v b => 2 * v + (if b then 1 else 0)) v < (v + 1) * 2 ^ l.length := by
    intro l
    induction l with
    | nil => intro v; simp
    | cons b l ih =>
      intro v
      rw [List.foldl_cons, List.length_cons, Nat.pow_succ]
      refine Nat.lt_of_lt_of_le (ih _) ?_
      have : (2 * v + (if b then 1 else 0)) + 1 ≤ (v + 1) * 2 := by split <;> omega
      calc _ ≤ ((v + 1) * 2) * 2 ^ l.length := Nat.mul_le_mul_right _ this
        _ = _ := by ring
  have := key ((c ++ List.replicate 8 false).take 8) 0
  rw [List.length_take, List.length_append, List.length_replicate, Nat.min_eq_left (by omega)] at this
  simpa [packValue] using this

theorem byteOf_toNat (c : Bits) : (byteOf c).toNat = packValue c := by
  show (BitVec.ofNat 8 (packValue c)).toNat = packValue c
  rw [BitVec.toNat_ofNat, Nat.mod_eq_of_lt (packValue_lt c)]

theorem byteOf_append (c : Bits) (b : Bool) (h : c.length < 8) :
    byteOf (c ++ [b]) = BitVec.ofNat 8 ((byteOf c).toNat + (if b then 2 ^ (7 - c.length) else 0)) := by
  rw [byteOf_toNat, ← packValue_append c b h]
  rfl

/-- The bytes of a bit string whose length is a multiple of 8 stand before what follows. -/
theorem packBits_append (c d : Bits) (h : 8 ∣ c.length) : packBits (c ++ d) = packBits c ++ packBits d := by
  obtain ⟨k, hk⟩ := h
  unfold packBits
  rw [List.length_append, show (c.length + d.length + 7) / 8 = (c.length + 7) / 8 + (d.length + 7) / 8 by omega,
    List.range_add, List.map_append]
  congr 1
  · apply List.map_congr_left
    intro i hi
    rw [List.mem_range] at hi
    congr 1
    have h1 : 8 * i ≤ c.length := by omega
    rw [List.drop_append_of_le_length h1, List.take_append_of_le_length (by rw [List.length_drop]; omega)]
  · rw [List.map_map]
    apply List.map_congr_left
    intro i _
    simp only [Function.comp]
    congr 2
    rw [show (c.length + 7) / 8 = k by omega, show 8 * (k + i) = c.length + 8 * i by omega,
      ← List.drop_drop, List.drop_left]

theorem packBits_one (c : Bits) (h : 0 < c.length) (h8 : c.length ≤ 8) : packBits c = [byteOf c] := by
  unfold packBits
  rw [show (c.length + 7) / 8 = 1 by omega]
  simp [List.take_of_length_le h8]

/-- Since `s₀` the bit string `c` has been put: its full bytes have been written, the packer holds the rest. -/
def State.Packed (s₀ s : State) (c : Bits) : Prop := ∃ full part : Bits,
  c = full ++ part ∧ 8 ∣ full.length ∧ part.length < 8 ∧
  s.io.outRev = (packBits full).reverse ++ s₀.io.outRev ∧
  s.io.outLen = s₀.io.outLen + BitVec.ofNat 64 (packBits full).length ∧
  s.w.obits = byteOf part ∧ s.w.ocnt.toNat = part.length

/-- What putting bits does not touch: all but the packer's registers and the output stream. -/
def State.unpacked (s : State) : State :=
  (s.setIo { s.io with outRev := [], outLen := 0, outAcc := 0 }).setW { s.w with obits := 0, ocnt := 0 }

theorem State.Packed.start {s : State} (h1 : s.w.obits = 0) (h2 : s.w.ocnt = 0) : s.Packed s [] :=
  ⟨[], [], rfl, ⟨0, rfl⟩, by simp, by simp [packBits], by simp [packBits], h1, by rw [h2]; rfl⟩

/-- `PutBit(b)` (R70). -/
theorem putBit_packed {s₀ s : State} {c : Bits} (hf : s.io.failOut = []) (h : s₀.Packed s c) (b : Bool) :
    ∃ t, putBit b s = .ok () t ∧ s₀.Packed t (c ++ [b]) ∧ t.unpacked = s.unpacked := by
  obtain ⟨full, part, rfl, hd, hp, hout, hlen, hob, hoc⟩ := h
  have hpush : (s.w.pushBit b).obits = byteOf (part ++ [b]) := by
    rw [byteOf_append part b hp, ← hob, ← hoc]
  refine ⟨_, putBit_ok hf b, ?_⟩
  by_cases h8 : s.w.ocnt + 1 = 8
  · have hl : part.length = 7 := by
      have := congrArg BitVec.toNat h8
      rw [BitVec.toNat_add, hoc, show (1 : BitVec 4).toNat = 1 from rfl, show (8 : BitVec 4).toNat = 8 from rfl,
        Nat.mod_eq_of_lt (by omega)] at this
      omega
    have hpack : packBits (full ++ (part ++ [b])) = packBits full ++ [(s.w.pushBit b).obits] := by
      rw [packBits_append _ _ hd, packBits_one (part ++ [b]) (by simp) (by simp [hl]), hpush]
    rw [if_pos h8]
    refine ⟨⟨full ++ (part ++ [b]), [], by simp, ?_, by simp, ?_, ?_, rfl, rfl⟩, rfl⟩
    · rw [List.length_append, List.length_append, hl]; exact Nat.dvd_add hd (by simp)
    · rw [hpack, List.reverse_append, List.append_assoc, ← hout]; rfl
    · rw [hpack, List.length_append, BitVec.ofNat_add, ← BitVec.add_assoc, ← hlen]; rfl
  · rw [if_neg h8]
    have hl : part.length ≠ 7 := by
      intro h7
      apply h8
      apply BitVec.eq_of_toNat_eq
      rw [BitVec.toNat_add, hoc, h7]; rfl
    refine ⟨⟨full, part ++ [b], by simp, hd, by simp; omega, hout, hlen, hpush, ?_⟩, rfl⟩
    show (s.w.ocnt + 1).toNat = _
    rw [BitVec.toNat_add, hoc, show (1 : BitVec 4).toNat = 1 from rfl, Nat.mod_eq_of_lt (by omega)]
    simp

/-- What is not touched says that the oracle keeps. -/
theorem State.unpacked_failOut {s t : State} (h : t.unpacked = s.unpacked) : t.io.failOut = s.io.failOut := by
  have := congrArg (fun x : State => x.io.failOut) h
  exact this

/-- `PutBits(c)` (R71). -/
theorem putBits_packed {s₀ : State} : ∀ {s : State} {c : Bits}, s.io.failOut = [] → s₀.Packed s c →
    ∀ d : Bits, ∃ t, putBits d s = .ok () t ∧ s₀.Packed t (c ++ d) ∧ t.unpacked = s.unpacked := by
  intro s c hf h d
  induction d generalizing s c with
  | nil => exact ⟨s, rfl, by rwa [List.append_nil], rfl⟩
  | cons b d ih =>
    obtain ⟨t, h1, h2, h3⟩ := putBit_packed hf h b
    obtain ⟨u, h4, h5, h6⟩ := ih ((State.unpacked_failOut h3).trans hf) h2
    refine ⟨u, ?_, by rwa [List.append_assoc] at h5, h6.trans h3⟩
    show (putBit b >>= fun _ => putBits d) s = _
    rw [Run.bind_ok h1]
    exact h4

/-- `PadAndFlush()` (R72): every bit put has been written, the last byte zero padded. -/
theorem padAndFlush_packed {s₀ s : State} {c : Bits} (hf : s.io.failOut = []) (h : s₀.Packed s c) :
    ∃ t, padAndFlush s = .ok () t ∧ t.io.outRev = (packBits c).reverse ++ s₀.io.outRev ∧
      t.io.outLen = s₀.io.outLen + BitVec.ofNat 64 (packBits c).length ∧ t.w.obits = 0 ∧ t.w.ocnt = 0 ∧
      t.unpacked = s.unpacked := by
  obtain ⟨full, part, rfl, hd, hp, hout, hlen, hob, hoc⟩ := h
  by_cases h0 : s.w.ocnt = 0
  · have : part = [] := List.eq_nil_of_length_eq_zero (by rw [← hoc, h0]; rfl)
    subst this
    refine ⟨s, ?_, by rwa [List.append_nil], by rwa [List.append_nil], hob, h0, rfl⟩
    show (if (s.w.ocnt == 0) = true then pure () else flushByte) s = _
    rw [if_pos (beq_iff_eq.2 h0)]
    rfl
  · have hpos : 0 < part.length := by
      rw [← hoc]
      rcases Nat.eq_zero_or_pos s.w.ocnt.toNat with h | h
      · exact absurd (BitVec.eq_of_toNat_eq h) h0
      · exact h
    have hpack : packBits (full ++ part) = packBits full ++ [s.w.obits] := by
      rw [packBits_append _ _ hd, packBits_one _ hpos (by omega), hob]
    refine ⟨(s.wrote s.w.obits).setW { s.w with obits := 0, ocnt := 0 }, ?_, ?_, ?_, rfl, rfl, rfl⟩
    · show (if (s.w.ocnt == 0) = true then pure () else flushByte) s = _
      rw [if_neg (fun h' => h0 (beq_iff_eq.1 h'))]
      exact flushByte_ok hf
    · rw [hpack, List.reverse_append, List.append_assoc, ← hout]; rfl
    · rw [hpack, List.length_append, BitVec.ofNat_add, ← BitVec.add_assoc, ← hlen]; rfl

/-! ### The bit parser -/

/-- The bits of a byte not yet taken when `n` are left: bit `n - 1` first. -/
def lowBits (v : Byte) : Nat → Bits
  | 0 => []
  | n + 1 => v.getLsbD n :: lowBits v n

theorem lowBits_eight (v : Byte) : lowBits v 8 = byteBits v := rfl

/-- The bits the parser can still give: the rest of the byte it holds, then the unread bytes. -/
def State.unread (s : State) : Bits := lowBits s.w.ibits s.w.icnt.toNat ++ s.io.rest.flatMap byteBits

theorem lowBits_length (v : Byte) : ∀ n, (lowBits v n).length = n
  | 0 => rfl
  | n + 1 => by rw [lowBits, List.length_cons, lowBits_length v n]

/-- The bound of the loops that take a bit in every round. -/
theorem State.unread_length (s : State) : s.unread.length = s.bitsLeft := by
  unfold State.unread State.bitsLeft
  rw [List.length_append, lowBits_length, List.length_flatMap,
    List.map_congr_left (g := fun _ => 8) fun b _ => by simp [byteBits], List.map_const', List.sum_replicate]
  simp only [smul_eq_mul]
  omega

/-- What taking bits does not touch: all but the parser's registers, the cursor and the count of accesses. -/
def State.unparsed (s : State) : State :=
  (s.setIo { s.io with inPos := 0, inAcc := 0 }).setW { s.w with ibits := 0, icnt := 0 }

/-- The parser can run: the oracle answers `ok`, the stream is sound, at most 8 bits are held. -/
structure State.Parses (s : State) : Prop where
  honest : s.io.failIn = []
  sound : s.io.Sound
  held : s.w.icnt.toNat ≤ 8

theorem takeBit_eq {s : State} {n : Nat} (h : s.w.icnt.toNat = n + 1) : takeBit s =
    .ok (s.w.ibits.getLsbD n) (s.setW { s.w with icnt := BitVec.ofNat 4 n }) := by
  have hn : s.w.icnt - 1 = BitVec.ofNat 4 n := by
    have := s.w.icnt.isLt
    apply BitVec.eq_of_toNat_eq
    rw [BitVec.toNat_sub, h, BitVec.toNat_ofNat, show (1 : BitVec 4).toNat = 1 from rfl]
    omega
  show EStateM.Result.ok (s.w.ibits.getLsbD (s.w.icnt.toNat - 1)) (s.setW { s.w with icnt := s.w.icnt - 1 }) = _
  rw [h, hn]
  rfl

/-- `GetBitOpt()` with a bit left (R75): that bit, and one fewer left. -/
theorem getBitOpt_cons {s : State} (hs : s.Parses) {b : Bool} {l : Bits} (h : s.unread = b :: l) :
    ∃ t, getBitOpt s = .ok (some b) t ∧ t.unread = l ∧ t.Parses ∧ t.unparsed = s.unparsed := by
  by_cases h0 : s.w.icnt = 0
  · cases hr : s.io.rest with
    | nil => rw [State.unread, hr, h0] at h; cases h
    | cons v rest =>
      have hb : b = v.getLsbD 7 ∧ l = lowBits v 7 ++ rest.flatMap byteBits := by
        rw [State.unread, hr, h0] at h
        have h' : v.getLsbD 7 :: (lowBits v 7 ++ rest.flatMap byteBits) = b :: l := h
        injection h' with h1 h2
        exact ⟨h1.symm, h2.symm⟩
      refine ⟨s.advanced.setW { s.w with ibits := v, icnt := BitVec.ofNat 4 7 }, ?_, ?_, ?_, rfl⟩
      · show (if (s.w.icnt == 0) = true then _ else _ : Eng (Option Bool)) s = _
        rw [if_pos (beq_iff_eq.2 h0), Run.bind_ok (inRead_some hs.honest hr), hb.1]
        exact Run.bind_ok (f := fun b => (pure (some b) : Eng (Option Bool)))
          (takeBit_eq (n := 7) (s := s.advanced.setW { s.w with ibits := v, icnt := 8 }) rfl)
      · show lowBits v 7 ++ s.advanced.io.rest.flatMap byteBits = l
        rw [State.advanced_rest hs.sound hr, hb.2]
      · exact ⟨hs.honest, State.advanced_sound hs.sound hr, show (BitVec.ofNat 4 7).toNat ≤ 8 by decide⟩
  · obtain ⟨n, hn⟩ : ∃ n, s.w.icnt.toNat = n + 1 := by
      cases hc : s.w.icnt.toNat with
      | zero => exact absurd (BitVec.eq_of_toNat_eq hc) h0
      | succ n => exact ⟨n, rfl⟩
    have h9 := hs.held
    have hm : (BitVec.ofNat 4 n).toNat = n := by rw [BitVec.toNat_ofNat]; omega
    rw [State.unread, hn, lowBits, List.cons_append] at h
    injection h with h1 h2
    refine ⟨s.setW { s.w with icnt := BitVec.ofNat 4 n }, ?_, ?_, ?_, rfl⟩
    · show (if (s.w.icnt == 0) = true then _ else _ : Eng (Option Bool)) s = _
      rw [if_neg (fun h' => h0 (beq_iff_eq.1 h')), Run.bind_ok (takeBit_eq hn), h1]
      rfl
    · show lowBits s.w.ibits (BitVec.ofNat 4 n).toNat ++ s.io.rest.flatMap byteBits = l
      rw [hm, h2]
    · refine ⟨hs.honest, hs.sound, ?_⟩
      show (BitVec.ofNat 4 n).toNat ≤ 8
      omega

/-- `GetBitOpt()` with no bit left: the end of the input. -/
theorem getBitOpt_nil {s : State} (hs : s.Parses) (h : s.unread = []) :
    getBitOpt s = .ok none s.touched ∧ s.w.icnt = 0 ∧ s.io.rest = [] := by
  have h1 := (List.append_eq_nil_iff.1 h).1
  have h2 := (List.append_eq_nil_iff.1 h).2
  have hc : s.w.icnt = 0 := by
    cases hn : s.w.icnt.toNat with
    | zero => exact BitVec.eq_of_toNat_eq hn
    | succ n => rw [hn] at h1; cases h1
  have hr : s.io.rest = [] := by
    cases hr : s.io.rest with
    | nil => rfl
    | cons v l => rw [hr] at h2; cases h2
  refine ⟨?_, hc, hr⟩
  show (if (s.w.icnt == 0) = true then _ else _ : Eng (Option Bool)) s = _
  rw [if_pos (beq_iff_eq.2 hc), Run.bind_ok (inRead_end hs.honest hr)]
  rfl

/-- `GetBit()` (R73). -/
theorem getBit_cons {s : State} (hs : s.Parses) {b : Bool} {l : Bits} (h : s.unread = b :: l) :
    ∃ t, getBit s = .ok b t ∧ t.unread = l ∧ t.Parses ∧ t.unparsed = s.unparsed := by
  obtain ⟨t, h1, h2⟩ := getBitOpt_cons hs h
  exact ⟨t, by unfold getBit; rw [Run.bind_ok h1]; rfl, h2⟩

theorem getBit_nil {s : State} (hs : s.Parses) (h : s.unread = []) :
    getBit s = .error (.raise .malformedTruncated) s.touched := by
  unfold getBit
  rw [Run.bind_ok (getBitOpt_nil hs h).1]
  rfl

/-- `GetBitOrZero()` (R74). -/
theorem getBitOrZero_cons {s : State} (hs : s.Parses) {b : Bool} {l : Bits} (h : s.unread = b :: l) :
    ∃ t, getBitOrZero s = .ok b t ∧ t.unread = l ∧ t.Parses ∧ t.unparsed = s.unparsed := by
  obtain ⟨t, h1, h2⟩ := getBitOpt_cons hs h
  exact ⟨t, by unfold getBitOrZero; rw [Run.bind_ok h1]; rfl, h2⟩

theorem getBitOrZero_nil {s : State} (hs : s.Parses) (h : s.unread = []) :
    getBitOrZero s = .ok false s.touched := by
  unfold getBitOrZero
  rw [Run.bind_ok (getBitOpt_nil hs h).1]
  rfl

/-- A packed bit string is read back as it is, with the zero bits of its last byte behind it (R70 to R75). -/
theorem packBits_flatMap : ∀ c : Bits, (packBits c).flatMap byteBits =
    c ++ List.replicate (8 * ((c.length + 7) / 8) - c.length) false := by
  have hbyte : ∀ d : Bits, d.length = 8 → byteBits (byteOf d) = d := by
    intro d hd
    rcases d with _ | ⟨a0, _ | ⟨a1, _ | ⟨a2, _ | ⟨a3, _ | ⟨a4, _ | ⟨a5, _ | ⟨a6, _ | ⟨a7, _ | ⟨a8, d⟩⟩⟩⟩⟩⟩⟩⟩⟩
    all_goals first
      | (simp only [List.length_cons, List.length_nil] at hd; omega)
      | (revert a0 a1 a2 a3 a4 a5 a6 a7; decide)
  have hpad : ∀ d : Bits, byteOf d = byteOf ((d ++ List.replicate 8 false).take 8) := by
    intro d
    have h : ((d ++ List.replicate 8 false).take 8).length = 8 := by simp
    unfold byteOf
    rw [List.take_append_of_le_length (l₁ := (d ++ List.replicate 8 false).take 8) (by rw [h]),
      List.take_take]
    rfl
  have hone : ∀ d : Bits, 0 < d.length → d.length ≤ 8 →
      byteBits (byteOf d) = d ++ List.replicate (8 - d.length) false := by
    intro d _ h8
    rw [hpad, hbyte _ (by simp), List.take_append, List.take_of_length_le h8, List.take_replicate,
      Nat.min_eq_left (by omega)]
  intro c
  induction hk : (c.length + 7) / 8 generalizing c with
  | zero =>
    have : c = [] := List.eq_nil_of_length_eq_zero (by omega)
    subst this
    simp [packBits]
  | succ k ih =>
    by_cases h8 : c.length ≤ 8
    · rw [packBits_one c (by omega) h8, List.flatMap_cons, List.flatMap_nil, List.append_nil,
        hone c (by omega) h8, show k = 0 by omega]
    · have hl : (c.drop 8).length = c.length - 8 := List.length_drop
      have ht : (c.take 8).length = 8 := by rw [List.length_take]; omega
      have hc := List.take_append_drop 8 c
      have hi := ih (c.drop 8) (by omega)
      conv_lhs => rw [← hc]
      rw [packBits_append _ _ (by rw [ht]), packBits_one _ (by omega) (by omega), List.flatMap_append, hi,
        List.flatMap_cons, List.flatMap_nil, List.append_nil, hbyte _ ht, ← List.append_assoc, hc, hl]
      congr 2
      omega

end Sys2Proof.Machine
end

