-- ==== Sys2Proof/Laws/Table.lean ====
section
/-! SUPPORT. The laws of the engine's memories: a read after a write, and the canonical form that every write
keeps. -/

namespace Sys2Proof.Machine

variable {α : Type}

@[simp] theorem Table.get_nil (d : α) (k : Nat) : Table.get d [] k = d := rfl

theorem Table.get_cons (d : α) (j : Nat) (v : α) (t : Table α) (k : Nat) :
    Table.get d ((j, v) :: t) k = if j = k then v else Table.get d t k := rfl

theorem Table.get_insert (d : α) (t : Table α) (k : Nat) (v : α) (k' : Nat) :
    Table.get d (Table.insert t k v) k' = if k' = k then v else Table.get d t k' := by
  induction t with
  | nil => simp only [Table.insert, Table.get_cons, Table.get_nil, eq_comm]
  | cons e t ih =>
    obtain ⟨j, u⟩ := e
    by_cases h1 : k < j
    · simp only [Table.insert, if_pos h1, Table.get_cons, eq_comm]
    · by_cases h2 : k = j
      · subst h2
        by_cases h3 : k = k'
        · simp [Table.insert, Table.get_cons, h3]
        · simp [Table.insert, Table.get_cons, h3, Ne.symm h3]
      · simp only [Table.insert, if_neg h1, if_neg h2, Table.get_cons, ih]
        by_cases h3 : j = k'
        · subst h3; simp [Ne.symm h2]
        · simp [h3]

theorem Table.get_filter (d : α) (t : Table α) (k k' : Nat) :
    Table.get d (t.filter (fun e => decide (e.1 ≠ k))) k' = if k' = k then d else Table.get d t k' := by
  induction t with
  | nil => simp
  | cons e t ih =>
    obtain ⟨j, u⟩ := e
    by_cases h : j = k
    · subst h
      simp only [List.filter_cons, ne_eq, not_true, decide_false, Bool.false_eq_true, if_false]
      rw [show (fun e : Nat × α => decide ¬e.1 = j) = fun e => decide (e.1 ≠ j) from rfl, ih,
        Table.get_cons]
      by_cases h2 : k' = j
      · simp [h2]
      · simp [h2, Ne.symm h2]
    · simp only [List.filter_cons, ne_eq, h, not_false_eq_true, decide_true, if_true, Table.get_cons]
      rw [show (fun e : Nat × α => decide ¬e.1 = k) = fun e => decide (e.1 ≠ k) from rfl, ih]
      by_cases h2 : j = k'
      · subst h2; simp [h]
      · simp [h2]

/-- A read after a write: the value written at the index written, what was there everywhere else. -/
theorem Table.get_set [DecidableEq α] (d : α) (t : Table α) (k : Nat) (v : α) (k' : Nat) :
    Table.get d (Table.set d t k v) k' = if k' = k then v else Table.get d t k' := by
  unfold Table.set
  split
  · next h => rw [Table.get_filter, h]
  · exact Table.get_insert d t k v k'

@[simp] theorem Table.get_set_same [DecidableEq α] (d : α) (t : Table α) (k : Nat) (v : α) :
    Table.get d (Table.set d t k v) k = v := by simp [Table.get_set]

theorem Table.get_set_ne [DecidableEq α] (d : α) (t : Table α) {k k' : Nat} (v : α) (h : k' ≠ k) :
    Table.get d (Table.set d t k v) k' = Table.get d t k' := by simp [Table.get_set, h]

theorem Table.get_setList [DecidableEq α] (d : α) (vs : List α) : ∀ (t : Table α) (k k' : Nat),
    Table.get d (Table.setList d t k vs) k' =
      if k ≤ k' ∧ k' < k + vs.length then vs.getD (k' - k) d else Table.get d t k' := by
  induction vs with
  | nil => intro t k k'; rw [if_neg (by simp)]; rfl
  | cons v vs ih =>
    intro t k k'
    rw [Table.setList, ih]
    by_cases h1 : k + 1 ≤ k' ∧ k' < k + 1 + vs.length
    · rw [if_pos h1, if_pos (by simp; omega)]
      obtain ⟨m, hm⟩ : ∃ m, k' - k = m + 1 := ⟨k' - k - 1, by omega⟩
      rw [hm, show k' - (k + 1) = m by omega]; rfl
    · rw [if_neg h1, Table.get_set]
      by_cases h2 : k' = k
      · subst h2; simp
      · rw [if_neg h2, if_neg (by simp at h1 ⊢; omega)]

/-- Two tables in canonical form that read the same are the same data. -/
theorem Table.ext_of_wf [DecidableEq α] {d : α} {n m : Nat} : ∀ {t u : Table α}, Table.wf d n t = true →
    Table.wf d m u = true → (∀ k, Table.get d t k = Table.get d u k) → t = u := by
  have hlow : ∀ (t : Table α) (j k : Nat), (∀ e ∈ t, j < e.1) → k ≤ j → Table.get d t k = d := by
    intro t
    induction t with
    | nil => intros; rfl
    | cons e t ih =>
      intro j k h hk
      have := h e (by simp)
      rw [show (e :: t) = (e.1, e.2) :: t from rfl, Table.get_cons, if_neg (by omega)]
      exact ih j k (fun e he => h e (by simp [he])) hk
  intro t
  induction t with
  | nil =>
    intro u _ hu h
    cases u with
    | nil => rfl
    | cons e u =>
      simp only [Table.wf, Bool.and_eq_true, decide_eq_true_eq, List.all_eq_true] at hu
      have := hu.2 e (by simp)
      have h' := h e.1
      rw [show (e :: u) = (e.1, e.2) :: u from rfl, Table.get_cons, if_pos rfl] at h'
      exact absurd h'.symm this.2
  | cons e t ih =>
    intro u ht hu h
    cases u with
    | nil =>
      simp only [Table.wf, Bool.and_eq_true, decide_eq_true_eq, List.all_eq_true] at ht
      have := ht.2 e (by simp)
      have h' := h e.1
      rw [show (e :: t) = (e.1, e.2) :: t from rfl, Table.get_cons, if_pos rfl] at h'
      exact absurd h' this.2
    | cons f u =>
      simp only [Table.wf, Bool.and_eq_true, decide_eq_true_eq, List.all_eq_true,
        List.pairwise_cons] at ht hu
      have hte := ht.2 e (by simp)
      have huf := hu.2 f (by simp)
      have key : e.1 = f.1 := by
        rcases Nat.lt_trichotomy e.1 f.1 with hlt | heq | hgt
        · have h' := h e.1
          rw [show (e :: t) = (e.1, e.2) :: t from rfl, Table.get_cons, if_pos rfl,
            hlow (f :: u) e.1 e.1 (by
              intro x hx
              rcases List.mem_cons.1 hx with rfl | hx
              · exact hlt
              · exact lt_trans hlt (hu.1.1 x hx)) le_rfl] at h'
          exact absurd h' hte.2
        · exact heq
        · have h' := h f.1
          rw [hlow (e :: t) f.1 f.1 (by
              intro x hx
              rcases List.mem_cons.1 hx with rfl | hx
              · exact hgt
              · exact lt_trans hgt (ht.1.1 x hx)) le_rfl,
            show (f :: u) = (f.1, f.2) :: u from rfl, Table.get_cons, if_pos rfl] at h'
          exact absurd h'.symm huf.2
      have val : e.2 = f.2 := by
        have h' := h e.1
        rwa [show (e :: t) = (e.1, e.2) :: t from rfl, show (f :: u) = (f.1, f.2) :: u from rfl,
          Table.get_cons, Table.get_cons, if_pos rfl, if_pos key.symm] at h'
      have rest : t = u := by
        apply ih
        · simp only [Table.wf, Bool.and_eq_true, decide_eq_true_eq, List.all_eq_true]
          exact ⟨ht.1.2, fun x hx => ht.2 x (by simp [hx])⟩
        · simp only [Table.wf, Bool.and_eq_true, decide_eq_true_eq, List.all_eq_true]
          exact ⟨hu.1.2, fun x hx => hu.2 x (by simp [hx])⟩
        · intro k
          have h' := h k
          rw [show (e :: t) = (e.1, e.2) :: t from rfl, show (f :: u) = (f.1, f.2) :: u from rfl,
            Table.get_cons, Table.get_cons, key] at h'
          by_cases hk : f.1 = k
          · subst hk
            rw [hlow t f.1 f.1 (fun x hx => by rw [← key]; exact ht.1.1 x hx) le_rfl,
              hlow u f.1 f.1 (fun x hx => hu.1.1 x hx) le_rfl]
          · rwa [if_neg hk, if_neg hk] at h'
      rw [rest, show e = f from Prod.ext key val]

theorem Table.wf_nil [DecidableEq α] (d : α) (n : Nat) : Table.wf d n ([] : Table α) = true := by
  simp [Table.wf]

theorem Table.mem_insert {t : Table α} {k : Nat} {v : α} {e : Nat × α} (h : e ∈ Table.insert t k v) :
    e = (k, v) ∨ e ∈ t := by
  induction t with
  | nil => simpa [Table.insert] using h
  | cons f t ih =>
    obtain ⟨j, u⟩ := f
    simp only [Table.insert] at h
    split at h
    · simpa using h
    · split at h
      · rcases List.mem_cons.1 h with h | h
        · exact .inl h
        · exact .inr (by simp [h])
      · rcases List.mem_cons.1 h with h | h
        · exact .inr (by simp [h])
        · rcases ih h with h | h
          · exact .inl h
          · exact .inr (by simp [h])

theorem Table.pairwise_insert {t : Table α} (k : Nat) (v : α)
    (h : t.Pairwise (fun a b => a.1 < b.1)) : (Table.insert t k v).Pairwise (fun a b => a.1 < b.1) := by
  induction t with
  | nil => simp [Table.insert]
  | cons f t ih =>
    obtain ⟨j, u⟩ := f
    rw [List.pairwise_cons] at h
    simp only [Table.insert]
    split
    · next hk =>
      refine List.pairwise_cons.2 ⟨fun e he => ?_, List.pairwise_cons.2 h⟩
      rcases List.mem_cons.1 he with rfl | he
      · exact hk
      · exact lt_trans hk (h.1 e he)
    · split
      · next hk => subst hk; exact List.pairwise_cons.2 ⟨h.1, h.2⟩
      · next h1 h2 =>
        refine List.pairwise_cons.2 ⟨fun e he => ?_, ih h.2⟩
        rcases Table.mem_insert he with rfl | he
        · show j < k; omega
        · exact h.1 e he

/-- Every write at an index of the memory keeps the canonical form. -/
theorem Table.wf_set [DecidableEq α] {d : α} {n : Nat} {t : Table α} {k : Nat} (v : α) (hk : k < n)
    (h : Table.wf d n t = true) : Table.wf d n (Table.set d t k v) = true := by
  simp only [Table.wf, Bool.and_eq_true, decide_eq_true_eq, List.all_eq_true] at h ⊢
  unfold Table.set
  split
  · exact ⟨h.1.filter _, fun e he => h.2 e (List.mem_filter.1 he).1⟩
  · next hv =>
    refine ⟨Table.pairwise_insert k v h.1, fun e he => ?_⟩
    rcases Table.mem_insert he with rfl | he
    · exact ⟨hk, hv⟩
    · exact h.2 e he

theorem Table.wf_setList [DecidableEq α] {d : α} {n : Nat} (vs : List α) : ∀ {t : Table α} {k : Nat},
    k + vs.length ≤ n → Table.wf d n t = true → Table.wf d n (Table.setList d t k vs) = true := by
  induction vs with
  | nil => intro t k _ h; exact h
  | cons v vs ih =>
    intro t k hk h
    simp only [List.length_cons] at hk
    exact ih (by omega) (Table.wf_set v (by omega) h)

/-! ### One read-after-write law for each memory -/

@[simp] theorem freqGet_nil (s : Nat) : freqGet [] s = 0 := rfl
theorem freqGet_freqSet (f : Table (BitVec 32)) (s s' : Nat) (v : BitVec 32) :
    freqGet (freqSet f s v) s' = if s' = s then v else freqGet f s' := Table.get_set 0 f s v s'
theorem freqGet_freqBump (f : Table (BitVec 32)) (s s' : Nat) :
    freqGet (freqBump f s) s' = if s' = s then freqGet f s + 1 else freqGet f s' :=
  freqGet_freqSet f s s' _
theorem distGet_distSet (t : Table DistEntry) (i i' : Nat) (e : DistEntry) :
    distGet (distSet t i e) i' = if i' = i then e else distGet t i' := Table.get_set _ t i e i'
theorem rangeGet_rangeSet (t : Table RangeEntry) (i i' : Nat) (e : RangeEntry) :
    rangeGet (rangeSet t i e) i' = if i' = i then e else rangeGet t i' := Table.get_set _ t i e i'
@[simp] theorem schemeGet_nil (s : Nat) : schemeGet [] s = none := rfl
theorem schemeGet_schemeSet (t : Table (Option Bits)) (s s' : Nat) (e : Option Bits) :
    schemeGet (schemeSet t s e) s' = if s' = s then e else schemeGet t s' := Table.get_set _ t s e s'
theorem treeGet_treeSet (t : Table TreeNode) (n n' : Nat) (e : TreeNode) :
    treeGet (treeSet t n e) n' = if n' = n then e else treeGet t n' := Table.get_set _ t n e n'
theorem ctxGet_ctxSet (t : Table CtxEntry) (c c' : Nat) (e : CtxEntry) :
    ctxGet (ctxSet t c e) c' = if c' = c then e else ctxGet t c' := Table.get_set _ t c e c'
theorem fgkGet_fgkSet (t : Table FgkNode) (n n' : Nat) (e : FgkNode) :
    fgkGet (fgkSet t n e) n' = if n' = n then e else fgkGet t n' := Table.get_set _ t n e n'
@[simp] theorem leafGet_nil (s : Nat) : leafGet [] s = none := rfl
theorem leafGet_leafSet (t : Table (Option Nat)) (s s' : Nat) (e : Option Nat) :
    leafGet (leafSet t s e) s' = if s' = s then e else leafGet t s' := Table.get_set _ t s e s'

end Sys2Proof.Machine
end

