-- ==== Sys2Proof/Laws/Stats.lean ====
section
/-! SUPPORT. What counting leaves in a frequency table, and what the distribution of a table is. -/

namespace Sys2Proof.Machine

/-! ### Counting -/

/-- The table after a byte sequence has been counted into it. -/
abbrev freqAdd (f : Table (BitVec 32)) (A : List Byte) : Table (BitVec 32) :=
  A.foldl (fun f b => freqBump f b.toNat) f

theorem freqGet_freqAdd (A : List Byte) : ∀ (f : Table (BitVec 32)) (b : Byte),
    freqGet (freqAdd f A) b.toNat = freqGet f b.toNat + BitVec.ofNat 32 (A.count b) := by
  induction A with
  | nil => intro f b; simp
  | cons a A ih =>
    intro f b
    rw [freqAdd, List.foldl_cons, ← freqAdd, ih, freqGet_freqBump, List.count_cons]
    by_cases h : a = b
    · subst h
      rw [if_pos rfl, if_pos (by simp), BitVec.add_assoc, BitVec.ofNat_add, BitVec.add_comm 1]
      rfl
    · rw [if_neg (fun h' => h (BitVec.eq_of_toNat_eq h'.symm)), if_neg (by simpa using h), Nat.add_zero]

/-- The counts of a byte sequence of fewer than 2^32 bytes (R130). -/
theorem countTable_get {S : List Byte} (h : S.length < 2 ^ 32) (b : Byte) :
    (freqGet (countTable S) b.toNat).toNat = S.count b := by
  have := List.count_le_length (l := S) (a := b)
  rw [show countTable S = freqAdd [] S from rfl, freqGet_freqAdd, freqGet_nil,
    show (0 : BitVec 32) + BitVec.ofNat 32 (S.count b) = BitVec.ofNat 32 (S.count b) from BitVec.zero_add _,
    BitVec.toNat_ofNat, Nat.mod_eq_of_lt (by omega)]

theorem sum_indicator (a n : Nat) :
    ((List.range n).map (fun s => if s = a then 1 else 0)).sum = if a < n then 1 else 0 := by
  induction n with
  | zero => simp
  | succ n ih =>
    rw [List.range_succ, List.map_append, List.sum_append, ih]
    simp only [List.map_cons, List.map_nil, List.sum_cons, List.sum_nil, Nat.add_zero]
    split <;> split <;> split <;> omega

theorem sum_count_below (S : List Byte) (n : Nat) (hn : n ≤ 256) :
    ((List.range n).map (fun s => S.count (BitVec.ofNat 8 s))).sum =
      (S.filter (fun b => decide (b.toNat < n))).length := by
  induction S with
  | nil => simp
  | cons a S ih =>
    have h1 : ∀ s ∈ List.range n, (a :: S).count (BitVec.ofNat 8 s) =
        S.count (BitVec.ofNat 8 s) + (if s = a.toNat then 1 else 0) := by
      intro s hs
      rw [List.count_cons]
      congr 1
      rw [List.mem_range] at hs
      by_cases h : s = a.toNat
      · subst h; simp
      · rw [if_neg h, if_neg]
        intro h'
        apply h
        have := congrArg BitVec.toNat (beq_iff_eq.1 h')
        rw [BitVec.toNat_ofNat, Nat.mod_eq_of_lt (by omega)] at this
        exact this.symm
    rw [List.map_congr_left h1, List.sum_map_add, ih, sum_indicator, List.filter_cons]
    by_cases h : a.toNat < n
    · rw [if_pos h, if_pos (decide_eq_true h), List.length_cons]
    · rw [if_neg h, if_neg (by simpa using h), Nat.add_zero]

theorem sum_count_bytes (S : List Byte) :
    ((List.range 256).map (fun s => S.count (BitVec.ofNat 8 s))).sum = S.length := by
  rw [sum_count_below S 256 (Nat.le_refl _), List.filter_eq_self.2 fun b _ => decide_eq_true b.isLt]

/-- The counts sum up to the length (R130). -/
theorem countTable_sum {S : List Byte} (h : S.length < 2 ^ 32) : freqSum (countTable S) = S.length := by
  rw [← sum_count_bytes S]
  unfold freqSum
  congr 1
  apply List.map_congr_left
  intro s hs
  rw [List.mem_range] at hs
  have := countTable_get h (BitVec.ofNat 8 s)
  rwa [BitVec.toNat_ofNat, Nat.mod_eq_of_lt hs] at this

/-- The state after `COUNT` has counted the bytes `A`. -/
abbrev State.counted (s : State) (A : List Byte) : State :=
  ((s.advancedBy A.length).setFreq (freqAdd s.freq A)).setW
    { s.w with total := s.w.total + BitVec.ofNat 40 A.length }

/-- The loop of `COUNT` over bytes that can be read and counted. -/
theorem countLoop_run : ∀ (A : List Byte) {l : List Byte} {s : State} (n : Nat),
    (∀ j, 1 ≤ j → j ≤ A.length → s.io.failIn.contains (s.io.inAcc + j) = false) → s.io.Sound →
    s.io.rest = A ++ l → s.w.total.toNat + A.length ≤ Config.inLenMax →
    countLoop (A.length + n) s = countLoop n (s.counted A) ∧ (s.counted A).io.rest = l ∧
      (s.counted A).io.Sound := by
  intro A
  induction A with
  | nil =>
    intro l s n _ hs h _
    have : s.counted [] = s := by
      simp [State.counted, State.advancedBy, State.setIo, State.setW, State.setFreq]
    rw [this]
    exact ⟨by rw [List.length_nil, Nat.zero_add], h, hs⟩
  | cons b A ih =>
    intro l s n hf hs h ht
    have hr := State.advanced_rest hs h
    have hq := State.advanced_sound hs h
    have hmax : Config.inLenMax = 4294967295 := rfl
    rw [List.length_cons, hmax] at ht
    let s₁ : State := (s.advanced.setFreq (freqBump s.freq b.toNat)).setW { s.w with total := s.w.total + 1 }
    have htot : (s.w.total + 1).toNat = s.w.total.toNat + 1 := by
      rw [BitVec.toNat_add, show (1 : BitVec 40).toNat = 1 from rfl]
      omega
    have hstep : countLoop (A.length + 1 + n) s = countLoop (A.length + n) s₁ := by
      rw [show A.length + 1 + n = (A.length + n) + 1 by omega, countLoop]
      have hin : inRead s = .ok (some b) s.advanced := by
        rw [inRead_eq, hf 1 (by omega) (by simp), Streams.rest_cons h]
        rfl
      rw [Run.bind_ok hin]
      show (Run.require (decide (s.w.total.toNat < Config.inLenMax)) .countOverflow >>= _) s.advanced = _
      rw [show decide (s.w.total.toNat < Config.inLenMax) = true from decide_eq_true (by omega)]
      rfl
    have he : s₁.counted A = s.counted (b :: A) := by
      simp only [s₁, State.counted, State.advancedBy, State.advanced, State.setIo, State.setW, State.setFreq,
        List.length_cons, freqAdd, List.foldl_cons]
      rw [BitVec.add_assoc, Nat.add_assoc, Nat.add_comm 1, BitVec.add_comm 1, BitVec.ofNat_add,
        BitVec.add_assoc, BitVec.add_comm 1, BitVec.ofNat_add]
      rfl
    have := ih (s := s₁) (l := l) n ?_ hq hr ?_
    · rw [he] at this
      exact ⟨hstep.trans this.1, this.2⟩
    · intro j h1 h2
      have := hf (j + 1) (by omega) (by simp; omega)
      rw [← this]
      show s.io.failIn.contains (s.io.inAcc + 1 + j) = _
      rw [show s.io.inAcc + 1 + j = s.io.inAcc + (j + 1) by omega]
    · show (s.w.total + 1).toNat + A.length ≤ Config.inLenMax
      omega

/-- The state `COUNT`'s block leaves where the oracle answers `ok` and the input is not too long. -/
theorem countBlock_ok {s : State} (hf : s.io.failIn = []) (hs : s.io.Sound)
    (hl : s.io.rest.length ≤ Config.inLenMax) :
    countBlock s = .ok () ((((s.setFreq []).setW { s.w with total := 0 }).counted s.io.rest).touched) ∧
      (((s.setFreq []).setW { s.w with total := 0 }).counted s.io.rest).touched.io.rest = [] := by
  let s₀ : State := (s.setFreq []).setW { s.w with total := 0 }
  have hrun := countLoop_run s.io.rest (l := []) (s := s₀) 1 (by intro j _ _; show s.io.failIn.contains _ = _; rw [hf]; rfl)
    hs (by rw [List.append_nil]; rfl) (by show (0 : BitVec 40).toNat + _ ≤ _; simpa using hl)
  refine ⟨?_, hrun.2.1⟩
  show countLoop (s.io.rest.length + 1) s₀ = _
  rw [hrun.1, countLoop, Run.bind_ok (inRead_end (s := s₀.counted s.io.rest) hf hrun.2.1)]
  rfl

/-! ### The distribution -/

theorem insertDesc_perm (e : DistEntry) : ∀ l : List DistEntry, (insertDesc e l).Perm (e :: l)
  | [] => List.Perm.refl _
  | x :: xs => by
    unfold insertDesc
    split
    · exact List.Perm.refl _
    · exact ((insertDesc_perm e xs).cons x).trans (List.Perm.swap e x xs)

theorem sortDesc_perm_from : ∀ (l acc : List DistEntry),
    (l.foldl (fun acc e => insertDesc e acc) acc).Perm (acc ++ l)
  | [], acc => by simp
  | e :: l, acc => by
    rw [List.foldl_cons]
    refine (sortDesc_perm_from l _).trans ?_
    exact ((insertDesc_perm e acc).append_right l).trans (List.perm_middle.symm)

/-- Sorting keeps the entries. -/
theorem sortDesc_perm (l : List DistEntry) : (sortDesc l).Perm l := by
  have := sortDesc_perm_from l []
  rwa [List.nil_append] at this

/-- Put behind the entries of greater or equal count, an entry later in byte order keeps the order. -/
theorem insertDesc_sorted (e : DistEntry) : ∀ l : List DistEntry, (∀ x ∈ l, x.sym.toNat < e.sym.toNat) →
    l.Pairwise distBefore → (insertDesc e l).Pairwise distBefore := by
  intro l
  induction l with
  | nil => intro _ _; simp [insertDesc]
  | cons x xs ih =>
    intro hs hp
    rw [List.pairwise_cons] at hp
    unfold insertDesc
    split
    · next h =>
      refine List.pairwise_cons.2 ⟨fun y hy => ?_, List.pairwise_cons.2 hp⟩
      rcases List.mem_cons.1 hy with rfl | hy
      · exact .inl h
      · rcases hp.1 y hy with h' | ⟨h', _⟩
        · exact .inl (by omega)
        · exact .inl (by rw [← h']; exact h)
    · next h =>
      refine List.pairwise_cons.2 ⟨fun y hy => ?_, ih (fun y hy => hs y (by simp [hy])) hp.2⟩
      rcases List.mem_cons.1 ((insertDesc_perm e xs).subset hy) with rfl | hy
      · rcases Nat.lt_or_ge y.cnt.toNat x.cnt.toNat with h' | h'
        · exact .inl h'
        · exact .inr ⟨BitVec.eq_of_toNat_eq (by omega), hs x (by simp)⟩
      · exact hp.1 y hy

theorem sortDesc_sorted_from : ∀ (l acc : List DistEntry),
    l.Pairwise (fun x y => x.sym.toNat < y.sym.toNat) →
    (∀ x ∈ acc, ∀ y ∈ l, x.sym.toNat < y.sym.toNat) → acc.Pairwise distBefore →
    (l.foldl (fun acc e => insertDesc e acc) acc).Pairwise distBefore
  | [], acc, _, _, h => h
  | e :: l, acc, hl, ha, h => by
    rw [List.pairwise_cons] at hl
    rw [List.foldl_cons]
    refine sortDesc_sorted_from l _ hl.2 (fun x hx y hy => ?_)
      (insertDesc_sorted e acc (fun x hx => ha x hx e (by simp)) h)
    rcases List.mem_cons.1 ((insertDesc_perm e acc).subset hx) with rfl | hx
    · exact hl.1 y hy
    · exact ha x hx y (by simp [hy])

theorem mem_presentEntries {f : Table (BitVec 32)} {e : DistEntry} :
    e ∈ presentEntries f ↔ e.cnt = freqGet f e.sym.toNat ∧ e.cnt ≠ 0 := by
  unfold presentEntries
  rw [List.mem_filterMap]
  constructor
  · rintro ⟨s, hs, h⟩
    rw [List.mem_range] at hs
    split at h
    · cases h
    · next h0 =>
      cases h
      rw [BitVec.toNat_ofNat, Nat.mod_eq_of_lt hs]
      exact ⟨rfl, h0⟩
  · rintro ⟨h1, h2⟩
    refine ⟨e.sym.toNat, List.mem_range.2 e.sym.isLt, ?_⟩
    rw [if_neg (h1 ▸ h2), ← h1]
    simp

theorem presentEntries_ascending (f : Table (BitVec 32)) :
    (presentEntries f).Pairwise (fun x y => x.sym.toNat < y.sym.toNat) := by
  unfold presentEntries
  rw [List.pairwise_filterMap]
  refine List.Pairwise.imp_of_mem ?_ (List.pairwise_lt_range (n := 256))
  intro a b ha hb hab x hx y hy
  rw [List.mem_range] at ha hb
  split at hx
  · cases hx
  · split at hy
    · cases hy
    · cases hx
      cases hy
      simp only [BitVec.toNat_ofNat]
      omega

theorem mem_distribution {f : Table (BitVec 32)} {e : DistEntry} :
    e ∈ distribution f ↔ e.cnt = freqGet f e.sym.toNat ∧ e.cnt ≠ 0 :=
  (sortDesc_perm _).mem_iff.trans mem_presentEntries

theorem distribution_sorted (f : Table (BitVec 32)) : (distribution f).Pairwise distBefore :=
  sortDesc_sorted_from _ [] (presentEntries_ascending f) (by simp) List.Pairwise.nil

theorem distribution_isDist (f : Table (BitVec 32)) : IsDist (distribution f) := by
  refine ⟨?_, fun e he => (mem_distribution.1 he).2⟩
  unfold distribution
  rw [((sortDesc_perm (presentEntries f)).map DistEntry.sym).nodup_iff]
  rw [List.Nodup, List.pairwise_map]
  exact (presentEntries_ascending f).imp fun h h' => by rw [h'] at h; omega

theorem distribution_length (f : Table (BitVec 32)) : (distribution f).length ≤ 256 := by
  unfold distribution
  rw [(sortDesc_perm (presentEntries f)).length_eq]
  unfold presentEntries
  refine (List.length_filterMap_le _ _).trans ?_
  rw [List.length_range]

/-- The counts of the distribution sum up to the counts of the table. -/
theorem cntSum_distribution (f : Table (BitVec 32)) : cntSum (distribution f) = freqSum f := by
  unfold cntSum freqSum distribution
  rw [((sortDesc_perm (presentEntries f)).map fun e => e.cnt.toNat).sum_eq]
  unfold presentEntries
  induction List.range 256 with
  | nil => rfl
  | cons s l ih =>
    rw [List.filterMap_cons]
    by_cases h : freqGet f s = 0
    · simp only [h, if_true, List.map_cons, List.sum_cons, ih]
      simp
    · simp only [h, if_false, List.map_cons, List.sum_cons, ih]

/-- `DIST`'s block leaves the distribution as the valid entries (R132). -/
theorem distBlock_distList (s : State) : ∃ t, distBlock s = .ok () t ∧ t.distList = distribution s.freq := by
  refine ⟨_, rfl, ?_⟩
  have hl := distribution_length s.freq
  unfold State.distList
  rw [show ((s.setDist (Table.setList DistEntry.empty s.dist 0 (distribution s.freq))).setW
    { s.w with ndist := BitVec.ofNat 9 (distribution s.freq).length }).w.ndist.toNat =
      (distribution s.freq).length by
    show (BitVec.ofNat 9 _).toNat = _
    rw [BitVec.toNat_ofNat]; omega]
  apply List.ext_getElem
  · simp
  · intro i h1 h2
    rw [List.getElem_map, List.getElem_range]
    show Table.get DistEntry.empty (Table.setList DistEntry.empty s.dist 0 (distribution s.freq)) i = _
    rw [Table.get_setList, if_pos ⟨by omega, by omega⟩, Nat.sub_zero, List.getD_eq_getElem _ _ h2]

end Sys2Proof.Machine
end

