-- ==== Sys2Proof/Laws/Wf.lean ====
section
/-! SUPPORT. Every memory operation keeps the canonical form of the memory it writes (10_state.md R27 to R32), and
every field of the state that is written leaves the form of the others alone. -/

namespace Sys2Proof.Machine

/-! ### What holds of every entry -/

section
variable {α : Type}

/-- A write keeps what holds of every entry listed. -/
theorem Table.all_set [DecidableEq α] {d : α} {t : Table α} {p : Nat × α → Bool} {k : Nat} {v : α}
    (hv : p (k, v) = true) (h : t.all p = true) : (Table.set d t k v).all p = true := by
  rw [List.all_eq_true] at h ⊢
  intro e he
  unfold Table.set at he
  split at he
  · exact h e (List.mem_filter.1 he).1
  · rcases Table.mem_insert he with rfl | he
    · exact hv
    · exact h e he

/-- What is read is the reset value or an entry listed. -/
theorem Table.get_mem (d : α) (t : Table α) (k : Nat) : Table.get d t k = d ∨ (k, Table.get d t k) ∈ t := by
  induction t with
  | nil => exact .inl rfl
  | cons e t ih =>
    obtain ⟨j, v⟩ := e
    rw [Table.get_cons]
    split
    · next h => exact .inr (h ▸ List.mem_cons_self)
    · rcases ih with h | h
      · exact .inl h
      · exact .inr (List.mem_cons_of_mem _ h)

/-- What holds of the reset value and of every entry listed holds of what is read. -/
theorem Table.get_of_all {d : α} {t : Table α} {p : Nat × α → Bool} (h : t.all p = true) (k : Nat)
    (hd : p (k, d) = true) : p (k, Table.get d t k) = true := by
  rcases Table.get_mem d t k with hk | hk
  · rw [hk]; exact hd
  · exact List.all_eq_true.1 h _ hk

end

/-! ### The plain memories -/

theorem freqSet_wf {f : Table (BitVec 32)} {s : Nat} (v : BitVec 32) (hs : s < 256)
    (h : Table.wf 0 256 f = true) : Table.wf 0 256 (freqSet f s v) = true := Table.wf_set v hs h

theorem freqBump_wf {f : Table (BitVec 32)} (b : Byte) (h : Table.wf 0 256 f = true) :
    Table.wf 0 256 (freqBump f b.toNat) = true := freqSet_wf _ b.isLt h

theorem distSet_wf {t : Table DistEntry} {i : Nat} (e : DistEntry) (hi : i < 256)
    (h : Table.wf DistEntry.empty 256 t = true) : Table.wf DistEntry.empty 256 (distSet t i e) = true :=
  Table.wf_set e hi h

theorem rangeSet_wf {t : Table RangeEntry} {i : Nat} (e : RangeEntry) (hi : i < 257)
    (h : Table.wf RangeEntry.empty 257 t = true) : Table.wf RangeEntry.empty 257 (rangeSet t i e) = true :=
  Table.wf_set e hi h

/-! ### A code model -/

/-- The four conditions of the form of a code model. -/
theorem TreeMem.wf_iff {size : Nat} {t : TreeMem} : TreeMem.wf size t = true ↔
    Table.wf none 256 t.scheme = true ∧ Table.wf TreeNode.empty size t.tree = true ∧
      slotOk size t.root = true ∧
      (t.tree.all (fun e => slotOk size e.2.left && slotOk size e.2.right)) = true := by
  simp only [TreeMem.wf, Bool.and_eq_true, and_assoc]

theorem TreeMem.wf_empty (size : Nat) : TreeMem.wf size TreeMem.empty = true := by
  rw [TreeMem.wf_iff]
  exact ⟨Table.wf_nil _ _, Table.wf_nil _ _, rfl, rfl⟩

theorem TreeMem.setNode_wf {size : Nat} {t : TreeMem} {n : Nat} {e : TreeNode} (hn : n < size)
    (hl : slotOk size e.left = true) (hr : slotOk size e.right = true) (h : TreeMem.wf size t = true) :
    TreeMem.wf size (t.setNode n e) = true := by
  rw [TreeMem.wf_iff] at h ⊢
  exact ⟨h.1, Table.wf_set e hn h.2.1, h.2.2.1,
    Table.all_set (by rw [Bool.and_eq_true]; exact ⟨hl, hr⟩) h.2.2.2⟩

theorem TreeMem.setCode_wf {size : Nat} {t : TreeMem} {s : Nat} (c : Bits) (hs : s < 256)
    (h : TreeMem.wf size t = true) : TreeMem.wf size (t.setCode s c) = true := by
  rw [TreeMem.wf_iff] at h ⊢
  exact ⟨Table.wf_set (some c) hs h.1, h.2⟩

theorem TreeMem.clearScheme_wf {size : Nat} {t : TreeMem} (h : TreeMem.wf size t = true) :
    TreeMem.wf size t.clearScheme = true := by
  rw [TreeMem.wf_iff] at h ⊢
  exact ⟨Table.wf_nil _ _, h.2⟩

theorem TreeMem.setRoot_wf {size : Nat} {t : TreeMem} {r : Option Nat} (hr : slotOk size r = true)
    (h : TreeMem.wf size t = true) : TreeMem.wf size { t with root := r } = true := by
  rw [TreeMem.wf_iff] at h ⊢
  exact ⟨h.1, h.2.1, hr, h.2.2.2⟩

theorem TreeMem.setCount_wf {size : Nat} {t : TreeMem} (n : BitVec 14) (h : TreeMem.wf size t = true) :
    TreeMem.wf size { t with nnodes := n } = true := by
  rw [TreeMem.wf_iff] at h ⊢
  exact h

/-- The children a node names are slots. -/
theorem TreeMem.node_wf {size : Nat} {t : TreeMem} (h : TreeMem.wf size t = true) (n : Nat) :
    slotOk size (t.node n).left = true ∧ slotOk size (t.node n).right = true := by
  have := Table.get_of_all (TreeMem.wf_iff.1 h).2.2.2 n (d := TreeNode.empty) rfl
  rwa [Bool.and_eq_true] at this

theorem TreeMem.child_wf {size : Nat} {t : TreeMem} (h : TreeMem.wf size t = true) (n : Nat) (b : Bool) :
    slotOk size ((t.node n).child b) = true := by
  cases b
  · exact (TreeMem.node_wf h n).1
  · exact (TreeMem.node_wf h n).2

/-! ### The context model -/

theorem CtxEntry.wf_iff {e : CtxEntry} :
    e.wf = true ↔ Table.wf 0 256 e.freq = true ∧ TreeMem.wf 511 e.model = true := by
  simp only [CtxEntry.wf, Bool.and_eq_true]

theorem CtxEntry.wf_empty : CtxEntry.empty.wf = true :=
  CtxEntry.wf_iff.2 ⟨Table.wf_nil _ _, TreeMem.wf_empty _⟩

/-- The two conditions of the form of the context memory. -/
abbrev ctxWf (t : Table CtxEntry) : Prop :=
  Table.wf CtxEntry.empty 256 t = true ∧ (t.all (fun e => e.2.wf)) = true

theorem ctxGet_wf {t : Table CtxEntry} (h : ctxWf t) (c : Nat) : (ctxGet t c).wf = true :=
  Table.get_of_all h.2 c CtxEntry.wf_empty

theorem ctxSet_wf {t : Table CtxEntry} {c : Nat} {e : CtxEntry} (hc : c < 256) (he : e.wf = true)
    (h : ctxWf t) : ctxWf (ctxSet t c e) := ⟨Table.wf_set e hc h.1, Table.all_set he h.2⟩

/-! ### The adaptive tree -/

/-- The links a node of the adaptive tree names are slots. -/
abbrev FgkNode.linksOk (e : FgkNode) : Prop :=
  slotOk Config.fgkCap e.parent = true ∧ slotOk Config.fgkCap e.left = true ∧
    slotOk Config.fgkCap e.right = true

/-- The conditions of the form of the adaptive tree. -/
theorem FgkMem.wf_iff {g : FgkMem} : g.wf = true ↔
    Table.wf FgkNode.empty Config.fgkCap g.nodes = true ∧ Table.wf none 256 g.leaf = true ∧
      slotOk Config.fgkCap g.root = true ∧ slotOk Config.fgkCap g.nyt = true ∧
      (g.leaf.all (fun e => slotOk Config.fgkCap e.2)) = true ∧
      (g.nodes.all (fun e => slotOk Config.fgkCap e.2.parent && slotOk Config.fgkCap e.2.left &&
        slotOk Config.fgkCap e.2.right)) = true := by
  simp only [FgkMem.wf, Bool.and_eq_true, and_assoc]

theorem FgkMem.wf_empty : FgkMem.empty.wf = true :=
  FgkMem.wf_iff.2 ⟨Table.wf_nil _ _, Table.wf_nil _ _, rfl, rfl, rfl, rfl⟩

theorem FgkMem.setNode_wf {g : FgkMem} {n : Nat} {e : FgkNode} (hn : n < Config.fgkCap) (he : e.linksOk)
    (h : g.wf = true) : (g.setNode n e).wf = true := by
  rw [FgkMem.wf_iff] at h ⊢
  exact ⟨Table.wf_set e hn h.1, h.2.1, h.2.2.1, h.2.2.2.1, h.2.2.2.2.1,
    Table.all_set (by rw [Bool.and_eq_true, Bool.and_eq_true]; exact ⟨⟨he.1, he.2.1⟩, he.2.2⟩)
      h.2.2.2.2.2⟩

/-- The links of every node are slots. -/
theorem FgkMem.node_wf {g : FgkMem} (h : g.wf = true) (n : Nat) : (g.node n).linksOk := by
  have := Table.get_of_all (FgkMem.wf_iff.1 h).2.2.2.2.2 n (d := FgkNode.empty) rfl
  rw [Bool.and_eq_true, Bool.and_eq_true] at this
  exact ⟨this.1.1, this.1.2, this.2⟩

theorem FgkMem.modNode_wf {g : FgkMem} {n : Nat} {f : FgkNode → FgkNode} (hn : n < Config.fgkCap)
    (hf : ∀ e : FgkNode, e.linksOk → (f e).linksOk) (h : g.wf = true) : (g.modNode n f).wf = true :=
  FgkMem.setNode_wf hn (hf _ (FgkMem.node_wf h n)) h

theorem FgkMem.setLeaf_wf {g : FgkMem} {s : Nat} {i : Option Nat} (hs : s < 256)
    (hi : slotOk Config.fgkCap i = true) (h : g.wf = true) :
    FgkMem.wf { g with leaf := leafSet g.leaf s i } = true := by
  rw [FgkMem.wf_iff] at h ⊢
  exact ⟨h.1, Table.wf_set i hs h.2.1, h.2.2.1, h.2.2.2.1, Table.all_set hi h.2.2.2.2.1, h.2.2.2.2.2⟩

theorem FgkMem.clearLeaf_wf {g : FgkMem} (h : g.wf = true) : FgkMem.wf { g with leaf := [] } = true := by
  rw [FgkMem.wf_iff] at h ⊢
  exact ⟨h.1, Table.wf_nil _ _, h.2.2.1, h.2.2.2.1, rfl, h.2.2.2.2.2⟩

theorem FgkMem.setHeads_wf {g : FgkMem} (n : BitVec 10) {r y : Option Nat}
    (hr : slotOk Config.fgkCap r = true) (hy : slotOk Config.fgkCap y = true) (h : g.wf = true) :
    FgkMem.wf { g with n := n, root := r, nyt := y } = true := by
  rw [FgkMem.wf_iff] at h ⊢
  exact ⟨h.1, h.2.1, hr, hy, h.2.2.2.2⟩

/-- The slot of a leaf is a slot of the arena. -/
theorem FgkMem.leaf_wf {g : FgkMem} (h : g.wf = true) (s : Nat) :
    slotOk Config.fgkCap (leafGet g.leaf s) = true :=
  Table.get_of_all (FgkMem.wf_iff.1 h).2.2.2.2.1 s (d := none) (p := fun e => slotOk Config.fgkCap e.2) rfl

/-! ### The memories of a state -/

/-- The conditions of the form of the memories of a state. -/
theorem Memory.wf_iff {s : State} : Memory.wf s = true ↔
    Table.wf 0 256 s.freq = true ∧ Table.wf DistEntry.empty 256 s.dist = true ∧
      Table.wf RangeEntry.empty 257 s.range = true ∧ TreeMem.wf Config.treeCap s.main = true ∧
      ctxWf s.ctx ∧ s.fgk.wf = true := by
  simp only [Memory.wf, ctxWf, Bool.and_eq_true, and_assoc]

/-- The form is about the six memories alone. -/
theorem Memory.wf_congr {s t : State} (h1 : t.freq = s.freq) (h2 : t.dist = s.dist)
    (h3 : t.range = s.range) (h4 : t.main = s.main) (h5 : t.ctx = s.ctx) (h6 : t.fgk = s.fgk) :
    Memory.wf t = Memory.wf s := by
  unfold Memory.wf
  rw [h1, h2, h3, h4, h5, h6]

variable {s : State}

theorem Memory.wf_setFreq {f : Table (BitVec 32)} (hf : Table.wf 0 256 f = true)
    (h : Memory.wf s = true) : Memory.wf (s.setFreq f) = true := by
  rw [Memory.wf_iff] at h ⊢
  exact ⟨hf, h.2⟩

theorem Memory.wf_setDist {t : Table DistEntry} (ht : Table.wf DistEntry.empty 256 t = true)
    (h : Memory.wf s = true) : Memory.wf (s.setDist t) = true := by
  rw [Memory.wf_iff] at h ⊢
  exact ⟨h.1, ht, h.2.2⟩

theorem Memory.wf_setRange {t : Table RangeEntry} (ht : Table.wf RangeEntry.empty 257 t = true)
    (h : Memory.wf s = true) : Memory.wf (s.setRange t) = true := by
  rw [Memory.wf_iff] at h ⊢
  exact ⟨h.1, h.2.1, ht, h.2.2.2⟩

theorem Memory.wf_setMain {t : TreeMem} (ht : TreeMem.wf Config.treeCap t = true)
    (h : Memory.wf s = true) : Memory.wf (s.setMain t) = true := by
  rw [Memory.wf_iff] at h ⊢
  exact ⟨h.1, h.2.1, h.2.2.1, ht, h.2.2.2.2⟩

theorem Memory.wf_setCtx {t : Table CtxEntry} (ht : ctxWf t) (h : Memory.wf s = true) :
    Memory.wf (s.setCtx t) = true := by
  rw [Memory.wf_iff] at h ⊢
  exact ⟨h.1, h.2.1, h.2.2.1, h.2.2.2.1, ht, h.2.2.2.2.2⟩

theorem Memory.wf_setFgk {g : FgkMem} (hg : g.wf = true) (h : Memory.wf s = true) :
    Memory.wf (s.setFgk g) = true := by
  rw [Memory.wf_iff] at h ⊢
  exact ⟨h.1, h.2.1, h.2.2.1, h.2.2.2.1, h.2.2.2.2.1, hg⟩

theorem Memory.wf_setIo (x : Streams) : Memory.wf (s.setIo x) = Memory.wf s := rfl
theorem Memory.wf_setW (x : Working) : Memory.wf (s.setW x) = Memory.wf s := rfl
theorem Memory.wf_setStatus (x : Status) : Memory.wf (s.setStatus x) = Memory.wf s := rfl
theorem Memory.wf_setFaultCode (x : Option FaultCode) : Memory.wf (s.setFaultCode x) = Memory.wf s := rfl
theorem Memory.wf_setPhase (x : Phase) : Memory.wf (s.setPhase x) = Memory.wf s := rfl
theorem Memory.wf_setHost (x : List HostAct) : Memory.wf (s.setHost x) = Memory.wf s := rfl
theorem Memory.wf_setFresh (x : Nat) : Memory.wf (s.setFresh x) = Memory.wf s := rfl

end Sys2Proof.Machine
end

