-- ==== Sys2Proof/Laws/Codec.lean ====
section
/-! SUPPORT. The pieces of the codecs over streams that serve every access: the frequency header, the walk of a code
tree, the loops that put and take one codeword a byte. -/

namespace Sys2Proof.Machine

/-! ### The frequency header -/

/-- `WriteHeader(F)` (R204). -/
theorem writeHeader_ok (f : Table (BitVec 32)) {s : State} (hf : s.io.failOut = []) :
    writeHeader f s = .ok () (s.wroteAll (headerBytes f)) := by
  have key : ∀ (l : List Nat) {s : State}, s.io.failOut = [] →
      Run.each l (fun k => memWrite 4 (freqGet f k).toNat) s =
        .ok () (s.wroteAll (l.flatMap fun k => leBytes 4 (freqGet f k).toNat)) := by
    intro l
    induction l with
    | nil => intro s _; rw [List.flatMap_nil, State.wroteAll_nil]; rfl
    | cons k l ih =>
      intro s h
      rw [Run.each_cons, Run.bind_ok (memWrite_ok h 4 _)]
      refine (ih (s := s.wroteAll _) h).trans ?_
      rw [State.wroteAll_wroteAll, List.flatMap_cons]
  exact key _ hf

theorem headerField (f : Table (BitVec 32)) (k : Nat) :
    leValue (leBytes 4 (freqGet f k).toNat) = (freqGet f k).toNat :=
  leValue_leBytes 4 _ (freqGet f k).isLt

theorem State.advancedBy_advancedBy (s : State) (m n : Nat) :
    (s.advancedBy m).advancedBy n = s.advancedBy (m + n) := by
  simp only [State.advancedBy, State.setIo]
  rw [BitVec.add_assoc, BitVec.ofNat_add, Nat.add_assoc]

/-- The fields of a header, one after the other, read into memory by `store` (R214): what holds after the fields
`done` and is carried on by one more field holds at the end. -/
theorem readFields_ok (f : Table (BitVec 32)) {store : Nat → BitVec 32 → State → State}
    (hio : ∀ k v s, (store k v s).io = s.io) (P : List Nat → State → Prop)
    (hP : ∀ done k u, P done u → P (done ++ [k]) (store k (freqGet f k) (u.advancedBy 4))) :
    ∀ (ks done : List Nat) {s : State} {l : List Byte}, s.io.failIn = [] → s.io.Sound →
    s.io.rest = (ks.flatMap fun k => leBytes 4 (freqGet f k).toNat) ++ l → P done s →
    ∃ t, Run.each ks (fun i => do
        let v ← memRead 4
        Run.update (store i (BitVec.ofNat 32 v))) s = .ok () t ∧
      t.io.rest = l ∧ t.io.Sound ∧ t.io = (s.advancedBy (4 * ks.length)).io ∧ P (done ++ ks) t := by
  intro ks
  induction ks with
  | nil =>
    intro done s l _ hs h hp
    exact ⟨s, rfl, h, hs, by simp [State.advancedBy, State.setIo], by rwa [List.append_nil]⟩
  | cons k ks ih =>
    intro done s l hf hs h hp
    rw [List.flatMap_cons, List.append_assoc] at h
    obtain ⟨h1, h2, h3⟩ := memRead_ok hf hs h
    rw [leBytes_length, headerField] at h1
    rw [leBytes_length] at h2 h3
    have hio' : (store k (freqGet f k) (s.advancedBy 4)).io = (s.advancedBy 4).io := hio _ _ _
    obtain ⟨t, h4, h5, h6, h7, h8⟩ := ih (done ++ [k]) (s := store k (freqGet f k) (s.advancedBy 4)) (l := l)
      (by rw [hio']; exact hf) (by rw [hio']; exact h3) (by rw [hio']; exact h2) (hP _ _ _ hp)
    refine ⟨t, ?_, h5, h6, ?_, by rwa [List.append_assoc] at h8⟩
    · rw [Run.each_cons, Run.bind_assoc_apply, Run.bind_ok h1, Run.update_bind, BitVec.ofNat_toNat,
        BitVec.setWidth_eq]
      exact h4
    · rw [h7]
      show ((store k (freqGet f k) (s.advancedBy 4)).advancedBy (4 * ks.length)).io = _
      have : (store k (freqGet f k) (s.advancedBy 4)).advancedBy (4 * ks.length) =
          (store k (freqGet f k) (s.advancedBy 4)).setIo ((s.advancedBy 4).advancedBy (4 * ks.length)).io := by
        simp only [State.advancedBy, hio', State.setIo_io]
      rw [this, State.advancedBy_advancedBy, List.length_cons, show 4 + 4 * ks.length = 4 * (ks.length + 1) by omega]
      rfl

/-- `ReadHeader(FREQ)` and the sum (R213, R214): the counts written are the counts read. -/
theorem readHeader_ok (f : Table (BitVec 32)) {s : State} {l : List Byte} (hf : s.io.failIn = [])
    (hs : s.io.Sound) (h : s.io.rest = headerBytes f ++ l) :
    ∃ t, readHeader s = .ok () t ∧ t.io.rest = l ∧ t.io.Sound ∧
      (∀ k, k < 256 → freqGet t.freq k = freqGet f k) ∧
      t.w.total = BitVec.ofNat 40 (freqSum t.freq) ∧
      t = ((s.advancedBy 1024).setFreq t.freq).setW { s.w with total := t.w.total } := by
  have h' : s.io.rest = ((List.range 256).flatMap fun k => leBytes 4 (freqGet f k).toNat) ++ l := h
  obtain ⟨t, h1, h2, h3, _, h5, h6⟩ := readFields_ok f
    (store := fun i v s => s.setFreq (freqSet s.freq i v)) (fun _ _ _ => rfl)
    (fun done u => u = (s.advancedBy (4 * done.length)).setFreq u.freq ∧
      ∀ k, k ∈ done → freqGet u.freq k = freqGet f k)
    (by
      rintro done k u ⟨hu, hg⟩
      refine ⟨?_, fun k' hk' => ?_⟩
      · conv_lhs => rw [hu]
        have h2 := State.advancedBy_advancedBy s (4 * done.length) 4
        rw [List.length_append, List.length_singleton, Nat.mul_add, ← h2]
        rfl
      · show freqGet (freqSet u.freq k (freqGet f k)) k' = _
        rw [freqGet_freqSet]
        split
        · next h => rw [h]
        · next h =>
          rcases List.mem_append.1 hk' with hk' | hk'
          · exact hg k' hk'
          · exact absurd (List.mem_singleton.1 hk') h)
    (List.range 256) [] (l := l) hf hs h'
    ⟨by simp [State.advancedBy, State.setIo, State.setFreq], by simp⟩
  rw [List.nil_append] at h5 h6
  rw [List.length_range] at h5
  have h7 : ∀ v, BitVec.ofNat 40 (freqSum t.freq) = v →
      readHeader s = .ok () (t.setW { t.w with total := v }) := by
    rintro v rfl
    unfold readHeader readHeaderWith
    rw [Run.bind_ok h1]
    rfl
  obtain ⟨v, hv⟩ : ∃ v, BitVec.ofNat 40 (freqSum t.freq) = v := ⟨_, rfl⟩
  refine ⟨t.setW { t.w with total := v }, h7 v hv, h2, h3, fun k hk => h6 k (List.mem_range.2 hk), hv.symm, ?_⟩
  have hw : t.w = s.w := by
    have := congrArg State.w h5
    rwa [State.setFreq_w, State.setIo_w] at this
  have h8 := congrArg (fun x : State => x.setW { s.w with total := v }) h5
  rw [show ({ t.w with total := v } : Working) = { s.w with total := v } by rw [hw]]
  exact h8

/-- Two tables that read the same have the same distribution. -/
theorem distribution_congr {f g : Table (BitVec 32)} (h : ∀ k, k < 256 → freqGet f k = freqGet g k) :
    distribution f = distribution g := by
  unfold distribution presentEntries
  congr 1
  apply List.filterMap_congr
  intro s hs
  rw [List.mem_range] at hs
  rw [h s hs]

theorem freqSum_congr {f g : Table (BitVec 32)} (h : ∀ k, k < 256 → freqGet f k = freqGet g k) :
    freqSum f = freqSum g := by
  unfold freqSum
  congr 1
  apply List.map_congr_left
  intro s hs
  rw [List.mem_range] at hs
  rw [h s hs]

/-- A field that is cut short (R66, R214). -/
theorem memRead_short : ∀ (n : Nat) {s : State}, s.io.failIn = [] → s.io.Sound → s.io.rest.length < n →
    memRead n s = .error (.raise .malformedHeader) (s.advancedBy s.io.rest.length).touched := by
  intro n
  induction n with
  | zero => intro s _ _ h; omega
  | succ n ih =>
    intro s hf hs h
    cases hr : s.io.rest with
    | nil =>
      rw [memRead, Run.bind_ok (inRead_end hf hr), List.length_nil,
        show s.advancedBy 0 = s by simp [State.advancedBy, State.setIo]]
      rfl
    | cons b l =>
      have h1 := State.advanced_rest hs hr
      rw [memRead, Run.bind_ok (inRead_some hf hr)]
      show (memRead n >>= _) s.advanced = _
      have hl : s.advanced.io.rest.length < n := by rw [h1]; rw [hr] at h; simpa using h
      rw [Run.bind_error (ih (s := s.advanced) hf (State.advanced_sound hs hr) hl), h1]
      congr 1
      simp only [State.touched, State.advancedBy, State.advanced, State.setIo, Streams.touchIn, List.length_cons]
      rw [BitVec.add_assoc, Nat.add_assoc s.io.inAcc, Nat.add_comm 1 l.length, BitVec.add_comm 1, BitVec.ofNat_add]
      rfl

/-! ### The walk of a code tree -/

/-- The symbol a path ends on. -/
def Shape.follow : Shape → Bits → Option Byte
  | .dead, _ => none
  | .leaf s, [] => some s
  | .leaf _, _ :: _ => none
  | .left _, [] => none
  | .left l, b :: bs => if b then none else l.follow bs
  | .right _, [] => none
  | .right r, b :: bs => if b then r.follow bs else none
  | .both _ _, [] => none
  | .both l r, b :: bs => if b then r.follow bs else l.follow bs

/-- The paths of a tree are the ways to its symbols. -/
theorem Shape.mem_pathsFrom : ∀ (sh : Shape) (p : Bits) (b : Byte) (c : Bits),
    (b, c) ∈ sh.pathsFrom p ↔ ∃ d, c = p ++ d ∧ sh.follow d = some b
  | .dead, p, b, c => by simp [Shape.pathsFrom, Shape.follow]
  | .leaf s, p, b, c => by
    simp only [Shape.pathsFrom, List.mem_singleton, Prod.mk.injEq]
    constructor
    · rintro ⟨rfl, rfl⟩
      exact ⟨[], by simp, rfl⟩
    · rintro ⟨d, rfl, h⟩
      cases d with
      | nil => exact ⟨by cases h; rfl, by simp⟩
      | cons a d => cases h
  | .left l, p, b, c => by
    rw [Shape.pathsFrom, Shape.mem_pathsFrom l]
    constructor
    · rintro ⟨d, rfl, h⟩
      exact ⟨false :: d, by simp, h⟩
    · rintro ⟨d, rfl, h⟩
      rcases d with _ | ⟨_ | _, d⟩
      · cases h
      · exact ⟨d, by simp, h⟩
      · cases h
  | .right r, p, b, c => by
    rw [Shape.pathsFrom, Shape.mem_pathsFrom r]
    constructor
    · rintro ⟨d, rfl, h⟩
      exact ⟨true :: d, by simp, h⟩
    · rintro ⟨d, rfl, h⟩
      rcases d with _ | ⟨_ | _, d⟩
      · cases h
      · cases h
      · exact ⟨d, by simp, h⟩
  | .both l r, p, b, c => by
    rw [Shape.pathsFrom, List.mem_append, Shape.mem_pathsFrom l, Shape.mem_pathsFrom r]
    constructor
    · rintro (⟨d, rfl, h⟩ | ⟨d, rfl, h⟩)
      · exact ⟨false :: d, by simp, h⟩
      · exact ⟨true :: d, by simp, h⟩
    · rintro ⟨d, rfl, h⟩
      rcases d with _ | ⟨_ | _, d⟩
      · cases h
      · exact .inl ⟨d, by simp, h⟩
      · exact .inr ⟨d, by simp, h⟩

theorem Shape.mem_paths {sh : Shape} {b : Byte} {c : Bits} : (b, c) ∈ sh.paths ↔ sh.follow c = some b := by
  rw [Shape.paths, Shape.mem_pathsFrom]
  simp

/-- The codeword of a symbol leads to it. -/
theorem Shape.follow_codeIn {sh : Shape} {b : Byte} {c : Bits} (h : codeIn sh.paths b = some c) :
    sh.follow c = some b := by
  unfold codeIn at h
  cases hf : sh.paths.find? (fun c => c.1 == b) with
  | none => rw [hf] at h; cases h
  | some e =>
    rw [hf] at h
    cases h
    have h1 := List.mem_of_find?_eq_some hf
    have h2 : e.1 = b := beq_iff_eq.1 (List.find?_some (p := fun c : Byte × Bits => c.1 == b) hf)
    rw [← h2]
    exact Shape.mem_paths.1 h1

/-- No path to a symbol goes on to another. -/
theorem Shape.follow_prefix : ∀ {sh : Shape} {c d : Bits} {a b : Byte}, sh.follow c = some a →
    sh.follow (c ++ d) = some b → d = [] ∧ a = b
  | .dead, c, d, a, b, h, _ => by simp [Shape.follow] at h
  | .leaf s, [], [], a, b, h, h' => ⟨rfl, by cases h; cases h'; rfl⟩
  | .leaf s, [], x :: d, a, b, _, h' => by cases h'
  | .leaf s, x :: c, d, a, b, h, _ => by cases h
  | .left l, [], d, a, b, h, _ => by cases h
  | .left l, false :: c, d, a, b, h, h' => Shape.follow_prefix (sh := l) h h'
  | .left l, true :: c, d, a, b, h, _ => by cases h
  | .right r, [], d, a, b, h, _ => by cases h
  | .right r, false :: c, d, a, b, h, _ => by cases h
  | .right r, true :: c, d, a, b, h, h' => Shape.follow_prefix (sh := r) h h'
  | .both l r, [], d, a, b, h, _ => by cases h
  | .both l r, false :: c, d, a, b, h, h' => Shape.follow_prefix (sh := l) h h'
  | .both l r, true :: c, d, a, b, h, h' => Shape.follow_prefix (sh := r) h h'

/-- What the walk of a tree does not touch. -/
def State.unwalked (s : State) : State := s.unparsed.setW { s.unparsed.w with cur := none }

theorem State.unwalked_of_unparsed {s t : State} (h : t.unparsed = s.unparsed) : t.unwalked = s.unwalked := by
  unfold State.unwalked
  rw [h]

/-- A step of the walk: the bit, and `CUR` on the child. -/
theorem walkLoop_step {T : Table TreeNode} {i : Nat} {b : Bool} {l : Bits} {s : State} (hs : s.Parses)
    (hsym : (treeGet T i).sym = none) {j : Nat} (hj : (treeGet T i).child b = some j)
    (h : s.unread = b :: l) (n : Nat) : ∃ t, walkLoop T (n + 1) i s = walkLoop T n j t ∧ t.unread = l ∧
      t.Parses ∧ t.unwalked = s.unwalked := by
  obtain ⟨t, h1, h2, h3, h4⟩ := getBit_cons hs h
  refine ⟨t.setW { t.w with cur := some j }, ?_, h2, ⟨h3.honest, h3.sound, h3.held⟩,
    (?_ : _ = t.unwalked).trans (State.unwalked_of_unparsed h4)⟩
  · rw [walkLoop, hsym]
    show (getBit >>= _) s = _
    rw [Run.bind_ok h1, hj]
    rfl
  · rfl

/-- From the slot that holds a tree, the bits of a path lead to its symbol (R156). -/
theorem walkLoop_follow {t : TreeMem} : ∀ (sh : Shape) (i : Nat) {c : Bits} {b : Byte}, t.Holds sh i →
    sh.follow c = some b → ∀ {s : State} {l : Bits} (n : Nat), s.Parses → s.unread = c ++ l →
    ∃ u, walkLoop t.tree (c.length + 1 + n) i s = .ok b u ∧ u.unread = l ∧ u.Parses ∧
      u.unwalked = s.unwalked := by
  have hgo : ∀ {i j : Nat} {x : Bool} {c l : Bits} {b : Byte} {s : State} (n : Nat), s.Parses →
      s.unread = (x :: c) ++ l → (t.node i).sym = none → (t.node i).child x = some j →
      (∀ {s : State}, s.Parses → s.unread = c ++ l →
        ∃ u, walkLoop t.tree (c.length + 1 + n) j s = .ok b u ∧ u.unread = l ∧ u.Parses ∧
          u.unwalked = s.unwalked) →
      ∃ u, walkLoop t.tree ((x :: c).length + 1 + n) i s = .ok b u ∧ u.unread = l ∧ u.Parses ∧
        u.unwalked = s.unwalked := by
    intro i j x c l b s n hs h hsym hch hrec
    obtain ⟨v, h1, h2, h3, h4⟩ := walkLoop_step hs hsym hch h (c.length + 1 + n)
    obtain ⟨u, h5, h6, h7, h8⟩ := hrec h3 h2
    refine ⟨u, ?_, h6, h7, h8.trans h4⟩
    rw [List.length_cons, show c.length + 1 + 1 + n = (c.length + 1 + n) + 1 by omega, h1, h5]
  intro sh
  induction sh with
  | dead => intro i c b _ h; simp [Shape.follow] at h
  | leaf y =>
    intro i c b hh h s l n hs hu
    cases c with
    | cons x c => cases h
    | nil =>
      cases h
      refine ⟨s, ?_, hu, hs, rfl⟩
      have hh' : (treeGet t.tree i).sym = some _ := hh
      rw [List.length_nil, show 0 + 1 + n = n + 1 by omega, walkLoop, hh']
      rfl
  | left l ih =>
    intro i c b hh h s l n hs hu
    obtain ⟨j, hn, hj⟩ := hh
    rcases c with _ | ⟨_ | _, c⟩
    · cases h
    · exact hgo n hs hu (by rw [hn]) (by rw [hn]; rfl) fun hs hu => ih j hj h n hs hu
    · cases h
  | right r ih =>
    intro i c b hh h s l n hs hu
    obtain ⟨j, hn, hj⟩ := hh
    rcases c with _ | ⟨_ | _, c⟩
    · cases h
    · cases h
    · exact hgo n hs hu (by rw [hn]) (by rw [hn]; rfl) fun hs hu => ih j hj h n hs hu
  | both l r ihl ihr =>
    intro i c b hh h s l n hs hu
    obtain ⟨j, k, hn, hj, hk⟩ := hh
    rcases c with _ | ⟨_ | _, c⟩
    · cases h
    · exact hgo n hs hu (by rw [hn]) (by rw [hn]; rfl) fun hs hu => ihl j hj h n hs hu
    · exact hgo n hs hu (by rw [hn]) (by rw [hn]; rfl) fun hs hu => ihr k hk h n hs hu

/-- `WalkSymbol` on a tree that the memory roots (R156). -/
theorem walkSymbol_follow {t : TreeMem} {sh : Shape} (ht : t.Roots sh) {c : Bits} {b : Byte}
    (hc : sh.follow c = some b) {s : State} {l : Bits} (hs : s.Parses) (h : s.unread = c ++ l) :
    ∃ u, walkSymbol t.tree t.root s = .ok b u ∧ u.unread = l ∧ u.Parses ∧ u.unwalked = s.unwalked := by
  obtain ⟨r, hr, hh⟩ := ht
  have hlen : (s.setW { s.w with cur := some r }).bitsLeft = c.length + l.length := by
    rw [← State.unread_length, ← List.length_append, ← h]
    rfl
  obtain ⟨u, h1, h2, h3, h4⟩ := walkLoop_follow sh r hh hc (s := s.setW { s.w with cur := some r }) (l.length + 1)
    ⟨hs.honest, hs.sound, hs.held⟩ h
  refine ⟨u, ?_, h2, h3, h4⟩
  rw [hr]
  show walkLoop t.tree ((s.setW { s.w with cur := some r }).bitsLeft + 2) r (s.setW { s.w with cur := some r }) = _
  rw [hlen, show c.length + l.length + 2 = c.length + 1 + (l.length + 1) by omega]
  exact h1

/-! ### One codeword a byte -/

/-- What putting codewords does not touch. -/
def State.uncoded (s : State) : State :=
  (s.setIo { s.io with inPos := 0, inAcc := 0, outRev := [], outLen := 0, outAcc := 0 }).setW
    { s.w with nsym := 0, obits := 0, ocnt := 0 }

theorem State.uncoded_of_unpacked {s t : State} (h : t.unpacked = s.unpacked) : t.uncoded = s.uncoded := by
  have h2 : ∀ u : State, u.uncoded =
      (u.unpacked.setIo { u.unpacked.io with inPos := 0, inAcc := 0 }).setW { u.unpacked.w with nsym := 0 } :=
    fun _ => rfl
  rw [h2, h2, h]

theorem State.uncoded_main {s t : State} (h : t.uncoded = s.uncoded) : t.main = s.main := by
  have := congrArg State.main h
  exact this

theorem State.uncoded_failIn {s t : State} (h : t.uncoded = s.uncoded) : t.io.failIn = s.io.failIn := by
  have := congrArg (fun x : State => x.io.failIn) h
  exact this

theorem State.uncoded_failOut {s t : State} (h : t.uncoded = s.uncoded) : t.io.failOut = s.io.failOut := by
  have := congrArg (fun x : State => x.io.failOut) h
  exact this

theorem State.uncoded_total {s t : State} (h : t.uncoded = s.uncoded) : t.w.total = s.w.total := by
  have := congrArg (fun x : State => x.w.total) h
  exact this

theorem State.unpacked_io {s t : State} (h : t.unpacked = s.unpacked) :
    t.io.rest = s.io.rest ∧ (s.io.Sound → t.io.Sound) ∧ t.w.nsym = s.w.nsym := by
  have h1 := congrArg (fun x : State => x.io.input) h
  have h2 := congrArg (fun x : State => x.io.inPos) h
  have h3 := congrArg (fun x : State => x.w.nsym) h
  have h1' : t.io.input = s.io.input := h1
  have h2' : t.io.inPos = s.io.inPos := h2
  exact ⟨by rw [Streams.rest, Streams.rest, h1', h2'], fun hs => by
    unfold Streams.Sound; rw [h1', h2']; exact hs, h3⟩

/-- `NSYM <- NSYM + 1` while symbols are left. -/
theorem bumpNsym_below {s : State} (h : s.w.nsym.toNat < s.w.total.toNat) :
    bumpNsym s = .ok () (s.setW { s.w with nsym := s.w.nsym + 1 }) ∧
      (s.w.nsym + 1).toNat = s.w.nsym.toNat + 1 := by
  have := s.w.total.isLt
  refine ⟨bumpNsym_small (by omega), ?_⟩
  rw [BitVec.toNat_add, show (1 : BitVec 40).toNat = 1 from rfl]
  omega

/-- The loop of `EncodePayload()` (R205) over bytes that all have a codeword. -/
theorem encodeLoop_ok {s₀ : State} : ∀ (S : List Byte) {s : State} {c : Bits}, s.io.failIn = [] →
    s.io.failOut = [] → s.io.Sound → s.io.rest = S → (∀ b ∈ S, (s.main.code b.toNat).isSome = true) →
    s.w.nsym.toNat + S.length ≤ s.w.total.toNat → s₀.Packed s c →
    ∃ t, encodeLoop (S.length + 1) s = .ok () t ∧
      s₀.Packed t (c ++ S.flatMap fun b => (s.main.code b.toNat).getD []) ∧ t.io.rest = [] ∧ t.io.Sound ∧
      t.w.nsym.toNat = s.w.nsym.toNat + S.length ∧ t.uncoded = s.uncoded := by
  intro S
  induction S with
  | nil =>
    intro s c hf _ hs hr _ _ hp
    refine ⟨s.touched, ?_, by rwa [List.flatMap_nil, List.append_nil], hr, hs, rfl, rfl⟩
    rw [List.length_nil, encodeLoop, Run.bind_ok (inRead_end hf hr)]
    rfl
  | cons b S ih =>
    intro s c hf hfo hs hr hcode hn hp
    rw [List.length_cons] at hn
    obtain ⟨t, h1, h2, h3⟩ := putBits_packed (s₀ := s₀) (s := s.advanced) hfo hp
      ((s.main.code b.toNat).getD [])
    obtain ⟨hr3, hs3, hn3⟩ := State.unpacked_io h3
    have hu3 : t.uncoded = s.uncoded :=
      (State.uncoded_of_unpacked h3 : t.uncoded = s.advanced.uncoded)
    have htot := State.uncoded_total hu3
    obtain ⟨h4, h5⟩ := bumpNsym_below (s := t) (by rw [hn3, htot]; show s.w.nsym.toNat < _; omega)
    have hmain := State.uncoded_main hu3
    obtain ⟨u, h6, h7, h8, h9, h10, h11⟩ := ih (s := t.setW { t.w with nsym := t.w.nsym + 1 })
      (c := c ++ (s.main.code b.toNat).getD []) ((State.uncoded_failIn hu3).trans hf)
      ((State.uncoded_failOut hu3).trans hfo) (hs3 (State.advanced_sound hs hr))
      (hr3.trans (State.advanced_rest hs hr))
      (by intro b' hb'; rw [State.setW_main, hmain]; exact hcode b' (by simp [hb']))
      (by
        show (t.w.nsym + 1).toNat + S.length ≤ t.w.total.toNat
        rw [h5, hn3, htot]
        show s.w.nsym.toNat + 1 + S.length ≤ _
        omega) h2
    refine ⟨u, ?_, ?_, h8, h9, ?_, h11.trans hu3⟩
    · rw [List.length_cons, encodeLoop, Run.bind_ok (inRead_some hf hr)]
      show (Run.require ((s.main.code b.toNat).isSome && decide (s.w.nsym.toNat < s.w.total.toNat)) .ioRead >>= _)
        s.advanced = _
      rw [hcode b (by simp), decide_eq_true (show s.w.nsym.toNat < s.w.total.toNat by omega)]
      show (putBits ((s.main.code b.toNat).getD []) >>= _) s.advanced = _
      rw [Run.bind_ok h1, Run.bind_ok h4]
      exact h6
    · rw [State.setW_main, hmain, List.append_assoc] at h7
      rwa [List.flatMap_cons]
    · rw [h10]
      show (t.w.nsym + 1).toNat + S.length = _
      rw [h5, hn3, List.length_cons]
      show s.w.nsym.toNat + 1 + S.length = _
      omega

/-- What taking codewords does not touch. -/
def State.undecoded (s : State) : State :=
  (s.setIo { s.io with inPos := 0, inAcc := 0, outRev := [], outLen := 0, outAcc := 0 }).setW
    { s.w with nsym := 0, ibits := 0, icnt := 0, cur := none }

theorem State.undecoded_of_unwalked {s t : State} (h : t.unwalked = s.unwalked) : t.undecoded = s.undecoded := by
  have h2 : ∀ u : State, u.undecoded =
      (u.unwalked.setIo { u.unwalked.io with outRev := [], outLen := 0, outAcc := 0 }).setW
        { u.unwalked.w with nsym := 0 } := fun _ => rfl
  rw [h2, h2, h]

theorem State.undecoded_main {s t : State} (h : t.undecoded = s.undecoded) : t.main = s.main := by
  have := congrArg State.main h
  exact this

theorem State.undecoded_total {s t : State} (h : t.undecoded = s.undecoded) : t.w.total = s.w.total := by
  have := congrArg (fun x : State => x.w.total) h
  exact this

theorem State.undecoded_failOut {s t : State} (h : t.undecoded = s.undecoded) :
    t.io.failOut = s.io.failOut := by
  have := congrArg (fun x : State => x.io.failOut) h
  exact this

theorem State.unwalked_out {s t : State} (h : t.unwalked = s.unwalked) :
    t.io.outRev = s.io.outRev ∧ t.io.outLen = s.io.outLen ∧ t.w.nsym = s.w.nsym := by
  have h1 := congrArg (fun x : State => x.io.outRev) h
  have h2 := congrArg (fun x : State => x.io.outLen) h
  have h3 := congrArg (fun x : State => x.w.nsym) h
  exact ⟨h1, h2, h3⟩

/-- The loop of `DecodePayload()` (R215) over the codewords of bytes that are leaves of the tree. -/
theorem decodeLoop_ok {sh : Shape} : ∀ (S : List Byte) {s : State} {l : Bits}, s.Parses →
    s.io.failOut = [] → s.main.Roots sh → (∀ b ∈ S, (codeIn sh.paths b).isSome = true) →
    s.w.nsym.toNat + S.length = s.w.total.toNat → s.unread = codeBits sh S ++ l →
    ∃ t, decodeLoop (S.length + 1) s = .ok () t ∧ t.io.outRev = S.reverse ++ s.io.outRev ∧
      t.io.outLen = s.io.outLen + BitVec.ofNat 64 S.length ∧ t.unread = l ∧ t.Parses ∧
      t.w.nsym = s.w.total ∧ t.undecoded = s.undecoded := by
  intro S
  induction S with
  | nil =>
    intro s l hs _ _ _ hn hu
    have hn' : s.w.nsym.toNat = s.w.total.toNat := hn
    refine ⟨s, ?_, rfl, by simp, hu, hs, BitVec.eq_of_toNat_eq hn', rfl⟩
    rw [List.length_nil, decodeLoop]
    show (if decide (s.w.nsym.toNat < s.w.total.toNat) = true then _ else pure () : Eng Unit) s = _
    rw [if_neg (by rw [decide_eq_true_eq]; omega)]
    rfl
  | cons b S ih =>
    intro s l hs hfo ht hcode hn hu
    rw [List.length_cons] at hn
    obtain ⟨c, hc⟩ := Option.isSome_iff_exists.1 (hcode b (by simp))
    rw [codeBits, List.flatMap_cons, hc, Option.getD_some, List.append_assoc] at hu
    obtain ⟨t, h1, h2, h3, h4⟩ := walkSymbol_follow ht (Shape.follow_codeIn hc) hs hu
    have hu4 := State.undecoded_of_unwalked h4
    obtain ⟨ho1, ho2, ho3⟩ := State.unwalked_out h4
    have htot := State.undecoded_total hu4
    have hfo' := (State.undecoded_failOut hu4).trans hfo
    obtain ⟨h5, h6⟩ := bumpNsym_below (s := t.wrote b)
      (by show t.w.nsym.toNat < t.w.total.toNat; rw [ho3, htot]; omega)
    obtain ⟨u, h7, h8, h9, h10, h11, h12, h13⟩ := ih
      (s := (t.wrote b).setW { t.w with nsym := t.w.nsym + 1 }) (l := l) ⟨h3.honest, h3.sound, h3.held⟩
      hfo' (by show t.main.Roots sh; rw [State.undecoded_main hu4]; exact ht)
      (fun b' hb' => hcode b' (by simp [hb']))
      (by
        show (t.w.nsym + 1).toNat + S.length = t.w.total.toNat
        have : (t.w.nsym + 1).toNat = t.w.nsym.toNat + 1 := h6
        rw [this, ho3, htot]; omega) h2
    refine ⟨u, ?_, ?_, ?_, h10, h11, h12.trans htot, h13.trans hu4⟩
    · rw [List.length_cons, decodeLoop]
      show (if decide (s.w.nsym.toNat < s.w.total.toNat) = true then _ else _ : Eng Unit) s = _
      rw [if_pos (decide_eq_true (by omega))]
      show (walkSymbol s.main.tree s.main.root >>= _) s = _
      rw [Run.bind_ok h1, Run.bind_ok (outWrite_ok hfo' b), Run.bind_ok h5]
      exact h7
    · rw [h8]
      show S.reverse ++ (b :: t.io.outRev) = _
      rw [ho1]
      simp
    · rw [h9]
      show t.io.outLen + 1 + _ = _
      rw [ho2, List.length_cons, BitVec.add_assoc, BitVec.add_comm 1, BitVec.ofNat_add]
      rfl

end Sys2Proof.Machine
end

