-- ==== Sys2Proof/Laws/Interval.lean ====
section
/-! SUPPORT. The arithmetic code as numbers: the bits the encoder still has to give name a point of its current
interval, whatever it encodes next (46_arithmetic.md R303 to R306, R320 to R322). -/

namespace Sys2Proof.Machine

/-- The number the first `n` bits of a string stand for, zeros behind its end. -/
def window : Nat → Bits → Nat
  | 0, _ => 0
  | n + 1, c => (if c.getD 0 false then 2 ^ n else 0) + window n (c.drop 1)

theorem window_lt : ∀ (n : Nat) (c : Bits), window n c < 2 ^ n
  | 0, _ => Nat.one_pos
  | n + 1, c => by
    have := window_lt n (c.drop 1)
    rw [window, Nat.pow_succ]
    split <;> omega

theorem window_cons (n : Nat) (b : Bool) (c : Bits) :
    window (n + 1) (b :: c) = (if b then 2 ^ n else 0) + window n c := rfl

/-- One bit more at the end. -/
theorem window_succ : ∀ (n : Nat) (c : Bits),
    window (n + 1) c = 2 * window n c + (if c.getD n false then 1 else 0)
  | 0, c => by simp [window]
  | n + 1, c => by
    rw [window, window_succ n (c.drop 1), window, Nat.pow_succ]
    have : (c.drop 1).getD n false = c.getD (n + 1) false := by
      cases c <;> rfl
    rw [this]
    split <;> omega

theorem window_half (n : Nat) (c : Bits) : window (n + 1) c / 2 = window n c := by
  rw [window_succ]
  split <;> omega

/-! ### Renormalising and what comes after -/

/-- A renormalisation and then `k` on the interval it leaves. -/
def Interval.andThen (n : Nat) (x : Interval) (k : Interval → Bits) : Bits :=
  (Interval.renorm n x).1 ++ k (Interval.renorm n x).2

/-- Deferred bits come out behind the first bit, as its opposites (R304). -/
def Defers (k : Interval → Bits) : Prop := ∀ l h, ∃ b rest, ∀ p,
  k ⟨l, h, p⟩ = b :: (List.replicate p (!b) ++ rest)

/-- The three passes of a renormalisation, and its end (R304). -/
theorem Interval.andThen_lower {n : Nat} {x : Interval} (k : Interval → Bits) (h : x.high ≤ Config.half) :
    Interval.andThen (n + 1) x k =
      emitted false x.pend ++ Interval.andThen n ⟨2 * x.low, 2 * x.high, 0⟩ k := by
  rw [Interval.andThen, Interval.renorm, if_pos h, Interval.andThen, List.append_assoc]

theorem Interval.andThen_upper {n : Nat} {x : Interval} (k : Interval → Bits) (h : ¬x.high ≤ Config.half)
    (h1 : Config.half ≤ x.low) : Interval.andThen (n + 1) x k =
      emitted true x.pend ++ Interval.andThen n ⟨2 * x.low - Config.scaleM, 2 * x.high - Config.scaleM, 0⟩ k := by
  rw [Interval.andThen, Interval.renorm, if_neg h, if_pos h1, Interval.andThen, List.append_assoc]

theorem Interval.andThen_middle {n : Nat} {x : Interval} (k : Interval → Bits) (h : ¬x.high ≤ Config.half)
    (h1 : ¬Config.half ≤ x.low) (h2 : Config.quarter ≤ x.low ∧ x.high ≤ Config.threeQuarters) :
    Interval.andThen (n + 1) x k = Interval.andThen n
      ⟨2 * (x.low - Config.quarter), 2 * (x.high - Config.quarter), x.pend + 1⟩ k := by
  rw [Interval.andThen, Interval.renorm, if_neg h, if_neg h1, if_pos h2, Interval.andThen]

theorem Interval.andThen_done {n : Nat} {x : Interval} (k : Interval → Bits) (h : ¬x.high ≤ Config.half)
    (h1 : ¬Config.half ≤ x.low) (h2 : ¬(Config.quarter ≤ x.low ∧ x.high ≤ Config.threeQuarters)) :
    Interval.andThen (n + 1) x k = k x := by
  rw [Interval.andThen, Interval.renorm, if_neg h, if_neg h1, if_neg h2]; rfl

theorem Interval.andThen_defers {k : Interval → Bits} (hk : Defers k) : ∀ n, Defers (fun x => x.andThen n k) := by
  intro n
  induction n with
  | zero => intro l h; exact hk l h
  | succ n ih =>
    intro l h
    by_cases h0 : h ≤ Config.half
    · exact ⟨false, Interval.andThen n ⟨2 * l, 2 * h, 0⟩ k, fun p => Interval.andThen_lower k h0⟩
    · by_cases h1 : Config.half ≤ l
      · exact ⟨true, Interval.andThen n ⟨2 * l - Config.scaleM, 2 * h - Config.scaleM, 0⟩ k,
          fun p => Interval.andThen_upper k h0 h1⟩
      · by_cases h2 : Config.quarter ≤ l ∧ h ≤ Config.threeQuarters
        · obtain ⟨b, rest, hb⟩ := ih (2 * (l - Config.quarter)) (2 * (h - Config.quarter))
          refine ⟨b, (!b) :: rest, fun p => ?_⟩
          have := hb (p + 1)
          refine (Interval.andThen_middle (x := ⟨l, h, p⟩) k h0 h1 h2).trans (this.trans ?_)
          rw [List.replicate_succ']
          simp
        · obtain ⟨b, rest, hb⟩ := hk l h
          exact ⟨b, rest, fun p => (Interval.andThen_done k h0 h1 h2).trans (hb p)⟩

/-- An interval no rule of the renormalisation applies to (R304, R305). -/
structure Settled (l h : Nat) : Prop where
  top : h ≤ Config.scaleM
  above : Config.half < h
  below : l < Config.half
  wide : ¬(Config.quarter ≤ l ∧ h ≤ Config.threeQuarters)

/-- A settled interval is wider than a quarter of the scale (R305). -/
theorem Settled.width {l h : Nat} (s : Settled l h) : l + Config.quarter < h := by
  have h1 : Config.half = 1073741824 := rfl
  have h2 : Config.quarter = 536870912 := rfl
  have h3 : Config.threeQuarters = 1610612736 := rfl
  have := s.above
  have := s.below
  have := s.wide
  omega

/-- The bits of `k` name a point of every settled interval. -/
def Names (k : Interval → Bits) : Prop := ∀ l h, Settled l h →
  l ≤ window 31 (k ⟨l, h, 0⟩) ∧ window 31 (k ⟨l, h, 0⟩) < h

/-- With a renormalisation before it, of every interval (R304). -/
theorem Interval.andThen_names {k : Interval → Bits} (hd : Defers k) (hk : Names k) : ∀ (n l h : Nat), l < h →
    h ≤ Config.scaleM → Config.scaleM < (h - l) * 2 ^ n →
    l ≤ window 31 (Interval.andThen n ⟨l, h, 0⟩ k) ∧ window 31 (Interval.andThen n ⟨l, h, 0⟩ k) < h := by
  have hM : Config.scaleM = 2147483648 := rfl
  have hH : Config.half = 1073741824 := rfl
  have hQ : Config.quarter = 536870912 := rfl
  have hT : Config.threeQuarters = 1610612736 := rfl
  intro n
  induction n with
  | zero => intro l h hl ht hw; rw [Nat.pow_zero, Nat.mul_one] at hw; omega
  | succ n ih =>
    intro l h hl ht hw
    have hw' : Config.scaleM < (2 * (h - l)) * 2 ^ n := by
      rw [Nat.pow_succ] at hw
      calc _ < (h - l) * (2 ^ n * 2) := hw
        _ = _ := by ring
    by_cases h0 : h ≤ Config.half
    · have := ih (2 * l) (2 * h) (by omega) (by omega) (by rw [show 2 * h - 2 * l = 2 * (h - l) by omega]; exact hw')
      rw [show Interval.andThen (n + 1) ⟨l, h, 0⟩ k = _ from Interval.andThen_lower k h0]
      show l ≤ window (30 + 1) (false :: Interval.andThen n ⟨2 * l, 2 * h, 0⟩ k) ∧
        window (30 + 1) (false :: Interval.andThen n ⟨2 * l, 2 * h, 0⟩ k) < h
      rw [window_cons, ← window_half 30, show 30 + 1 = 31 from rfl]
      simp only [Bool.false_eq_true, if_false]
      omega
    · by_cases h1 : Config.half ≤ l
      · have := ih (2 * l - Config.scaleM) (2 * h - Config.scaleM) (by omega) (by omega)
          (by rw [show 2 * h - Config.scaleM - (2 * l - Config.scaleM) = 2 * (h - l) by omega]; exact hw')
        rw [show Interval.andThen (n + 1) ⟨l, h, 0⟩ k = _ from Interval.andThen_upper k h0 h1]
        show l ≤ window (30 + 1) (true :: Interval.andThen n ⟨2 * l - Config.scaleM, 2 * h - Config.scaleM, 0⟩ k) ∧
          window (30 + 1) (true :: Interval.andThen n ⟨2 * l - Config.scaleM, 2 * h - Config.scaleM, 0⟩ k) < h
        rw [window_cons, ← window_half 30, show 30 + 1 = 31 from rfl]
        simp only [if_true]
        omega
      · by_cases h2 : Config.quarter ≤ l ∧ h ≤ Config.threeQuarters
        · have := ih (2 * (l - Config.quarter)) (2 * (h - Config.quarter)) (by omega) (by omega)
            (by rw [show 2 * (h - Config.quarter) - 2 * (l - Config.quarter) = 2 * (h - l) by omega]; exact hw')
          obtain ⟨b, rest, hb⟩ := Interval.andThen_defers hd n (2 * (l - Config.quarter)) (2 * (h - Config.quarter))
          rw [show Interval.andThen (n + 1) ⟨l, h, 0⟩ k = _ from Interval.andThen_middle k h0 h1 h2]
          have hb0 : Interval.andThen n ⟨2 * (l - Config.quarter), 2 * (h - Config.quarter), 0⟩ k = b :: rest := by
            have := hb 0; simpa using this
          have hb1 : Interval.andThen n ⟨2 * (l - Config.quarter), 2 * (h - Config.quarter), 0 + 1⟩ k =
              b :: (!b) :: rest := by
            have := hb 1; simpa using this
          rw [hb0] at this
          rw [hb1]
          rw [show window 31 (b :: rest) = window (30 + 1) (b :: rest) from rfl, window_cons] at this
          rw [show window 31 (b :: (!b) :: rest) = window (29 + 1 + 1) (b :: (!b) :: rest) from rfl, window_cons,
            window_cons, ← window_half 29, show 29 + 1 = 30 from rfl]
          cases b <;> simp only [Bool.false_eq_true, if_false, if_true, Bool.not_false, Bool.not_true] at this ⊢ <;>
            omega
        · rw [Interval.andThen_done k h0 h1 h2]
          exact hk l h ⟨ht, by omega, by omega, h2⟩

/-! ### The whole code -/

/-- The bits the encoder gives from an interval on: the entries still to come, then the flush. -/
def codeFrom (rt : Nat) (es : List RangeEntry) (x : Interval) : Bits :=
  (Interval.encodeAll rt es x).1 ++ (Interval.encodeAll rt es x).2.flush

theorem codeFrom_nil (rt : Nat) (x : Interval) : codeFrom rt [] x = x.flush := rfl

theorem codeFrom_cons (rt : Nat) (e : RangeEntry) (es : List RangeEntry) (x : Interval) :
    codeFrom rt (e :: es) x = Interval.andThen renormBound (x.narrow rt e) (codeFrom rt es) := by
  unfold codeFrom Interval.andThen
  rw [Interval.encodeAll]
  simp only [Interval.encode, List.append_assoc]

/-- An entry of a table with total `rt` (R29). -/
structure RangeEntry.Ok (rt : Nat) (e : RangeEntry) : Prop where
  less : e.cumLo.toNat < e.cumHi.toNat
  most : e.cumHi.toNat ≤ rt

theorem subBound_zero (l h rt : Nat) : subBound l h rt 0 = l := by
  rw [subBound, Nat.zero_mul, Nat.zero_div, Nat.add_zero]

theorem subBound_mono {l h rt a b : Nat} (hab : a ≤ b) : subBound l h rt a ≤ subBound l h rt b :=
  Nat.add_le_add_left (Nat.div_le_div_right (Nat.mul_le_mul_right _ hab)) _

theorem subBound_total {l h rt : Nat} (hrt : 0 < rt) (hlh : l ≤ h) : subBound l h rt rt = h := by
  rw [subBound, Nat.mul_div_cancel_left _ hrt]; omega

/-- In an interval at least as wide as the total, bounds of different numbers differ (R305). -/
theorem subBound_lt {l h rt a b : Nat} (hrt : 0 < rt) (hw : rt ≤ h - l) (hab : a < b) :
    subBound l h rt a < subBound l h rt b := by
  refine Nat.lt_of_lt_of_le ?_ (subBound_mono (l := l) (h := h) (rt := rt) (show a + 1 ≤ b from hab))
  unfold subBound
  rw [Nat.add_one_mul]
  have : a * (h - l) / rt + 1 ≤ (a * (h - l) + (h - l)) / rt := by
    rw [← Nat.add_div_right _ hrt]
    exact Nat.div_le_div_right (Nat.add_le_add_left hw _)
  omega

/-- A sub-interval of a settled interval. -/
theorem narrow_within {rt : Nat} {e : RangeEntry} (he : e.Ok rt) (hT : rt ≤ Config.arithTMax) {l h : Nat}
    (hs : Settled l h) : l ≤ subBound l h rt e.cumLo.toNat ∧
      subBound l h rt e.cumLo.toNat < subBound l h rt e.cumHi.toNat ∧ subBound l h rt e.cumHi.toNat ≤ h := by
  have hA : Config.arithTMax = 536870912 := rfl
  have hQ : Config.quarter = 536870912 := rfl
  have hw := hs.width
  have hl := he.less
  have hm := he.most
  refine ⟨Nat.le_add_right _ _, subBound_lt (by omega) (by omega) hl, ?_⟩
  exact (subBound_mono hm).trans (subBound_total (l := l) (h := h) (rt := rt) (by omega) (by omega)).le

theorem codeFrom_defers (rt : Nat) : ∀ es, Defers (codeFrom rt es)
  | [] => fun l h => ⟨decide (Config.quarter ≤ l), [!decide (Config.quarter ≤ l)], fun p => by
      rw [codeFrom_nil, Interval.flush, emitted, List.replicate_succ']⟩
  | e :: es => fun l h => by
    obtain ⟨b, rest, hb⟩ := Interval.andThen_defers (codeFrom_defers rt es) renormBound
      (subBound l h rt e.cumLo.toNat) (subBound l h rt e.cumHi.toNat)
    exact ⟨b, rest, fun p => (codeFrom_cons rt e es _).trans (hb p)⟩

/-- What the encoder gives from a settled interval on names a point of it. -/
theorem codeFrom_names {rt : Nat} (hT : rt ≤ Config.arithTMax) : ∀ es, (∀ e ∈ es, e.Ok rt) →
    Names (codeFrom rt es)
  | [], _ => fun l h hs => by
    have hH : Config.half = 1073741824 := rfl
    have hQ : Config.quarter = 536870912 := rfl
    have h1 := hs.above
    have h2 := hs.below
    rw [codeFrom_nil, Interval.flush]
    by_cases hq : Config.quarter ≤ l
    · have : window 31 (emitted (decide (Config.quarter ≤ l)) (0 + 1)) = 2 ^ 30 := by
        rw [decide_eq_true hq]; rfl
      show l ≤ window 31 (emitted (decide (Config.quarter ≤ l)) (0 + 1)) ∧ _
      rw [this]
      omega
    · have : window 31 (emitted (decide (Config.quarter ≤ l)) (0 + 1)) = 2 ^ 29 := by
        rw [decide_eq_false hq]; rfl
      show l ≤ window 31 (emitted (decide (Config.quarter ≤ l)) (0 + 1)) ∧ _
      rw [this]
      omega
  | e :: es, he => fun l h hs => by
    have hn := narrow_within (he e (by simp)) hT hs
    have := Interval.andThen_names (codeFrom_defers rt es) (codeFrom_names hT es fun x hx => he x (by simp [hx]))
      renormBound _ _ hn.2.1 (hn.2.2.trans hs.top) (by
        have hM : Config.scaleM = 2147483648 := rfl
        have : 1 * 2 ^ renormBound ≤ (subBound l h rt e.cumHi.toNat - subBound l h rt e.cumLo.toNat) * 2 ^ renormBound :=
          Nat.mul_le_mul_right _ (by omega)
        have h33 : 2 ^ renormBound = 8589934592 := by decide
        omega)
    rw [codeFrom_cons]
    have h1 : l ≤ window 31 _ := hn.1.trans this.1
    exact ⟨h1, Nat.lt_of_lt_of_le this.2 hn.2.2⟩

/-- The point lies in the sub-interval of the entry that comes next (R320). -/
theorem codeFrom_in_entry {rt : Nat} (hT : rt ≤ Config.arithTMax) {e : RangeEntry} {es : List RangeEntry}
    (he : ∀ x ∈ e :: es, x.Ok rt) {l h : Nat} (hs : Settled l h) :
    subBound l h rt e.cumLo.toNat ≤ window 31 (codeFrom rt (e :: es) ⟨l, h, 0⟩) ∧
      window 31 (codeFrom rt (e :: es) ⟨l, h, 0⟩) < subBound l h rt e.cumHi.toNat := by
  have hn := narrow_within (he e (by simp)) hT hs
  have := Interval.andThen_names (codeFrom_defers rt es) (codeFrom_names hT es fun x hx => he x (by simp [hx]))
    renormBound _ _ hn.2.1 (hn.2.2.trans hs.top) (by
      have hM : Config.scaleM = 2147483648 := rfl
      have : 1 * 2 ^ renormBound ≤ (subBound l h rt e.cumHi.toNat - subBound l h rt e.cumLo.toNat) * 2 ^ renormBound :=
        Nat.mul_le_mul_right _ (by omega)
      have h33 : 2 ^ renormBound = 8589934592 := by decide
      omega)
  rw [codeFrom_cons]
  exact this

/-! ### What a renormalisation leaves -/

/-- A renormalisation settles the interval and defers at most one bit a pass (R304, R305). -/
theorem renorm_settles : ∀ (n : Nat) (x : Interval), x.low < x.high → x.high ≤ Config.scaleM →
    Config.scaleM < (x.high - x.low) * 2 ^ n →
    Settled (Interval.renorm n x).2.low (Interval.renorm n x).2.high ∧
      (Interval.renorm n x).2.pend ≤ x.pend + n := by
  have hM : Config.scaleM = 2147483648 := rfl
  have hH : Config.half = 1073741824 := rfl
  have hQ : Config.quarter = 536870912 := rfl
  have hT : Config.threeQuarters = 1610612736 := rfl
  intro n
  induction n with
  | zero => intro x hl ht hw; rw [Nat.pow_zero, Nat.mul_one] at hw; omega
  | succ n ih =>
    intro x hl ht hw
    have hw' : Config.scaleM < (2 * (x.high - x.low)) * 2 ^ n := by
      rw [Nat.pow_succ] at hw
      calc _ < (x.high - x.low) * (2 ^ n * 2) := hw
        _ = _ := by ring
    rw [Interval.renorm]
    by_cases h0 : x.high ≤ Config.half
    · rw [if_pos h0]
      have := ih ⟨2 * x.low, 2 * x.high, 0⟩ (by show 2 * x.low < 2 * x.high; omega)
        (by show 2 * x.high ≤ _; omega)
        (by show _ < (2 * x.high - 2 * x.low) * _; rw [show 2 * x.high - 2 * x.low = 2 * (x.high - x.low) by omega]; exact hw')
      exact ⟨this.1, this.2.trans (by show 0 + n ≤ _; omega)⟩
    · rw [if_neg h0]
      by_cases h1 : Config.half ≤ x.low
      · rw [if_pos h1]
        have := ih ⟨2 * x.low - Config.scaleM, 2 * x.high - Config.scaleM, 0⟩
          (by show 2 * x.low - _ < 2 * x.high - _; omega) (by show 2 * x.high - _ ≤ _; omega)
          (by show _ < (2 * x.high - Config.scaleM - (2 * x.low - Config.scaleM)) * _
              rw [show 2 * x.high - Config.scaleM - (2 * x.low - Config.scaleM) = 2 * (x.high - x.low) by omega]; exact hw')
        exact ⟨this.1, this.2.trans (by show 0 + n ≤ _; omega)⟩
      · rw [if_neg h1]
        by_cases h2 : Config.quarter ≤ x.low ∧ x.high ≤ Config.threeQuarters
        · rw [if_pos h2]
          have := ih ⟨2 * (x.low - Config.quarter), 2 * (x.high - Config.quarter), x.pend + 1⟩
            (by show 2 * (x.low - _) < 2 * (x.high - _); omega) (by show 2 * (x.high - _) ≤ _; omega)
            (by show _ < (2 * (x.high - Config.quarter) - 2 * (x.low - Config.quarter)) * _
                rw [show 2 * (x.high - Config.quarter) - 2 * (x.low - Config.quarter) = 2 * (x.high - x.low) by omega]
                exact hw')
          exact ⟨this.1, this.2.trans (by show x.pend + 1 + n ≤ _; omega)⟩
        · rw [if_neg h2]
          exact ⟨⟨ht, Nat.not_le.1 h0, Nat.not_le.1 h1, h2⟩, by show x.pend ≤ _; omega⟩

end Sys2Proof.Machine
end

