-- ==== Sys2Proof/Laws/Arith.lean ====
section
/-! SUPPORT. The arithmetic coder's registers follow the numbers of Interval.lean: the encoder puts the bits of the
interval code, the decoder's window shows them (46_arithmetic.md). -/

namespace Sys2Proof.Machine

/-! ### The range table -/

theorem cntSum_cons (e : DistEntry) (dl : List DistEntry) : cntSum (e :: dl) = e.cnt.toNat + cntSum dl := rfl

theorem rangesFrom_length : ∀ (dl : List DistEntry) (cum : Nat), (rangesFrom dl cum).length = dl.length
  | [], _ => rfl
  | e :: dl, cum => by rw [rangesFrom, List.length_cons, rangesFrom_length dl, List.length_cons]

theorem rangeTable_length {dl : List DistEntry} (h : dl ≠ []) : (rangeTable dl).length = dl.length + 1 := by
  cases dl with
  | nil => exact absurd rfl h
  | cons e dl =>
    show (rangesFrom (e :: dl) 0 ++ [_]).length = _
    rw [List.length_append, rangesFrom_length]
    rfl

/-- A number that fits its field is written as it is. -/
theorem writeRange_fits {i : Nat} {sym : BitVec 9} {lo hi : Nat} (hl : lo ≤ hi) (h : hi < 2 ^ 30) (s : State) :
    writeRange i sym lo hi s =
      .ok () (s.setRange (rangeSet s.range i ⟨sym, BitVec.ofNat 30 lo, BitVec.ofNat 30 hi⟩)) := by
  simp only [writeRange, Run.update_apply, cumField, if_pos h, if_pos (show lo < 2 ^ 30 by omega)]
  rfl

/-- The loop of `RANGES` (R134) while the sums fit. -/
theorem rangeLoop_ok : ∀ (dl : List DistEntry) (i cum : Nat) (s : State), cum + cntSum dl < 2 ^ 30 →
    ∃ t, rangeLoop dl i cum s = .ok (cum + cntSum dl) t ∧ t = s.setRange t.range ∧
      (∀ j, j < i ∨ i + dl.length ≤ j → rangeGet t.range j = rangeGet s.range j) ∧
      ∀ (k : Nat) (e : RangeEntry), (rangesFrom dl cum)[k]? = some e → rangeGet t.range (i + k) = e := by
  intro dl
  induction dl with
  | nil => intro i cum s _; exact ⟨s, rfl, rfl, fun _ _ => rfl, fun k e h => by simp [rangesFrom] at h⟩
  | cons e dl ih =>
    intro i cum s h
    rw [cntSum_cons] at h ⊢
    let s₁ := s.setRange (rangeSet s.range i
      ⟨e.sym.setWidth 9, BitVec.ofNat 30 cum, BitVec.ofNat 30 (cum + e.cnt.toNat)⟩)
    obtain ⟨t, h1, h2, h3, h4⟩ := ih (i + 1) (cum + e.cnt.toNat) s₁ (by omega)
    refine ⟨t, ?_, ?_, fun j hj => ?_, fun k x hk => ?_⟩
    · rw [rangeLoop, Run.bind_ok (writeRange_fits (by omega) (by omega) s), h1, Nat.add_assoc]
    · conv_lhs => rw [h2]
      rfl
    · rw [List.length_cons] at hj
      rw [h3 j (by omega)]
      show rangeGet (rangeSet s.range i _) j = _
      rw [rangeGet_rangeSet, if_neg (by omega)]
    · cases k with
      | zero =>
        rw [rangesFrom] at hk
        cases hk
        rw [Nat.add_zero, h3 i (by omega)]
        show rangeGet (rangeSet s.range i _) i = _
        rw [rangeGet_rangeSet, if_pos rfl]
      | succ k =>
        have := h4 k x hk
        rwa [show i + 1 + k = i + (k + 1) by omega] at this

/-- `RANGES`' block where the total is within its bound (R134, R135, R136). -/
theorem rangesBlock_ok (s : State) (h : rangeTotal (distribution s.freq) ≤ Config.arithTMax) :
    ∃ t, rangesBlock s = .ok () t ∧ t.distList = distribution s.freq ∧
      t.rangeList = rangeTable (distribution s.freq) ∧ t.w.rt.toNat = rangeTotal (distribution s.freq) ∧
      t.w.nrange.toNat = (rangeTable (distribution s.freq)).length ∧
      t = (((s.setDist t.dist).setRange t.range).setW
        { s.w with ndist := t.w.ndist, nrange := t.w.nrange, rt := t.w.rt }) := by
  have hA : Config.arithTMax = 536870912 := rfl
  obtain ⟨v, h1, h2⟩ := distBlock_distList s
  have hv : v = (s.setDist v.dist).setW { s.w with ndist := v.w.ndist } := by cases h1; rfl
  have hlen := distribution_length s.freq
  have hrun : rangesBlock s = (Run.read State.distList >>= fun dl => match dl.getLast? with
      | none => setW (fun w => { w with nrange := 0, rt := 0 })
      | some last => do
        let cum ← rangeLoop dl 0 0
        writeRange dl.length (BitVec.ofNat 9 Config.eosSym) cum (cum + last.cnt.toNat)
        Run.require (decide (cum + last.cnt.toNat ≤ Config.arithTMax)) .rangeTotal
        setW (fun w => { w with
          nrange := BitVec.ofNat 9 (dl.length + 1)
          rt := BitVec.ofNat 30 (cum + last.cnt.toNat) })) v := by
    unfold rangesBlock
    exact Run.bind_ok h1
  clear h1
  obtain ⟨d, n, rfl⟩ : ∃ d n, v = (s.setDist d).setW { s.w with ndist := n } := ⟨_, _, hv⟩
  clear hv
  rw [hrun, Run.read_bind, h2]
  cases hl : (distribution s.freq).getLast? with
  | none =>
    have hnil : distribution s.freq = [] := List.getLast?_eq_none_iff.1 hl
    rw [hnil]
    refine ⟨(s.setDist d).setW { s.w with ndist := n, nrange := 0, rt := 0 }, rfl, ?_, rfl, rfl, rfl, rfl⟩
    rw [← hnil, ← h2]; rfl
  | some last =>
    have hne : distribution s.freq ≠ [] := fun h0 => by rw [h0] at hl; cases hl
    have htot : rangeTotal (distribution s.freq) = cntSum (distribution s.freq) + last.cnt.toNat := by
      rw [rangeTotal, eosWeight, hl]; rfl
    rw [htot] at h ⊢
    obtain ⟨t, g1, g2, g3, g4⟩ := rangeLoop_ok (distribution s.freq) 0 0
      ((s.setDist d).setW { s.w with ndist := n }) (by omega)
    obtain ⟨r, rfl⟩ : ∃ r, t = ((s.setDist d).setW { s.w with ndist := n }).setRange r := ⟨_, g2⟩
    clear g2
    rw [Nat.zero_add] at g1 g3
    have htab : rangeTable (distribution s.freq) = rangesFrom (distribution s.freq) 0 ++
        [⟨BitVec.ofNat 9 Config.eosSym, BitVec.ofNat 30 (cntSum (distribution s.freq)),
          BitVec.ofNat 30 (cntSum (distribution s.freq) + last.cnt.toNat)⟩] := by
      rw [← htot]
      cases hd : distribution s.freq with
      | nil => exact absurd hd hne
      | cons => rfl
    let u := (((s.setDist d).setW { s.w with ndist := n }).setRange (rangeSet r (distribution s.freq).length ⟨BitVec.ofNat 9 Config.eosSym,
        BitVec.ofNat 30 (cntSum (distribution s.freq)),
        BitVec.ofNat 30 (cntSum (distribution s.freq) + last.cnt.toNat)⟩)).setW { s.w with
      ndist := n
      nrange := BitVec.ofNat 9 ((distribution s.freq).length + 1)
      rt := BitVec.ofNat 30 (cntSum (distribution s.freq) + last.cnt.toNat) }
    have hnr : u.w.nrange.toNat = (distribution s.freq).length + 1 := by
      show (BitVec.ofNat 9 ((distribution s.freq).length + 1)).toNat = _
      rw [BitVec.toNat_ofNat]; omega
    refine ⟨u, ?_, ?_, ?_, ?_, ?_, rfl⟩
    · show (rangeLoop (distribution s.freq) 0 0 >>= _) _ = _
      rw [Run.bind_ok g1, Run.bind_ok (writeRange_fits (by omega) (by omega) _),
        show decide (cntSum (distribution s.freq) + last.cnt.toNat ≤ Config.arithTMax) = true from decide_eq_true h]
      rfl
    · exact h2
    · rw [htab]
      unfold State.rangeList
      rw [hnr]
      apply List.ext_getElem
      · simp [rangesFrom_length]
      · intro i h1 h2
        rw [List.getElem_map, List.getElem_range]
        rw [show u.range = rangeSet r (distribution s.freq).length ⟨BitVec.ofNat 9 Config.eosSym,
          BitVec.ofNat 30 (cntSum (distribution s.freq)),
          BitVec.ofNat 30 (cntSum (distribution s.freq) + last.cnt.toNat)⟩ from rfl]
        rw [rangeGet_rangeSet]
        by_cases hi : i = (distribution s.freq).length
        · subst hi
          rw [if_pos rfl, List.getElem_append_right (by rw [rangesFrom_length])]
          simp [rangesFrom_length]
        · rw [if_neg hi]
          rw [List.length_append, rangesFrom_length, List.length_singleton] at h2
          have hi' : i < (rangesFrom (distribution s.freq) 0).length := by rw [rangesFrom_length]; omega
          rw [List.getElem_append_left hi']
          have := g4 i _ (List.getElem?_eq_getElem hi')
          rwa [Nat.zero_add] at this
    · show (BitVec.ofNat 30 _).toNat = _
      rw [BitVec.toNat_ofNat]; omega
    · rw [hnr, rangeTable_length hne]

/-- Entries of a list of ranges from `cum` on: in order, apart, within. -/
theorem rangesFrom_spec : ∀ (dl : List DistEntry) (cum : Nat), cum + cntSum dl < 2 ^ 30 →
    (∀ e ∈ dl, e.cnt ≠ 0) →
    (∀ x ∈ rangesFrom dl cum, cum ≤ x.cumLo.toNat ∧ x.cumLo.toNat < x.cumHi.toNat ∧
      x.cumHi.toNat ≤ cum + cntSum dl) ∧
    (rangesFrom dl cum).Pairwise (fun x y => x.cumHi.toNat ≤ y.cumLo.toNat) := by
  intro dl
  induction dl with
  | nil => intro cum _ _; exact ⟨fun x h => (by cases h), List.Pairwise.nil⟩
  | cons e dl ih =>
    intro cum h hc
    rw [cntSum_cons] at h ⊢
    have hpos : e.cnt.toNat ≠ 0 := fun h0 => hc e (by simp) (BitVec.eq_of_toNat_eq h0)
    have h1 : (BitVec.ofNat 30 cum).toNat = cum := by rw [BitVec.toNat_ofNat]; omega
    have h2 : (BitVec.ofNat 30 (cum + e.cnt.toNat)).toNat = cum + e.cnt.toNat := by rw [BitVec.toNat_ofNat]; omega
    obtain ⟨h3, h4⟩ := ih (cum + e.cnt.toNat) (by omega) fun x hx => hc x (by simp [hx])
    rw [rangesFrom]
    refine ⟨fun x hx => ?_, List.pairwise_cons.2 ⟨fun x hx => ?_, h4⟩⟩
    · rcases List.mem_cons.1 hx with rfl | hx
      · show cum ≤ (BitVec.ofNat 30 cum).toNat ∧ (BitVec.ofNat 30 cum).toNat <
          (BitVec.ofNat 30 (cum + e.cnt.toNat)).toNat ∧ (BitVec.ofNat 30 (cum + e.cnt.toNat)).toNat ≤ _
        rw [h1, h2]; omega
      · have := h3 x hx; omega
    · show (BitVec.ofNat 30 (cum + e.cnt.toNat)).toNat ≤ _
      rw [h2]
      exact (h3 x hx).1

/-- The table tiles `[0, RT)` (R29). -/
theorem rangeTable_spec {dl : List DistEntry} (hc : ∀ e ∈ dl, e.cnt ≠ 0) (h : rangeTotal dl < 2 ^ 30) :
    (∀ x ∈ rangeTable dl, x.Ok (rangeTotal dl)) ∧
    (rangeTable dl).Pairwise (fun x y => x.cumHi.toNat ≤ y.cumLo.toNat) := by
  cases dl with
  | nil => exact ⟨fun x h => (by cases h), List.Pairwise.nil⟩
  | cons e es =>
    have hlast : 0 < eosWeight (e :: es) := by
      rw [eosWeight, List.getLast?_eq_getLast_of_ne_nil (List.cons_ne_nil _ _)]
      exact Nat.pos_of_ne_zero fun h0 => hc _ (List.getLast_mem (List.cons_ne_nil e es)) (BitVec.eq_of_toNat_eq h0)
    have htot : rangeTotal (e :: es) = cntSum (e :: es) + eosWeight (e :: es) := rfl
    obtain ⟨h1, h2⟩ := rangesFrom_spec (e :: es) 0 (by omega) hc
    have hlo : (BitVec.ofNat 30 (cntSum (e :: es))).toNat = cntSum (e :: es) := by
      rw [BitVec.toNat_ofNat]; omega
    have hhi : (BitVec.ofNat 30 (rangeTotal (e :: es))).toNat = rangeTotal (e :: es) := by
      rw [BitVec.toNat_ofNat]; omega
    show (∀ x ∈ rangesFrom (e :: es) 0 ++ [_], x.Ok (rangeTotal (e :: es))) ∧
      (rangesFrom (e :: es) 0 ++ [_]).Pairwise _
    refine ⟨fun x hx => ?_, List.pairwise_append.2 ⟨h2, List.pairwise_singleton _ _, fun x hx y hy => ?_⟩⟩
    · rcases List.mem_append.1 hx with hx | hx
      · have := h1 x hx
        exact ⟨this.2.1, by omega⟩
      · rw [List.mem_singleton] at hx
        subst hx
        exact ⟨by show (BitVec.ofNat 30 _).toNat < (BitVec.ofNat 30 _).toNat; rw [hlo, hhi]; omega,
          by show (BitVec.ofNat 30 _).toNat ≤ _; rw [hhi]⟩
    · rw [List.mem_singleton] at hy
      subst hy
      have := h1 x hx
      show _ ≤ (BitVec.ofNat 30 _).toNat
      rw [hlo]
      omega

/-! ### The encoder -/

/-- The registers hold an interval. -/
structure State.At (s : State) (x : Interval) : Prop where
  low : s.w.low.toNat = x.low
  high : s.w.high.toNat = x.high
  pend : s.w.pend.toNat = x.pend

/-- What the interval coder does not touch: all but the packer's registers, the output stream, `LOW`, `HIGH`,
`PEND`. -/
def State.unranged (s : State) : State :=
  s.unpacked.setW { s.unpacked.w with low := 0, high := 0, pend := 0 }

theorem State.unranged_of_unpacked {s t : State} (h : t.unpacked = s.unpacked) : t.unranged = s.unranged := by
  unfold State.unranged
  rw [h]

theorem State.unranged_failOut {s t : State} (h : t.unranged = s.unranged) : t.io.failOut = s.io.failOut := by
  have := congrArg (fun x : State => x.io.failOut) h
  exact this

theorem State.unpacked_interval {s t : State} (h : t.unpacked = s.unpacked) :
    t.w.low = s.w.low ∧ t.w.high = s.w.high ∧ t.w.pend = s.w.pend := by
  have h1 := congrArg (fun x : State => x.w.low) h
  have h2 := congrArg (fun x : State => x.w.high) h
  have h3 := congrArg (fun x : State => x.w.pend) h
  exact ⟨h1, h2, h3⟩

theorem times_putBit (b : Bool) : ∀ (n : Nat) (s : State),
    Run.times n (putBit b) s = putBits (List.replicate n b) s
  | 0, _ => rfl
  | n + 1, s => by
    rw [List.replicate_succ]
    show (putBit b >>= fun _ => Run.times n (putBit b)) s = (putBit b >>= fun _ => putBits (List.replicate n b)) s
    rw [Run.bind_apply, Run.bind_apply]
    cases putBit b s with
    | ok a t => exact times_putBit b n t
    | error e t => rfl

/-- `EmitWithPending(b)` (R304). -/
theorem emitWithPending_ok {s₀ s : State} {c : Bits} (hf : s.io.failOut = []) (h : s₀.Packed s c) (b : Bool) :
    ∃ t, emitWithPending b s = .ok () t ∧ s₀.Packed t (c ++ emitted b s.w.pend.toNat) ∧
      t.w.low = s.w.low ∧ t.w.high = s.w.high ∧ t.w.pend = 0 ∧ t.unranged = s.unranged := by
  obtain ⟨t, h1, h2, h3⟩ := putBit_packed hf h b
  have hp := State.unpacked_interval h3
  obtain ⟨u, h4, h5, h6⟩ := putBits_packed ((State.unpacked_failOut h3).trans hf) h2
    (List.replicate s.w.pend.toNat (!b))
  have hq := State.unpacked_interval h6
  refine ⟨u.setW { u.w with pend := 0 }, ?_, ?_, hq.1.trans hp.1, hq.2.1.trans hp.2.1, rfl, ?_⟩
  · unfold emitWithPending
    rw [Run.bind_ok h1, Run.read_bind, hp.2.2]
    show (Run.times s.w.pend.toNat (putBit (!b)) >>= _) t = _
    rw [Run.bind_ok ((times_putBit _ _ _).trans h4)]
    rfl
  · rw [List.append_assoc] at h5
    exact h5
  · exact (State.unranged_of_unpacked h6).trans (State.unranged_of_unpacked h3)

theorem setInterval_at {s : State} {a b p : Nat} (ha : a < 2 ^ 32) (hb : b < 2 ^ 32) (hp : s.w.pend.toNat = p) :
    (s.setW (s.w.setInterval a b)).At ⟨a, b, p⟩ := by
  refine ⟨?_, ?_, hp⟩
  · show (BitVec.ofNat 32 a).toNat = a
    rw [BitVec.toNat_ofNat, Nat.mod_eq_of_lt ha]
  · show (BitVec.ofNat 32 b).toNat = b
    rw [BitVec.toNat_ofNat, Nat.mod_eq_of_lt hb]

theorem at_rescale {s : State} {r : Renorm} {l h a b p : Nat} (hl : s.w.low.toNat = l) (hh : s.w.high.toNat = h)
    (ha : r.map l = a) (hb : r.map h = b) (hA : a < 2 ^ 32) (hB : b < 2 ^ 32) (hp : s.w.pend.toNat = p) :
    (s.setW (s.w.rescale r)).At ⟨a, b, p⟩ := by
  unfold Working.rescale
  rw [hl, hh, ha, hb]
  exact setInterval_at hA hB hp

theorem packed_setInterval {s₀ s : State} {c : Bits} (a b : Nat) (h : s₀.Packed s c) :
    s₀.Packed (s.setW (s.w.setInterval a b)) c := h

theorem packed_rescale {s₀ s : State} {c : Bits} (r : Renorm) (h : s₀.Packed s c) :
    s₀.Packed (s.setW (s.w.rescale r)) c := h

theorem packed_pend {s₀ s : State} {c : Bits} (v : BitVec 64) (h : s₀.Packed s c) :
    s₀.Packed (s.setW { s.w with pend := v }) c := h

theorem failOut_rescale {s : State} (r : Renorm) (h : s.io.failOut = []) :
    (s.setW (s.w.rescale r)).io.failOut = [] := h

theorem unranged_rescale (s : State) (r : Renorm) : (s.setW (s.w.rescale r)).unranged = s.unranged := rfl

theorem unranged_pend (s : State) (v : BitVec 64) : (s.setW { s.w with pend := v }).unranged = s.unranged := rfl

/-- Which rule fires, by the numbers. -/
theorem renorm_lower {w : Working} {l h : Nat} (_hl : w.low.toNat = l) (hh : w.high.toNat = h)
    (h0 : h ≤ Config.half) : w.renorm = .lower := by
  unfold Working.renorm; rw [hh, if_pos h0]

theorem renorm_upper {w : Working} {l h : Nat} (hl : w.low.toNat = l) (hh : w.high.toNat = h)
    (h0 : ¬h ≤ Config.half) (h1 : Config.half ≤ l) : w.renorm = .upper := by
  unfold Working.renorm; rw [hh, hl, if_neg h0, if_pos h1]

theorem renorm_middle {w : Working} {l h : Nat} (hl : w.low.toNat = l) (hh : w.high.toNat = h)
    (h0 : ¬h ≤ Config.half) (h1 : ¬Config.half ≤ l) (h2 : Config.quarter ≤ l ∧ h ≤ Config.threeQuarters) :
    w.renorm = .middle := by
  unfold Working.renorm; rw [hh, hl, if_neg h0, if_neg h1, if_pos h2]

theorem renorm_done {w : Working} {l h : Nat} (hl : w.low.toNat = l) (hh : w.high.toNat = h)
    (h0 : ¬h ≤ Config.half) (h1 : ¬Config.half ≤ l) (h2 : ¬(Config.quarter ≤ l ∧ h ≤ Config.threeQuarters)) :
    w.renorm = .done := by
  unfold Working.renorm; rw [hh, hl, if_neg h0, if_neg h1, if_neg h2]

/-- `EncRenorm()` (R304) puts the bits of the renormalisation. -/
theorem encRenorm_ok {s₀ : State} : ∀ (n : Nat) {s : State} {c : Bits} {x : Interval}, s.io.failOut = [] →
    s₀.Packed s c → s.At x → x.low < x.high → x.high ≤ Config.scaleM →
    Config.scaleM < (x.high - x.low) * 2 ^ n → x.pend + n < 2 ^ 64 →
    ∃ t, encRenorm n s = .ok () t ∧ s₀.Packed t (c ++ (Interval.renorm n x).1) ∧
      t.At (Interval.renorm n x).2 ∧ t.unranged = s.unranged := by
  have hM : Config.scaleM = 2147483648 := rfl
  have hH : Config.half = 1073741824 := rfl
  have hQ : Config.quarter = 536870912 := rfl
  have hT : Config.threeQuarters = 1610612736 := rfl
  intro n
  induction n with
  | zero => intro s c x _ _ _ hl ht hw _; rw [Nat.pow_zero, Nat.mul_one] at hw; omega
  | succ n ih =>
    intro s c x hf hp hx hl ht hw hb
    obtain ⟨hlo, hhi, hpe⟩ := hx
    have hw' : Config.scaleM < (2 * (x.high - x.low)) * 2 ^ n := by
      rw [Nat.pow_succ] at hw
      calc _ < (x.high - x.low) * (2 ^ n * 2) := hw
        _ = _ := by ring
    rw [encRenorm, Run.read_bind, Interval.renorm]
    by_cases h0 : x.high ≤ Config.half
    · rw [renorm_lower hlo hhi h0, if_pos h0]
      obtain ⟨t, h1, h2, h3, h4, h5, h6⟩ := emitWithPending_ok hf hp false
      rw [hpe] at h2
      obtain ⟨u, g1, g2, g3, g4⟩ := ih (s := t.setW (t.w.rescale .lower))
        (x := ⟨2 * x.low, 2 * x.high, 0⟩) (failOut_rescale _ ((State.unranged_failOut h6).trans hf)) (packed_rescale _ h2)
        (at_rescale ((congrArg _ h3).trans hlo) ((congrArg _ h4).trans hhi) rfl rfl (by omega) (by omega)
          (by rw [h5]; exact BitVec.toNat_ofNat ..))
        (by show 2 * x.low < 2 * x.high; omega) (by show 2 * x.high ≤ _; omega)
        (by show _ < (2 * x.high - 2 * x.low) * _; rw [show 2 * x.high - 2 * x.low = 2 * (x.high - x.low) by omega]; exact hw')
        (by show 0 + n < _; omega)
      refine ⟨u, ?_, by rw [List.append_assoc] at g2; exact g2, g3, (g4.trans (unranged_rescale _ _)).trans h6⟩
      show (emitWithPending false >>= _) s = _
      rw [Run.bind_ok h1, setW_bind]
      exact g1
    · rw [if_neg h0]
      by_cases h1 : Config.half ≤ x.low
      · rw [renorm_upper hlo hhi h0 h1, if_pos h1]
        obtain ⟨t, k1, h2, h3, h4, h5, h6⟩ := emitWithPending_ok hf hp true
        rw [hpe] at h2
        obtain ⟨a, ha, ha'⟩ : ∃ a, Renorm.upper.map x.low = a ∧ 2 * x.low - Config.scaleM = a := ⟨_, rfl, rfl⟩
        obtain ⟨b, hb', hb''⟩ : ∃ b, Renorm.upper.map x.high = b ∧ 2 * x.high - Config.scaleM = b := ⟨_, rfl, rfl⟩
        rw [ha', hb'']
        have hwid : b - a = 2 * (x.high - x.low) := by omega
        obtain ⟨u, g1, g2, g3, g4⟩ := ih (s := t.setW (t.w.rescale .upper)) (x := ⟨a, b, 0⟩)
          (failOut_rescale _ ((State.unranged_failOut h6).trans hf)) (packed_rescale _ h2)
          (at_rescale ((congrArg _ h3).trans hlo) ((congrArg _ h4).trans hhi) ha hb' (by omega) (by omega)
            (by rw [h5]; exact BitVec.toNat_ofNat ..))
          (by show a < b; omega) (by show b ≤ _; omega) (by show _ < (b - a) * _; rw [hwid]; exact hw')
          (by show 0 + n < _; omega)
        refine ⟨u, ?_, by rw [List.append_assoc] at g2; exact g2, g3, (g4.trans (unranged_rescale _ _)).trans h6⟩
        show (emitWithPending true >>= _) s = _
        rw [Run.bind_ok k1, setW_bind]
        exact g1
      · rw [if_neg h1]
        by_cases h2 : Config.quarter ≤ x.low ∧ x.high ≤ Config.threeQuarters
        · rw [renorm_middle hlo hhi h0 h1 h2, if_pos h2]
          let t := s.setW { s.w with pend := s.w.pend + 1 }
          have htp : t.w.pend.toNat = x.pend + 1 := by
            show (s.w.pend + 1).toNat = _
            rw [BitVec.toNat_add, hpe, show (1 : BitVec 64).toNat = 1 from rfl, Nat.mod_eq_of_lt (by omega)]
          obtain ⟨a, ha, ha'⟩ : ∃ a, Renorm.middle.map x.low = a ∧ 2 * (x.low - Config.quarter) = a := ⟨_, rfl, rfl⟩
          obtain ⟨b, hb', hb''⟩ : ∃ b, Renorm.middle.map x.high = b ∧ 2 * (x.high - Config.quarter) = b :=
            ⟨_, rfl, rfl⟩
          rw [ha', hb'']
          have hwid : b - a = 2 * (x.high - x.low) := by omega
          obtain ⟨u, g1, g2, g3, g4⟩ := ih (s := t.setW (t.w.rescale .middle)) (c := c) (x := ⟨a, b, x.pend + 1⟩)
            (failOut_rescale _ hf)
            (packed_rescale _ (packed_pend _ hp)) (at_rescale (s := t) hlo hhi ha hb' (by omega) (by omega) htp)
            (by show a < b; omega) (by show b ≤ _; omega) (by show _ < (b - a) * _; rw [hwid]; exact hw')
            (by show x.pend + 1 + n < _; omega)
          refine ⟨u, ?_, g2, g3, (g4.trans (unranged_rescale _ _)).trans (unranged_pend _ _)⟩
          show (setW _ >>= fun _ => setW _ >>= fun _ => encRenorm n) s = _
          rw [setW_bind, setW_bind]
          exact g1
        · rw [renorm_done hlo hhi h0 h1 h2, if_neg h2]
          exact ⟨s, rfl, by rw [List.append_nil]; exact hp, ⟨hlo, hhi, hpe⟩, rfl⟩

/-- `ArithEncode(i)` (R302) from a settled interval. -/
theorem arithEncode_ok {s₀ s : State} {c : Bits} {x : Interval} {e : RangeEntry} (hf : s.io.failOut = [])
    (hp : s₀.Packed s c) (hx : s.At x) (hs : Settled x.low x.high) (he : e.Ok s.w.rt.toNat)
    (hT : s.w.rt.toNat ≤ Config.arithTMax) (hb : x.pend + renormBound < 2 ^ 64) :
    ∃ t, arithEncode e s = .ok () t ∧ s₀.Packed t (c ++ (x.encode s.w.rt.toNat e).1) ∧
      t.At (x.encode s.w.rt.toNat e).2 ∧ t.unranged = s.unranged ∧
      Settled (x.encode s.w.rt.toNat e).2.low (x.encode s.w.rt.toNat e).2.high ∧
      (x.encode s.w.rt.toNat e).2.pend ≤ x.pend + renormBound := by
  have hM : Config.scaleM = 2147483648 := rfl
  have h33 : 2 ^ renormBound = 8589934592 := by decide
  obtain ⟨hn1, hn2, hn3⟩ := narrow_within he hT hs
  have htop := hs.top
  have hw : Config.scaleM < (subBound x.low x.high s.w.rt.toNat e.cumHi.toNat -
      subBound x.low x.high s.w.rt.toNat e.cumLo.toNat) * 2 ^ renormBound := by
    have : 1 * 2 ^ renormBound ≤ (subBound x.low x.high s.w.rt.toNat e.cumHi.toNat -
      subBound x.low x.high s.w.rt.toNat e.cumLo.toNat) * 2 ^ renormBound := Nat.mul_le_mul_right _ (by omega)
    omega
  have hsett := renorm_settles renormBound (x.narrow s.w.rt.toNat e) hn2 (hn3.trans htop) hw
  obtain ⟨t, g1, g2, g3, g4⟩ := encRenorm_ok renormBound
    (s := s.setW (s.w.setInterval (s.w.entryLow e) (s.w.entryHigh e))) (c := c) (x := x.narrow s.w.rt.toNat e)
    hf hp
    (by
      unfold Working.entryLow Working.entryHigh
      rw [hx.low, hx.high]
      exact setInterval_at (by omega) (by omega) hx.pend)
    hn2 (hn3.trans htop) hw hb
  exact ⟨t, g1, g2, g3, g4, hsett⟩

/-! ### The decoder -/

/-- `VAL` shows the first bits of `c`; the bits behind them are still to be read, zeros at the end (R316). -/
structure State.Shows (s : State) (c : Bits) : Prop where
  val : s.w.val.toNat = window 31 c
  ahead : ∀ i, s.unread.getD i false = c.getD (31 + i) false
  parses : s.Parses

/-- What the decoder's renormalisation does not touch. -/
def State.unvalued (s : State) : State :=
  s.unparsed.setW { s.unparsed.w with low := 0, high := 0, val := 0 }

theorem State.unvalued_of_unparsed {s t : State} (h : t.unparsed = s.unparsed) : t.unvalued = s.unvalued := by
  unfold State.unvalued
  rw [h]

/-- `GetBitOrZero()` (R74): the next bit, zeros behind the end. -/
theorem getBitOrZero_ok {s : State} (hs : s.Parses) : ∃ t, getBitOrZero s = .ok (s.unread.getD 0 false) t ∧
    (∀ i, t.unread.getD i false = s.unread.getD (i + 1) false) ∧ t.Parses ∧ t.unparsed = s.unparsed := by
  cases hu : s.unread with
  | nil =>
    obtain ⟨_, hc, hr⟩ := getBitOpt_nil hs hu
    have hun : s.touched.unread = s.unread := rfl
    exact ⟨s.touched, getBitOrZero_nil hs hu, fun i => by rw [hun, hu]; simp, ⟨hs.honest, hs.sound, hs.held⟩, rfl⟩
  | cons b l =>
    obtain ⟨t, h1, h2, h3, h4⟩ := getBitOrZero_cons hs hu
    exact ⟨t, h1, fun i => by rw [h2]; simp, h3, h4⟩

/-- One bit taken into the window, the string having lost or changed its head. -/
theorem shiftVal_ok {s : State} {c d : Bits} {f : Nat → Nat} (hs : s.Shows c)
    (hd : ∀ i, d.getD (30 + i) false = c.getD (31 + i) false)
    (hv : f (window 31 c) + (if c.getD 31 false then 1 else 0) = window 31 d) :
    ∃ t, shiftVal f s = .ok () t ∧ t.Shows d ∧ t.w.low = s.w.low ∧ t.w.high = s.w.high ∧
      t.unvalued = s.unvalued := by
  obtain ⟨t, h1, h2, h3, h4⟩ := getBitOrZero_ok hs.parses
  have h0 : s.unread.getD 0 false = c.getD 31 false := hs.ahead 0
  have hvt : t.w.val = s.w.val := by
    have := congrArg (fun x : State => x.w.val) h4
    exact this
  have hlt : t.w.low = s.w.low := by
    have := congrArg (fun x : State => x.w.low) h4
    exact this
  have hht : t.w.high = s.w.high := by
    have := congrArg (fun x : State => x.w.high) h4
    exact this
  refine ⟨t.setW { t.w with val := BitVec.ofNat 31 (f t.w.val.toNat +
    (if s.unread.getD 0 false then 1 else 0)) }, ?_, ⟨?_, fun i => ?_, ⟨h3.honest, h3.sound, h3.held⟩⟩, hlt, hht, ?_⟩
  · unfold shiftVal
    rw [Run.bind_ok h1]
    rfl
  · show (BitVec.ofNat 31 _).toNat = _
    have := window_lt 31 d
    rw [hvt, hs.val, h0, hv, BitVec.toNat_ofNat, Nat.mod_eq_of_lt this]
  · show t.unread.getD i false = _
    rw [h2 i, hs.ahead (i + 1), show 31 + i = 30 + (i + 1) by omega, hd (i + 1)]
  · exact (State.unvalued_of_unparsed h4 : t.unvalued = _)

/-- The interval without its deferred bits. -/
theorem renorm_pend : ∀ (n l h p : Nat), (Interval.renorm n ⟨l, h, p⟩).2.low = (Interval.renorm n ⟨l, h, 0⟩).2.low ∧
    (Interval.renorm n ⟨l, h, p⟩).2.high = (Interval.renorm n ⟨l, h, 0⟩).2.high := by
  intro n
  induction n with
  | zero => intro l h p; exact ⟨rfl, rfl⟩
  | succ n ih =>
    intro l h p
    rw [Interval.renorm, Interval.renorm]
    by_cases h0 : h ≤ Config.half
    · simp only [if_pos h0]; exact ⟨trivial, trivial⟩
    · by_cases h1 : Config.half ≤ l
      · simp only [if_neg h0, if_pos h1]; exact ⟨trivial, trivial⟩
      · by_cases h2 : Config.quarter ≤ l ∧ h ≤ Config.threeQuarters
        · simp only [if_neg h0, if_neg h1, if_pos h2]
          have a := ih (2 * (l - Config.quarter)) (2 * (h - Config.quarter)) (p + 1)
          have b := ih (2 * (l - Config.quarter)) (2 * (h - Config.quarter)) (0 + 1)
          exact ⟨a.1.trans b.1.symm, a.2.trans b.2.symm⟩
        · simp only [if_neg h0, if_neg h1, if_neg h2]; exact ⟨trivial, trivial⟩

/-- `DecRenorm()` (R322) follows the encoder's: the window shows what the encoder gives from the new interval. -/
theorem decRenorm_ok {k : Interval → Bits} (hk : Defers k) : ∀ (n : Nat) {s : State} {l h : Nat},
    s.w.low.toNat = l → s.w.high.toNat = h → l < h → h ≤ Config.scaleM → Config.scaleM < (h - l) * 2 ^ n →
    s.Shows (Interval.andThen n ⟨l, h, 0⟩ k) →
    ∃ t, decRenorm n s = .ok () t ∧ t.w.low.toNat = (Interval.renorm n ⟨l, h, 0⟩).2.low ∧
      t.w.high.toNat = (Interval.renorm n ⟨l, h, 0⟩).2.high ∧
      t.Shows (k ⟨(Interval.renorm n ⟨l, h, 0⟩).2.low, (Interval.renorm n ⟨l, h, 0⟩).2.high, 0⟩) ∧
      t.unvalued = s.unvalued := by
  have hM : Config.scaleM = 2147483648 := rfl
  have hH : Config.half = 1073741824 := rfl
  have hQ : Config.quarter = 536870912 := rfl
  have hT : Config.threeQuarters = 1610612736 := rfl
  intro n
  induction n with
  | zero => intro s l h _ _ hl ht hw; rw [Nat.pow_zero, Nat.mul_one] at hw; omega
  | succ n ih =>
    intro s l h hlo hhi hl ht hw hs
    have hw' : Config.scaleM < (2 * (h - l)) * 2 ^ n := by
      rw [Nat.pow_succ] at hw
      calc _ < (h - l) * (2 ^ n * 2) := hw
        _ = _ := by ring
    -- one pass: the rescaled state shows `d`
    have pass : ∀ (r : Renorm) (a b : Nat) (d : Bits), s.w.renorm = r → r ≠ .done → r.map l = a → r.map h = b →
        a < b → b ≤ Config.scaleM → b - a = 2 * (h - l) → d = Interval.andThen n ⟨a, b, 0⟩ k →
        (∀ i, d.getD (30 + i) false = (Interval.andThen (n + 1) ⟨l, h, 0⟩ k).getD (31 + i) false) →
        r.map (window 31 (Interval.andThen (n + 1) ⟨l, h, 0⟩ k)) +
          (if (Interval.andThen (n + 1) ⟨l, h, 0⟩ k).getD 31 false then 1 else 0) = window 31 d →
        ∃ t, decRenorm (n + 1) s = .ok () t ∧ t.w.low.toNat = (Interval.renorm n ⟨a, b, 0⟩).2.low ∧
          t.w.high.toNat = (Interval.renorm n ⟨a, b, 0⟩).2.high ∧
          t.Shows (k ⟨(Interval.renorm n ⟨a, b, 0⟩).2.low, (Interval.renorm n ⟨a, b, 0⟩).2.high, 0⟩) ∧
          t.unvalued = s.unvalued := by
      intro r a b d hr hnd ha hb hab hbM hwid hd hd1 hd2
      have hat := setInterval_at (s := s) (a := a) (b := b) (p := _) (by omega) (by omega) rfl
      have hresc : s.setW (s.w.rescale r) = s.setW (s.w.setInterval a b) := by
        unfold Working.rescale
        rw [hlo, hhi, ha, hb]
      obtain ⟨t, h1, h2, h3, h4, h5⟩ := shiftVal_ok (s := s.setW (s.w.setInterval a b)) (f := r.map) (d := d)
        ⟨hs.val, hs.ahead, ⟨hs.parses.honest, hs.parses.sound, hs.parses.held⟩⟩ hd1 hd2
      obtain ⟨u, g1, g2, g3, g4, g5⟩ := ih (s := t) (l := a) (h := b) (by rw [h3]; exact hat.low)
        (by rw [h4]; exact hat.high) hab hbM (by rw [hwid]; exact hw') (by rw [← hd]; exact h2)
      refine ⟨u, ?_, g2, g3, g4, g5.trans h5⟩
      rw [decRenorm, Run.read_bind, hr, if_neg hnd, setW_bind, hresc, Run.bind_ok h1]
      exact g1
    have hgetD : ∀ (b : Bool) (c : Bits) (i : Nat), (b :: c).getD (31 + i) false = c.getD (30 + i) false := by
      intro b c i; rw [show 31 + i = (30 + i) + 1 by omega]; rfl
    rw [Interval.renorm]
    by_cases h0 : h ≤ Config.half
    · have hcode := Interval.andThen_lower (n := n) (x := ⟨l, h, 0⟩) k h0
      simp only [if_pos h0]
      refine pass .lower (2 * l) (2 * h) _ (renorm_lower hlo hhi h0) (by simp) rfl rfl (by omega) (by omega) (by omega) rfl
        (fun i => ?_) ?_
      · rw [hcode]; exact (hgetD _ _ i).symm
      · rw [hcode]
        show 2 * window (30 + 1) (false :: _) + (if (false :: _).getD (30 + 1) false then 1 else 0) = window (30 + 1) _
        rw [window_cons, window_succ 30]
        simp
    · by_cases h1 : Config.half ≤ l
      · have hcode := Interval.andThen_upper (n := n) (x := ⟨l, h, 0⟩) k h0 h1
        simp only [if_neg h0, if_pos h1]
        refine pass .upper (2 * l - Config.scaleM) (2 * h - Config.scaleM) _ (renorm_upper hlo hhi h0 h1) (by simp) rfl rfl
          (by omega) (by omega) (by omega) rfl (fun i => ?_) ?_
        · rw [hcode]; exact (hgetD _ _ i).symm
        · rw [hcode]
          generalize hD : Interval.andThen n ⟨2 * l - Config.scaleM, 2 * h - Config.scaleM, 0⟩ k = D
          show 2 * window (30 + 1) (true :: D) - Config.scaleM + (if (true :: D).getD (30 + 1) false then 1 else 0) =
            window (30 + 1) D
          rw [window_cons, window_succ 30]
          simp only [if_true, List.getD_cons_succ]
          omega
      · by_cases h2 : Config.quarter ≤ l ∧ h ≤ Config.threeQuarters
        · have hcode := Interval.andThen_middle (n := n) (x := ⟨l, h, 0⟩) k h0 h1 h2
          simp only [if_neg h0, if_neg h1, if_pos h2]
          obtain ⟨b, rest, hb⟩ := Interval.andThen_defers hk n (2 * (l - Config.quarter)) (2 * (h - Config.quarter))
          have hb0 : Interval.andThen n ⟨2 * (l - Config.quarter), 2 * (h - Config.quarter), 0⟩ k = b :: rest := by
            have := hb 0; simpa using this
          have hb1 : Interval.andThen (n + 1) ⟨l, h, 0⟩ k = b :: (!b) :: rest := by
            rw [hcode]; have := hb 1; simpa using this
          have hp := renorm_pend n (2 * (l - Config.quarter)) (2 * (h - Config.quarter)) (0 + 1)
          rw [hp.1, hp.2]
          refine pass .middle (2 * (l - Config.quarter)) (2 * (h - Config.quarter)) (b :: rest)
            (renorm_middle hlo hhi h0 h1 h2) (by simp) rfl rfl (by omega) (by omega) (by omega) hb0.symm (fun i => ?_) ?_
          · rw [hb1, hgetD]
            rw [show 30 + i = (29 + i) + 1 by omega]; rfl
          · rw [hb1]
            show 2 * (window (29 + 1 + 1) (b :: (!b) :: rest) - Config.quarter) +
              (if (b :: (!b) :: rest).getD (29 + 1 + 1) false then 1 else 0) = window (30 + 1) (b :: rest)
            rw [window_cons, window_cons, window_cons, window_succ 29, hQ]
            simp only [List.getD_cons_succ]
            cases b <;> simp only [Bool.false_eq_true, if_false, if_true, Bool.not_false, Bool.not_true] <;> omega
        · simp only [if_neg h0, if_neg h1, if_neg h2]
          refine ⟨s, ?_, hlo, hhi, ?_, rfl⟩
          · rw [decRenorm, Run.read_bind, renorm_done hlo hhi h0 h1 h2, if_pos rfl]
            rfl
          · rwa [Interval.andThen_done k h0 h1 h2] at hs

/-- `ArithFind()` (R320) on a table that tiles: the entry whose sub-interval the window lies in. -/
theorem arithFind_ok {s : State} {e : RangeEntry} (hmem : e ∈ s.rangeList)
    (hp : s.rangeList.Pairwise (fun x y => x.cumHi.toNat ≤ y.cumLo.toNat))
    (h1 : s.w.entryLow e ≤ s.w.val.toNat) (h2 : s.w.val.toNat < s.w.entryHigh e) :
    arithFind s = .ok e s := by
  have hfind : s.rangeList.find? (fun e => decide (s.w.entryLow e ≤ s.w.val.toNat) &&
      decide (s.w.val.toNat < s.w.entryHigh e)) = some e := by
    have key : ∀ l : List RangeEntry, l.Pairwise (fun x y => x.cumHi.toNat ≤ y.cumLo.toNat) → e ∈ l →
        l.find? (fun e => decide (s.w.entryLow e ≤ s.w.val.toNat) && decide (s.w.val.toNat < s.w.entryHigh e)) =
          some e := by
      intro l
      induction l with
      | nil => intro _ h; cases h
      | cons x l ih =>
        intro hp hm
        rw [List.pairwise_cons] at hp
        rw [List.find?_cons]
        rcases List.mem_cons.1 hm with rfl | hm
        · rw [decide_eq_true h1, decide_eq_true h2]; rfl
        · have hle : s.w.entryHigh x ≤ s.w.entryLow e := subBound_mono (hp.1 e hm)
          rw [decide_eq_false (show ¬s.w.val.toNat < s.w.entryHigh x by omega), Bool.and_false]
          exact ih hp.2 hm
    exact key _ hp hmem
  unfold arithFind
  rw [Run.read_bind, hfind]
  rfl

end Sys2Proof.Machine
end

