-- ==== Sys2Proof/Laws/Trees.lean ====
section
/-! SUPPORT. The code-tree engine on trees that the arena holds: `TREE.FROMSCHEME` walks codewords in, `TREE.TRUNC`
takes one-child nodes out, `TREE.DERIVE` reads the paths off. -/

namespace Sys2Proof.Machine

/-! ### Reads after writes -/

theorem TreeMem.node_setNode (t : TreeMem) (n : Nat) (e : TreeNode) (k : Nat) :
    (t.setNode n e).node k = if k = n then e else t.node k := treeGet_treeSet t.tree n k e

@[simp] theorem TreeMem.setNode_scheme (t : TreeMem) (n : Nat) (e : TreeNode) :
    (t.setNode n e).scheme = t.scheme := rfl
@[simp] theorem TreeMem.setNode_nnodes (t : TreeMem) (n : Nat) (e : TreeNode) :
    (t.setNode n e).nnodes = t.nnodes := rfl
@[simp] theorem TreeMem.setNode_root (t : TreeMem) (n : Nat) (e : TreeNode) :
    (t.setNode n e).root = t.root := rfl
@[simp] theorem TreeMem.setCode_tree (t : TreeMem) (s : Nat) (c : Bits) : (t.setCode s c).tree = t.tree := rfl
@[simp] theorem TreeMem.setCode_nnodes (t : TreeMem) (s : Nat) (c : Bits) :
    (t.setCode s c).nnodes = t.nnodes := rfl
@[simp] theorem TreeMem.setCode_root (t : TreeMem) (s : Nat) (c : Bits) : (t.setCode s c).root = t.root := rfl
@[simp] theorem TreeMem.setCode_node (t : TreeMem) (s : Nat) (c : Bits) (n : Nat) :
    (t.setCode s c).node n = t.node n := rfl
@[simp] theorem TreeMem.clearScheme_node (t : TreeMem) (n : Nat) : t.clearScheme.node n = t.node n := rfl
@[simp] theorem TreeMem.clearScheme_code (t : TreeMem) (s : Nat) : t.clearScheme.code s = none := rfl

theorem TreeMem.code_setCode (t : TreeMem) (s : Nat) (c : Bits) (k : Nat) :
    (t.setCode s c).code k = if k = s then some c else t.code k := schemeGet_schemeSet t.scheme s k (some c)

/-- Where the tree's slots read the same, the tree is the same. -/
theorem TreeMem.Holds.congr {t u : TreeMem} : ∀ {sh : Shape} {i : Nat}, t.Holds sh i →
    (∀ j ∈ t.slots sh i, u.node j = t.node j) → u.Holds sh i ∧ u.slots sh i = t.slots sh i := by
  intro sh
  induction sh with
  | dead => intro i h hu; exact ⟨(hu i (by simp [TreeMem.slots])).trans h, rfl⟩
  | leaf s =>
    intro i h hu
    refine ⟨?_, rfl⟩
    show (u.node i).sym = some s
    rw [hu i (by simp [TreeMem.slots])]
    exact h
  | left l ih =>
    intro i h hu
    obtain ⟨j, hn, hj⟩ := h
    have hi := hu i (by simp [TreeMem.slots])
    have := ih hj fun k hk => hu k (by rw [TreeMem.slots, hn]; exact List.mem_cons_of_mem _ hk)
    exact ⟨⟨j, hi.trans hn, this.1⟩, by rw [TreeMem.slots, TreeMem.slots, hi, hn]; exact congrArg (i :: ·) this.2⟩
  | right r ih =>
    intro i h hu
    obtain ⟨j, hn, hj⟩ := h
    have hi := hu i (by simp [TreeMem.slots])
    have := ih hj fun k hk => hu k (by rw [TreeMem.slots, hn]; exact List.mem_cons_of_mem _ hk)
    exact ⟨⟨j, hi.trans hn, this.1⟩, by rw [TreeMem.slots, TreeMem.slots, hi, hn]; exact congrArg (i :: ·) this.2⟩
  | both l r ihl ihr =>
    intro i h hu
    obtain ⟨j, k, hn, hj, hk⟩ := h
    have hi := hu i (by simp [TreeMem.slots])
    have h1 := ihl hj fun m hm => hu m (by
      rw [TreeMem.slots, hn]; exact List.mem_cons_of_mem _ (List.mem_append_left _ hm))
    have h2 := ihr hk fun m hm => hu m (by
      rw [TreeMem.slots, hn]; exact List.mem_cons_of_mem _ (List.mem_append_right _ hm))
    refine ⟨⟨j, k, hi.trans hn, h1.1, h2.1⟩, ?_⟩
    rw [TreeMem.slots, TreeMem.slots, hi, hn]
    show i :: (u.slots l j ++ u.slots r k) = i :: (t.slots l j ++ t.slots r k)
    rw [h1.2, h2.2]

/-! ### `TREE.DERIVE` -/

/-- `visit(i, p)` on a slot that holds a tree (R154): the leaves' paths, one after the other. -/
theorem visit_ok : ∀ (sh : Shape) (n : Nat) {t : TreeMem} {i : Nat} (p : Bits), t.Holds sh i → sh.depth ≤ n →
    visit n (some i) p t = .ok () ((sh.pathsFrom p).foldl (fun t e => t.setCode e.1.toNat e.2) t) := by
  have htree : ∀ (l : List (Byte × Bits)) (t : TreeMem),
      (l.foldl (fun t e => t.setCode e.1.toNat e.2) t).tree = t.tree := by
    intro l
    induction l with
    | nil => intro t; rfl
    | cons e l ih => intro t; rw [List.foldl_cons, ih]; rfl
  have hnode : ∀ (l : List (Byte × Bits)) (t : TreeMem) (k : Nat),
      (l.foldl (fun t e => t.setCode e.1.toNat e.2) t).node k = t.node k := fun l t k => by
    rw [TreeMem.node, htree]; rfl
  have hnil : ∀ (n : Nat) (p : Bits) (t : TreeMem), visit n none p t = .ok () t := by
    intro n p t; cases n <;> rfl
  intro sh
  induction sh with
  | dead =>
    intro n t i p h hd
    cases n with
    | zero => simp [Shape.depth] at hd
    | succ n =>
      have h' : t.node i = TreeNode.empty := h
      rw [visit, Run.read_bind, h']
      show (visit n none (p ++ [false]) >>= _) t = _
      rw [Run.bind_ok (hnil _ _ _)]
      exact hnil _ _ _
  | leaf s =>
    intro n t i p h hd
    cases n with
    | zero => simp [Shape.depth] at hd
    | succ n =>
      have h' : (t.node i).sym = some s := h
      rw [visit, Run.read_bind, h']
      rfl
  | left l ih =>
    intro n t i p h hd
    cases n with
    | zero => simp [Shape.depth] at hd
    | succ n =>
      obtain ⟨j, hn, hj⟩ := h
      rw [visit, Run.read_bind, hn]
      show (visit n (some j) (p ++ [false]) >>= _) t = _
      rw [Run.bind_ok (ih n (p ++ [false]) hj (by simp [Shape.depth] at hd; omega))]
      exact hnil _ _ _
  | right r ih =>
    intro n t i p h hd
    cases n with
    | zero => simp [Shape.depth] at hd
    | succ n =>
      obtain ⟨j, hn, hj⟩ := h
      rw [visit, Run.read_bind, hn]
      show (visit n none (p ++ [false]) >>= _) t = _
      rw [Run.bind_ok (hnil _ _ _)]
      exact ih n (p ++ [true]) hj (by simp [Shape.depth] at hd; omega)
  | both l r ihl ihr =>
    intro n t i p h hd
    cases n with
    | zero => simp [Shape.depth] at hd
    | succ n =>
      obtain ⟨j, k, hn, hj, hk⟩ := h
      rw [visit, Run.read_bind, hn]
      show (visit n (some j) (p ++ [false]) >>= _) t = _
      have hd' : l.depth ≤ n ∧ r.depth ≤ n := by simp only [Shape.depth] at hd; omega
      rw [Run.bind_ok (ihl n (p ++ [false]) hj hd'.1)]
      have := ihr n (p ++ [true]) (TreeMem.Holds.congr hk
        (u := (l.pathsFrom (p ++ [false])).foldl (fun t e => t.setCode e.1.toNat e.2) t)
        fun m _ => hnode _ _ _).1 hd'.2
      rw [Shape.pathsFrom, List.foldl_append]
      exact this

/-- Codewords written one after the other: a symbol reads as the last written for it. -/
theorem foldl_setCode_code (l : List (Byte × Bits)) : ∀ (t : TreeMem) (b : Byte),
    (l.foldl (fun t e => t.setCode e.1.toNat e.2) t).code b.toNat =
      (codeIn l.reverse b).or (t.code b.toNat) := by
  induction l using List.reverseRecOn with
  | nil => intro t b; rfl
  | append_singleton l e ih =>
    intro t b
    rw [List.foldl_append, List.foldl_cons, List.foldl_nil, TreeMem.code_setCode, List.reverse_append,
      List.reverse_singleton, List.singleton_append, codeIn, List.find?_cons]
    by_cases h : e.1 = b
    · subst h; simp
    · rw [if_neg (fun h' => h (BitVec.eq_of_toNat_eq h'.symm)), ih]
      rw [show (e.1 == b) = false from beq_eq_false_iff_ne.2 h]
      rfl

/-- In a list without a symbol twice, reading from the back changes nothing. -/
theorem codeIn_reverse {l : List (Byte × Bits)} (h : (l.map Prod.fst).Nodup) (b : Byte) :
    codeIn l.reverse b = codeIn l b := by
  have key : ∀ {l : List (Byte × Bits)}, (l.map Prod.fst).Nodup → ∀ c,
      codeIn l b = some c ↔ (b, c) ∈ l := by
    intro l
    induction l with
    | nil => intro _ c; simp [codeIn]
    | cons e l ih =>
      intro hn c
      rw [List.map_cons, List.nodup_cons] at hn
      rw [codeIn, List.find?_cons]
      by_cases he : e.1 = b
      · subst he
        simp only [beq_self_eq_true, Option.map_some, Option.some.injEq, List.mem_cons]
        constructor
        · rintro rfl; exact .inl rfl
        · rintro (h | h)
          · rw [← h]
          · exact absurd (List.mem_map_of_mem h) hn.1
      · rw [show (e.1 == b) = false from beq_eq_false_iff_ne.2 he]
        show codeIn l b = some c ↔ _
        rw [ih hn.2, List.mem_cons]
        constructor
        · exact .inr
        · rintro (h | h)
          · rw [← h] at he; exact absurd rfl he
          · exact h
  have hr : (l.reverse.map Prod.fst).Nodup := by
    rw [List.map_reverse]; exact List.nodup_reverse.2 h
  apply Option.ext
  intro c
  rw [key hr c, key h c, List.mem_reverse]

/-- The symbols of a tree's paths are its symbols. -/
theorem Shape.paths_symbols (sh : Shape) : ∀ p, (sh.pathsFrom p).map Prod.fst = sh.symbols := by
  induction sh with
  | dead => intro p; rfl
  | leaf s => intro p; rfl
  | left l ih => intro p; exact ih _
  | right r ih => intro p; exact ih _
  | both l r ihl ihr => intro p; rw [Shape.pathsFrom, List.map_append, ihl, ihr]; rfl

/-! ### `TREE.TRUNC` -/

/-- `resolve(i)` on a slot that holds a tree (R152): the tree without its one-child nodes.  It writes the two-child
nodes of the tree and no other slot, and what it reaches is of the tree and none of the one-child nodes. -/
theorem resolve_ok : ∀ (sh : Shape) (n : Nat) {t : TreeMem} {i : Nat}, t.Holds sh i → (t.slots sh i).Nodup →
    sh.depth ≤ n → ∃ j u, resolve n i t = .ok j u ∧ u.Holds sh.trunc j ∧
      (u.scheme = t.scheme ∧ u.nnodes = t.nnodes ∧ u.root = t.root) ∧
      (∀ k, (k ∈ t.slots sh i → (t.node k).binary = false) → u.node k = t.node k) ∧
      (∀ k ∈ u.slots sh.trunc j, k ∈ t.slots sh i ∧ (t.node k).unary = false) := by
  intro sh
  induction sh with
  | dead =>
    intro n t i h _ hd
    cases n with
    | zero => simp [Shape.depth] at hd
    | succ n =>
      have h' : t.node i = TreeNode.empty := h
      refine ⟨i, t, ?_, h, ⟨rfl, rfl, rfl⟩, fun _ _ => rfl, fun k hk =>
        ⟨hk, by rw [List.mem_singleton.1 hk, h']; rfl⟩⟩
      rw [resolve, Run.read_bind, h']
      rfl
  | leaf s =>
    intro n t i h _ hd
    cases n with
    | zero => simp [Shape.depth] at hd
    | succ n =>
      have h' : (t.node i).sym = some s := h
      refine ⟨i, t, ?_, h, ⟨rfl, rfl, rfl⟩, fun _ _ => rfl, fun k hk =>
        ⟨hk, by rw [List.mem_singleton.1 hk, TreeNode.unary, h']; rfl⟩⟩
      rw [resolve, Run.read_bind, h']
      rfl
  | left l ih =>
    intro n t i h hnd hd
    cases n with
    | zero => simp [Shape.depth] at hd
    | succ n =>
      obtain ⟨j, hn, hj⟩ := h
      have hsl : t.slots (.left l) i = i :: t.slots l j := by rw [TreeMem.slots, hn]; rfl
      rw [hsl] at hnd ⊢
      obtain ⟨j', u, h1, h2, h3, h4, h5⟩ := ih n hj (List.nodup_cons.1 hnd).2
        (by simp [Shape.depth] at hd; omega)
      refine ⟨j', u, ?_, h2, h3, fun k hk => h4 k fun h => hk (List.mem_cons_of_mem _ h),
        fun k hk => ⟨List.mem_cons_of_mem _ (h5 k hk).1, (h5 k hk).2⟩⟩
      rw [resolve, Run.read_bind, hn]
      exact h1
  | right r ih =>
    intro n t i h hnd hd
    cases n with
    | zero => simp [Shape.depth] at hd
    | succ n =>
      obtain ⟨j, hn, hj⟩ := h
      have hsl : t.slots (.right r) i = i :: t.slots r j := by rw [TreeMem.slots, hn]; rfl
      rw [hsl] at hnd ⊢
      obtain ⟨j', u, h1, h2, h3, h4, h5⟩ := ih n hj (List.nodup_cons.1 hnd).2
        (by simp [Shape.depth] at hd; omega)
      refine ⟨j', u, ?_, h2, h3, fun k hk => h4 k fun h => hk (List.mem_cons_of_mem _ h),
        fun k hk => ⟨List.mem_cons_of_mem _ (h5 k hk).1, (h5 k hk).2⟩⟩
      rw [resolve, Run.read_bind, hn]
      exact h1
  | both l r ihl ihr =>
    intro n t i h hnd hd
    cases n with
    | zero => simp [Shape.depth] at hd
    | succ n =>
      obtain ⟨j, k, hn, hj, hk⟩ := h
      have hsl : t.slots (.both l r) i = i :: (t.slots l j ++ t.slots r k) := by rw [TreeMem.slots, hn]; rfl
      rw [hsl] at hnd ⊢
      rw [List.nodup_cons, List.nodup_append] at hnd
      obtain ⟨hi, hndl, hndr, hdis⟩ := hnd
      have hil : i ∉ t.slots l j := fun h => hi (List.mem_append_left _ h)
      have hir : i ∉ t.slots r k := fun h => hi (List.mem_append_right _ h)
      have hd' : l.depth ≤ n ∧ r.depth ≤ n := by simp only [Shape.depth] at hd; omega
      obtain ⟨l', u, h1, h2, h3, h4, h5⟩ := ihl n hj hndl hd'.1
      have hui : u.node i = ⟨none, some j, some k⟩ := (h4 i fun h => absurd h hil).trans hn
      let u1 := u.setNode i ⟨none, some l', some k⟩
      have hu1 : ∀ m, m ≠ i → u1.node m = u.node m := fun m hm => by
        rw [TreeMem.node_setNode, if_neg hm]
      have hr1 : ∀ m ∈ t.slots r k, u1.node m = t.node m := fun m hm => by
        rw [hu1 m fun h => hir (h ▸ hm), h4 m fun h => absurd rfl (hdis m h m hm)]
      obtain ⟨hk1, hs1⟩ := TreeMem.Holds.congr hk hr1
      obtain ⟨r', v, h6, h7, h8, h9, h10⟩ := ihr n hk1 (by rw [hs1]; exact hndr) hd'.2
      rw [hs1] at h9 h10
      have hvi : v.node i = ⟨none, some l', some k⟩ := by
        rw [h9 i fun h => absurd h hir, TreeMem.node_setNode, if_pos rfl]
      let v1 := v.setNode i ⟨none, some l', some r'⟩
      have hv1 : ∀ m, m ≠ i → v1.node m = v.node m := fun m hm => by
        rw [TreeMem.node_setNode, if_neg hm]
      have hl2 : ∀ m ∈ u.slots l.trunc l', v1.node m = u.node m := fun m hm => by
        have hml := (h5 m hm).1
        have hmi : m ≠ i := fun h => hil (h ▸ hml)
        rw [hv1 m hmi, h9 m fun h => absurd rfl (hdis m hml m h), hu1 m hmi]
      have hr2 : ∀ m ∈ v.slots r.trunc r', v1.node m = v.node m := fun m hm =>
        hv1 m fun h => hir (h ▸ (h10 m hm).1)
      obtain ⟨hl3, hl4⟩ := TreeMem.Holds.congr h2 hl2
      obtain ⟨hr3, hr4⟩ := TreeMem.Holds.congr h7 hr2
      have hv1i : v1.node i = ⟨none, some l', some r'⟩ := by rw [TreeMem.node_setNode, if_pos rfl]
      refine ⟨i, v1, ?_, ⟨l', r', hv1i, hl3, hr3⟩, ?_, ?_, ?_⟩
      · rw [resolve, Run.read_bind, hn]
        show (resolve n j >>= _) t = _
        rw [Run.bind_ok h1, Run.update_bind]
        show (resolve n k >>= _) (u.setNode i { u.node i with left := some l' }) = _
        rw [hui, Run.bind_ok h6, Run.update_bind]
        show EStateM.Result.ok i (v.setNode i { v.node i with right := some r' }) = _
        rw [hvi]
      · exact ⟨h8.1.trans h3.1, h8.2.1.trans h3.2.1, h8.2.2.trans h3.2.2⟩
      · intro m hm
        have hmi : m ≠ i := fun h => by
          have hb := hm (h ▸ List.mem_cons_self)
          rw [h, hn] at hb
          cases hb
        have hml : u.node m = t.node m := h4 m fun h => hm (List.mem_cons_of_mem _ (List.mem_append_left _ h))
        have hu1m : u1.node m = t.node m := (hu1 m hmi).trans hml
        rw [hv1 m hmi, h9 m fun h => ?_, hu1m]
        rw [hu1m]
        exact hm (List.mem_cons_of_mem _ (List.mem_append_right _ h))
      · intro m hm
        rw [Shape.trunc, TreeMem.slots, hv1i] at hm
        rcases List.mem_cons.1 hm with rfl | hm
        · exact ⟨List.mem_cons_self, by rw [hn]; rfl⟩
        · rcases List.mem_append.1 hm with hm | hm
          · rw [show v1.slots l.trunc ((some l').getD 0) = _ from hl4] at hm
            exact ⟨List.mem_cons_of_mem _ (List.mem_append_left _ (h5 m hm).1), (h5 m hm).2⟩
          · rw [show v1.slots r.trunc ((some r').getD 0) = _ from hr4] at hm
            have h := h10 m hm
            exact ⟨List.mem_cons_of_mem _ (List.mem_append_right _ h.1), by rw [← hr1 m h.1]; exact h.2⟩

end Sys2Proof.Machine
end

