-- ==== Sys2Proof/Laws/Grow.lean ====
section
/-! SUPPORT. `TREE.FROMSCHEME` walks codewords into a growing trie: every node may have a symbol and children. -/

namespace Sys2Proof.Machine

/-- A tree whose nodes may have a symbol and children at once: what `TREE.FROMSCHEME` builds from codewords that need
not be prefix free. -/
inductive Trie where
  | nil
  | node (sym : Option Byte) (l r : Trie)
  deriving DecidableEq, Repr

/-- The lone root. -/
abbrev Trie.lone : Trie := .node none .nil .nil

/-- A codeword walked in. -/
def Trie.graft (sym : Byte) : Bits → Trie → Trie
  | [], .nil => .node (some sym) .nil .nil
  | [], .node _ l r => .node (some sym) l r
  | b :: bs, .nil =>
    if b then .node none .nil (Trie.graft sym bs .nil) else .node none (Trie.graft sym bs .nil) .nil
  | b :: bs, .node s l r =>
    if b then .node s l (Trie.graft sym bs r) else .node s (Trie.graft sym bs l) r

/-- The number of nodes. -/
def Trie.size : Trie → Nat
  | .nil => 0
  | .node _ l r => l.size + r.size + 1

theorem Trie.graft_nil (sym : Byte) (c : Bits) : Trie.graft sym c .nil = Trie.graft sym c .lone := by
  cases c <;> rfl

/-- The tree as the walks see it: below a symbol nothing is seen. -/
def Trie.see : Trie → Shape
  | .nil => .dead
  | .node (some s) _ _ => .leaf s
  | .node none .nil .nil => .dead
  | .node none l .nil => .left l.see
  | .node none .nil r => .right r.see
  | .node none l r => .both l.see r.see

theorem Trie.graft_ne (sym : Byte) (c : Bits) (tr : Trie) : Trie.graft sym c tr ≠ .nil := by
  cases c with
  | nil => cases tr <;> simp [Trie.graft]
  | cons b c => cases tr <;> cases b <;> simp [Trie.graft]

theorem Trie.see_left {l : Trie} (h : l ≠ .nil) : (Trie.node none l .nil).see = .left l.see := by
  cases l with
  | nil => exact absurd rfl h
  | node => rfl

theorem Trie.see_right {r : Trie} (h : r ≠ .nil) : (Trie.node none .nil r).see = .right r.see := by
  cases r with
  | nil => exact absurd rfl h
  | node => rfl

theorem Trie.see_both {l r : Trie} (hl : l ≠ .nil) (hr : r ≠ .nil) :
    (Trie.node none l r).see = .both l.see r.see := by
  cases l with
  | nil => exact absurd rfl hl
  | node =>
    cases r with
    | nil => exact absurd rfl hr
    | node => rfl

theorem Trie.see_graft (sym : Byte) : ∀ (c : Bits) (tr : Trie), (Trie.graft sym c tr).see = tr.see.graft sym c := by
  intro c
  induction c with
  | nil => intro tr; cases tr <;> rfl
  | cons b c ih =>
    intro tr
    have hne := fun tr => Trie.graft_ne sym c tr
    cases tr with
    | nil =>
      cases b
      · show (Trie.node none (Trie.graft sym c .nil) .nil).see = .left (Shape.graft sym c .dead)
        rw [Trie.see_left (hne _), ih]; rfl
      · show (Trie.node none .nil (Trie.graft sym c .nil)).see = .right (Shape.graft sym c .dead)
        rw [Trie.see_right (hne _), ih]; rfl
    | node s l r =>
      cases s with
      | some s => cases b <;> rfl
      | none =>
        by_cases hl : l = .nil
        · subst hl
          by_cases hr : r = .nil
          · subst hr
            cases b
            · show (Trie.node none (Trie.graft sym c .nil) .nil).see = .left (Shape.graft sym c .dead)
              rw [Trie.see_left (hne _), ih]; rfl
            · show (Trie.node none .nil (Trie.graft sym c .nil)).see = .right (Shape.graft sym c .dead)
              rw [Trie.see_right (hne _), ih]; rfl
          · rw [Trie.see_right hr]
            cases b
            · show (Trie.node none (Trie.graft sym c .nil) r).see = .both (Shape.graft sym c .dead) r.see
              rw [Trie.see_both (hne _) hr, ih]; rfl
            · show (Trie.node none .nil (Trie.graft sym c r)).see = .right (Shape.graft sym c r.see)
              rw [Trie.see_right (hne _), ih]
        · by_cases hr : r = .nil
          · subst hr
            rw [Trie.see_left hl]
            cases b
            · show (Trie.node none (Trie.graft sym c l) .nil).see = .left (Shape.graft sym c l.see)
              rw [Trie.see_left (hne _), ih]
            · show (Trie.node none l (Trie.graft sym c .nil)).see = .both l.see (Shape.graft sym c .dead)
              rw [Trie.see_both hl (hne _), ih]; rfl
          · rw [Trie.see_both hl hr]
            cases b
            · show (Trie.node none (Trie.graft sym c l) r).see = .both (Shape.graft sym c l.see) r.see
              rw [Trie.see_both (hne _) hr, ih]
            · show (Trie.node none l (Trie.graft sym c r)).see = .both l.see (Shape.graft sym c r.see)
              rw [Trie.see_both hl (hne _), ih]

/-- A link holds a trie. -/
def TreeMem.HoldsT (t : TreeMem) : Trie → Option Nat → Prop
  | .nil, i => i = none
  | .node s l r, i => ∃ j, i = some j ∧ (t.node j).sym = s ∧
    t.HoldsT l (t.node j).left ∧ t.HoldsT r (t.node j).right

/-- The slots of that trie. -/
def TreeMem.slotsT (t : TreeMem) : Trie → Option Nat → List Nat
  | .nil, _ => []
  | .node _ l r, i =>
    i.getD 0 :: (t.slotsT l (t.node (i.getD 0)).left ++ t.slotsT r (t.node (i.getD 0)).right)

theorem TreeMem.HoldsT.congr {t u : TreeMem} : ∀ {tr : Trie} {i : Option Nat}, t.HoldsT tr i →
    (∀ j ∈ t.slotsT tr i, u.node j = t.node j) → u.HoldsT tr i ∧ u.slotsT tr i = t.slotsT tr i := by
  intro tr
  induction tr with
  | nil => intro i h _; exact ⟨h, rfl⟩
  | node s l r ihl ihr =>
    intro i h hu
    obtain ⟨j, rfl, hs, hl, hr⟩ := h
    have hj : u.node j = t.node j := hu j List.mem_cons_self
    have h1 := ihl hl fun m hm => hu m (List.mem_cons_of_mem _ (List.mem_append_left _ hm))
    have h2 := ihr hr fun m hm => hu m (List.mem_cons_of_mem _ (List.mem_append_right _ hm))
    refine ⟨⟨j, rfl, by rw [hj]; exact hs, by rw [hj]; exact h1.1, by rw [hj]; exact h2.1⟩, ?_⟩
    show j :: (u.slotsT l (u.node j).left ++ u.slotsT r (u.node j).right) =
      j :: (t.slotsT l (t.node j).left ++ t.slotsT r (t.node j).right)
    rw [hj, h1.2, h2.2]

/-- What the walks see of a trie. -/
theorem TreeMem.HoldsT.see {t : TreeMem} : ∀ {tr : Trie} {i : Nat}, t.HoldsT tr (some i) →
    t.Holds tr.see i ∧ (t.slots tr.see i).Sublist (t.slotsT tr (some i)) := by
  intro tr
  induction tr with
  | nil => intro i h; cases h
  | node s l r ihl ihr =>
    intro i h
    obtain ⟨j, hj, hs, hl, hr⟩ := h
    cases hj
    cases s with
    | some s => exact ⟨hs, by simp [Trie.see, TreeMem.slots, TreeMem.slotsT]⟩
    | none =>
      have hnode : t.node i = ⟨none, (t.node i).left, (t.node i).right⟩ := by rw [← hs]
      have hslot : t.slotsT (.node none l r) (some i) =
        i :: (t.slotsT l (t.node i).left ++ t.slotsT r (t.node i).right) := rfl
      rw [hslot]
      by_cases hl0 : l = .nil
      · subst hl0
        have hl' : (t.node i).left = none := hl
        by_cases hr0 : r = .nil
        · subst hr0
          have hr' : (t.node i).right = none := hr
          rw [hl', hr'] at hnode
          exact ⟨hnode, by simp [Trie.see, TreeMem.slots]⟩
        · cases hrr : (t.node i).right with
          | none => rw [hrr] at hr; cases r with
            | nil => exact absurd rfl hr0
            | node => obtain ⟨_, h, _⟩ := hr; cases h
          | some k =>
            rw [hrr] at hr
            have := ihr hr
            rw [Trie.see_right hr0]
            refine ⟨⟨k, by rw [hnode, hl', hrr], this.1⟩, ?_⟩
            rw [TreeMem.slots, hrr]
            exact List.Sublist.cons_cons _ (this.2.trans (List.sublist_append_right _ _))
      · cases hll : (t.node i).left with
        | none => rw [hll] at hl; cases l with
          | nil => exact absurd rfl hl0
          | node => obtain ⟨_, h, _⟩ := hl; cases h
        | some j =>
          rw [hll] at hl
          have h1 := ihl hl
          by_cases hr0 : r = .nil
          · subst hr0
            have hr' : (t.node i).right = none := hr
            rw [Trie.see_left hl0]
            refine ⟨⟨j, by rw [hnode, hll, hr'], h1.1⟩, ?_⟩
            rw [TreeMem.slots, hll]
            exact List.Sublist.cons_cons _ (h1.2.trans (List.sublist_append_left _ _))
          · cases hrr : (t.node i).right with
            | none => rw [hrr] at hr; cases r with
              | nil => exact absurd rfl hr0
              | node => obtain ⟨_, h, _⟩ := hr; cases h
            | some k =>
              rw [hrr] at hr
              have h2 := ihr hr
              rw [Trie.see_both hl0 hr0]
              refine ⟨⟨j, k, by rw [hnode, hll, hrr], h1.1, h2.1⟩, ?_⟩
              rw [TreeMem.slots, hll, hrr]
              exact List.Sublist.cons_cons _ (h1.2.append h2.2)

/-- A trie held in slots of its own, all in use. -/
structure TreeMem.Room (t : TreeMem) (tr : Trie) (i : Nat) : Prop where
  holds : t.HoldsT tr (some i)
  nodup : (t.slotsT tr (some i)).Nodup
  used : ∀ k ∈ t.slotsT tr (some i), k < t.nnodes.toNat

/-- What growing a trie may do: fill its own slots and new ones. -/
structure TreeMem.Grown (t v : TreeMem) (own : List Nat) (most : Nat) : Prop where
  scheme : v.scheme = t.scheme
  root : v.root = t.root
  more : t.nnodes.toNat ≤ v.nnodes.toNat
  most : v.nnodes.toNat ≤ t.nnodes.toNat + most
  other : ∀ k, k < t.nnodes.toNat → k ∉ own → v.node k = t.node k

/-- The symbol written at the end of the path. -/
abbrev TreeMem.plant (u : TreeMem) (e : Nat) (sym : Byte) : TreeMem :=
  u.setNode e { u.node e with sym := some sym }

/-- A path that goes on into a child. -/
theorem growPath_child {sym : Byte} {s : Option Byte} {l r : Trie} {cur c : Nat} {b : Bool} {bs : Bits}
    {t : TreeMem} (h : t.Room (.node s l r) cur) (hc : (t.node cur).child b = some c)
    (hrec : t.Room (if b then r else l) c → ∃ e u, growPath bs c t = .ok e u ∧
      (u.plant e sym).Room (Trie.graft sym bs (if b then r else l)) c ∧
      t.Grown (u.plant e sym) (t.slotsT (if b then r else l) (some c)) bs.length ∧
      (u.nnodes.toNat + (if b then r else l).size =
        t.nnodes.toNat + (Trie.graft sym bs (if b then r else l)).size) ∧
      ∀ k ∈ (u.plant e sym).slotsT (Trie.graft sym bs (if b then r else l)) (some c),
        k ∈ t.slotsT (if b then r else l) (some c) ∨ t.nnodes.toNat ≤ k) :
    ∃ e u, growPath (b :: bs) cur t = .ok e u ∧
      (u.plant e sym).Room (Trie.graft sym (b :: bs) (.node s l r)) cur ∧
      t.Grown (u.plant e sym) (t.slotsT (.node s l r) (some cur)) bs.length ∧
      (u.nnodes.toNat + (Trie.node s l r).size =
        t.nnodes.toNat + (Trie.graft sym (b :: bs) (.node s l r)).size) ∧
      ∀ k ∈ (u.plant e sym).slotsT (Trie.graft sym (b :: bs) (.node s l r)) (some cur),
        k ∈ t.slotsT (.node s l r) (some cur) ∨ t.nnodes.toNat ≤ k := by
  obtain ⟨j, hj, hs, hl, hr⟩ := h.holds
  cases hj
  have hslot : t.slotsT (.node s l r) (some cur) =
    cur :: (t.slotsT l (t.node cur).left ++ t.slotsT r (t.node cur).right) := rfl
  have hnd := h.nodup
  rw [hslot, List.nodup_cons, List.nodup_append] at hnd
  obtain ⟨hcur, hndl, hndr, hdis⟩ := hnd
  have hused := h.used
  rw [hslot] at hused ⊢
  have hcurl : cur ∉ t.slotsT l (t.node cur).left := fun h => hcur (List.mem_append_left _ h)
  have hcurr : cur ∉ t.slotsT r (t.node cur).right := fun h => hcur (List.mem_append_right _ h)
  have hcu := hused cur List.mem_cons_self
  have hul := fun k hk => hused k (List.mem_cons_of_mem _ (List.mem_append_left _ hk))
  have hur := fun k hk => hused k (List.mem_cons_of_mem _ (List.mem_append_right _ hk))
  cases b with
  | false =>
    have hcl : (t.node cur).left = some c := hc
    simp only [Bool.false_eq_true, if_false] at hrec
    rw [hcl] at hl hndl hdis hcurl hul hcur hused ⊢
    obtain ⟨e, u, h1, h2, h3, h5, h4⟩ := hrec ⟨hl, hndl, hul⟩
    have hv : (u.plant e sym).node cur = t.node cur := h3.other cur hcu hcurl
    have hr2 := hr.congr (u := u.plant e sym) fun k hk => h3.other k (hur k hk)
      fun hk' => hdis k hk' k hk rfl
    have hslot2 : (u.plant e sym).slotsT (.node s (Trie.graft sym bs l) r) (some cur) =
        cur :: ((u.plant e sym).slotsT (Trie.graft sym bs l) (some c) ++ t.slotsT r (t.node cur).right) := by
      rw [TreeMem.slotsT, Option.getD_some, hv, hcl, hr2.2]
    refine ⟨e, u, ?_, ⟨⟨cur, rfl, by rw [hv]; exact hs, ?_, ?_⟩, ?_, ?_⟩,
      ⟨h3.scheme, h3.root, h3.more, h3.most, fun k hk hk' => h3.other k hk fun h => hk'
        (List.mem_cons_of_mem _ (List.mem_append_left _ h))⟩, by
        show _ + (l.size + r.size + 1) = _ + ((Trie.graft sym bs l).size + r.size + 1); omega, ?_⟩
    · rw [growPath, Run.read_bind, hc]
      exact h1
    · rw [hv, hcl]; exact h2.holds
    · rw [hv]; exact hr2.1
    · show ((u.plant e sym).slotsT (.node s (Trie.graft sym bs l) r) (some cur)).Nodup
      rw [hslot2, List.nodup_cons, List.nodup_append]
      refine ⟨fun hm => ?_, h2.nodup, hndr, fun k hk m hm hkm => ?_⟩
      · rcases List.mem_append.1 hm with hm | hm
        · rcases h4 cur hm with h | h
          · exact hcurl h
          · omega
        · exact hcurr hm
      · subst hkm
        rcases h4 k hk with h | h
        · exact hdis k h k hm rfl
        · have := hur k hm; omega
    · show ∀ k ∈ (u.plant e sym).slotsT (.node s (Trie.graft sym bs l) r) (some cur), _
      rw [hslot2]
      intro k hk
      have hm := h3.more
      rcases List.mem_cons.1 hk with rfl | hk
      · omega
      · rcases List.mem_append.1 hk with hk | hk
        · exact h2.used k hk
        · have := hur k hk; omega
    · show ∀ k ∈ (u.plant e sym).slotsT (.node s (Trie.graft sym bs l) r) (some cur), _
      rw [hslot2]
      intro k hk
      rcases List.mem_cons.1 hk with rfl | hk
      · exact .inl List.mem_cons_self
      · rcases List.mem_append.1 hk with hk | hk
        · rcases h4 k hk with h | h
          · exact .inl (List.mem_cons_of_mem _ (List.mem_append_left _ h))
          · exact .inr h
        · exact .inl (List.mem_cons_of_mem _ (List.mem_append_right _ hk))
  | true =>
    have hcr : (t.node cur).right = some c := hc
    simp only [if_true] at hrec
    rw [hcr] at hr hndr hdis hcurr hur hcur hused ⊢
    obtain ⟨e, u, h1, h2, h3, h5, h4⟩ := hrec ⟨hr, hndr, hur⟩
    have hv : (u.plant e sym).node cur = t.node cur := h3.other cur hcu hcurr
    have hl2 := hl.congr (u := u.plant e sym) fun k hk => h3.other k (hul k hk)
      fun hk' => hdis k hk k hk' rfl
    have hslot2 : (u.plant e sym).slotsT (.node s l (Trie.graft sym bs r)) (some cur) =
        cur :: (t.slotsT l (t.node cur).left ++ (u.plant e sym).slotsT (Trie.graft sym bs r) (some c)) := by
      rw [TreeMem.slotsT, Option.getD_some, hv, hcr, hl2.2]
    refine ⟨e, u, ?_, ⟨⟨cur, rfl, by rw [hv]; exact hs, ?_, ?_⟩, ?_, ?_⟩,
      ⟨h3.scheme, h3.root, h3.more, h3.most, fun k hk hk' => h3.other k hk fun h => hk'
        (List.mem_cons_of_mem _ (List.mem_append_right _ h))⟩, by
        show _ + (l.size + r.size + 1) = _ + (l.size + (Trie.graft sym bs r).size + 1); omega, ?_⟩
    · rw [growPath, Run.read_bind, hc]
      exact h1
    · rw [hv]; exact hl2.1
    · rw [hv, hcr]; exact h2.holds
    · show ((u.plant e sym).slotsT (.node s l (Trie.graft sym bs r)) (some cur)).Nodup
      rw [hslot2, List.nodup_cons, List.nodup_append]
      refine ⟨fun hm => ?_, hndl, h2.nodup, fun k hk m hm hkm => ?_⟩
      · rcases List.mem_append.1 hm with hm | hm
        · exact hcurl hm
        · rcases h4 cur hm with h | h
          · exact hcurr h
          · omega
      · subst hkm
        rcases h4 k hm with h | h
        · exact hdis k hk k h rfl
        · have := hul k hk; omega
    · show ∀ k ∈ (u.plant e sym).slotsT (.node s l (Trie.graft sym bs r)) (some cur), _
      rw [hslot2]
      intro k hk
      have hm := h3.more
      rcases List.mem_cons.1 hk with rfl | hk
      · omega
      · rcases List.mem_append.1 hk with hk | hk
        · have := hul k hk; omega
        · exact h2.used k hk
    · show ∀ k ∈ (u.plant e sym).slotsT (.node s l (Trie.graft sym bs r)) (some cur), _
      rw [hslot2]
      intro k hk
      rcases List.mem_cons.1 hk with rfl | hk
      · exact .inl List.mem_cons_self
      · rcases List.mem_append.1 hk with hk | hk
        · exact .inl (List.mem_cons_of_mem _ (List.mem_append_left _ hk))
        · rcases h4 k hk with h | h
          · exact .inl (List.mem_cons_of_mem _ (List.mem_append_right _ h))
          · exact .inr h

/-- The state after a new child has been made under `cur`. -/
abbrev TreeMem.addChild (t : TreeMem) (cur : Nat) (b : Bool) : TreeMem :=
  let t1 : TreeMem := { t.setNode t.nnodes.toNat TreeNode.empty with nnodes := t.nnodes + 1 }
  t1.setNode cur ((t1.node cur).setChild b (some t.nnodes.toNat))

/-- A new child: the trie with a lone node on that side. -/
theorem TreeMem.addChild_room {s : Option Byte} {l r : Trie} {cur : Nat} {b : Bool} {t : TreeMem}
    (h : t.Room (.node s l r) cur) (hc : (t.node cur).child b = none) (hcap : t.nnodes.toNat < Config.treeCap) :
    (t.addChild cur b).Room (if b then .node s l .lone else .node s .lone r) cur ∧
      ((t.addChild cur b).node cur).child b = some t.nnodes.toNat ∧
      (if b then r else l) = .nil ∧
      t.Grown (t.addChild cur b) (t.slotsT (.node s l r) (some cur)) 1 ∧
      (t.addChild cur b).nnodes.toNat = t.nnodes.toNat + 1 ∧
      ∀ k ∈ (t.addChild cur b).slotsT (if b then .node s l .lone else .node s .lone r) (some cur),
        k ∈ t.slotsT (.node s l r) (some cur) ∨ t.nnodes.toNat ≤ k := by
  obtain ⟨j, hj, hs, hl, hr⟩ := h.holds
  cases hj
  have hcapv : Config.treeCap = 10241 := rfl
  have hslot : t.slotsT (.node s l r) (some cur) =
    cur :: (t.slotsT l (t.node cur).left ++ t.slotsT r (t.node cur).right) := rfl
  have hnd := h.nodup
  have hused := h.used
  rw [hslot] at hnd hused ⊢
  have hcu := hused cur List.mem_cons_self
  rw [List.nodup_cons, List.nodup_append] at hnd
  obtain ⟨hcur, hndl, hndr, hdis⟩ := hnd
  have hne : cur ≠ t.nnodes.toNat := by omega
  have h1 : ({ t.setNode t.nnodes.toNat TreeNode.empty with nnodes := t.nnodes + 1 } : TreeMem).node cur =
      t.node cur := by
    show (t.setNode t.nnodes.toNat TreeNode.empty).node cur = _
    rw [TreeMem.node_setNode, if_neg hne]
  have hvc : (t.addChild cur b).node cur = (t.node cur).setChild b (some t.nnodes.toNat) := by
    rw [TreeMem.node_setNode, if_pos rfl, h1]
  have hvn : (t.addChild cur b).node t.nnodes.toNat = TreeNode.empty := by
    rw [TreeMem.node_setNode, if_neg hne.symm]
    show (t.setNode t.nnodes.toNat TreeNode.empty).node _ = _
    rw [TreeMem.node_setNode, if_pos rfl]
  have hvo : ∀ k, k ≠ cur → k ≠ t.nnodes.toNat → (t.addChild cur b).node k = t.node k := fun k hk hk' => by
    rw [TreeMem.node_setNode, if_neg hk]
    show (t.setNode t.nnodes.toNat TreeNode.empty).node k = _
    rw [TreeMem.node_setNode, if_neg hk']
  have hnn : (t.addChild cur b).nnodes.toNat = t.nnodes.toNat + 1 := by
    show (t.nnodes + 1).toNat = _
    rw [BitVec.toNat_add, show (1 : BitVec 14).toNat = 1 from rfl]
    omega
  have hlone : (t.addChild cur b).HoldsT .lone (some t.nnodes.toNat) :=
    ⟨_, rfl, by rw [hvn]; rfl, by rw [hvn]; rfl, by rw [hvn]; rfl⟩
  have hgrown : t.Grown (t.addChild cur b)
      (cur :: (t.slotsT l (t.node cur).left ++ t.slotsT r (t.node cur).right)) 1 :=
    ⟨rfl, rfl, by omega, by omega, fun k hk hk' => hvo k (fun h => hk' (by rw [h]; exact List.mem_cons_self))
      (by omega)⟩
  have hcurl : cur ∉ t.slotsT l (t.node cur).left := fun h => hcur (List.mem_append_left _ h)
  have hcurr : cur ∉ t.slotsT r (t.node cur).right := fun h => hcur (List.mem_append_right _ h)
  have hul := fun k hk => hused k (List.mem_cons_of_mem _ (List.mem_append_left _ hk))
  have hur := fun k hk => hused k (List.mem_cons_of_mem _ (List.mem_append_right _ hk))
  cases b with
  | false =>
    have hcl : (t.node cur).left = none := hc
    have hl0 : l = .nil := by
      cases l with
      | nil => rfl
      | node => rw [hcl] at hl; obtain ⟨_, h, _⟩ := hl; cases h
    have hr2 := hr.congr (u := t.addChild cur false) fun k hk => hvo k (fun h => hcurr (h ▸ hk))
      (by have := hur k hk; omega)
    simp only [Bool.false_eq_true, if_false]
    have hslot2 : (t.addChild cur false).slotsT (.node s .lone r) (some cur) =
        cur :: ([t.nnodes.toNat] ++ t.slotsT r (t.node cur).right) := by
      rw [TreeMem.slotsT, Option.getD_some, hvc]
      show cur :: ((t.addChild cur false).slotsT .lone (some t.nnodes.toNat) ++
        (t.addChild cur false).slotsT r (t.node cur).right) = _
      rw [hr2.2]
      rfl
    refine ⟨⟨⟨cur, rfl, by rw [hvc]; exact hs, by rw [hvc]; exact hlone, by rw [hvc]; exact hr2.1⟩, ?_, ?_⟩,
      by rw [hvc]; rfl, hl0, hgrown, hnn, ?_⟩
    · rw [hslot2, List.nodup_cons, List.nodup_append]
      refine ⟨?_, List.nodup_singleton _, hndr, fun k hk m hm hkm => ?_⟩
      · rw [List.mem_append, List.mem_singleton]
        rintro (h | h)
        · exact hne h
        · exact hcurr h
      · rw [List.mem_singleton] at hk
        have := hur m hm
        omega
    · rw [hslot2, hnn]
      intro k hk
      rcases List.mem_cons.1 hk with rfl | hk
      · omega
      · rcases List.mem_append.1 hk with hk | hk
        · rw [List.mem_singleton] at hk; omega
        · have := hur k hk; omega
    · rw [hslot2]
      intro k hk
      rcases List.mem_cons.1 hk with rfl | hk
      · exact .inl List.mem_cons_self
      · rcases List.mem_append.1 hk with hk | hk
        · rw [List.mem_singleton] at hk; exact .inr (by omega)
        · exact .inl (List.mem_cons_of_mem _ (List.mem_append_right _ hk))
  | true =>
    have hcr : (t.node cur).right = none := hc
    have hr0 : r = .nil := by
      cases r with
      | nil => rfl
      | node => rw [hcr] at hr; obtain ⟨_, h, _⟩ := hr; cases h
    have hl2 := hl.congr (u := t.addChild cur true) fun k hk => hvo k (fun h => hcurl (h ▸ hk))
      (by have := hul k hk; omega)
    simp only [if_true]
    have hslot2 : (t.addChild cur true).slotsT (.node s l .lone) (some cur) =
        cur :: (t.slotsT l (t.node cur).left ++ [t.nnodes.toNat]) := by
      rw [TreeMem.slotsT, Option.getD_some, hvc]
      show cur :: ((t.addChild cur true).slotsT l (t.node cur).left ++
        (t.addChild cur true).slotsT .lone (some t.nnodes.toNat)) = _
      rw [hl2.2]
      rfl
    refine ⟨⟨⟨cur, rfl, by rw [hvc]; exact hs, by rw [hvc]; exact hl2.1, by rw [hvc]; exact hlone⟩, ?_, ?_⟩,
      by rw [hvc]; rfl, hr0, hgrown, hnn, ?_⟩
    · rw [hslot2, List.nodup_cons, List.nodup_append]
      refine ⟨?_, hndl, List.nodup_singleton _, fun k hk m hm hkm => ?_⟩
      · rw [List.mem_append, List.mem_singleton]
        rintro (h | h)
        · exact hcurl h
        · exact hne h
      · rw [List.mem_singleton] at hm
        have := hul k hk
        omega
    · rw [hslot2, hnn]
      intro k hk
      rcases List.mem_cons.1 hk with rfl | hk
      · omega
      · rcases List.mem_append.1 hk with hk | hk
        · have := hul k hk; omega
        · rw [List.mem_singleton] at hk; omega
    · rw [hslot2]
      intro k hk
      rcases List.mem_cons.1 hk with rfl | hk
      · exact .inl List.mem_cons_self
      · rcases List.mem_append.1 hk with hk | hk
        · exact .inl (List.mem_cons_of_mem _ (List.mem_append_left _ hk))
        · rw [List.mem_singleton] at hk; exact .inr (by omega)

/-- The inner loop of `TREE.FROMSCHEME` and the symbol at the end of the path (R150). -/
theorem growPath_ok (sym : Byte) : ∀ (c : Bits) {s : Option Byte} {l r : Trie} {cur : Nat} {t : TreeMem},
    t.Room (.node s l r) cur → t.nnodes.toNat + c.length ≤ Config.treeCap →
    ∃ e u, growPath c cur t = .ok e u ∧ (u.plant e sym).Room (Trie.graft sym c (.node s l r)) cur ∧
      t.Grown (u.plant e sym) (t.slotsT (.node s l r) (some cur)) c.length ∧
      (u.nnodes.toNat + (Trie.node s l r).size =
        t.nnodes.toNat + (Trie.graft sym c (.node s l r)).size) ∧
      ∀ k ∈ (u.plant e sym).slotsT (Trie.graft sym c (.node s l r)) (some cur),
        k ∈ t.slotsT (.node s l r) (some cur) ∨ t.nnodes.toNat ≤ k := by
  intro c
  induction c with
  | nil =>
    intro s l r cur t h _
    obtain ⟨j, hj, hs, hl, hr⟩ := h.holds
    cases hj
    have hslot : t.slotsT (.node s l r) (some cur) =
      cur :: (t.slotsT l (t.node cur).left ++ t.slotsT r (t.node cur).right) := rfl
    have hnd := h.nodup
    rw [hslot, List.nodup_cons] at hnd
    have hv : (t.plant cur sym).node cur = { t.node cur with sym := some sym } := by
      rw [TreeMem.node_setNode, if_pos rfl]
    have ho : ∀ k, k ≠ cur → (t.plant cur sym).node k = t.node k := fun k hk => by
      rw [TreeMem.node_setNode, if_neg hk]
    have hl2 := hl.congr (u := t.plant cur sym) fun k hk => ho k fun h => hnd.1
      (by subst h; exact List.mem_append_left _ hk)
    have hr2 := hr.congr (u := t.plant cur sym) fun k hk => ho k fun h => hnd.1
      (by subst h; exact List.mem_append_right _ hk)
    have hslot2 : (t.plant cur sym).slotsT (.node (some sym) l r) (some cur) =
        t.slotsT (.node s l r) (some cur) := by
      rw [hslot, TreeMem.slotsT, Option.getD_some, hv]
      show cur :: ((t.plant cur sym).slotsT l (t.node cur).left ++
        (t.plant cur sym).slotsT r (t.node cur).right) = _
      rw [hl2.2, hr2.2]
    refine ⟨cur, t, rfl, ⟨⟨cur, rfl, by rw [hv], by rw [hv]; exact hl2.1, by rw [hv]; exact hr2.1⟩, ?_, ?_⟩,
      ⟨rfl, rfl, le_rfl, by show t.nnodes.toNat ≤ _; omega, fun k _ hk => ho k fun h => hk (by
        rw [h, hslot]; exact List.mem_cons_self)⟩, rfl, ?_⟩
    · show ((t.plant cur sym).slotsT (.node (some sym) l r) (some cur)).Nodup
      rw [hslot2]; exact h.nodup
    · show ∀ k ∈ (t.plant cur sym).slotsT (.node (some sym) l r) (some cur), _
      rw [hslot2]; exact h.used
    · show ∀ k ∈ (t.plant cur sym).slotsT (.node (some sym) l r) (some cur), _
      rw [hslot2]; exact fun k hk => .inl hk
  | cons b c ih =>
    intro s l r cur t h hcap
    rw [List.length_cons] at hcap
    cases hc : (t.node cur).child b with
    | some d =>
      obtain ⟨e, u, h1, h2, h3, h5, h4⟩ := growPath_child (sym := sym) (bs := c) h hc (fun hroom => by
        cases hside : (if b then r else l) with
        | nil => rw [hside] at hroom; cases hroom.holds
        | node s' l' r' => rw [hside] at hroom; exact ih hroom (by omega))
      exact ⟨e, u, h1, h2, ⟨h3.scheme, h3.root, h3.more, by have := h3.most; rw [List.length_cons]; omega,
        h3.other⟩, h5, h4⟩
    | none =>
      obtain ⟨h1, h2, h3, h4, h5, h6⟩ := TreeMem.addChild_room h hc (by omega)
      have hgrow : growPath (b :: c) cur t = growPath (b :: c) cur (t.addChild cur b) := by
        rw [growPath, Run.read_bind, hc]
        show (Run.read (fun t : TreeMem => t.nnodes.toNat) >>= _) t = _
        rw [Run.read_bind, show decide (t.nnodes.toNat < Config.treeCap) = true from decide_eq_true (by omega)]
        show growPath c t.nnodes.toNat (t.addChild cur b) = _
        conv_rhs => rw [Run.read_bind, h2]
      have hlone : (if b then Trie.lone else Trie.lone) = Trie.lone := by split <;> rfl
      have hside : ∀ (l' r' : Trie), (if b then Trie.node s l Trie.lone else Trie.node s Trie.lone r) =
          Trie.node s l' r' → (if b then r' else l') = Trie.lone := by
        intro l' r' h
        cases b
        · simp only [Bool.false_eq_true, if_false, Trie.node.injEq] at h ⊢; exact h.2.1.symm
        · simp only [if_true, Trie.node.injEq] at h ⊢; exact h.2.2.symm
      obtain ⟨l', r', he⟩ : ∃ l' r', (if b then Trie.node s l Trie.lone else Trie.node s Trie.lone r) =
          Trie.node s l' r' := by cases b <;> exact ⟨_, _, rfl⟩
      rw [he] at h1 h6
      have hsd := hside l' r' he
      obtain ⟨e, u, g1, g2, g3, g5, g4⟩ := growPath_child (sym := sym) (bs := c) h1 h2 (fun hroom => by
        rw [hsd] at hroom ⊢
        exact ih hroom (by omega))
      have hgraft : Trie.graft sym (b :: c) (.node s l' r') = Trie.graft sym (b :: c) (.node s l r) := by
        cases b
        · simp only [Bool.false_eq_true, if_false, Trie.node.injEq] at he h3 ⊢
          obtain ⟨_, rfl, rfl⟩ := he
          subst h3
          show Trie.node s (Trie.graft sym c .lone) r = Trie.node s (Trie.graft sym c .nil) r
          rw [Trie.graft_nil]
        · simp only [if_true, Trie.node.injEq] at he h3 ⊢
          obtain ⟨_, rfl, rfl⟩ := he
          subst h3
          show Trie.node s l (Trie.graft sym c .lone) = Trie.node s l (Trie.graft sym c .nil)
          rw [Trie.graft_nil]
      rw [hgraft] at g2 g4 g5
      have hsize : (Trie.node s l' r').size = (Trie.node s l r).size + 1 := by
        cases b
        · simp only [Bool.false_eq_true, if_false, Trie.node.injEq] at he h3
          obtain ⟨_, rfl, rfl⟩ := he
          subst h3
          simp only [Trie.size]; omega
        · simp only [if_true, Trie.node.injEq] at he h3
          obtain ⟨_, rfl, rfl⟩ := he
          subst h3
          simp only [Trie.size]
      refine ⟨e, u, hgrow.trans g1, g2, ⟨g3.scheme.trans h4.scheme, g3.root.trans h4.root,
        h4.more.trans g3.more, ?_, fun k hk hk' => ?_⟩, by omega, fun k hk => ?_⟩
      · have := g3.most; rw [List.length_cons]; omega
      · rw [g3.other k (by omega) fun hm => by
          rcases h6 k hm with h | h
          · exact hk' h
          · omega]
        exact h4.other k hk hk'
      · rcases g4 k hk with h | h
        · exact h6 k h
        · exact .inr (by omega)

/-- The codewords a scheme gives to a distribution, in its order (R150). -/
def TreeMem.codesOf (t : TreeMem) (dl : List DistEntry) : List (Byte × Bits) :=
  dl.filterMap (fun e => (t.code e.sym.toNat).map (fun c => (e.sym, c)))

theorem Trie.size_graft (sym : Byte) : ∀ (c : Bits) (tr : Trie), tr.size ≤ (Trie.graft sym c tr).size ∧
    (Trie.graft sym c tr).size ≤ tr.size + c.length + (if tr = .nil then 1 else 0) := by
  intro c
  induction c with
  | nil => intro tr; cases tr <;> simp [Trie.graft, Trie.size]
  | cons b c ih =>
    intro tr
    have hnil := ih .nil
    rw [if_pos rfl] at hnil
    cases tr with
    | nil =>
      have h0 : Trie.nil.size = 0 := rfl
      rw [if_pos rfl, List.length_cons]
      cases b
      · show Trie.nil.size ≤ (Trie.graft sym c .nil).size + Trie.nil.size + 1 ∧
          (Trie.graft sym c .nil).size + Trie.nil.size + 1 ≤ _
        omega
      · show Trie.nil.size ≤ Trie.nil.size + (Trie.graft sym c .nil).size + 1 ∧
          Trie.nil.size + (Trie.graft sym c .nil).size + 1 ≤ _
        omega
    | node s l r =>
      rw [if_neg (by simp), List.length_cons]
      cases b
      · have := ih l
        show l.size + r.size + 1 ≤ (Trie.graft sym c l).size + r.size + 1 ∧
          (Trie.graft sym c l).size + r.size + 1 ≤ l.size + r.size + 1 + _ + 0
        split at this <;> omega
      · have := ih r
        show l.size + r.size + 1 ≤ l.size + (Trie.graft sym c r).size + 1 ∧
          l.size + (Trie.graft sym c r).size + 1 ≤ l.size + r.size + 1 + _ + 0
        split at this <;> omega

/-- The codewords walked in, one after the other. -/
abbrev Trie.graftAll (tr : Trie) (codes : List (Byte × Bits)) : Trie :=
  codes.foldl (fun tr c => Trie.graft c.1 c.2 tr) tr

theorem Trie.graftAll_ne {tr : Trie} (h : tr ≠ .nil) (codes : List (Byte × Bits)) : tr.graftAll codes ≠ .nil := by
  induction codes generalizing tr with
  | nil => exact h
  | cons c codes ih => exact ih (Trie.graft_ne _ _ _)

theorem Trie.size_graftAll {tr : Trie} (h : tr ≠ .nil) (codes : List (Byte × Bits)) :
    tr.size ≤ (tr.graftAll codes).size ∧
      (tr.graftAll codes).size ≤ tr.size + (codes.map (fun c => c.2.length)).sum := by
  induction codes generalizing tr with
  | nil => exact ⟨le_rfl, by simp [Trie.graftAll]⟩
  | cons c codes ih =>
    have h1 := Trie.size_graft c.1 c.2 tr
    have h2 := ih (tr := Trie.graft c.1 c.2 tr) (Trie.graft_ne _ _ _)
    rw [if_neg h] at h1
    rw [List.map_cons, List.sum_cons]
    show tr.size ≤ ((Trie.graft c.1 c.2 tr).graftAll codes).size ∧
      ((Trie.graft c.1 c.2 tr).graftAll codes).size ≤ _
    omega

/-- The arena has room for every codeword when its turn comes. -/
abbrev Trie.Fits (tr : Trie) (codes : List (Byte × Bits)) : Prop := ∀ pre c post, codes = pre ++ c :: post →
  (tr.graftAll pre).size + c.2.length ≤ Config.treeCap

/-- `TREE.FROMSCHEME` (R150) where the arena has room: the trie of the codewords, in slots of its own. -/
theorem fromSchemeBlock_ok {t : TreeMem} {dl : List DistEntry} (hcap : Trie.lone.Fits (t.codesOf dl)) :
    ∃ u, fromSchemeBlock dl t = .ok () u ∧ u.Room (Trie.lone.graftAll (t.codesOf dl)) 0 ∧
      u.scheme = t.scheme ∧ u.root = some 0 ∧
      u.nnodes.toNat = (Trie.lone.graftAll (t.codesOf dl)).size := by
  have key : ∀ (dl : List DistEntry) {v : TreeMem} {s : Option Byte} {l r : Trie}, v.scheme = t.scheme →
      v.root = some 0 → v.Room (.node s l r) 0 → (Trie.node s l r).Fits (t.codesOf dl) →
      v.nnodes.toNat = (Trie.node s l r).size → ∃ u, Run.each dl plantSymbol v = .ok () u ∧
        u.Room ((Trie.node s l r).graftAll (t.codesOf dl)) 0 ∧
        u.scheme = t.scheme ∧ u.root = some 0 ∧
        u.nnodes.toNat = ((Trie.node s l r).graftAll (t.codesOf dl)).size := by
    intro dl
    induction dl with
    | nil => intro v s l r hs hr h _ hz; exact ⟨v, rfl, h, hs, hr, hz⟩
    | cons e dl ih =>
      intro v s l r hs hr h hc hz
      have hcode : v.code e.sym.toNat = t.code e.sym.toNat := by rw [TreeMem.code, TreeMem.code, hs]
      cases hct : t.code e.sym.toNat with
      | none =>
        have hcodes : t.codesOf (e :: dl) = t.codesOf dl := by
          rw [TreeMem.codesOf, List.filterMap_cons, hct]; rfl
        rw [hcodes] at hc ⊢
        obtain ⟨u, h2, h3⟩ := ih hs hr h hc hz
        refine ⟨u, ?_, h3⟩
        rw [Run.each_cons, Run.bind_ok (a := ()) (t := v)]
        · exact h2
        · rw [plantSymbol, Run.read_bind, hcode, hct]
          rfl
      | some c =>
        have hcodes : t.codesOf (e :: dl) = (e.sym, c) :: t.codesOf dl := by
          rw [TreeMem.codesOf, List.filterMap_cons, hct]; rfl
        rw [hcodes] at hc ⊢
        have hfit : (Trie.node s l r).size + c.length ≤ Config.treeCap := hc [] (e.sym, c) (t.codesOf dl) rfl
        obtain ⟨d, u, g1, g2, g3, g5, _⟩ := growPath_ok e.sym c h (by omega)
        obtain ⟨s', l', r', he⟩ : ∃ s' l' r', Trie.graft e.sym c (.node s l r) = .node s' l' r' := by
          cases hg : Trie.graft e.sym c (.node s l r) with
          | nil => exact absurd hg (Trie.graft_ne _ _ _)
          | node s' l' r' => exact ⟨s', l', r', rfl⟩
        have hall : (Trie.node s l r).graftAll ((e.sym, c) :: t.codesOf dl) =
            (Trie.node s' l' r').graftAll (t.codesOf dl) := by
          rw [Trie.graftAll, List.foldl_cons, he]
        rw [hall]
        rw [he] at g2 g5
        have hz' : (u.plant d e.sym).nnodes.toNat = (Trie.node s' l' r').size := by
          show u.nnodes.toNat = _
          omega
        have hc' : (Trie.node s' l' r').Fits (t.codesOf dl) := fun pre x post hx => by
          have := hc ((e.sym, c) :: pre) x post (by rw [hx]; rfl)
          rwa [Trie.graftAll, List.foldl_cons, he] at this
        obtain ⟨w, h2, h3⟩ := ih (g3.scheme.trans hs) (g3.root.trans hr) g2 hc' hz'
        refine ⟨w, ?_, h3⟩
        rw [Run.each_cons, Run.bind_ok (a := ()) (t := u.plant d e.sym)]
        · exact h2
        · rw [plantSymbol, Run.read_bind, hcode, hct]
          show (growPath c 0 >>= _) v = _
          rw [Run.bind_ok g1]
          rfl
  let v : TreeMem := { t.setNode 0 TreeNode.empty with nnodes := 1, root := some 0 }
  have hv : v.node 0 = TreeNode.empty := by
    show (t.setNode 0 TreeNode.empty).node 0 = _
    rw [TreeMem.node_setNode, if_pos rfl]
  have hslot : v.slotsT .lone (some 0) = [0] := rfl
  obtain ⟨u, h1, h2⟩ := key dl (v := v) (s := none) (l := .nil) (r := .nil) rfl rfl
    ⟨⟨0, rfl, by rw [hv]; rfl, by rw [hv]; rfl, by rw [hv]; rfl⟩, by rw [hslot]; simp,
      by rw [hslot]; intro k hk; rw [List.mem_singleton] at hk; subst hk; exact Nat.one_pos⟩ hcap rfl
  exact ⟨u, h1, h2⟩

/-- Room for all codewords one behind the other is room enough. -/
theorem Trie.fits_of_sum {codes : List (Byte × Bits)}
    (h : 1 + (codes.map (fun c => c.2.length)).sum ≤ Config.treeCap) : Trie.lone.Fits codes := by
  rintro pre c post rfl
  have := (Trie.size_graftAll (tr := .lone) (by simp) pre).2
  have h0 : Trie.lone.size = 1 := rfl
  rw [List.map_append, List.sum_append, List.map_cons, List.sum_cons] at h
  omega

/-- Room for the whole trie and a codeword more is room enough. -/
theorem Trie.fits_of_size {codes : List (Byte × Bits)} {n : Nat} (hn : ∀ c ∈ codes, c.2.length ≤ n)
    (h : (Trie.lone.graftAll codes).size + n ≤ Config.treeCap) : Trie.lone.Fits codes := by
  rintro pre c post rfl
  have h1 := (Trie.size_graftAll (Trie.graftAll_ne (tr := .lone) (by simp) pre) (c :: post)).1
  have h2 := hn c (by simp)
  rw [Trie.graftAll, List.foldl_append] at h
  show (Trie.lone.graftAll pre).size + _ ≤ _
  have h3 : ((Trie.lone.graftAll pre).graftAll (c :: post)).size + n ≤ Config.treeCap := h
  omega

/-- What the walks see of that trie. -/
theorem see_codes (codes : List (Byte × Bits)) :
    (Trie.lone.graftAll codes).see = Shape.ofCodes codes := by
  have key : ∀ (codes : List (Byte × Bits)) (tr : Trie),
      (codes.foldl (fun tr c => Trie.graft c.1 c.2 tr) tr).see =
        codes.foldl (fun sh c => sh.graft c.1 c.2) tr.see := by
    intro codes
    induction codes with
    | nil => intro tr; rfl
    | cons c codes ih => intro tr; rw [List.foldl_cons, ih, Trie.see_graft]; rfl
  exact key codes _

end Sys2Proof.Machine
end

