-- ==== Sys2Proof/Laws/Builders.lean ====
section
/-! SUPPORT. The builders' blocks and the trees of Safety.lean that they make. -/

namespace Sys2Proof.Machine

/-! ### Truncating and deriving a held tree -/

theorem TreeMem.Holds.depth_le {t : TreeMem} : ∀ {sh : Shape} {i : Nat}, t.Holds sh i →
    sh.depth ≤ (t.slots sh i).length := by
  intro sh
  induction sh with
  | dead => intro i _; exact Nat.le_refl 1
  | leaf s => intro i _; exact Nat.le_refl 1
  | left l ih =>
    intro i h
    obtain ⟨j, hn, hj⟩ := h
    rw [TreeMem.slots, hn, List.length_cons, Shape.depth]
    exact Nat.succ_le_succ (ih hj)
  | right r ih =>
    intro i h
    obtain ⟨j, hn, hj⟩ := h
    rw [TreeMem.slots, hn, List.length_cons, Shape.depth]
    exact Nat.succ_le_succ (ih hj)
  | both l r ihl ihr =>
    intro i h
    obtain ⟨j, k, hn, hj, hk⟩ := h
    rw [TreeMem.slots, hn, List.length_cons, List.length_append, Shape.depth]
    have h1 := ihl hj
    have h2 := ihr hk
    simp only [Option.getD_some]
    omega

/-- A list without repeats of numbers below a bound is no longer than the bound. -/
theorem nodup_length_le {l : List Nat} {n : Nat} (h : l.Nodup) (hl : ∀ k ∈ l, k < n) : l.length ≤ n := by
  have := (List.subperm_of_subset h (fun k hk => List.mem_range.2 (hl k hk))).length_le
  rwa [List.length_range] at this

theorem Shape.trunc_depth (sh : Shape) : sh.trunc.depth ≤ sh.depth := by
  induction sh with
  | dead => exact Nat.le_refl _
  | leaf s => exact Nat.le_refl _
  | left l ih => exact ih.trans (Nat.le_succ _)
  | right r ih => exact ih.trans (Nat.le_succ _)
  | both l r ihl ihr => simp only [Shape.trunc, Shape.depth]; omega

theorem Shape.trunc_symbols (sh : Shape) : sh.trunc.symbols = sh.symbols := by
  induction sh with
  | dead => rfl
  | leaf s => rfl
  | left l ih => exact ih
  | right r ih => exact ih
  | both l r ihl ihr => simp only [Shape.trunc, Shape.symbols, ihl, ihr]

/-- `TREE.TRUNC`'s block on a tree that the memory roots (R152): the truncated tree, and the slots it writes and
reaches. -/
theorem truncBlock_ok {t : TreeMem} {r : Nat} {sh : Shape} (hr : t.root = some r) (hh : t.Holds sh r)
    (hn : (t.slots sh r).Nodup) (hd : sh.depth ≤ depthBound) :
    ∃ u, truncBlock t = .ok () u ∧ u.Roots sh.trunc ∧ u.scheme = t.scheme ∧ u.nnodes = t.nnodes ∧
      (∀ l r', sh = .both l r' → u.root = some r) ∧
      ∃ j, u.root = some j ∧ u.Holds sh.trunc j ∧
        (∀ k, (k ∈ t.slots sh r → (t.node k).binary = false) → u.node k = t.node k) ∧
        (∀ k ∈ u.slots sh.trunc j, k ∈ t.slots sh r ∧ (t.node k).unary = false) := by
  obtain ⟨j, u, h1, h2, h3, h4, h5⟩ := resolve_ok sh depthBound hh hn hd
  have hu := TreeMem.Holds.congr h2 (u := { u with root := some j }) fun _ _ => rfl
  refine ⟨{ u with root := some j }, ?_, ⟨j, rfl, hu.1⟩, h3.1, h3.2.1, ?_, j, rfl, hu.1, h4, ?_⟩
  · rw [truncBlock, Run.read_bind, hr]
    show (resolve depthBound r >>= _) t = _
    rw [Run.bind_ok h1]
    rfl
  · rintro l r' rfl
    have hj : ∃ x, resolve depthBound r t = .ok r x := by
      obtain ⟨a, b, hnode, ha, hb⟩ := hh
      cases hx : resolve depthBound r t with
      | error e x => rw [hx] at h1; cases h1
      | ok y x =>
        refine ⟨x, ?_⟩
        rw [show depthBound = Config.treeCap + 1 from rfl, resolve, Run.read_bind, hnode] at hx
        simp only [Run.bind_apply] at hx
        split at hx
        · split at hx
          · split at hx
            · split at hx
              · cases hx; rfl
              · cases hx
            · cases hx
          · cases hx
        · cases hx
    obtain ⟨x, hx⟩ := hj
    rw [hx] at h1
    cases h1
    rfl
  · rw [hu.2]
    exact h5

/-- `TREE.DERIVE`'s block on a tree that the memory roots (R154). -/
theorem deriveBlock_ok {t : TreeMem} {sh : Shape} (h : t.Roots sh) (hd : sh.depth ≤ depthBound) :
    ∃ u, deriveBlock t = .ok () u ∧ u.tree = t.tree ∧ u.nnodes = t.nnodes ∧ u.root = t.root ∧
      ∀ b : Byte, u.code b.toNat = codeIn sh.paths.reverse b := by
  obtain ⟨r, hr, hh⟩ := h
  have hkeep : ∀ (l : List (Byte × Bits)) (t : TreeMem),
      (l.foldl (fun t e => t.setCode e.1.toNat e.2) t).tree = t.tree ∧
      (l.foldl (fun t e => t.setCode e.1.toNat e.2) t).nnodes = t.nnodes ∧
      (l.foldl (fun t e => t.setCode e.1.toNat e.2) t).root = t.root := by
    intro l
    induction l with
    | nil => intro t; exact ⟨rfl, rfl, rfl⟩
    | cons e l ih =>
      intro t
      rw [List.foldl_cons]
      obtain ⟨h1, h2, h3⟩ := ih (t.setCode e.1.toNat e.2)
      exact ⟨h1, h2, h3⟩
  have hh' : t.clearScheme.Holds sh r := (TreeMem.Holds.congr (u := t.clearScheme) hh fun _ _ => rfl).1
  refine ⟨_, ?_, (hkeep sh.paths t.clearScheme).1, (hkeep sh.paths t.clearScheme).2.1,
    (hkeep sh.paths t.clearScheme).2.2, fun b => ?_⟩
  · show visit depthBound t.root [] t.clearScheme = _
    rw [hr]
    exact visit_ok sh depthBound [] hh' hd
  · rw [foldl_setCode_code, TreeMem.clearScheme_code, Option.or_none]

/-- The same for a tree without a symbol twice: `SCHEME` and `TREE` agree (R155). -/
theorem deriveBlock_agrees {t : TreeMem} {sh : Shape} (h : t.Roots sh) (hd : sh.depth ≤ depthBound)
    (hn : sh.symbols.Nodup) : ∃ u, deriveBlock t = .ok () u ∧ u.tree = t.tree ∧ u.nnodes = t.nnodes ∧
      u.root = t.root ∧ u.Agrees sh := by
  obtain ⟨u, h1, h2, h3, h4, h5⟩ := deriveBlock_ok h hd
  obtain ⟨r, hr, hh⟩ := h
  refine ⟨u, h1, h2, h3, h4, ⟨r, h4.trans hr, (TreeMem.Holds.congr hh fun k _ => ?_).1⟩, fun b => ?_⟩
  · rw [TreeMem.node, h2]; rfl
  · rw [h5, codeIn_reverse]
    rw [Shape.paths, Shape.paths_symbols]
    exact hn

/-! ### Full trees and their paths -/

theorem Shape.pathsFrom_eq (sh : Shape) : ∀ p, sh.pathsFrom p = (sh.pathsFrom []).map (fun e => (e.1, p ++ e.2)) := by
  induction sh with
  | dead => intro p; rfl
  | leaf s => intro p; simp [Shape.pathsFrom]
  | left l ih =>
    intro p
    rw [Shape.pathsFrom, Shape.pathsFrom, ih (p ++ [false]), ih ([] ++ [false]), List.map_map]
    apply List.map_congr_left; intro e _; simp
  | right r ih =>
    intro p
    rw [Shape.pathsFrom, Shape.pathsFrom, ih (p ++ [true]), ih ([] ++ [true]), List.map_map]
    apply List.map_congr_left; intro e _; simp
  | both l r ihl ihr =>
    intro p
    rw [Shape.pathsFrom, Shape.pathsFrom, ihl (p ++ [false]), ihl ([] ++ [false]), ihr (p ++ [true]),
      ihr ([] ++ [true]), List.map_append, List.map_map, List.map_map]
    congr 1 <;> (apply List.map_congr_left; intro e _; simp)

/-- A full tree as a trie. -/
def Shape.trie : Shape → Trie
  | .dead => .lone
  | .leaf s => .node (some s) .nil .nil
  | .left l => .node none l.trie .nil
  | .right r => .node none .nil r.trie
  | .both l r => .node none l.trie r.trie

theorem Shape.trie_ne (sh : Shape) : sh.trie ≠ .nil := by cases sh <;> simp [Shape.trie]

theorem Shape.trie_see (sh : Shape) : sh.trie.see = sh := by
  induction sh with
  | dead => rfl
  | leaf s => rfl
  | left l ih => rw [Shape.trie, Trie.see_left l.trie_ne, ih]
  | right r ih => rw [Shape.trie, Trie.see_right r.trie_ne, ih]
  | both l r ihl ihr => rw [Shape.trie, Trie.see_both l.trie_ne r.trie_ne, ihl, ihr]

theorem Shape.full_symbols {sh : Shape} (h : sh.full = true) : sh.symbols ≠ [] := by
  induction sh with
  | dead => cases h
  | leaf s => simp [Shape.symbols]
  | left l ih => cases h
  | right r ih => cases h
  | both l r ihl ihr =>
    rw [Shape.full, Bool.and_eq_true] at h
    intro h0
    exact ihl h.1 (List.append_eq_nil_iff.1 h0).1

theorem Shape.trie_size {sh : Shape} (h : sh.full = true) : sh.trie.size + 1 = 2 * sh.symbols.length := by
  induction sh with
  | dead => cases h
  | leaf s => rfl
  | left l ih => cases h
  | right r ih => cases h
  | both l r ihl ihr =>
    rw [Shape.full, Bool.and_eq_true] at h
    have h1 := ihl h.1
    have h2 := ihr h.2
    simp only [Shape.trie, Trie.size, Shape.symbols, List.length_append]
    omega

/-- The paths of a full tree, walked in one after the other, make the tree. -/
theorem Shape.graft_paths : ∀ (sh : Shape), sh.full = true →
    (sh.pathsFrom []).foldl (fun tr c => Trie.graft c.1 c.2 tr) .nil = sh.trie := by
  have hl : ∀ (cs : List (Byte × Bits)) (s : Option Byte) (l r : Trie),
      (cs.map fun e => (e.1, [false] ++ e.2)).foldl (fun tr c => Trie.graft c.1 c.2 tr) (.node s l r) =
        .node s (cs.foldl (fun tr c => Trie.graft c.1 c.2 tr) l) r := by
    intro cs
    induction cs with
    | nil => intro s l r; rfl
    | cons c cs ih => intro s l r; rw [List.map_cons, List.foldl_cons, List.foldl_cons]; exact ih s _ r
  have hr : ∀ (cs : List (Byte × Bits)) (s : Option Byte) (l r : Trie),
      (cs.map fun e => (e.1, [true] ++ e.2)).foldl (fun tr c => Trie.graft c.1 c.2 tr) (.node s l r) =
        .node s l (cs.foldl (fun tr c => Trie.graft c.1 c.2 tr) r) := by
    intro cs
    induction cs with
    | nil => intro s l r; rfl
    | cons c cs ih => intro s l r; rw [List.map_cons, List.foldl_cons, List.foldl_cons]; exact ih s l _
  intro sh
  induction sh with
  | dead => intro h; cases h
  | leaf s => intro _; rfl
  | left l ih => intro h; cases h
  | right r ih => intro h; cases h
  | both l r ihl ihr =>
    intro h
    rw [Shape.full, Bool.and_eq_true] at h
    have hne : l.pathsFrom [] ≠ [] := fun h0 => Shape.full_symbols h.1 (by
      rw [← Shape.paths_symbols l [], h0]; rfl)
    rw [Shape.pathsFrom, List.nil_append, List.nil_append, Shape.pathsFrom_eq l, Shape.pathsFrom_eq r,
      List.foldl_append]
    cases hc : l.pathsFrom [] with
    | nil => exact absurd hc hne
    | cons c cs =>
      rw [List.map_cons, List.foldl_cons]
      show List.foldl _ (List.foldl _ (Trie.node none (Trie.graft c.1 c.2 .nil) .nil) _) _ = _
      rw [hl, hr, ihr h.2, ← List.foldl_cons (f := fun tr (c : Byte × Bits) => Trie.graft c.1 c.2 tr), ← hc,
        ihl h.1]
      rfl

theorem graft_paths_lone {cs : List (Byte × Bits)} (h : cs ≠ []) :
    cs.foldl (fun tr c => Trie.graft c.1 c.2 tr) .lone = cs.foldl (fun tr c => Trie.graft c.1 c.2 tr) .nil := by
  cases cs with
  | nil => exact absurd rfl h
  | cons c cs => rw [List.foldl_cons, List.foldl_cons, Trie.graft_nil]

/-! ### Fano -/

theorem fanoScan_le (S : Nat) : ∀ (rest : List DistEntry) (k A d : Nat),
    fanoScan S rest k A d ≤ k + (rest.length - 1)
  | [], k, _, _ => by rw [fanoScan]; omega; rintro _ _ _ ⟨⟩
  | [e], k, _, _ => by rw [fanoScan]; omega; rintro _ _ _ ⟨⟩
  | e :: e' :: rest, k, A, d => by
    rw [fanoScan]
    split
    · have := fanoScan_le S (e' :: rest) (k + 1) (A + e.cnt.toNat) (fanoDiff (A + e.cnt.toNat) S)
      simp only [List.length_cons] at this ⊢
      omega
    · omega

/-- The split point lies before the last entry (R179). -/
theorem fanoSplit_lt {seg : List DistEntry} (h : 2 ≤ seg.length) : fanoSplit seg + 1 < seg.length := by
  cases seg with
  | nil => simp at h
  | cons e es =>
    have := fanoScan_le (cntSum (e :: es)) es 0 e.cnt.toNat (fanoDiff e.cnt.toNat (cntSum (e :: es)))
    rw [fanoSplit]
    simp only [List.length_cons] at h ⊢
    omega

theorem fanoTree_symbols : ∀ (n : Nat) (seg : List DistEntry), seg ≠ [] → seg.length ≤ n →
    (fanoTree n seg).symbols = seg.map DistEntry.sym ∧ (fanoTree n seg).full = true := by
  intro n
  induction n with
  | zero => intro seg h hl; exact absurd (List.eq_nil_of_length_eq_zero (by omega)) h
  | succ n ih =>
    intro seg h hl
    rcases seg with _ | ⟨e, _ | ⟨e', es⟩⟩
    · exact absurd rfl h
    · exact ⟨rfl, rfl⟩
    · have hs := fanoSplit_lt (seg := e :: e' :: es) (by simp)
      have h1 := ih ((e :: e' :: es).take (fanoSplit (e :: e' :: es) + 1))
        (by intro h0; have := congrArg List.length h0; rw [List.length_take, List.length_nil] at this; omega)
        (by rw [List.length_take]; omega)
      have h2 := ih ((e :: e' :: es).drop (fanoSplit (e :: e' :: es) + 1))
        (by intro h0; have := congrArg List.length h0; rw [List.length_drop, List.length_nil] at this; omega)
        (by rw [List.length_drop]; omega)
      rw [fanoTree]
      · rw [Shape.symbols, Shape.full, h1.1, h2.1, h1.2, h2.2, ← List.map_append, List.take_append_drop]
        exact ⟨rfl, rfl⟩
      · exact List.cons_ne_nil _ _
      · intro x hx; cases hx

/-- `fano` writes the paths of the segment's tree (R178). -/
theorem fano_ok : ∀ (n : Nat) (seg : List DistEntry) (p : Bits) (t : TreeMem), seg ≠ [] → seg.length ≤ n →
    fano n seg p t = .ok () (((fanoTree n seg).pathsFrom p).foldl (fun t e => t.setCode e.1.toNat e.2) t) := by
  intro n
  induction n with
  | zero => intro seg p t h hl; exact absurd (List.eq_nil_of_length_eq_zero (by omega)) h
  | succ n ih =>
    intro seg p t h hl
    rcases seg with _ | ⟨e, _ | ⟨e', es⟩⟩
    · exact absurd rfl h
    · rfl
    · have hs := fanoSplit_lt (seg := e :: e' :: es) (by simp)
      rw [fano, fanoTree]
      · rw [Run.bind_ok (ih _ (p ++ [false]) t
          (by intro h0; have := congrArg List.length h0; rw [List.length_take, List.length_nil] at this; omega)
          (by rw [List.length_take]; omega))]
        rw [ih _ (p ++ [true]) _
          (by intro h0; have := congrArg List.length h0; rw [List.length_drop, List.length_nil] at this; omega)
          (by rw [List.length_drop]; omega), Shape.pathsFrom, List.foldl_append]
      all_goals first
        | exact List.cons_ne_nil _ _
        | (intro x hx; cases hx)

/-- The codewords of a distribution whose scheme is that of a tree with its symbols in order. -/
theorem codesOf_paths {t : TreeMem} {dl : List DistEntry} {sh : Shape} (hs : sh.symbols = dl.map DistEntry.sym)
    (hn : (dl.map DistEntry.sym).Nodup) (hc : ∀ b : Byte, t.code b.toNat = codeIn sh.paths b) :
    t.codesOf dl = sh.paths := by
  have key : ∀ (dl : List DistEntry) (ps : List (Byte × Bits)), ps.map Prod.fst = dl.map DistEntry.sym →
      (∀ c ∈ ps, t.code c.1.toNat = some c.2) → t.codesOf dl = ps := by
    intro dl
    induction dl with
    | nil => intro ps h _; cases ps with
      | nil => rfl
      | cons => cases h
    | cons e dl ih =>
      intro ps h hp
      cases ps with
      | nil => cases h
      | cons c ps =>
        rw [List.map_cons, List.map_cons, List.cons.injEq] at h
        have h1 := hp c (by simp)
        rw [h.1] at h1
        rw [TreeMem.codesOf, List.filterMap_cons, h1]
        show (e.sym, c.2) :: t.codesOf dl = c :: ps
        rw [ih ps h.2 fun c' hc' => hp c' (by simp [hc']), ← h.1]
  have hps : sh.paths.map Prod.fst = dl.map DistEntry.sym := by rw [Shape.paths, Shape.paths_symbols, hs]
  refine key dl sh.paths hps fun c hm => ?_
  rw [hc]
  have hnd : (sh.paths.map Prod.fst).Nodup := by rw [hps]; exact hn
  unfold codeIn
  have hfind : ∀ (l : List (Byte × Bits)), (l.map Prod.fst).Nodup → c ∈ l →
      l.find? (fun x => x.1 == c.1) = some c := by
    intro l
    induction l with
    | nil => intro _ h; cases h
    | cons x l ih =>
      intro h hm
      rw [List.map_cons, List.nodup_cons] at h
      rw [List.find?_cons]
      rcases List.mem_cons.1 hm with rfl | hm
      · simp
      · have : x.1 ≠ c.1 := fun h' => h.1 (by rw [h']; exact List.mem_map_of_mem hm)
        rw [show (x.1 == c.1) = false from beq_eq_false_iff_ne.2 this]
        exact ih h.2 hm
  rw [hfind _ hnd hm]
  rfl

/-- The codewords of a full tree are shorter than it has leaves. -/
theorem Shape.full_path_length {sh : Shape} : sh.full = true → ∀ c ∈ sh.pathsFrom [],
    c.2.length + 1 ≤ sh.symbols.length := by
  induction sh with
  | dead => intro h; cases h
  | leaf s => intro _ c hc; rw [Shape.pathsFrom, List.mem_singleton] at hc; subst hc; exact Nat.le_refl 1
  | left l ih => intro h; cases h
  | right r ih => intro h; cases h
  | both l r ihl ihr =>
    intro h c hc
    rw [Shape.full, Bool.and_eq_true] at h
    have hl := List.length_pos_of_ne_nil (Shape.full_symbols h.1)
    have hr := List.length_pos_of_ne_nil (Shape.full_symbols h.2)
    rw [Shape.pathsFrom, List.nil_append, List.nil_append, Shape.pathsFrom_eq l, Shape.pathsFrom_eq r,
      List.mem_append, List.mem_map, List.mem_map] at hc
    rw [Shape.symbols, List.length_append]
    rcases hc with ⟨d, hd, rfl⟩ | ⟨d, hd, rfl⟩
    · have := ihl h.1 d hd; simp only [List.length_append, List.length_singleton]; omega
    · have := ihr h.2 d hd; simp only [List.length_append, List.length_singleton]; omega

/-- A distribution has at most 256 entries. -/
theorem IsDist.length_le {dl : List DistEntry} (h : IsDist dl) : dl.length ≤ 256 := by
  have h1 : ((dl.map DistEntry.sym).map BitVec.toNat).Nodup :=
    h.1.map fun a b hab => BitVec.eq_of_toNat_eq hab
  have h2 := nodup_length_le h1 (n := 256) fun k hk => by
    obtain ⟨b, _, rfl⟩ := List.mem_map.1 hk
    exact b.isLt
  rwa [List.length_map, List.length_map] at h2

/-- Codewords written one after the other touch nothing but the scheme. -/
theorem foldl_setCode_keep (l : List (Byte × Bits)) : ∀ (t : TreeMem),
    (l.foldl (fun t e => t.setCode e.1.toNat e.2) t).tree = t.tree ∧
    (l.foldl (fun t e => t.setCode e.1.toNat e.2) t).nnodes = t.nnodes ∧
    (l.foldl (fun t e => t.setCode e.1.toNat e.2) t).root = t.root := by
  induction l with
  | nil => intro t; exact ⟨rfl, rfl, rfl⟩
  | cons e l ih => intro t; exact ih (t.setCode e.1.toNat e.2)

/-- `BLD.FANO`'s block on two entries or more (R178, R179, R176). -/
theorem fanoBlock_ok {dl : List DistEntry} (h : IsDist dl) (h2 : 2 ≤ dl.length) (t : TreeMem) :
    ∃ u, fanoBlock dl t = .ok () u ∧ u.Agrees (fanoTree dl.length dl) ∧ u.root = some 0 ∧
      u.nnodes.toNat = 2 * dl.length - 1 := by
  have hlen := h.length_le
  have hne : dl ≠ [] := by rintro rfl; simp at h2
  obtain ⟨hsym, hfull⟩ := fanoTree_symbols dl.length dl hne (Nat.le_refl _)
  let v := (fanoTree dl.length dl).paths.foldl (fun t e => t.setCode e.1.toNat e.2) t.clearScheme
  have hsl : (fanoTree dl.length dl).symbols.length = dl.length := by rw [hsym, List.length_map]
  have hsize := Shape.trie_size hfull
  rw [hsl] at hsize
  have hnd : ((fanoTree dl.length dl).paths.map Prod.fst).Nodup := by
    rw [Shape.paths, Shape.paths_symbols, hsym]; exact h.1
  have hcode : ∀ b : Byte, v.code b.toNat = codeIn (fanoTree dl.length dl).paths b := fun b => by
    rw [foldl_setCode_code, TreeMem.clearScheme_code, Option.or_none, codeIn_reverse hnd]
  have hcodes := codesOf_paths hsym h.1 hcode
  have hpne : (fanoTree dl.length dl).paths ≠ [] := fun h0 => Shape.full_symbols hfull (by
    rw [← Shape.paths_symbols _ [], ← Shape.paths, h0]; rfl)
  have hall : Trie.lone.graftAll (v.codesOf dl) = (fanoTree dl.length dl).trie := by
    rw [hcodes, Trie.graftAll, graft_paths_lone hpne, Shape.paths, Shape.graft_paths _ hfull]
  obtain ⟨u, h1, hroom, hs, hr, hn⟩ := fromSchemeBlock_ok (t := v) (dl := dl) (by
    have hcap : Config.treeCap = 10241 := rfl
    refine Trie.fits_of_size (n := 255) (fun c hc => ?_) (by rw [hall]; omega)
    rw [hcodes] at hc
    have := Shape.full_path_length hfull c hc
    omega)
  rw [hall] at hroom hn
  have hholds := hroom.holds.see.1
  rw [Shape.trie_see] at hholds
  refine ⟨u, ?_, ⟨⟨0, hr, hholds⟩, fun b => ?_⟩, hr, by omega⟩
  · have hblock : fanoBlock dl t = (fano dl.length dl [] >>= fun _ => fromSchemeBlock dl) t.clearScheme := by
      rcases dl with _ | ⟨e, _ | ⟨e', es⟩⟩
      · simp at h2
      · simp at h2
      · rfl
    rw [hblock, Run.bind_ok (fano_ok dl.length dl [] _ hne (Nat.le_refl _))]
    exact h1
  · rw [TreeMem.code, hs]
    exact hcode b

/-! ### Shannon -/

theorem Shape.graft_symbols (sym : Byte) : ∀ (c : Bits) (sh : Shape) (b : Byte),
    b ∈ (sh.graft sym c).symbols → b = sym ∨ b ∈ sh.symbols := by
  intro c
  induction c with
  | nil => intro sh b h; exact .inl (List.mem_singleton.1 h)
  | cons x c ih =>
    intro sh b h
    cases sh with
    | dead => cases x <;> exact ih .dead b h
    | leaf s => exact .inr h
    | left l =>
      cases x
      · exact ih l b h
      · rcases List.mem_append.1 h with h | h
        · exact .inr h
        · rcases ih .dead b h with h | h
          · exact .inl h
          · cases h
    | right r =>
      cases x
      · rcases List.mem_append.1 h with h | h
        · rcases ih .dead b h with h | h
          · exact .inl h
          · cases h
        · exact .inr h
      · exact ih r b h
    | both l r =>
      cases x
      · rcases List.mem_append.1 h with h | h
        · rcases ih l b h with h | h
          · exact .inl h
          · exact .inr (List.mem_append_left _ h)
        · exact .inr (List.mem_append_right _ h)
      · rcases List.mem_append.1 h with h | h
        · exact .inr (List.mem_append_left _ h)
        · rcases ih r b h with h | h
          · exact .inl h
          · exact .inr (List.mem_append_right _ h)

/-- A new symbol walked in: still no symbol twice. -/
theorem Shape.graft_nodup (sym : Byte) : ∀ (c : Bits) (sh : Shape), sh.symbols.Nodup → sym ∉ sh.symbols →
    (sh.graft sym c).symbols.Nodup := by
  intro c
  induction c with
  | nil => intro sh _ _; exact List.nodup_singleton _
  | cons x c ih =>
    intro sh h hs
    have hdead := ih .dead List.nodup_nil (by simp [Shape.symbols])
    have honly : ∀ b ∈ (Shape.graft sym c .dead).symbols, b = sym := fun b hb => by
      rcases Shape.graft_symbols sym c .dead b hb with h | h
      · exact h
      · cases h
    cases sh with
    | dead => cases x <;> exact hdead
    | leaf s => exact h
    | left l =>
      cases x
      · exact ih l h hs
      · exact List.nodup_append.2 ⟨h, hdead, fun a ha b hb hab => hs (by
          rw [← honly b hb, ← hab]; exact ha)⟩
    | right r =>
      cases x
      · exact List.nodup_append.2 ⟨hdead, h, fun a ha b hb hab => hs (by
          rw [← honly a ha, hab]; exact hb)⟩
      · exact ih r h hs
    | both l r =>
      obtain ⟨hl, hr, hd⟩ := List.nodup_append.1 h
      have hsl : sym ∉ l.symbols := fun h => hs (List.mem_append_left _ h)
      have hsr : sym ∉ r.symbols := fun h => hs (List.mem_append_right _ h)
      cases x
      · refine List.nodup_append.2 ⟨ih l hl hsl, hr, fun a ha b hb hab => ?_⟩
        rcases Shape.graft_symbols sym c l a ha with h | h
        · exact hsr (by rw [← h, hab]; exact hb)
        · exact hd a h b hb hab
      · refine List.nodup_append.2 ⟨hl, ih r hr hsr, fun a ha b hb hab => ?_⟩
        rcases Shape.graft_symbols sym c r b hb with h | h
        · exact hsl (by rw [← h, ← hab]; exact ha)
        · exact hd a ha b h hab

/-- Codewords of distinct symbols make a tree without a symbol twice. -/
theorem ofCodes_nodup {codes : List (Byte × Bits)} (h : (codes.map Prod.fst).Nodup) :
    (Shape.ofCodes codes).symbols.Nodup := by
  have key : ∀ (codes : List (Byte × Bits)) (sh : Shape), (codes.map Prod.fst).Nodup → sh.symbols.Nodup →
      (∀ c ∈ codes, c.1 ∉ sh.symbols) →
      (codes.foldl (fun sh c => sh.graft c.1 c.2) sh).symbols.Nodup := by
    intro codes
    induction codes with
    | nil => intro sh _ h _; exact h
    | cons c codes ih =>
      intro sh hn hs hd
      rw [List.map_cons, List.nodup_cons] at hn
      rw [List.foldl_cons]
      refine ih _ hn.2 (Shape.graft_nodup _ _ _ hs (hd c (by simp))) fun c' hc' hm => ?_
      rcases Shape.graft_symbols _ _ _ _ hm with h | h
      · exact hn.1 (by rw [← h]; exact List.mem_map_of_mem hc')
      · exact hd c' (by simp [hc']) h
  exact key codes .dead h List.nodup_nil fun c _ => by simp [Shape.symbols]

theorem numeral_length : ∀ L v, (numeral L v).length = L
  | 0, _ => rfl
  | L + 1, v => by rw [numeral, List.length_cons, numeral_length L v]

/-- A numeral of enough bits has the value it was made from (R174). -/
theorem bitsValue_numeral {L v : Nat} (h : v < 2 ^ L) : bitsValue (numeral L v) = v := by
  have gen : ∀ (L v a : Nat), (numeral L v).foldl (fun v b => 2 * v + if b then 1 else 0) a =
      a * 2 ^ L + v % 2 ^ L := by
    intro L
    induction L with
    | zero => intro v a; simp [numeral, Nat.mod_one]
    | succ L ih =>
      intro v a
      have hb : (if (v / 2 ^ L % 2 == 1) = true then 1 else 0) = v / 2 ^ L % 2 := by
        rcases Nat.mod_two_eq_zero_or_one (v / 2 ^ L) with h | h <;> rw [h] <;> rfl
      rw [numeral, List.foldl_cons, ih, hb, Nat.pow_succ, Nat.mod_mul]
      ring
  rw [bitsValue, gen, Nat.zero_mul, Nat.zero_add, Nat.mod_eq_of_lt h]

/-- The length of a raw Shannon codeword (R175, R176): it exists for a nonzero count and a sum below 2^40. -/
theorem shannonLen_some {c S : Nat} (hc : c ≠ 0) (hS : S ≤ 2 ^ 40) : ∃ L, shannonLen c S = some L ∧ L ≤ 40 ∧
    S ≤ c * 2 ^ L ∧ ∀ k, k < L → c * 2 ^ k < S := by
  unfold shannonLen
  cases h : (List.range (Config.shannonLenMax + 1)).find? (fun L => decide (S ≤ c * 2 ^ L)) with
  | none =>
    rw [List.find?_eq_none] at h
    have h40 := h 40 (List.mem_range.2 (by decide))
    rw [decide_eq_true_eq] at h40
    exact absurd (hS.trans (Nat.le_mul_of_pos_left _ (Nat.pos_of_ne_zero hc))) h40
  | some L =>
    have h1 := List.mem_range.1 (List.mem_of_find?_eq_some h)
    have h2 := List.find?_some (p := fun L => decide (S ≤ c * 2 ^ L)) h
    rw [decide_eq_true_eq] at h2
    refine ⟨L, rfl, Nat.le_of_lt_succ h1, h2, fun k hk => ?_⟩
    by_contra hcon
    have hk' := List.find?_eq_some_iff_getElem.1 h
    obtain ⟨_, i, hi, hL, hbefore⟩ := hk'
    rw [List.getElem_range] at hL
    have := hbefore k (by omega)
    rw [List.getElem_range, decide_eq_true (Nat.not_lt.1 hcon)] at this
    cases this

theorem shannonWords_fst (S : Nat) : ∀ (dl : List DistEntry) (C : Nat),
    (shannonWords S dl C).map Prod.fst = dl.map DistEntry.sym := by
  intro dl
  induction dl with
  | nil => intro C; rfl
  | cons e dl ih => intro C; rw [shannonWords, List.map_cons, ih]; rfl

/-- `shannonLoop` writes the raw codewords (R174). -/
theorem shannonLoop_ok {S : Nat} (hS : S ≤ 2 ^ 40) : ∀ (dl : List DistEntry) (C : Nat) (t : TreeMem),
    (∀ e ∈ dl, e.cnt ≠ 0) → shannonLoop dl S C t =
      .ok () ((shannonWords S dl C).foldl (fun t e => t.setCode e.1.toNat e.2) t) := by
  intro dl
  induction dl with
  | nil => intro C t _; rfl
  | cons e dl ih =>
    intro C t h
    obtain ⟨L, hL, _⟩ := shannonLen_some (c := e.cnt.toNat) (S := S)
      (fun h0 => h e (by simp) (BitVec.eq_of_toNat_eq h0)) hS
    rw [shannonLoop, hL, shannonWords, hL]
    show (Run.update _ >>= _) t = _
    rw [Run.update_bind, ih _ _ fun e' he' => h e' (by simp [he'])]
    rfl

theorem shannonWords_length {S : Nat} (hS : S ≤ 2 ^ 40) : ∀ (dl : List DistEntry) (C : Nat),
    (∀ e ∈ dl, e.cnt ≠ 0) → ((shannonWords S dl C).map (fun c => c.2.length)).sum ≤ 40 * dl.length := by
  intro dl
  induction dl with
  | nil => intro C _; exact Nat.le_refl _
  | cons e dl ih =>
    intro C h
    obtain ⟨L, hL, h40, _⟩ := shannonLen_some (c := e.cnt.toNat) (S := S)
      (fun h0 => h e (by simp) (BitVec.eq_of_toNat_eq h0)) hS
    have := ih (C + e.cnt.toNat) fun e' he' => h e' (by simp [he'])
    rw [shannonWords, hL, List.map_cons, List.sum_cons, List.length_cons]
    simp only [Option.getD_some, numeral_length]
    omega

theorem cntSum_lt (dl : List DistEntry) : cntSum dl ≤ dl.length * (2 ^ 32 - 1) := by
  induction dl with
  | nil => exact Nat.le_refl _
  | cons e dl ih =>
    have h1 := e.cnt.isLt
    rw [List.length_cons, Nat.succ_mul]
    show e.cnt.toNat + cntSum dl ≤ _
    omega

theorem codesOf_words {t : TreeMem} {dl : List DistEntry} {words : List (Byte × Bits)}
    (hf : words.map Prod.fst = dl.map DistEntry.sym) (hn : (dl.map DistEntry.sym).Nodup)
    (hc : ∀ b : Byte, t.code b.toNat = codeIn words b) : t.codesOf dl = words := by
  induction dl generalizing words t with
  | nil => cases words with
    | nil => rfl
    | cons => cases hf
  | cons e dl ih =>
    cases words with
    | nil => cases hf
    | cons c words =>
      rw [List.map_cons, List.map_cons, List.cons.injEq] at hf
      rw [List.map_cons, List.nodup_cons] at hn
      have h1 : t.code e.sym.toNat = some c.2 := by
        rw [hc, codeIn, List.find?_cons, hf.1]
        simp
      have h2 : ∀ (x : List DistEntry), e.sym ∉ x.map DistEntry.sym →
          t.codesOf x = ({ t with scheme := schemeSet t.scheme e.sym.toNat none } : TreeMem).codesOf x := by
        intro x hx
        unfold TreeMem.codesOf
        apply List.filterMap_congr
        intro y hy
        have : y.sym.toNat ≠ e.sym.toNat := fun h => hx (by
          rw [← BitVec.eq_of_toNat_eq h]; exact List.mem_map_of_mem hy)
        rw [show ({ t with scheme := schemeSet t.scheme e.sym.toNat none } : TreeMem).code y.sym.toNat =
          t.code y.sym.toNat by
          rw [TreeMem.code, TreeMem.code, schemeGet_schemeSet, if_neg this]]
      have h3 := ih (t := { t with scheme := schemeSet t.scheme e.sym.toNat none }) (words := words) hf.2 hn.2
        fun b => by
          rw [TreeMem.code, schemeGet_schemeSet]
          by_cases hb : b = e.sym
          · subst hb
            rw [if_pos rfl, codeIn, List.find?_eq_none.2 fun x hx h => hn.1 (by
              rw [← hf.2, ← beq_iff_eq.1 h]; exact List.mem_map_of_mem hx)]
            rfl
          · rw [if_neg fun h => hb (BitVec.eq_of_toNat_eq h)]
            have := hc b
            rw [codeIn, List.find?_cons, show (c.1 == b) = false from beq_eq_false_iff_ne.2 (by
              rw [hf.1]; exact Ne.symm hb)] at this
            exact this
      rw [TreeMem.codesOf, List.filterMap_cons, h1]
      show (e.sym, c.2) :: t.codesOf dl = c :: words
      rw [h2 dl hn.1, h3, ← hf.1]

/-- `BLD.SHANNON`'s block on two entries or more (R174, R175, R176). -/
theorem shannonBlock_ok {dl : List DistEntry} (h : IsDist dl) (h2 : 2 ≤ dl.length) (t : TreeMem) :
    ∃ u, shannonBlock dl t = .ok () u ∧
      u.Agrees (Shape.ofCodes (shannonWords (cntSum dl) dl 0)).trunc ∧
      (∀ l r, Shape.ofCodes (shannonWords (cntSum dl) dl 0) = .both l r → u.root = some 0) := by
  have hlen := h.length_le
  have hS : cntSum dl ≤ 2 ^ 40 := by
    have := cntSum_lt dl
    have : dl.length * (2 ^ 32 - 1) ≤ 256 * (2 ^ 32 - 1) := Nat.mul_le_mul_right _ hlen
    omega
  have hfst := shannonWords_fst (cntSum dl) dl 0
  have hnd : ((shannonWords (cntSum dl) dl 0).map Prod.fst).Nodup := by rw [hfst]; exact h.1
  let v := (shannonWords (cntSum dl) dl 0).foldl (fun t e => t.setCode e.1.toNat e.2) t.clearScheme
  have hcode : ∀ b : Byte, v.code b.toNat = codeIn (shannonWords (cntSum dl) dl 0) b := fun b => by
    rw [foldl_setCode_code, TreeMem.clearScheme_code, Option.or_none, codeIn_reverse hnd]
  have hcodes := codesOf_words hfst h.1 hcode
  have hcap : Config.treeCap = 10241 := rfl
  have hwl := shannonWords_length hS dl 0 h.2
  have hsum : 1 + ((v.codesOf dl).map (fun c => c.2.length)).sum ≤ Config.treeCap := by rw [hcodes]; omega
  obtain ⟨u, h1, hroom, hs, hr, hn⟩ := fromSchemeBlock_ok (t := v) (dl := dl) (Trie.fits_of_sum hsum)
  obtain ⟨hholds, hsub⟩ := hroom.holds.see
  rw [see_codes, hcodes] at hholds hsub
  have hndr := hroom.nodup
  have husd := hroom.used
  rw [hcodes] at hndr husd
  have hnds := hsub.nodup hndr
  have hdep := hholds.depth_le
  have hslots := nodup_length_le hnds fun k hk => husd k (hsub.subset hk)
  have hsz := (Trie.size_graftAll (tr := .lone) (by simp) (v.codesOf dl)).2
  have h0 : Trie.lone.size = 1 := rfl
  have hd : (Shape.ofCodes (shannonWords (cntSum dl) dl 0)).depth ≤ depthBound := by
    have : depthBound = Config.treeCap + 1 := rfl
    omega
  obtain ⟨w, h3, h4, _, _, h5, _⟩ := truncBlock_ok hr hholds hnds hd
  obtain ⟨x, h6, _, _, h7, h8⟩ := deriveBlock_agrees h4 ((Shape.trunc_depth _).trans hd)
    (by rw [Shape.trunc_symbols]; exact ofCodes_nodup hnd)
  refine ⟨x, ?_, h8, fun l r hlr => h7.trans (h5 l r hlr)⟩
  have hblock : shannonBlock dl t = (shannonLoop dl (cntSum dl) 0 >>= fun _ => fromSchemeBlock dl >>= fun _ =>
      truncBlock >>= fun _ => deriveBlock) t.clearScheme := by
    rcases dl with _ | ⟨e, _ | ⟨e', es⟩⟩
    · simp at h2
    · simp at h2
    · rfl
  rw [hblock, Run.bind_ok (shannonLoop_ok hS dl 0 _ h.2), Run.bind_ok h1, Run.bind_ok h3]
  exact h6

end Sys2Proof.Machine
end

