-- ==== Sys2Proof/Laws/Frames.lean ====
section
/-! SUPPORT. What each block writes, once: a frame that allows a block's own writes is kept by the block, however
it ends. -/

namespace Sys2Proof.Machine

/-! ### The writes a frame can allow -/

section
variable (F : Frame State)

/-- `PHASE`. -/
abbrev Frame.AllowsPhase : Prop := ∀ s p, F.rel s (s.setPhase p)
/-- An access to the input stream. -/
abbrev Frame.AllowsIn : Prop := ∀ s p n, F.rel s (s.setIo { s.io with inPos := p, inAcc := n })
/-- The rewind of the input stream. -/
abbrev Frame.AllowsRewind : Prop := ∀ s, F.rel s (s.setIo { s.io with
  inPos := s.io.inBase, input := s.io.again.getD s.io.input, again := none })
/-- An access to the output stream that appends nothing. -/
abbrev Frame.AllowsTouchOut : Prop := ∀ s n, F.rel s (s.setIo { s.io with outAcc := n })
/-- A byte appended. -/
abbrev Frame.AllowsOut : Prop := ∀ s (v : Byte), F.rel s (s.setIo { s.io with
  outRev := v :: s.io.outRev, outLen := s.io.outLen + 1 })
/-- `FREQ`. -/
abbrev Frame.AllowsFreq : Prop := ∀ s x, F.rel s (s.setFreq x)
/-- `DIST`, `NDIST`. -/
abbrev Frame.AllowsDist : Prop := ∀ s x n, F.rel s ((s.setDist x).setW { s.w with ndist := n })
/-- `RANGE` and the count of free values. -/
abbrev Frame.AllowsRange : Prop := ∀ s x n, F.rel s ((s.setRange x).setFresh n)
/-- `NRANGE`, `RT`. -/
abbrev Frame.AllowsRt : Prop := ∀ s x n, F.rel s (s.setW { s.w with nrange := n, rt := x })
/-- `SCHEME`, `TREE`, `NNODES`, `ROOT`. -/
abbrev Frame.AllowsMain : Prop := ∀ s x, F.rel s (s.setMain x)
/-- `CTX`. -/
abbrev Frame.AllowsCtx : Prop := ∀ s x, F.rel s (s.setCtx x)
/-- `FGK` and its registers. -/
abbrev Frame.AllowsFgk : Prop := ∀ s x, F.rel s (s.setFgk x)
/-- The count of free values. -/
abbrev Frame.AllowsFresh : Prop := ∀ s n, F.rel s (s.setFresh n)
/-- `TOTAL`. -/
abbrev Frame.AllowsTotal : Prop := ∀ s x, F.rel s (s.setW { s.w with total := x })
/-- `NSYM`. -/
abbrev Frame.AllowsNsym : Prop := ∀ s x, F.rel s (s.setW { s.w with nsym := x })
/-- `CUR`. -/
abbrev Frame.AllowsCur : Prop := ∀ s x, F.rel s (s.setW { s.w with cur := x })
/-- `PREV`. -/
abbrev Frame.AllowsPrev : Prop := ∀ s x, F.rel s (s.setW { s.w with prev := x })
/-- `NCTX`. -/
abbrev Frame.AllowsNctx : Prop := ∀ s x, F.rel s (s.setW { s.w with nctx := x })
/-- `OBITS`, `OCNT`. -/
abbrev Frame.AllowsPack : Prop := ∀ s x n, F.rel s (s.setW { s.w with obits := x, ocnt := n })
/-- `IBITS`, `ICNT`. -/
abbrev Frame.AllowsParse : Prop := ∀ s x n, F.rel s (s.setW { s.w with ibits := x, icnt := n })
/-- `LOW`, `HIGH`. -/
abbrev Frame.AllowsInterval : Prop := ∀ s a b, F.rel s (s.setW { s.w with low := a, high := b })
/-- `PEND`. -/
abbrev Frame.AllowsPend : Prop := ∀ s x, F.rel s (s.setW { s.w with pend := x })
/-- `VAL`. -/
abbrev Frame.AllowsVal : Prop := ∀ s x, F.rel s (s.setW { s.w with val := x })

end

variable {F : Frame State}

/-! ### The operations -/

theorem setPhase_keeps (h : F.AllowsPhase) (p : Phase) : Run.Keeps F (setPhase p) := fun s => h s p

theorem touchInput_keeps (h : F.AllowsIn) : Run.Keeps F touchInput :=
  .bind (.update fun s => h s s.io.inPos _) fun _ => .bind (.read _) fun _ => .require _ _

theorem inRead_keeps (h : F.AllowsIn) : Run.Keeps F inRead := by
  refine .bind (touchInput_keeps h) fun _ => .bind (.read _) fun r => ?_
  cases r with
  | none => exact .pure _
  | some b => exact .bind (.update fun s => h s _ s.io.inAcc) fun _ => .pure _

theorem inAtEnd_keeps (h : F.AllowsIn) : Run.Keeps F inAtEnd :=
  .bind (touchInput_keeps h) fun _ => .read _

theorem inRewind_keeps (h : F.AllowsIn) (hr : F.AllowsRewind) (hp : F.AllowsParse) : Run.Keeps F inRewind :=
  .bind (touchInput_keeps h) fun _ => .bind (.update hr) fun _ => .update fun s => hp s s.w.ibits 0

theorem outWrite_keeps (ht : F.AllowsTouchOut) (ho : F.AllowsOut) (v : Byte) : Run.Keeps F (outWrite v) :=
  .bind (.update fun s => ht s _) fun _ => .bind (.read _) fun _ => .bind (.require _ _) fun _ =>
    .update fun s => ho s v

theorem memRead_keeps (h : F.AllowsIn) : ∀ n, Run.Keeps F (memRead n)
  | 0 => .pure _
  | n + 1 => by
    refine .bind (inRead_keeps h) fun r => ?_
    cases r with
    | none => exact .raise _
    | some b => exact .bind (memRead_keeps h n) fun _ => .pure _

theorem memWrite_keeps (ht : F.AllowsTouchOut) (ho : F.AllowsOut) : ∀ n v, Run.Keeps F (memWrite n v)
  | 0, _ => .pure _
  | n + 1, _ => .bind (outWrite_keeps ht ho _) fun _ => memWrite_keeps ht ho n _

theorem flushByte_keeps (ht : F.AllowsTouchOut) (ho : F.AllowsOut) (hk : F.AllowsPack) :
    Run.Keeps F flushByte :=
  .bind (.read _) fun _ => .bind (outWrite_keeps ht ho _) fun _ => .update fun s => hk s _ _

theorem putBit_keeps (ht : F.AllowsTouchOut) (ho : F.AllowsOut) (hk : F.AllowsPack) (b : Bool) :
    Run.Keeps F (putBit b) :=
  .bind (.update fun s => hk s _ _) fun _ => .bind (.read _) fun _ =>
    .ite (flushByte_keeps ht ho hk) (.pure _)

theorem putBits_keeps (ht : F.AllowsTouchOut) (ho : F.AllowsOut) (hk : F.AllowsPack) (c : Bits) :
    Run.Keeps F (putBits c) := .each (putBit_keeps ht ho hk) c

theorem padAndFlush_keeps (ht : F.AllowsTouchOut) (ho : F.AllowsOut) (hk : F.AllowsPack) :
    Run.Keeps F padAndFlush :=
  .bind (.read _) fun _ => .ite (.pure _) (flushByte_keeps ht ho hk)

theorem takeBit_keeps (hp : F.AllowsParse) : Run.Keeps F takeBit :=
  .bind (.read _) fun _ => .bind (.update fun s => hp s s.w.ibits _) fun _ => .pure _

theorem getBitOpt_keeps (h : F.AllowsIn) (hp : F.AllowsParse) : Run.Keeps F getBitOpt := by
  refine .bind (.read _) fun n => .ite (.bind (inRead_keeps h) fun r => ?_)
    (.bind (takeBit_keeps hp) fun _ => .pure _)
  cases r with
  | none => exact .pure _
  | some v =>
    exact .bind (.update fun s => hp s _ _) fun _ => .bind (takeBit_keeps hp) fun _ => .pure _

theorem getBit_keeps (h : F.AllowsIn) (hp : F.AllowsParse) : Run.Keeps F getBit := by
  refine .bind (getBitOpt_keeps h hp) fun r => ?_
  cases r with
  | none => exact .raise _
  | some b => exact .pure _

theorem getBitOrZero_keeps (h : F.AllowsIn) (hp : F.AllowsParse) : Run.Keeps F getBitOrZero :=
  .bind (getBitOpt_keeps h hp) fun _ => .pure _

theorem bumpNsym_keeps (hn : F.AllowsNsym) (hf : F.AllowsFresh) : Run.Keeps F bumpNsym := .update fun s => by
  split
  · exact hn s _
  · exact F.trans _ _ _ (hn s _) (hf _ _)

theorem onMain_keeps (h : F.AllowsMain) {α : Type} (m : Run TreeMem α) : Run.Keeps F (onMain m) := fun s => by
  unfold onMain
  cases m s.main with
  | ok a t => exact h s t
  | error e t => exact h s t

theorem onCtxModel_keeps (h : F.AllowsCtx) (c : Nat) {α : Type} (m : Run TreeMem α) :
    Run.Keeps F (onCtxModel c m) := fun s => by
  unfold onCtxModel
  cases m (ctxGet s.ctx c).model with
  | ok a t => exact h s _
  | error e t => exact h s _

theorem onFgk_keeps (h : F.AllowsFgk) {α : Type} (m : Run FgkMem α) : Run.Keeps F (onFgk m) := fun s => by
  unfold onFgk
  cases m s.fgk with
  | ok a t => exact h s t
  | error e t => exact h s t

theorem commandInit_keeps (hk : F.AllowsPack) (hp : F.AllowsParse) (hn : F.AllowsNsym) (hv : F.AllowsPrev)
    (hc : F.AllowsCur) (hd : F.AllowsPend) : Run.Keeps F commandInit := fun s => by
  have h1 := hk s 0 0
  have h2 := hp (s.setW { s.w with obits := 0, ocnt := 0 }) 0 0
  have h3 := hn (s.setW { s.w with obits := 0, ocnt := 0, ibits := 0, icnt := 0 }) 0
  have h4 := hv (s.setW { s.w with obits := 0, ocnt := 0, ibits := 0, icnt := 0, nsym := 0 }) 256
  have h5 := hc (s.setW { s.w with obits := 0, ocnt := 0, ibits := 0, icnt := 0, nsym := 0, prev := 256 }) none
  have h6 := hd (s.setW { s.w with
    obits := 0, ocnt := 0, ibits := 0, icnt := 0, nsym := 0, prev := 256, cur := none }) 0
  exact F.trans _ _ _ h1 (F.trans _ _ _ h2 (F.trans _ _ _ h3 (F.trans _ _ _ h4 (F.trans _ _ _ h5 h6))))

/-! ### The blocks of the primitive commands -/

theorem countLoop_keeps (h : F.AllowsIn) (hq : F.AllowsFreq) (ht : F.AllowsTotal) :
    ∀ n, Run.Keeps F (countLoop n)
  | 0 => .stuck
  | n + 1 => by
    refine .bind (inRead_keeps h) fun r => ?_
    cases r with
    | none => exact .pure _
    | some b =>
      exact .bind (.read _) fun _ => .bind (.require _ _) fun _ => .bind (.update fun s => hq s _) fun _ =>
        .bind (.update fun s => ht s _) fun _ => countLoop_keeps h hq ht n

theorem countBlock_keeps (h : F.AllowsIn) (hq : F.AllowsFreq) (ht : F.AllowsTotal) : Run.Keeps F countBlock :=
  .bind (.update fun s => hq s _) fun _ => .bind (.update fun s => ht s _) fun _ => .bind (.read _) fun _ =>
    countLoop_keeps h hq ht _

theorem distBlock_keeps (h : F.AllowsDist) : Run.Keeps F distBlock := .update fun s => h s _ _

theorem writeRange_keeps (h : F.AllowsRange) (i : Nat) (sym : BitVec 9) (lo hi : Nat) :
    Run.Keeps F (writeRange i sym lo hi) := .update fun s => h s _ _

theorem rangeLoop_keeps (h : F.AllowsRange) : ∀ dl i cum, Run.Keeps F (rangeLoop dl i cum)
  | [], _, _ => .pure _
  | _ :: es, i, _ => .bind (writeRange_keeps h _ _ _ _) fun _ => rangeLoop_keeps h es (i + 1) _

theorem rangesBlock_keeps (hd : F.AllowsDist) (hr : F.AllowsRange) (ht : F.AllowsRt) :
    Run.Keeps F rangesBlock := by
  refine .bind (distBlock_keeps hd) fun _ => .bind (.read _) fun dl => ?_
  cases dl.getLast? with
  | none => exact .update fun s => ht s 0 0
  | some last =>
    exact .bind (rangeLoop_keeps hr _ _ _) fun _ => .bind (writeRange_keeps hr _ _ _ _) fun _ =>
      .bind (.require _ _) fun _ => .update fun s => ht s _ _

theorem withDist_keeps (h : F.AllowsMain) (b : List DistEntry → Run TreeMem Unit) :
    Run.Keeps F (withDist b) := .bind (.read _) fun _ => onMain_keeps h _

/-! ### The blocks of the static codec -/

theorem writeHeader_keeps (ht : F.AllowsTouchOut) (ho : F.AllowsOut) (f : Table (BitVec 32)) :
    Run.Keeps F (writeHeader f) := .each (fun _ => memWrite_keeps ht ho 4 _) _

theorem readHeaderWith_keeps (h : F.AllowsIn) {store : Nat → BitVec 32 → State → State}
    (hs : ∀ i v s, F.rel s (store i v s)) : Run.Keeps F (readHeaderWith store) :=
  .each (fun _ => .bind (memRead_keeps h 4) fun _ => .update fun s => hs _ _ s) _

theorem readHeader_keeps (h : F.AllowsIn) (hq : F.AllowsFreq) (ht : F.AllowsTotal) :
    Run.Keeps F readHeader :=
  .bind (readHeaderWith_keeps h fun _ _ s => hq s _) fun _ => .update fun s => ht s _

/-- `NSYM` is below `TOTAL`: the guard under which the loops with a header count a symbol. -/
abbrev State.Below (s : State) : Prop := s.w.nsym.toNat < s.w.total.toNat

/-- The two counters. -/
def State.counters (s : State) : BitVec 40 × BitVec 40 := (s.w.nsym, s.w.total)

/-- A piece that keeps a frame and the two counters keeps the frame and the guard. -/
theorem Run.Keeps.guard {α : Type} {m : Eng α} (hm : Run.Keeps F m)
    (hc : Run.Keeps (Frame.same State.counters) m) (s₀ : State) :
    Run.Sat (fun s => F.rel s₀ s ∧ s.Below) m (fun _ s => F.rel s₀ s ∧ s.Below) (fun _ => F.rel s₀) := by
  refine Run.Sat.conseq ((hm.sat s₀).and (hc.carries (P := State.Below) ?_)) (fun _ h => h)
    (fun _ _ h => h) (fun _ _ h => h.1)
  intro s t h hs
  have h1 : t.w.nsym = s.w.nsym := congrArg Prod.fst h
  have h2 : t.w.total = s.w.total := congrArg Prod.snd h
  unfold State.Below
  rw [h1, h2]
  exact hs

/-- Under the guard `NSYM` is counted up and nothing else is written. -/
theorem bumpNsym_guard (hn : F.AllowsNsym) (s₀ : State) :
    Run.Sat (fun s => F.rel s₀ s ∧ s.Below) bumpNsym (fun _ => F.rel s₀) (fun _ => F.rel s₀) := by
  refine .update fun s hs => ?_
  have : s.w.nsym.toNat + 1 < 2 ^ 40 := by
    have h1 := hs.2
    have h2 := s.w.total.isLt
    unfold State.Below at h1
    omega
  rw [if_pos this]
  exact F.trans _ _ _ hs.1 (hn s _)

/-- The two counters are kept by what does not write them. -/
theorem counters_in : (Frame.same State.counters).AllowsIn := fun _ _ _ => rfl
theorem counters_touchOut : (Frame.same State.counters).AllowsTouchOut := fun _ _ => rfl
theorem counters_out : (Frame.same State.counters).AllowsOut := fun _ _ => rfl
theorem counters_pack : (Frame.same State.counters).AllowsPack := fun _ _ _ => rfl
theorem counters_parse : (Frame.same State.counters).AllowsParse := fun _ _ _ => rfl
theorem counters_cur : (Frame.same State.counters).AllowsCur := fun _ _ => rfl
theorem counters_prev : (Frame.same State.counters).AllowsPrev := fun _ _ => rfl
theorem counters_interval : (Frame.same State.counters).AllowsInterval := fun _ _ _ => rfl
theorem counters_pend : (Frame.same State.counters).AllowsPend := fun _ _ => rfl

theorem encodeLoop_keeps (h : F.AllowsIn) (ht : F.AllowsTouchOut) (ho : F.AllowsOut) (hk : F.AllowsPack)
    (hn : F.AllowsNsym) : ∀ n, Run.Keeps F (encodeLoop n)
  | 0 => .stuck
  | n + 1 => by
    refine .bind (inRead_keeps h) fun r => ?_
    cases r with
    | none => exact .pure _
    | some b =>
      refine .bind (.read _) fun c => .of_sat fun s₀ => .read_bind fun more => ?_
      refine .bind (R := fun _ s => F.rel s₀ s ∧ s.Below) (.require (fun hb s hs => ⟨hs.1, ?_⟩)
        (fun _ s hs => hs.1)) fun _ => ?_
      · rw [hs.2, Bool.and_eq_true] at hb
        exact of_decide_eq_true hb.2
      · exact .bind ((putBits_keeps ht ho hk _).guard
          (putBits_keeps counters_touchOut counters_out counters_pack _) s₀) fun _ =>
          .bind (bumpNsym_guard hn s₀) fun _ => (encodeLoop_keeps h ht ho hk hn n).sat s₀

theorem encodePayload_keeps (h : F.AllowsIn) (ht : F.AllowsTouchOut) (ho : F.AllowsOut) (hk : F.AllowsPack)
    (hn : F.AllowsNsym) : Run.Keeps F encodePayload :=
  .bind (.update fun s => hn s 0) fun _ => .bind (.read _) fun _ =>
    .bind (encodeLoop_keeps h ht ho hk hn _) fun _ => .bind (.read _) fun _ => .require _ _

theorem staticCompress_keeps (hf : F.AllowsPhase) (h : F.AllowsIn) (hr : F.AllowsRewind)
    (hp : F.AllowsParse) (ht : F.AllowsTouchOut) (ho : F.AllowsOut) (hk : F.AllowsPack)
    (hn : F.AllowsNsym) (hq : F.AllowsFreq) (htot : F.AllowsTotal) (hd : F.AllowsDist) (hm : F.AllowsMain)
    (builder : Builder) : Run.Keeps F (staticCompress builder) :=
  .bind (setPhase_keeps hf _) fun _ => .bind (countBlock_keeps h hq htot) fun _ =>
  .bind (setPhase_keeps hf _) fun _ => .bind (distBlock_keeps hd) fun _ =>
  .bind (withDist_keeps hm _) fun _ => .bind (setPhase_keeps hf _) fun _ => .bind (.read _) fun _ =>
  .bind (writeHeader_keeps ht ho _) fun _ => .bind (setPhase_keeps hf _) fun _ =>
  .bind (inRewind_keeps h hr hp) fun _ => .bind (encodePayload_keeps h ht ho hk hn) fun _ =>
  .bind (setPhase_keeps hf _) fun _ => padAndFlush_keeps ht ho hk

theorem walkLoop_keeps (h : F.AllowsIn) (hp : F.AllowsParse) (hc : F.AllowsCur) (T : Table TreeNode) :
    ∀ n cur, Run.Keeps F (walkLoop T n cur)
  | 0, _ => .stuck
  | n + 1, cur => by
    unfold walkLoop
    cases (treeGet T cur).sym with
    | some s => exact .pure _
    | none =>
      refine .bind (getBit_keeps h hp) fun b => .bind (.update fun s => hc s _) fun _ => ?_
      cases (treeGet T cur).child b with
      | none => exact .raise _
      | some next => exact walkLoop_keeps h hp hc T n next

theorem walkSymbol_keeps (h : F.AllowsIn) (hp : F.AllowsParse) (hc : F.AllowsCur) (T : Table TreeNode)
    (root : Option Nat) : Run.Keeps F (walkSymbol T root) := by
  unfold walkSymbol
  cases root with
  | none => exact .raise _
  | some r =>
    exact .bind (.update fun s => hc s _) fun _ => .bind (.read _) fun _ => walkLoop_keeps h hp hc T _ _

theorem decodeLoop_keeps (h : F.AllowsIn) (hp : F.AllowsParse) (hc : F.AllowsCur) (ht : F.AllowsTouchOut)
    (ho : F.AllowsOut) (hn : F.AllowsNsym) : ∀ n, Run.Keeps F (decodeLoop n)
  | 0 => .stuck
  | n + 1 => by
    refine .of_sat fun s₀ => .read_bind fun more => .ite (fun hb => ?_) (fun _ => .pure fun s hs => hs.1)
    refine .conseq (P := fun s => F.rel s₀ s ∧ s.Below) (.read_bind fun t => ?_)
      (fun s hs => ⟨hs.1, of_decide_eq_true (hs.2 ▸ hb)⟩) (fun _ _ h => h) (fun _ _ h => h)
    refine .conseq (P := fun s => F.rel s₀ s ∧ s.Below) ?_ (fun s hs => hs.1) (fun _ _ h => h)
      (fun _ _ h => h)
    exact .bind ((walkSymbol_keeps h hp hc _ _).guard
        (walkSymbol_keeps counters_in counters_parse counters_cur _ _) s₀) fun b =>
      .bind ((outWrite_keeps ht ho b).guard (outWrite_keeps counters_touchOut counters_out b) s₀) fun _ =>
      .bind (bumpNsym_guard hn s₀) fun _ => (decodeLoop_keeps h hp hc ht ho hn n).sat s₀

theorem decodePayload_keeps (h : F.AllowsIn) (hp : F.AllowsParse) (hc : F.AllowsCur) (ht : F.AllowsTouchOut)
    (ho : F.AllowsOut) (hn : F.AllowsNsym) : Run.Keeps F decodePayload := by
  refine .bind (.update fun s => ?_) fun _ => .bind (.read _) fun _ => decodeLoop_keeps h hp hc ht ho hn _
  exact F.trans _ _ _ (hn s 0) (hp (s.setW { s.w with nsym := 0 }) s.w.ibits 0)

theorem staticRebuild_keeps (hf : F.AllowsPhase) (h : F.AllowsIn) (hp : F.AllowsParse) (hc : F.AllowsCur)
    (ht : F.AllowsTouchOut) (ho : F.AllowsOut) (hn : F.AllowsNsym) (hd : F.AllowsDist)
    (hm : F.AllowsMain) (builder : Builder) : Run.Keeps F (staticRebuild builder) :=
  .bind (setPhase_keeps hf _) fun _ => .bind (distBlock_keeps hd) fun _ =>
  .bind (withDist_keeps hm _) fun _ => .bind (setPhase_keeps hf _) fun _ =>
  decodePayload_keeps h hp hc ht ho hn

theorem staticDecompress_keeps (hf : F.AllowsPhase) (h : F.AllowsIn) (hp : F.AllowsParse)
    (hc : F.AllowsCur) (ht : F.AllowsTouchOut) (ho : F.AllowsOut) (hn : F.AllowsNsym) (hq : F.AllowsFreq)
    (htot : F.AllowsTotal) (hd : F.AllowsDist) (hm : F.AllowsMain) (builder : Builder) :
    Run.Keeps F (staticDecompress builder) :=
  .bind (setPhase_keeps hf _) fun _ => .bind (readHeader_keeps h hq htot) fun _ =>
  .bind (inAtEnd_keeps h) fun _ => .ite (.pure _) (staticRebuild_keeps hf h hp hc ht ho hn hd hm _)

/-! ### The blocks of the context codec -/

theorem updateCtx_keeps (hx : F.AllowsCtx) (c : Nat) (f : CtxEntry → CtxEntry) :
    Run.Keeps F (updateCtx c f) := .update fun s => hx s _

theorem countPairsLoop_keeps (h : F.AllowsIn) (hq : F.AllowsFreq) (htot : F.AllowsTotal)
    (hv : F.AllowsPrev) (hx : F.AllowsCtx) : ∀ n, Run.Keeps F (countPairsLoop n)
  | 0 => .stuck
  | n + 1 => by
    refine .bind (inRead_keeps h) fun r => ?_
    cases r with
    | none => exact .pure _
    | some b =>
      exact .bind (.read _) fun _ => .bind (.require _ _) fun _ => .bind (.update fun s => hq s _) fun _ =>
        .bind (.update fun s => htot s _) fun _ => .bind (.read _) fun _ =>
        .ite (.bind (.update fun s => hv s _) fun _ => countPairsLoop_keeps h hq htot hv hx n)
          (.bind (updateCtx_keeps hx _ _) fun _ => .bind (.update fun s => hv s _) fun _ =>
            countPairsLoop_keeps h hq htot hv hx n)

theorem countPairs_keeps (h : F.AllowsIn) (hq : F.AllowsFreq) (htot : F.AllowsTotal)
    (hv : F.AllowsPrev) (hx : F.AllowsCtx) (hnc : F.AllowsNctx) : Run.Keeps F countPairs :=
  .bind (.update fun s => hq s _) fun _ => .bind (.each (fun _ => updateCtx_keeps hx _ _) _) fun _ =>
  .bind (.update fun s => F.trans _ _ _ (htot s 0) (hv (s.setW { s.w with total := 0 }) 256)) fun _ =>
  .bind (.read _) fun _ => .bind (countPairsLoop_keeps h hq htot hv hx _) fun _ =>
  .update fun s => hnc s _

theorem buildAllModels_keeps (hd : F.AllowsDist) (hm : F.AllowsMain) (hx : F.AllowsCtx) :
    Run.Keeps F buildAllModels :=
  .bind (distBlock_keeps hd) fun _ => .bind (withDist_keeps hm _) fun _ => .bind (.read _) fun _ =>
  .each (fun _ => .bind (.read _) fun _ => onCtxModel_keeps hx _ _) _

theorem writeContextHeader_keeps (ht : F.AllowsTouchOut) (ho : F.AllowsOut) :
    Run.Keeps F writeContextHeader :=
  .bind (.read _) fun _ => .bind (writeHeader_keeps ht ho _) fun _ => .bind (.read _) fun _ =>
  .bind (memWrite_keeps ht ho _ _) fun _ => .bind (.read _) fun _ =>
  .each (fun _ => .bind (memWrite_keeps ht ho _ _) fun _ => .bind (.read _) fun _ =>
    writeHeader_keeps ht ho _) _

theorem encodeContextLoop_keeps (h : F.AllowsIn) (ht : F.AllowsTouchOut) (ho : F.AllowsOut)
    (hk : F.AllowsPack) (hn : F.AllowsNsym) (hv : F.AllowsPrev) : ∀ n, Run.Keeps F (encodeContextLoop n)
  | 0 => .stuck
  | n + 1 => by
    refine .bind (inRead_keeps h) fun r => ?_
    cases r with
    | none => exact .pure _
    | some b =>
      refine .bind (.read _) fun c => .of_sat fun s₀ => .read_bind fun more => ?_
      refine .bind (R := fun _ s => F.rel s₀ s ∧ s.Below) (.require (fun hb s hs => ⟨hs.1, ?_⟩)
        (fun _ s hs => hs.1)) fun _ => ?_
      · rw [hs.2, Bool.and_eq_true] at hb
        exact of_decide_eq_true hb.2
      · have hset : ∀ (G : Frame State), G.AllowsPrev →
            Run.Keeps G (setW (fun w => { w with prev := b.setWidth 9 })) :=
          fun G hG => .update fun s => hG s _
        exact .bind ((putBits_keeps ht ho hk _).guard
          (putBits_keeps counters_touchOut counters_out counters_pack _) s₀) fun _ =>
          .bind ((hset F hv).guard (hset _ counters_prev) s₀) fun _ =>
          .bind (bumpNsym_guard hn s₀) fun _ => (encodeContextLoop_keeps h ht ho hk hn hv n).sat s₀

theorem encodeContextPayload_keeps (h : F.AllowsIn) (ht : F.AllowsTouchOut) (ho : F.AllowsOut)
    (hk : F.AllowsPack) (hn : F.AllowsNsym) (hv : F.AllowsPrev) : Run.Keeps F encodeContextPayload :=
  .bind (.update fun s => F.trans _ _ _ (hn s 0) (hv (s.setW { s.w with nsym := 0 }) 256)) fun _ =>
  .bind (.read _) fun _ => .bind (encodeContextLoop_keeps h ht ho hk hn hv _) fun _ =>
  .bind (.read _) fun _ => .require _ _

theorem contextCompress_keeps (hf : F.AllowsPhase) (h : F.AllowsIn) (hr : F.AllowsRewind)
    (hp : F.AllowsParse) (ht : F.AllowsTouchOut) (ho : F.AllowsOut) (hk : F.AllowsPack)
    (hn : F.AllowsNsym) (hq : F.AllowsFreq) (htot : F.AllowsTotal) (hd : F.AllowsDist) (hm : F.AllowsMain)
    (hv : F.AllowsPrev) (hx : F.AllowsCtx) (hnc : F.AllowsNctx) : Run.Keeps F contextCompress :=
  .bind (setPhase_keeps hf _) fun _ => .bind (countPairs_keeps h hq htot hv hx hnc) fun _ =>
  .bind (setPhase_keeps hf _) fun _ => .bind (buildAllModels_keeps hd hm hx) fun _ =>
  .bind (setPhase_keeps hf _) fun _ => .bind (writeContextHeader_keeps ht ho) fun _ =>
  .bind (setPhase_keeps hf _) fun _ => .bind (inRewind_keeps h hr hp) fun _ =>
  .bind (encodeContextPayload_keeps h ht ho hk hn hv) fun _ => .bind (setPhase_keeps hf _) fun _ =>
  padAndFlush_keeps ht ho hk

theorem writeNctx_keeps (hnc : F.AllowsNctx) (hfr : F.AllowsFresh) (v : Nat) : Run.Keeps F (writeNctx v) :=
  .update fun s => by
    split
    · exact hnc s _
    · exact F.trans _ _ _ (hnc s _) (hfr _ _)

theorem readRecord_keeps (h : F.AllowsIn) (hx : F.AllowsCtx) : Run.Keeps F readRecord :=
  .bind (memRead_keeps h 1) fun _ => .bind (.read _) fun _ => .bind (.require _ _) fun _ =>
  .bind (readHeaderWith_keeps h fun _ _ s => hx s _) fun _ => updateCtx_keeps hx _ _

theorem readContextHeader_keeps (h : F.AllowsIn) (hq : F.AllowsFreq) (htot : F.AllowsTotal)
    (hx : F.AllowsCtx) (hnc : F.AllowsNctx) (hfr : F.AllowsFresh) : Run.Keeps F readContextHeader :=
  .bind (.each (fun _ => updateCtx_keeps hx _ _) _) fun _ => .bind (readHeader_keeps h hq htot) fun _ =>
  .bind (memRead_keeps h 8) fun _ => .bind (writeNctx_keeps hnc hfr _) fun _ => .bind (.require _ _) fun _ =>
  .times (readRecord_keeps h hx) _

theorem decodeContextSymbol_keeps (h : F.AllowsIn) (hp : F.AllowsParse) (hc : F.AllowsCur) :
    Run.Keeps F decodeContextSymbol :=
  .bind (.read _) fun _ => .ite (.bind (.read _) fun _ => walkSymbol_keeps h hp hc _ _)
    (.bind (.read _) fun _ => .bind (.require _ _) fun _ => walkSymbol_keeps h hp hc _ _)

theorem decodeContextLoop_keeps (h : F.AllowsIn) (hp : F.AllowsParse) (hc : F.AllowsCur)
    (ht : F.AllowsTouchOut) (ho : F.AllowsOut) (hn : F.AllowsNsym) (hv : F.AllowsPrev) :
    ∀ n, Run.Keeps F (decodeContextLoop n)
  | 0 => .stuck
  | n + 1 => by
    refine .of_sat fun s₀ => .read_bind fun more => .ite (fun hb => ?_) (fun _ => .pure fun s hs => hs.1)
    have hset : ∀ (b : Byte) (G : Frame State), G.AllowsPrev →
        Run.Keeps G (setW (fun w => { w with prev := b.setWidth 9 })) :=
      fun b G hG => .update fun s => hG s _
    refine .conseq (P := fun s => F.rel s₀ s ∧ s.Below) ?_
      (fun s hs => ⟨hs.1, of_decide_eq_true (hs.2 ▸ hb)⟩) (fun _ _ h => h) (fun _ _ h => h)
    exact .bind ((decodeContextSymbol_keeps h hp hc).guard
        (decodeContextSymbol_keeps counters_in counters_parse counters_cur) s₀) fun b =>
      .bind ((outWrite_keeps ht ho b).guard (outWrite_keeps counters_touchOut counters_out b) s₀) fun _ =>
      .bind ((hset b F hv).guard (hset b _ counters_prev) s₀) fun _ =>
      .bind (bumpNsym_guard hn s₀) fun _ => (decodeContextLoop_keeps h hp hc ht ho hn hv n).sat s₀

theorem contextRebuild_keeps (hf : F.AllowsPhase) (h : F.AllowsIn) (hp : F.AllowsParse)
    (hc : F.AllowsCur) (ht : F.AllowsTouchOut) (ho : F.AllowsOut) (hn : F.AllowsNsym) (hd : F.AllowsDist)
    (hm : F.AllowsMain) (hv : F.AllowsPrev) (hx : F.AllowsCtx) : Run.Keeps F contextRebuild := by
  refine .bind (setPhase_keeps hf _) fun _ => .bind (buildAllModels_keeps hd hm hx) fun _ =>
    .bind (setPhase_keeps hf _) fun _ => .bind (.update fun s => ?_) fun _ => .bind (.read _) fun _ =>
    decodeContextLoop_keeps h hp hc ht ho hn hv _
  exact F.trans _ _ _ (hn s 0) (F.trans _ _ _ (hp (s.setW { s.w with nsym := 0 }) s.w.ibits 0)
    (hv (s.setW { s.w with nsym := 0, icnt := 0 }) 256))

theorem contextDecompress_keeps (hf : F.AllowsPhase) (h : F.AllowsIn) (hp : F.AllowsParse)
    (hc : F.AllowsCur) (ht : F.AllowsTouchOut) (ho : F.AllowsOut) (hn : F.AllowsNsym)
    (hq : F.AllowsFreq) (htot : F.AllowsTotal) (hd : F.AllowsDist) (hm : F.AllowsMain)
    (hv : F.AllowsPrev) (hx : F.AllowsCtx) (hnc : F.AllowsNctx) (hfr : F.AllowsFresh) :
    Run.Keeps F contextDecompress :=
  .bind (setPhase_keeps hf _) fun _ => .bind (readContextHeader_keeps h hq htot hx hnc hfr) fun _ =>
  contextRebuild_keeps hf h hp hc ht ho hn hd hm hv hx

/-! ### The blocks of the adaptive codec -/

theorem putPath_keeps (ht : F.AllowsTouchOut) (ho : F.AllowsOut) (hk : F.AllowsPack) (n : Nat) :
    Run.Keeps F (putPath n) := by
  refine .bind (.read _) fun p => ?_
  cases p with
  | none => exact .stuck
  | some bits => exact putBits_keeps ht ho hk bits

theorem nytSlot_keeps : Run.Keeps F nytSlot := by
  refine .bind (.read _) fun p => ?_
  cases p with
  | none => exact .stuck
  | some i => exact .pure _

theorem fgkEncodeSymbol_keeps (ht : F.AllowsTouchOut) (ho : F.AllowsOut) (hk : F.AllowsPack)
    (hg : F.AllowsFgk) (b : Byte) : Run.Keeps F (fgkEncodeSymbol b) := by
  refine .bind (.read _) fun lf => ?_
  cases lf with
  | some n => exact .bind (putPath_keeps ht ho hk n) fun _ => onFgk_keeps hg _
  | none =>
    exact .bind nytSlot_keeps fun _ => .bind (putPath_keeps ht ho hk _) fun _ =>
      .bind (putBits_keeps ht ho hk _) fun _ => .bind (onFgk_keeps hg _) fun _ => onFgk_keeps hg _

theorem adaptiveEncodeLoop_keeps (h : F.AllowsIn) (ht : F.AllowsTouchOut) (ho : F.AllowsOut)
    (hk : F.AllowsPack) (hn : F.AllowsNsym) (hfr : F.AllowsFresh) (hg : F.AllowsFgk) :
    ∀ n, Run.Keeps F (adaptiveEncodeLoop n)
  | 0 => .stuck
  | n + 1 => by
    refine .bind (inRead_keeps h) fun r => ?_
    cases r with
    | none => exact .pure _
    | some b =>
      exact .bind (fgkEncodeSymbol_keeps ht ho hk hg b) fun _ => .bind (bumpNsym_keeps hn hfr) fun _ =>
        adaptiveEncodeLoop_keeps h ht ho hk hn hfr hg n

theorem fgkPad_keeps (ht : F.AllowsTouchOut) (ho : F.AllowsOut) (hk : F.AllowsPack) :
    Run.Keeps F fgkPad := by
  refine .bind nytSlot_keeps fun _ => .bind (.read _) fun p => ?_
  cases p with
  | none => exact .stuck
  | some bits => exact .bind (.read _) fun _ => putBits_keeps ht ho hk _

theorem adaptiveCompress_keeps (hf : F.AllowsPhase) (h : F.AllowsIn) (ht : F.AllowsTouchOut)
    (ho : F.AllowsOut) (hk : F.AllowsPack) (hn : F.AllowsNsym) (hfr : F.AllowsFresh) (hg : F.AllowsFgk) :
    Run.Keeps F adaptiveCompress :=
  .bind (onFgk_keeps hg _) fun _ => .bind (setPhase_keeps hf _) fun _ =>
  .bind (.update fun s => hn s 0) fun _ => .bind (.read _) fun _ =>
  .bind (adaptiveEncodeLoop_keeps h ht ho hk hn hfr hg _) fun _ => .bind (setPhase_keeps hf _) fun _ =>
  .bind (fgkPad_keeps ht ho hk) fun _ => padAndFlush_keeps ht ho hk

theorem fgkDescend_keeps (h : F.AllowsIn) (hp : F.AllowsParse) (hc : F.AllowsCur) :
    ∀ k cur, Run.Keeps F (fgkDescend k cur)
  | 0, _ => .stuck
  | k + 1, cur => by
    refine .bind (.read _) fun nd => .ite (.bind (getBitOpt_keeps h hp) fun b => ?_) (.pure _)
    cases b with
    | none => exact .pure _
    | some bit =>
      refine .bind (.update fun s => hc s _) fun _ => ?_
      cases (if bit then nd.right else nd.left) with
      | none => exact .stuck
      | some next => exact fgkDescend_keeps h hp hc k next

theorem readLiteral_keeps (h : F.AllowsIn) (hp : F.AllowsParse) : ∀ n v, Run.Keeps F (readLiteral n v)
  | 0, _ => .pure _
  | n + 1, v => by
    refine .bind (getBitOpt_keeps h hp) fun b => ?_
    cases b with
    | none => exact .pure _
    | some bit => exact readLiteral_keeps h hp n _

theorem fgkDecodeSymbol_keeps (h : F.AllowsIn) (hp : F.AllowsParse) (hc : F.AllowsCur) (hg : F.AllowsFgk) :
    Run.Keeps F fgkDecodeSymbol := by
  refine .bind (.read _) fun root => .bind (.update fun s => hc s _) fun _ => ?_
  cases root with
  | none => exact .stuck
  | some r =>
    refine .bind (.read _) fun _ => .bind (fgkDescend_keeps h hp hc _ _) fun found => ?_
    cases found with
    | none => exact .pure _
    | some n =>
      refine .bind (.read _) fun nd => .ite (.bind (readLiteral_keeps h hp _ _) fun lit => ?_)
        (.bind (onFgk_keeps hg _) fun _ => .pure _)
      cases lit with
      | none => exact .pure _
      | some v =>
        exact .bind (.read _) fun _ => .bind (.require _ _) fun _ => .bind (onFgk_keeps hg _) fun _ =>
          .bind (onFgk_keeps hg _) fun _ => .pure _

theorem adaptiveDecodeLoop_keeps (h : F.AllowsIn) (hp : F.AllowsParse) (hc : F.AllowsCur)
    (hg : F.AllowsFgk) (ht : F.AllowsTouchOut) (ho : F.AllowsOut) (hn : F.AllowsNsym)
    (hfr : F.AllowsFresh) : ∀ n, Run.Keeps F (adaptiveDecodeLoop n)
  | 0 => .stuck
  | n + 1 => by
    refine .bind (fgkDecodeSymbol_keeps h hp hc hg) fun r => ?_
    cases r with
    | none => exact .pure _
    | some b =>
      exact .bind (outWrite_keeps ht ho b) fun _ => .bind (bumpNsym_keeps hn hfr) fun _ =>
        adaptiveDecodeLoop_keeps h hp hc hg ht ho hn hfr n

theorem adaptiveDecompress_keeps (hf : F.AllowsPhase) (h : F.AllowsIn) (hp : F.AllowsParse)
    (hc : F.AllowsCur) (hg : F.AllowsFgk) (ht : F.AllowsTouchOut) (ho : F.AllowsOut) (hn : F.AllowsNsym)
    (hfr : F.AllowsFresh) : Run.Keeps F adaptiveDecompress := by
  refine .bind (onFgk_keeps hg _) fun _ => .bind (setPhase_keeps hf _) fun _ =>
    .bind (.update fun s => ?_) fun _ => .bind (.read _) fun _ =>
    adaptiveDecodeLoop_keeps h hp hc hg ht ho hn hfr _
  exact F.trans _ _ _ (hn s 0) (hp (s.setW { s.w with nsym := 0 }) s.w.ibits 0)

/-! ### The blocks of the arithmetic codec -/

theorem emitWithPending_keeps (ht : F.AllowsTouchOut) (ho : F.AllowsOut) (hk : F.AllowsPack)
    (hd : F.AllowsPend) (b : Bool) : Run.Keeps F (emitWithPending b) :=
  .bind (putBit_keeps ht ho hk _) fun _ => .bind (.read _) fun _ =>
  .bind (.times (putBit_keeps ht ho hk _) _) fun _ => .update fun s => hd s 0

theorem rescale_keeps (hi : F.AllowsInterval) (r : Renorm) : Run.Keeps F (setW (fun w => w.rescale r)) :=
  .update fun s => hi s _ _

theorem encRenorm_keeps (ht : F.AllowsTouchOut) (ho : F.AllowsOut) (hk : F.AllowsPack)
    (hd : F.AllowsPend) (hi : F.AllowsInterval) : ∀ n, Run.Keeps F (encRenorm n)
  | 0 => .stuck
  | n + 1 => by
    refine .bind (.read _) fun r => ?_
    cases r with
    | lower =>
      exact .bind (emitWithPending_keeps ht ho hk hd _) fun _ => .bind (rescale_keeps hi _) fun _ =>
        encRenorm_keeps ht ho hk hd hi n
    | upper =>
      exact .bind (emitWithPending_keeps ht ho hk hd _) fun _ => .bind (rescale_keeps hi _) fun _ =>
        encRenorm_keeps ht ho hk hd hi n
    | middle =>
      exact .bind (.update fun s => hd s _) fun _ => .bind (rescale_keeps hi _) fun _ =>
        encRenorm_keeps ht ho hk hd hi n
    | done => exact .pure _

theorem narrow_keeps (hi : F.AllowsInterval) (e : RangeEntry) : Run.Keeps F (narrow e) :=
  .update fun s => hi s _ _

theorem arithEncode_keeps (ht : F.AllowsTouchOut) (ho : F.AllowsOut) (hk : F.AllowsPack)
    (hd : F.AllowsPend) (hi : F.AllowsInterval) (e : RangeEntry) : Run.Keeps F (arithEncode e) :=
  .bind (narrow_keeps hi e) fun _ => encRenorm_keeps ht ho hk hd hi _

theorem arithFlush_keeps (ht : F.AllowsTouchOut) (ho : F.AllowsOut) (hk : F.AllowsPack)
    (hd : F.AllowsPend) : Run.Keeps F arithFlush :=
  .bind (.update fun s => hd s _) fun _ => .bind (.read _) fun _ =>
  .ite (emitWithPending_keeps ht ho hk hd _) (emitWithPending_keeps ht ho hk hd _)

theorem arithEncodeSym_keeps (ht : F.AllowsTouchOut) (ho : F.AllowsOut) (hk : F.AllowsPack)
    (hd : F.AllowsPend) (hi : F.AllowsInterval) (sym : Nat) : Run.Keeps F (arithEncodeSym sym) := by
  refine .bind (.read _) fun e => ?_
  cases e with
  | none => exact .stuck
  | some x => exact arithEncode_keeps ht ho hk hd hi x

theorem arithEncodeLoop_keeps (h : F.AllowsIn) (ht : F.AllowsTouchOut) (ho : F.AllowsOut)
    (hk : F.AllowsPack) (hd : F.AllowsPend) (hi : F.AllowsInterval) (hn : F.AllowsNsym) :
    ∀ n, Run.Keeps F (arithEncodeLoop n)
  | 0 => .stuck
  | n + 1 => by
    refine .bind (inRead_keeps h) fun r => ?_
    cases r with
    | none => exact .pure _
    | some b =>
      refine .of_sat fun s₀ => .read_bind fun more => ?_
      refine .bind (R := fun _ s => F.rel s₀ s ∧ s.Below) (.require (fun hb s hs => ⟨hs.1, ?_⟩)
        (fun _ s hs => hs.1)) fun _ => ?_
      · rw [hs.2, Bool.and_eq_true] at hb
        exact of_decide_eq_true hb.2
      · exact .bind ((arithEncodeSym_keeps ht ho hk hd hi _).guard (arithEncodeSym_keeps
          counters_touchOut counters_out counters_pack counters_pend counters_interval _) s₀) fun _ =>
          .bind (bumpNsym_guard hn s₀) fun _ => (arithEncodeLoop_keeps h ht ho hk hd hi hn n).sat s₀

theorem arithSecondPass_keeps (hf : F.AllowsPhase) (h : F.AllowsIn) (hr : F.AllowsRewind)
    (hp : F.AllowsParse) (ht : F.AllowsTouchOut) (ho : F.AllowsOut) (hk : F.AllowsPack)
    (hd : F.AllowsPend) (hi : F.AllowsInterval) (hn : F.AllowsNsym) : Run.Keeps F arithSecondPass := by
  refine .bind (setPhase_keeps hf _) fun _ => .bind (inRewind_keeps h hr hp) fun _ =>
    .bind (.update fun s => ?_) fun _ => .bind (.read _) fun _ =>
    .bind (arithEncodeLoop_keeps h ht ho hk hd hi hn _) fun _ =>
    .bind (.bind (.read _) fun _ => .require _ _) fun _ => .bind (.read _) fun _ =>
    .bind (arithEncode_keeps ht ho hk hd hi _) fun _ => .bind (setPhase_keeps hf _) fun _ =>
    .bind (arithFlush_keeps ht ho hk hd) fun _ => padAndFlush_keeps ht ho hk
  exact F.trans _ _ _ (hi s _ _) (F.trans _ _ _ (hd (s.setW (s.w.setInterval 0 Config.scaleM)) 0)
    (hn (s.setW { s.w.setInterval 0 Config.scaleM with pend := 0 }) 0))

theorem arithCompress_keeps (hf : F.AllowsPhase) (h : F.AllowsIn) (hr : F.AllowsRewind)
    (hp : F.AllowsParse) (ht : F.AllowsTouchOut) (ho : F.AllowsOut) (hk : F.AllowsPack)
    (hd : F.AllowsPend) (hi : F.AllowsInterval) (hn : F.AllowsNsym) (hq : F.AllowsFreq)
    (htot : F.AllowsTotal) (hdist : F.AllowsDist) (hrange : F.AllowsRange) (hrt : F.AllowsRt) :
    Run.Keeps F arithCompress :=
  .bind (setPhase_keeps hf _) fun _ => .bind (countBlock_keeps h hq htot) fun _ =>
  .bind (setPhase_keeps hf _) fun _ => .bind (rangesBlock_keeps hdist hrange hrt) fun _ =>
  .bind (setPhase_keeps hf _) fun _ => .bind (.read _) fun _ => .bind (writeHeader_keeps ht ho _) fun _ =>
  .bind (.read _) fun _ => .ite (.pure _) (arithSecondPass_keeps hf h hr hp ht ho hk hd hi hn)

theorem shiftVal_keeps (h : F.AllowsIn) (hp : F.AllowsParse) (hval : F.AllowsVal) (f : Nat → Nat) :
    Run.Keeps F (shiftVal f) := .bind (getBitOrZero_keeps h hp) fun _ => .update fun s => hval s _

theorem arithFind_keeps : Run.Keeps F arithFind := by
  refine .bind (.read _) fun e => ?_
  cases e with
  | none => exact .raise _
  | some x => exact .pure _

theorem decRenorm_keeps (h : F.AllowsIn) (hp : F.AllowsParse) (hval : F.AllowsVal)
    (hi : F.AllowsInterval) : ∀ n, Run.Keeps F (decRenorm n)
  | 0 => .stuck
  | n + 1 => .bind (.read _) fun _ => .ite (.pure _)
    (.bind (rescale_keeps hi _) fun _ => .bind (shiftVal_keeps h hp hval _) fun _ =>
      decRenorm_keeps h hp hval hi n)

theorem arithDecodeLoop_keeps (h : F.AllowsIn) (hp : F.AllowsParse) (hval : F.AllowsVal)
    (hi : F.AllowsInterval) (ht : F.AllowsTouchOut) (ho : F.AllowsOut) (hn : F.AllowsNsym) :
    ∀ n, Run.Keeps F (arithDecodeLoop n)
  | 0 => .stuck
  | n + 1 => by
    refine .of_sat fun s₀ => .read_bind fun more => .ite (fun hb => ?_) (fun _ => .pure fun s hs => hs.1)
    refine .conseq (P := fun s => F.rel s₀ s ∧ s.Below) (.bind (arithFind_keeps.guard arithFind_keeps s₀)
      fun e => .ite (fun _ => .pure fun s hs => hs.1) fun _ => ?_)
      (fun s hs => ⟨hs.1, of_decide_eq_true (hs.2 ▸ hb)⟩) (fun _ _ h => h) (fun _ _ h => h)
    exact .bind ((outWrite_keeps ht ho _).guard (outWrite_keeps counters_touchOut counters_out _) s₀) fun _ =>
      .bind (bumpNsym_guard hn s₀) fun _ => .bind ((narrow_keeps hi e).sat s₀) fun _ =>
      .bind ((decRenorm_keeps h hp hval hi _).sat s₀) fun _ =>
      (arithDecodeLoop_keeps h hp hval hi ht ho hn n).sat s₀

theorem arithRebuild_keeps (hf : F.AllowsPhase) (h : F.AllowsIn) (hp : F.AllowsParse) (hval : F.AllowsVal)
    (hi : F.AllowsInterval) (ht : F.AllowsTouchOut) (ho : F.AllowsOut) (hn : F.AllowsNsym)
    (hdist : F.AllowsDist) (hrange : F.AllowsRange) (hrt : F.AllowsRt) (total : Nat) :
    Run.Keeps F (arithRebuild total) := by
  refine .bind (setPhase_keeps hf _) fun _ => .bind (rangesBlock_keeps hdist hrange hrt) fun _ =>
    .bind (setPhase_keeps hf _) fun _ => .bind (.update fun s => ?_) fun _ =>
    .bind (.times (shiftVal_keeps h hp hval _) _) fun _ => .bind (.update fun s => hi s _ _) fun _ =>
    arithDecodeLoop_keeps h hp hval hi ht ho hn _
  exact F.trans _ _ _ (hp s s.w.ibits 0) (F.trans _ _ _ (hn (s.setW { s.w with icnt := 0 }) 0)
    (hval (s.setW { s.w with icnt := 0, nsym := 0 }) 0))

theorem arithDecompress_keeps (hf : F.AllowsPhase) (h : F.AllowsIn) (hp : F.AllowsParse) (hval : F.AllowsVal)
    (hi : F.AllowsInterval) (ht : F.AllowsTouchOut) (ho : F.AllowsOut) (hn : F.AllowsNsym)
    (hq : F.AllowsFreq) (htot : F.AllowsTotal) (hdist : F.AllowsDist) (hrange : F.AllowsRange)
    (hrt : F.AllowsRt) : Run.Keeps F arithDecompress :=
  .bind (setPhase_keeps hf _) fun _ => .bind (readHeader_keeps h hq htot) fun _ => .bind (.read _) fun _ =>
  .ite (.pure _) (arithRebuild_keeps hf h hp hval hi ht ho hn hdist hrange hrt _)

/-! ### A whole command -/

/-- `STATUS` and `FAULTCODE`. -/
abbrev Frame.AllowsControl (F : Frame State) : Prop := ∀ s x c, F.rel s ((s.setFaultCode c).setStatus x)
/-- The latch of acceptance: `IN_BASE`, the ordinals of the oracle. -/
abbrev Frame.AllowsAccept (F : Frame State) : Prop :=
  ∀ s x, F.rel s ((s.setStatus x).setIo { s.io with inBase := s.io.inPos, inAcc := 0, outAcc := 0 })

/-- A frame that allows what accepting, ending and trapping write is kept by the command, however it ends. -/
theorem runCommand_frame {accept : State → State} {body : Eng Unit} (ha : ∀ s, F.rel s (accept s))
    (hf : F.AllowsPhase) (hc : F.AllowsControl) (hb : Run.Keeps F body) {s t : State}
    (h : runCommand accept body s = .next t) : F.rel s t := by
  unfold runCommand at h
  split at h
  · cases h
  · split at h
    · cases h; exact F.refl s
    · have h1 := F.trans _ _ _ (ha s) (hb (accept s))
      cases hr : body (accept s) with
      | ok a u =>
        rw [hr] at h h1
        cases a
        cases h
        exact F.trans _ _ _ h1 (F.trans _ _ _ (hf u .idle)
          (hc (u.setPhase .idle) u.status.ended (u.setPhase .idle).faultCode))
      | error e u =>
        rw [hr] at h h1
        cases e with
        | raise c => cases h; exact F.trans _ _ _ h1 (hc u _ _)
        | stuck => cases h

theorem runPrimitive_frame {block : Eng Unit} (ha : F.AllowsAccept) (hf : F.AllowsPhase)
    (hc : F.AllowsControl) (hb : Run.Keeps F block) {s t : State}
    (h : runPrimitive block s = .next t) : F.rel s t :=
  runCommand_frame (fun s => ha s _) hf hc (.bind (setPhase_keeps hf _) fun _ => .bind hb fun _ =>
    setPhase_keeps hf _) h

theorem runStream_frame {block : Eng Unit} (ha : F.AllowsAccept) (hf : F.AllowsPhase)
    (hc : F.AllowsControl) (hk : F.AllowsPack) (hp : F.AllowsParse) (hn : F.AllowsNsym)
    (hv : F.AllowsPrev) (hcur : F.AllowsCur) (hd : F.AllowsPend) (hb : Run.Keeps F block) {s t : State}
    (h : runStream block s = .next t) : F.rel s t :=
  runCommand_frame (fun s => ha s _) hf hc (.bind (commandInit_keeps hk hp hn hv hcur hd) fun _ =>
    .bind hb fun _ => setPhase_keeps hf _) h

end Sys2Proof.Machine
end

