-- ==== Sys2Proof/Laws/Huffman.lean ====
section
/-! SUPPORT. `BLD.HUFFMAN`'s merges and the tree of the merges of Safety.lean. -/

namespace Sys2Proof.Machine

/-- A node in the priority structure with the tree below it. -/
abbrev QTree := QNode × Shape

/-- The queue without its slots. -/
abbrev qShapes (Q : List QTree) : List (Nat × Shape) := Q.map (fun p => (p.1.weight, p.2))

/-- `PopMin` on nodes with their trees. -/
def popTree : List QTree → Option (QTree × List QTree)
  | [] => none
  | x :: xs =>
    match popTree xs with
    | none => some (x, [])
    | some (m, rest) => if m.1.weight < x.1.weight then some (m, x :: rest) else some (x, xs)

theorem popTree_fst : ∀ Q : List QTree, popMin (Q.map Prod.fst) =
    (popTree Q).map (fun r => (r.1.1, r.2.map Prod.fst))
  | [] => rfl
  | x :: xs => by
    rw [List.map_cons, popMin, popTree_fst xs, popTree]
    cases popTree xs with
    | none => rfl
    | some r =>
      show (if r.1.1.weight < x.1.weight then _ else _) = _
      by_cases h : r.1.1.weight < x.1.weight
      · simp only [h, if_true]; rfl
      · simp only [h, if_false]; rfl

theorem popTree_shapes : ∀ Q : List QTree, takeLeast (qShapes Q) =
    (popTree Q).map (fun r => ((r.1.1.weight, r.1.2), qShapes r.2))
  | [] => rfl
  | x :: xs => by
    rw [qShapes, List.map_cons, takeLeast, show List.map _ xs = qShapes xs from rfl, popTree_shapes xs, popTree]
    cases popTree xs with
    | none => rfl
    | some r =>
      show (if r.1.1.weight < x.1.weight then _ else _) = _
      by_cases h : r.1.1.weight < x.1.weight
      · simp only [h, if_true]; rfl
      · simp only [h, if_false]; rfl

theorem popTree_perm : ∀ {Q : List QTree} {p : QTree} {R : List QTree}, popTree Q = some (p, R) →
    (p :: R).Perm Q
  | [], _, _, h => by cases h
  | x :: xs, p, R, h => by
    rw [popTree] at h
    cases hx : popTree xs with
    | none =>
      rw [hx] at h
      cases h
      cases xs with
      | nil => exact List.Perm.refl _
      | cons y ys =>
        rw [popTree] at hx
        cases hy : popTree ys with
        | none => rw [hy] at hx; cases hx
        | some r =>
          rw [hy] at hx
          simp only at hx
          split at hx <;> cases hx
    | some r =>
      rw [hx] at h
      simp only at h
      split at h
      · cases h
        exact (List.Perm.swap x r.1 r.2).trans ((popTree_perm hx).cons x)
      · cases h; exact List.Perm.refl _

theorem popTree_none {Q : List QTree} (h : popTree Q = none) : Q = [] := by
  cases Q with
  | nil => rfl
  | cons x xs =>
    rw [popTree] at h
    cases hx : popTree xs with
    | none => rw [hx] at h; cases h
    | some r =>
      rw [hx] at h
      simp only at h
      split at h <;> cases h

/-- The queue's trees stand in slots of their own, all in use. -/
structure TreeMem.Queue (t : TreeMem) (Q : List QTree) : Prop where
  holds : ∀ p ∈ Q, t.Holds p.2 p.1.slot
  nodup : (Q.flatMap fun p => t.slots p.2 p.1.slot).Nodup
  used : ∀ k ∈ Q.flatMap fun p => t.slots p.2 p.1.slot, k < t.nnodes.toNat

theorem TreeMem.Queue.perm {t : TreeMem} {Q R : List QTree} (h : t.Queue Q) (hp : R.Perm Q) : t.Queue R where
  holds p hm := h.holds p (hp.mem_iff.1 hm)
  nodup := (hp.flatMap_right _).nodup_iff.2 h.nodup
  used k hk := h.used k ((hp.flatMap_right _).mem_iff.1 hk)

/-- Two trees merged under a new node. -/
theorem TreeMem.Queue.merge {t : TreeMem} {a b : QTree} {R : List QTree} (h : t.Queue (a :: b :: R))
    (hcap : t.nnodes.toNat + 1 < 2 ^ 14) :
    let v := ({ t with nnodes := t.nnodes + 1 } : TreeMem).setNode t.nnodes.toNat ⟨none, some b.1.slot, some a.1.slot⟩
    v.Queue (R ++ [(⟨t.nnodes.toNat, a.1.weight + b.1.weight⟩, .both b.2 a.2)]) ∧
      v.nnodes.toNat = t.nnodes.toNat + 1 ∧ ∀ k, k < t.nnodes.toNat → v.node k = t.node k := by
  intro v
  have hvn : v.node t.nnodes.toNat = ⟨none, some b.1.slot, some a.1.slot⟩ := by
    rw [TreeMem.node_setNode, if_pos rfl]
  have hvo : ∀ k, k < t.nnodes.toNat → v.node k = t.node k := fun k hk => by
    rw [TreeMem.node_setNode, if_neg (by omega)]; rfl
  have hnn : v.nnodes.toNat = t.nnodes.toNat + 1 := by
    show (t.nnodes + 1).toNat = _
    rw [BitVec.toNat_add, show (1 : BitVec 14).toNat = 1 from rfl]
    omega
  have hc : ∀ p ∈ a :: b :: R, v.Holds p.2 p.1.slot ∧ v.slots p.2 p.1.slot = t.slots p.2 p.1.slot := fun p hp =>
    (h.holds p hp).congr fun k hk => hvo k (h.used k (List.mem_flatMap.2 ⟨p, hp, hk⟩))
  have ha := hc a (by simp)
  have hb := hc b (by simp)
  have hR : (R.flatMap fun p => v.slots p.2 p.1.slot) = R.flatMap fun p => t.slots p.2 p.1.slot :=
    List.flatMap_congr fun p hp => (hc p (by simp [hp])).2
  have hnew : v.slots (.both b.2 a.2) t.nnodes.toNat =
      t.nnodes.toNat :: (t.slots b.2 b.1.slot ++ t.slots a.2 a.1.slot) := by
    rw [TreeMem.slots, hvn]
    show _ :: (v.slots b.2 b.1.slot ++ v.slots a.2 a.1.slot) = _
    rw [ha.2, hb.2]
  have hall : ((R ++ [((⟨t.nnodes.toNat, a.1.weight + b.1.weight⟩ : QNode), Shape.both b.2 a.2)]).flatMap
      fun p => v.slots p.2 p.1.slot) =
      (R.flatMap fun p => t.slots p.2 p.1.slot) ++
        t.nnodes.toNat :: (t.slots b.2 b.1.slot ++ t.slots a.2 a.1.slot) := by
    rw [List.flatMap_append, hR, List.flatMap_singleton]
    exact congrArg _ hnew
  have hold := h.nodup
  have hused := h.used
  rw [List.flatMap_cons, List.flatMap_cons] at hold hused
  have hperm : ((R.flatMap fun p => t.slots p.2 p.1.slot) ++
      t.nnodes.toNat :: (t.slots b.2 b.1.slot ++ t.slots a.2 a.1.slot)).Perm
      (t.nnodes.toNat :: (t.slots a.2 a.1.slot ++ (t.slots b.2 b.1.slot ++
        R.flatMap fun p => t.slots p.2 p.1.slot))) := by
    refine List.perm_middle.trans (List.Perm.cons _ ?_)
    refine (List.perm_append_comm.append_left _).trans ?_
    refine List.perm_append_comm.trans ?_
    rw [List.append_assoc]
  refine ⟨⟨fun p hp => ?_, ?_, ?_⟩, hnn, hvo⟩
  · rcases List.mem_append.1 hp with hp | hp
    · exact (hc p (by simp [hp])).1
    · rw [List.mem_singleton] at hp
      subst hp
      exact ⟨_, _, hvn, hb.1, ha.1⟩
  · rw [hall, hperm.nodup_iff, List.nodup_cons]
    exact ⟨fun hm => Nat.lt_irrefl _ (hused _ hm), hold⟩
  · rw [hall, hnn]
    intro k hk
    rcases List.mem_cons.1 (hperm.mem_iff.1 hk) with rfl | hk
    · omega
    · have := hused k hk; omega

/-- The merge loop (R182, R184). -/
theorem mergeLoop_ok : ∀ (k : Nat) {Q : List QTree} {t : TreeMem}, Q ≠ [] → Q.length ≤ k → t.Queue Q →
    t.nnodes.toNat + Q.length ≤ 2 ^ 14 →
    ∃ r u, mergeLoop k (Q.map Prod.fst) t = .ok r u ∧
      u.Queue [(⟨r, 0⟩, huffmanTree k (qShapes Q))] ∧ u.nnodes.toNat + 1 = t.nnodes.toNat + Q.length ∧
      (2 ≤ Q.length → r + 1 = u.nnodes.toNat) ∧ u.root = t.root ∧ u.scheme = t.scheme ∧
      ∀ k, k < t.nnodes.toNat → u.node k = t.node k := by
  intro k
  induction k with
  | zero => intro Q t hne hk _ _; exact absurd (List.eq_nil_of_length_eq_zero (by omega)) hne
  | succ k ih =>
    intro Q t hne hk hq hcap
    rw [mergeLoop, popTree_fst, huffmanTree, popTree_shapes]
    cases h1 : popTree Q with
    | none => exact absurd (popTree_none h1) hne
    | some r1 =>
      obtain ⟨a, Q1⟩ := r1
      have hp1 := popTree_perm h1
      simp only [Option.map_some]
      rw [popTree_fst, popTree_shapes]
      cases h2 : popTree Q1 with
      | none =>
        have := popTree_none h2
        subst this
        have hl : Q.length = 1 := hp1.length_eq.symm
        refine ⟨a.1.slot, t, rfl, ?_, by omega, by omega, rfl, rfl, fun _ _ => rfl⟩
        have hqa := hq.perm hp1
        exact ⟨fun p hp => by rw [List.mem_singleton] at hp; subst hp; exact hqa.holds a (by simp),
          by have := hqa.nodup; rwa [List.flatMap_singleton] at this ⊢,
          by have := hqa.used; rwa [List.flatMap_singleton] at this ⊢⟩
      | some r2 =>
        obtain ⟨b, Q2⟩ := r2
        have hp2 := popTree_perm h2
        have hperm : (a :: b :: Q2).Perm Q := (hp2.cons a).trans hp1
        have hl : Q.length = Q2.length + 2 := hperm.length_eq.symm
        obtain ⟨hm, hn, ho⟩ := (hq.perm hperm).merge (by omega)
        simp only [Option.map_some]
        obtain ⟨r, u, g1, g2, g3, g4, g5, g6, g7⟩ := ih (by simp) (by simp; omega) hm
          (by rw [hn]; simp; omega)
        rw [List.map_append] at g1
        rw [qShapes, List.map_append] at g2
        rw [hn, List.length_append, List.length_singleton] at g3
        refine ⟨r, u, ?_, g2, by omega, fun _ => ?_, g5, g6, fun k hk => (g7 k (by omega)).trans (ho k hk)⟩
        · exact g1
        · by_cases h0 : Q2 = []
          · subst h0
            obtain ⟨k, rfl⟩ : ∃ j, k = j + 1 := ⟨k - 1, by rw [hl] at hk; simp at hk; omega⟩
            have : mergeLoop (k + 1) ([] ++ [⟨t.nnodes.toNat, a.1.weight + b.1.weight⟩])
                (({ t with nnodes := t.nnodes + 1 } : TreeMem).setNode t.nnodes.toNat
                  ⟨none, some b.1.slot, some a.1.slot⟩) = .ok t.nnodes.toNat _ := rfl
            have g1' : mergeLoop (k + 1) ([] ++ [⟨t.nnodes.toNat, a.1.weight + b.1.weight⟩])
                (({ t with nnodes := t.nnodes + 1 } : TreeMem).setNode t.nnodes.toNat
                  ⟨none, some b.1.slot, some a.1.slot⟩) = .ok r u := g1
            rw [this] at g1'
            cases g1'
            exact hn.symm
          · have := List.length_pos_of_ne_nil h0
            exact g4 (by rw [List.length_append, List.length_singleton]; omega)

/-- The symbols of the merged tree are those of the queue; every node has two children or none. -/
theorem huffmanTree_symbols : ∀ (k : Nat) (Q : List QTree), Q ≠ [] → Q.length ≤ k →
    (huffmanTree k (qShapes Q)).symbols.Perm (Q.flatMap fun p => p.2.symbols) ∧
      ((∀ p ∈ Q, p.2.full = true) → (huffmanTree k (qShapes Q)).full = true) := by
  intro k
  induction k with
  | zero => intro Q hne hk; exact absurd (List.eq_nil_of_length_eq_zero (by omega)) hne
  | succ k ih =>
    intro Q hne hk
    rw [huffmanTree, popTree_shapes]
    cases h1 : popTree Q with
    | none => exact absurd (popTree_none h1) hne
    | some r1 =>
      obtain ⟨a, Q1⟩ := r1
      have hp1 := popTree_perm h1
      simp only [Option.map_some]
      rw [popTree_shapes]
      cases h2 : popTree Q1 with
      | none =>
        have := popTree_none h2
        subst this
        refine ⟨?_, fun h => h a (hp1.subset (by simp))⟩
        have := hp1.flatMap_right fun p : QTree => p.2.symbols
        rw [List.flatMap_singleton] at this
        exact this
      | some r2 =>
        obtain ⟨b, Q2⟩ := r2
        have hp2 := popTree_perm h2
        have hperm : (a :: b :: Q2).Perm Q := (hp2.cons a).trans hp1
        have hl : Q.length = Q2.length + 2 := hperm.length_eq.symm
        have hi := ih (Q2 ++ [((⟨0, a.1.weight + b.1.weight⟩ : QNode), Shape.both b.2 a.2)]) (by simp)
          (by simp; omega)
        rw [qShapes, List.map_append] at hi
        simp only [Option.map_some]
        refine ⟨hi.1.trans ?_, fun h => hi.2 fun p hp => ?_⟩
        · refine List.Perm.trans ?_ (hperm.flatMap_right fun p : QTree => p.2.symbols)
          rw [List.flatMap_append, List.flatMap_singleton, List.flatMap_cons, List.flatMap_cons]
          show ((Q2.flatMap fun p => p.2.symbols) ++ (b.2.symbols ++ a.2.symbols)).Perm _
          refine (List.perm_append_comm.append_left _).trans ?_
          refine List.perm_append_comm.trans ?_
          rw [List.append_assoc]
        · rcases List.mem_append.1 hp with hp | hp
          · exact h p (hperm.subset (by simp [hp]))
          · rw [List.mem_singleton] at hp
            subst hp
            rw [Shape.full, h a (hperm.subset (by simp)), h b (hperm.subset (by simp))]
            rfl

/-- The leaves with their trees (R182). -/
def leafTrees : List DistEntry → Nat → List QTree
  | [], _ => []
  | e :: es, i => (⟨i, e.cnt.toNat⟩, .leaf e.sym) :: leafTrees es (i + 1)

theorem leafTrees_fst : ∀ (dl : List DistEntry) (i : Nat), (leafTrees dl i).map Prod.fst = leafQueue dl i
  | [], _ => rfl
  | e :: dl, i => by rw [leafTrees, List.map_cons, leafTrees_fst dl]; rfl

theorem leafTrees_shapes : ∀ (dl : List DistEntry) (i : Nat), qShapes (leafTrees dl i) =
    dl.map (fun e => (e.cnt.toNat, Shape.leaf e.sym))
  | [], _ => rfl
  | e :: dl, i => by
    rw [qShapes, leafTrees, List.map_cons, List.map_cons]
    exact congrArg _ (leafTrees_shapes dl (i + 1))

theorem leafTrees_length : ∀ (dl : List DistEntry) (i : Nat), (leafTrees dl i).length = dl.length
  | [], _ => rfl
  | e :: dl, i => by rw [leafTrees, List.length_cons, leafTrees_length dl, List.length_cons]

theorem leafTrees_symbols : ∀ (dl : List DistEntry) (i : Nat),
    ((leafTrees dl i).flatMap fun p => p.2.symbols) = dl.map DistEntry.sym
  | [], _ => rfl
  | e :: dl, i => by rw [leafTrees, List.flatMap_cons, leafTrees_symbols dl]; rfl

theorem leafTrees_full : ∀ (dl : List DistEntry) (i : Nat), ∀ p ∈ leafTrees dl i, p.2.full = true
  | [], _, p, h => by cases h
  | e :: dl, i, p, h => by
    rcases List.mem_cons.1 h with rfl | h
    · rfl
    · exact leafTrees_full dl (i + 1) p h

theorem leafTrees_slots (t : TreeMem) : ∀ (dl : List DistEntry) (i : Nat),
    ((leafTrees dl i).flatMap fun p => t.slots p.2 p.1.slot) = List.range' i dl.length
  | [], _ => rfl
  | e :: dl, i => by
    rw [leafTrees, List.flatMap_cons, leafTrees_slots t dl, List.length_cons, List.range'_succ]; rfl

theorem plantLeaves_ok : ∀ (dl : List DistEntry) (i : Nat) (t : TreeMem), ∃ u,
    plantLeaves dl i t = .ok () u ∧ u.scheme = t.scheme ∧ u.nnodes = t.nnodes ∧ u.root = t.root ∧
      (∀ j, j < i → u.node j = t.node j) ∧
      ∀ (k : Nat) (e : DistEntry), dl[k]? = some e → u.node (i + k) = ⟨some e.sym, none, none⟩
  | [], i, t => ⟨t, rfl, rfl, rfl, rfl, fun _ _ => rfl, fun k e h => by simp at h⟩
  | e :: dl, i, t => by
    obtain ⟨u, h1, h2, h3, h4, h5, h6⟩ := plantLeaves_ok dl (i + 1) (t.setNode i ⟨some e.sym, none, none⟩)
    refine ⟨u, h1, h2, h3, h4, fun j hj => ?_, fun k e' hk => ?_⟩
    · rw [h5 j (by omega), TreeMem.node_setNode, if_neg (by omega)]
    · cases k with
      | zero =>
        cases hk
        rw [Nat.add_zero, h5 i (by omega), TreeMem.node_setNode, if_pos rfl]
      | succ k =>
        have := h6 k e' hk
        rwa [show i + 1 + k = i + (k + 1) by omega] at this

theorem leafTrees_holds {t : TreeMem} : ∀ (dl : List DistEntry) (i : Nat),
    (∀ (k : Nat) (e : DistEntry), dl[k]? = some e → t.node (i + k) = ⟨some e.sym, none, none⟩) →
    ∀ p ∈ leafTrees dl i, t.Holds p.2 p.1.slot
  | [], _, _, p, h => by cases h
  | e :: dl, i, hn, p, h => by
    rcases List.mem_cons.1 h with rfl | h
    · show (t.node i).sym = some e.sym
      have := hn 0 e rfl
      rw [Nat.add_zero] at this
      rw [this]
    · refine leafTrees_holds dl (i + 1) (fun k e' hk => ?_) p h
      have := hn (k + 1) e' hk
      rwa [show i + (k + 1) = i + 1 + k by omega] at this

/-- `BLD.HUFFMAN`'s block on two entries or more (R182, R183, R184). -/
theorem huffmanBlock_ok {dl : List DistEntry} (h : IsDist dl) (h2 : 2 ≤ dl.length) (t : TreeMem) :
    ∃ u, huffmanBlock dl t = .ok () u ∧
      u.Agrees (huffmanTree dl.length (dl.map fun e => (e.cnt.toNat, Shape.leaf e.sym))) ∧
      u.nnodes.toNat = 2 * dl.length - 1 ∧ u.root = some (2 * dl.length - 2) ∧
      ∀ (k : Nat) (e : DistEntry), dl[k]? = some e → u.node k = ⟨some e.sym, none, none⟩ := by
  have hlen := h.length_le
  have hne : dl ≠ [] := by rintro rfl; simp at h2
  obtain ⟨v, h1, h3, _, _, _, h6⟩ := plantLeaves_ok dl 0 t
  have h6' : ∀ (k : Nat) (e : DistEntry), dl[k]? = some e → v.node k = ⟨some e.sym, none, none⟩ :=
    fun k e hk => by have := h6 k e hk; rwa [Nat.zero_add] at this
  let w : TreeMem := { v with nnodes := BitVec.ofNat 14 dl.length }
  have hwn : w.nnodes.toNat = dl.length := by
    show (BitVec.ofNat 14 dl.length).toNat = _
    rw [BitVec.toNat_ofNat]; omega
  have hq : w.Queue (leafTrees dl 0) := by
    refine ⟨leafTrees_holds dl 0 h6, ?_, ?_⟩
    · rw [leafTrees_slots]; exact List.nodup_range'
    · rw [leafTrees_slots, hwn]
      intro k hk
      have := List.mem_range'_1.1 hk
      omega
  have hqne : leafTrees dl 0 ≠ [] := fun h0 => by
    have := leafTrees_length dl 0
    rw [h0, List.length_nil] at this
    omega
  obtain ⟨r, u, g1, g2, g3, g4, g5, g6, g7⟩ := mergeLoop_ok dl.length hqne (by rw [leafTrees_length]) hq
    (by rw [hwn, leafTrees_length]; omega)
  have hsym := huffmanTree_symbols dl.length _ hqne (by rw [leafTrees_length])
  rw [leafTrees_shapes] at g2 hsym
  rw [leafTrees_symbols] at hsym
  rw [hwn, leafTrees_length] at g3
  rw [hwn] at g7
  rw [leafTrees_length] at g4
  rw [leafTrees_fst] at g1
  have hhold : u.Holds _ r := g2.holds _ (List.mem_singleton.2 rfl)
  have hslots := g2.nodup
  have hused := g2.used
  rw [List.flatMap_singleton] at hslots hused
  have hd := hhold.depth_le.trans (nodup_length_le hslots hused)
  obtain ⟨x, h7, h8, h9, h10, h11⟩ := deriveBlock_agrees (t := { u with root := some r })
    ⟨r, rfl, (TreeMem.Holds.congr (u := { u with root := some r }) hhold fun _ _ => rfl).1⟩
    (by have : depthBound = 10242 := rfl
        omega) (hsym.1.nodup_iff.2 h.1)
  have hr := g4 h2
  refine ⟨x, ?_, h11, ?_, ?_, fun k e hk => ?_⟩
  · have hblock : huffmanBlock dl t = (plantLeaves dl 0 >>= fun _ =>
        Run.update (fun t => { t with nnodes := BitVec.ofNat 14 dl.length }) >>= fun _ =>
        mergeLoop dl.length (leafQueue dl 0) >>= fun root =>
        Run.update (fun t => { t with root := some root }) >>= fun _ => deriveBlock) t := by
      rcases dl with _ | ⟨e, _ | ⟨e', es⟩⟩
      · simp at h2
      · simp at h2
      · rfl
    rw [hblock, Run.bind_ok h1, Run.update_bind, Run.bind_ok g1, Run.update_bind]
    exact h7
  · rw [h9]
    show u.nnodes.toNat = _
    omega
  · rw [h10]
    show some r = _
    rw [show r = 2 * dl.length - 2 by omega]
  · have hk' : k < dl.length := (List.getElem?_eq_some_iff.1 hk).1
    rw [TreeMem.node, h8]
    show u.node k = _
    rw [g7 k hk']
    exact h6' k e hk

end Sys2Proof.Machine
end

