-- ==== Sys2Proof/Laws/PerInstr.lean ====
section
/-! SUPPORT. What holds of every command as syntax: it is well formed, its code decodes to it, its code is none
other's, and the assembler's line names it. -/

namespace Sys2Proof.Laws.Coding

/-- R92, R93, R95 of one command. -/
def Statement (i : Instr) : Prop :=
  i.wf = true ∧ decode (encode i) = .ok i ∧ (∀ j : Instr, encode j = encode i → j = i) ∧
    Instr.ofMnemonic i.mnemonic = some i

theorem nop : Statement .nop :=
  ⟨rfl, by decide, by intro j h; cases j <;> first | rfl | exact absurd h (by decide), by decide⟩
theorem reset : Statement .reset :=
  ⟨rfl, by decide, by intro j h; cases j <;> first | rfl | exact absurd h (by decide), by decide⟩
theorem count : Statement .count :=
  ⟨rfl, by decide, by intro j h; cases j <;> first | rfl | exact absurd h (by decide), by decide⟩
theorem dist : Statement .dist :=
  ⟨rfl, by decide, by intro j h; cases j <;> first | rfl | exact absurd h (by decide), by decide⟩
theorem ranges : Statement .ranges :=
  ⟨rfl, by decide, by intro j h; cases j <;> first | rfl | exact absurd h (by decide), by decide⟩
theorem treeFromScheme : Statement .treeFromScheme :=
  ⟨rfl, by decide, by intro j h; cases j <;> first | rfl | exact absurd h (by decide), by decide⟩
theorem treeTrunc : Statement .treeTrunc :=
  ⟨rfl, by decide, by intro j h; cases j <;> first | rfl | exact absurd h (by decide), by decide⟩
theorem treeDerive : Statement .treeDerive :=
  ⟨rfl, by decide, by intro j h; cases j <;> first | rfl | exact absurd h (by decide), by decide⟩
theorem bldShannon : Statement .bldShannon :=
  ⟨rfl, by decide, by intro j h; cases j <;> first | rfl | exact absurd h (by decide), by decide⟩
theorem bldFano : Statement .bldFano :=
  ⟨rfl, by decide, by intro j h; cases j <;> first | rfl | exact absurd h (by decide), by decide⟩
theorem bldHuffman : Statement .bldHuffman :=
  ⟨rfl, by decide, by intro j h; cases j <;> first | rfl | exact absurd h (by decide), by decide⟩
theorem cmpShannon : Statement .cmpShannon :=
  ⟨rfl, by decide, by intro j h; cases j <;> first | rfl | exact absurd h (by decide), by decide⟩
theorem cmpFano : Statement .cmpFano :=
  ⟨rfl, by decide, by intro j h; cases j <;> first | rfl | exact absurd h (by decide), by decide⟩
theorem cmpHuffman : Statement .cmpHuffman :=
  ⟨rfl, by decide, by intro j h; cases j <;> first | rfl | exact absurd h (by decide), by decide⟩
theorem cmpContext : Statement .cmpContext :=
  ⟨rfl, by decide, by intro j h; cases j <;> first | rfl | exact absurd h (by decide), by decide⟩
theorem cmpAdaptive : Statement .cmpAdaptive :=
  ⟨rfl, by decide, by intro j h; cases j <;> first | rfl | exact absurd h (by decide), by decide⟩
theorem cmpArith : Statement .cmpArith :=
  ⟨rfl, by decide, by intro j h; cases j <;> first | rfl | exact absurd h (by decide), by decide⟩
theorem decShannon : Statement .decShannon :=
  ⟨rfl, by decide, by intro j h; cases j <;> first | rfl | exact absurd h (by decide), by decide⟩
theorem decFano : Statement .decFano :=
  ⟨rfl, by decide, by intro j h; cases j <;> first | rfl | exact absurd h (by decide), by decide⟩
theorem decHuffman : Statement .decHuffman :=
  ⟨rfl, by decide, by intro j h; cases j <;> first | rfl | exact absurd h (by decide), by decide⟩
theorem decContext : Statement .decContext :=
  ⟨rfl, by decide, by intro j h; cases j <;> first | rfl | exact absurd h (by decide), by decide⟩
theorem decAdaptive : Statement .decAdaptive :=
  ⟨rfl, by decide, by intro j h; cases j <;> first | rfl | exact absurd h (by decide), by decide⟩
theorem decArith : Statement .decArith :=
  ⟨rfl, by decide, by intro j h; cases j <;> first | rfl | exact absurd h (by decide), by decide⟩

end Sys2Proof.Laws.Coding
end

