-- ==== Sys2Proof/Laws/Port.lean ====
section
/-! SUPPORT. What each act of the host can do, and how fields read back. -/

namespace Sys2Proof.Machine

theorem writeCmd_ok {c : Byte} {i : Instr} (h : decode c = .ok i) (s : State) : writeCmd c s = exec i s := by
  unfold writeCmd
  rw [h]

/-- A change of a stream that is not refused. -/
theorem hostOnly_next {ok : Bool} {s t u : State} (h : hostOnly ok s t = .next u) :
    s.status.busy = false ∧ ok = true ∧ u = t := by
  unfold hostOnly at h
  cases hb : s.status.busy <;> cases ok <;> simp [hb] at h ⊢
  exact h.symm

theorem hostOnly_ok {s t : State} (hb : s.status.busy = false) : hostOnly true s t = .next t := by
  unfold hostOnly
  rw [hb]
  rfl

/-- A command stopped by hardware reset: it ran, under the oracle that fails where the reset falls. -/
theorem resetDuring_next {c : Byte} {onInput : Bool} {k : Nat} {s t : State}
    (h : resetDuring c onInput k s = .next t) :
    ∃ u, writeCmd c (s.setIo (s.io.cutAt onInput k)) = .next u ∧
      t = (u.setOracle s.io.failIn s.io.failOut).hardReset := by
  unfold resetDuring at h
  cases hw : writeCmd c (s.setIo (s.io.cutAt onInput k)) with
  | next u => rw [hw] at h; cases h; exact ⟨u, rfl, rfl⟩
  | fault e => rw [hw] at h; cases h
  | refused r => rw [hw] at h; cases h

@[simp] theorem Streams.cutAt_input (x : Streams) (b : Bool) (k : Nat) : (x.cutAt b k).input = x.input := by
  cases b <;> rfl
@[simp] theorem Streams.cutAt_again (x : Streams) (b : Bool) (k : Nat) : (x.cutAt b k).again = x.again := by
  cases b <;> rfl
@[simp] theorem Streams.cutAt_out (x : Streams) (b : Bool) (k : Nat) : (x.cutAt b k).out = x.out := by
  cases b <;> rfl

@[simp] theorem indexRead_none (width : Nat) : indexRead width none = .word width (BitVec.ofNat width (2 ^ width - 1)) :=
  rfl
@[simp] theorem indexRead_some (width i : Nat) : indexRead width (some i) = .word width (BitVec.ofNat width i) := rfl

/-- Between commands the host reads what the field holds. -/
theorem readBack_idle {s : State} (h : s.status.busy = false) (f : Field) : readBack s f = s.field f := by
  unfold readBack
  rw [h]
  rfl

end Sys2Proof.Machine
end

