-- ==== Sys2Proof/Laws/Shannon.lean ====
section
/-! SUPPORT. The raw Shannon codewords of a sorted distribution are prefix free, and a tree made of prefix free
codewords has exactly their paths. -/

namespace Sys2Proof.Machine

/-! ### Trees of prefix free codewords -/

/-- Nothing grows out of a lone node but the codeword walked in. -/
theorem Shape.follow_graft_dead (sym : Byte) : ∀ (c d : Bits),
    (Shape.graft sym c .dead).follow d = if d = c then some sym else none
  | [], [] => rfl
  | [], _ :: _ => rfl
  | false :: c, [] => rfl
  | true :: c, [] => rfl
  | false :: c, false :: d => by
    show (Shape.graft sym c .dead).follow d = _
    rw [Shape.follow_graft_dead sym c d]; simp
  | false :: c, true :: d => by
    show none = _
    simp
  | true :: c, true :: d => by
    show (Shape.graft sym c .dead).follow d = _
    rw [Shape.follow_graft_dead sym c d]; simp
  | true :: c, false :: d => by
    show none = _
    simp

/-- A codeword walked in beside paths that it neither begins nor goes on: that path more, the others kept. -/
theorem Shape.follow_graft (sym : Byte) : ∀ (sh : Shape) (c : Bits),
    (∀ d a, sh.follow d = some a → ¬(d <+: c) ∧ ¬(c <+: d)) →
    ∀ d, (sh.graft sym c).follow d = if d = c then some sym else sh.follow d := by
  intro sh
  induction sh with
  | dead =>
    intro c _ d
    rw [Shape.follow_graft_dead]
    cases d <;> rfl
  | leaf s =>
    intro c h d
    cases c with
    | nil => exact absurd (List.prefix_refl _) (h [] s rfl).1
    | cons x c => exact absurd (List.nil_prefix) (h [] s rfl).1
  | left l ih =>
    intro c h d
    cases c with
    | nil =>
      have hl : ∀ e, l.follow e = none := fun e => by
        cases hle : l.follow e with
        | none => rfl
        | some a => exact absurd List.nil_prefix (h (false :: e) a hle).2
      rcases d with _ | ⟨_ | _, d⟩
      · rfl
      · show none = _; rw [if_neg (by simp)]; exact (hl d).symm
      · rfl
    | cons x c =>
      cases x
      · have := ih c fun d a hd => by
          have := h (false :: d) a hd
          simpa using this
        rcases d with _ | ⟨_ | _, d⟩
        · rfl
        · show (l.graft sym c).follow d = _
          rw [this d]; simp [Shape.follow]
        · show none = _; rw [if_neg (by simp)]; rfl
      · rcases d with _ | ⟨_ | _, d⟩
        · rfl
        · show l.follow d = _; rw [if_neg (by simp)]; rfl
        · show (Shape.graft sym c .dead).follow d = _
          rw [Shape.follow_graft_dead]; simp [Shape.follow]
  | right r ih =>
    intro c h d
    cases c with
    | nil =>
      have hr : ∀ e, r.follow e = none := fun e => by
        cases hre : r.follow e with
        | none => rfl
        | some a => exact absurd List.nil_prefix (h (true :: e) a hre).2
      rcases d with _ | ⟨_ | _, d⟩
      · rfl
      · rfl
      · show none = _; rw [if_neg (by simp)]; exact (hr d).symm
    | cons x c =>
      cases x
      · rcases d with _ | ⟨_ | _, d⟩
        · rfl
        · show (Shape.graft sym c .dead).follow d = _
          rw [Shape.follow_graft_dead]; simp [Shape.follow]
        · show r.follow d = _; rw [if_neg (by simp)]; rfl
      · have := ih c fun d a hd => by
          have := h (true :: d) a hd
          simpa using this
        rcases d with _ | ⟨_ | _, d⟩
        · rfl
        · show none = _; rw [if_neg (by simp)]; rfl
        · show (r.graft sym c).follow d = _
          rw [this d]; simp [Shape.follow]
  | both l r ihl ihr =>
    intro c h d
    cases c with
    | nil =>
      have hl : ∀ e, l.follow e = none := fun e => by
        cases hle : l.follow e with
        | none => rfl
        | some a => exact absurd List.nil_prefix (h (false :: e) a hle).2
      have hr : ∀ e, r.follow e = none := fun e => by
        cases hre : r.follow e with
        | none => rfl
        | some a => exact absurd List.nil_prefix (h (true :: e) a hre).2
      rcases d with _ | ⟨_ | _, d⟩
      · rfl
      · show none = _; rw [if_neg (by simp)]; exact (hl d).symm
      · show none = _; rw [if_neg (by simp)]; exact (hr d).symm
    | cons x c =>
      cases x
      · have := ihl c fun d a hd => by
          have := h (false :: d) a hd
          simpa using this
        rcases d with _ | ⟨_ | _, d⟩
        · rfl
        · show (l.graft sym c).follow d = _
          rw [this d]; simp [Shape.follow]
        · show r.follow d = _; rw [if_neg (by simp)]; rfl
      · have := ihr c fun d a hd => by
          have := h (true :: d) a hd
          simpa using this
        rcases d with _ | ⟨_ | _, d⟩
        · rfl
        · show l.follow d = _; rw [if_neg (by simp)]; rfl
        · show (r.graft sym c).follow d = _
          rw [this d]; simp [Shape.follow]

/-- The paths of the tree of prefix free codewords are the codewords. -/
theorem follow_ofCodes {codes : List (Byte × Bits)} (h : PrefixFree codes) (d : Bits) (b : Byte) :
    (Shape.ofCodes codes).follow d = some b ↔ (b, d) ∈ codes := by
  have key : ∀ (codes : List (Byte × Bits)) (sh : Shape), PrefixFree codes →
      (∀ c ∈ codes, ∀ d a, sh.follow d = some a → ¬(d <+: c.2) ∧ ¬(c.2 <+: d)) → ∀ d b,
      ((codes.foldl (fun sh c => sh.graft c.1 c.2) sh).follow d = some b ↔
        (b, d) ∈ codes ∨ sh.follow d = some b) := by
    intro codes
    induction codes with
    | nil => intro sh _ _ d b; simp
    | cons c codes ih =>
      intro sh hp hs d b
      unfold PrefixFree at hp
      rw [List.pairwise_cons] at hp
      have hg := Shape.follow_graft c.1 sh c.2 (hs c (by simp))
      rw [List.foldl_cons, ih (sh.graft c.1 c.2) hp.2 ?_ d b, hg d, List.mem_cons]
      · by_cases hd : d = c.2
        · rw [if_pos hd]
          have hnone : sh.follow d ≠ some b := fun h => (hs c (by simp) d b h).1 (hd ▸ List.prefix_refl _)
          constructor
          · rintro (h | h)
            · exact .inl (.inr h)
            · cases h; exact .inl (.inl (by rw [hd]))
          · rintro ((h | h) | h)
            · right; rw [← h]
            · exact .inl h
            · exact absurd h hnone
        · rw [if_neg hd]
          constructor
          · rintro (h | h)
            · exact .inl (.inr h)
            · exact .inr h
          · rintro ((h | h) | h)
            · exact absurd (congrArg Prod.snd h) hd
            · exact .inl h
            · exact .inr h
      · intro c' hc' d a hda
        rw [hg d] at hda
        split at hda
        · next hd => rw [hd]; exact ⟨(hp.1 c' hc').2.1, (hp.1 c' hc').2.2⟩
        · exact hs c' (by simp [hc']) d a hda
  have := key codes .dead h (fun c _ d a hd => by cases d <;> cases hd) d b
  rw [Shape.ofCodes, this]
  constructor
  · rintro (h | h)
    · exact h
    · cases d <;> cases h
  · exact .inl

/-- A symbol is in the tree where a path leads to it. -/
theorem Shape.mem_symbols {sh : Shape} {b : Byte} : b ∈ sh.symbols ↔ ∃ c, sh.follow c = some b := by
  rw [← Shape.paths_symbols sh [], List.mem_map]
  constructor
  · rintro ⟨⟨x, c⟩, h, rfl⟩; exact ⟨c, Shape.mem_paths.1 h⟩
  · rintro ⟨c, h⟩; exact ⟨(b, c), Shape.mem_paths.2 h, rfl⟩

theorem codeIn_isSome {sh : Shape} {b : Byte} : (codeIn sh.paths b).isSome = true ↔ b ∈ sh.symbols := by
  rw [← Shape.paths_symbols sh [], codeIn, Option.isSome_map, List.find?_isSome, List.mem_map]
  constructor
  · rintro ⟨x, h, hx⟩; exact ⟨x, h, beq_iff_eq.1 hx⟩
  · rintro ⟨x, h, hx⟩; exact ⟨x, h, beq_iff_eq.2 hx⟩

theorem ofCodes_symbols {codes : List (Byte × Bits)} (h : PrefixFree codes) (b : Byte) :
    b ∈ (Shape.ofCodes codes).symbols ↔ b ∈ codes.map Prod.fst := by
  rw [Shape.mem_symbols, List.mem_map]
  constructor
  · rintro ⟨c, hc⟩; exact ⟨(b, c), (follow_ofCodes h c b).1 hc, rfl⟩
  · rintro ⟨⟨x, c⟩, hc, rfl⟩; exact ⟨c, (follow_ofCodes h c x).2 hc⟩

/-- Paths on both sides: the root has both children. -/
theorem Shape.both_of_follow {sh : Shape} {c d : Bits} {a b : Byte} (hc : sh.follow (false :: c) = some a)
    (hd : sh.follow (true :: d) = some b) : ∃ l r, sh = .both l r := by
  cases sh with
  | both l r => exact ⟨l, r, rfl⟩
  | dead => cases hc
  | leaf => cases hc
  | left => cases hd
  | right => cases hc

/-! ### Numerals -/

theorem numeral_take : ∀ (L k v : Nat), k ≤ L → (numeral L v).take k = numeral k (v / 2 ^ (L - k)) := by
  intro L
  induction L with
  | zero => intro k v h; rw [Nat.le_zero.1 h]; rfl
  | succ L ih =>
    intro k v h
    cases k with
    | zero => rfl
    | succ k =>
      rw [numeral, List.take_succ_cons, ih k v (by omega), numeral, Nat.div_div_eq_div_mul, ← Nat.pow_add,
        show L + 1 - (k + 1) = L - k by omega, show L - k + k = L by omega]

theorem numeral_inj : ∀ (L v w : Nat), v < 2 ^ L → w < 2 ^ L → numeral L v = numeral L w → v = w := by
  have hmod : ∀ (L v w : Nat), numeral L v = numeral L w → v % 2 ^ L = w % 2 ^ L := by
    intro L
    induction L with
    | zero => intro v w _; rw [Nat.pow_zero, Nat.mod_one, Nat.mod_one]
    | succ L ih =>
      intro v w h
      rw [numeral, numeral, List.cons.injEq] at h
      have h1 := ih v w h.2
      have h2 : v / 2 ^ L % 2 = w / 2 ^ L % 2 := by
        have := h.1
        rw [Bool.eq_iff_iff, beq_iff_eq, beq_iff_eq] at this
        omega
      rw [Nat.pow_succ, Nat.mod_mul, Nat.mod_mul, h1, h2]
  intro L v w hv hw h
  have := hmod L v w h
  rwa [Nat.mod_eq_of_lt hv, Nat.mod_eq_of_lt hw] at this

/-! ### The raw Shannon codewords -/

/-- What a raw codeword is: the symbol's length and value (R174, R175). -/
theorem mem_shannonWords {S : Nat} : ∀ {dl : List DistEntry} {C : Nat} {w : Byte × Bits},
    w ∈ shannonWords S dl C → ∃ pre e post, dl = pre ++ e :: post ∧ w = (e.sym,
      numeral ((shannonLen e.cnt.toNat S).getD 0)
        (shannonValue (C + cntSum pre) S ((shannonLen e.cnt.toNat S).getD 0))) := by
  intro dl
  induction dl with
  | nil => intro C w h; cases h
  | cons e dl ih =>
    intro C w h
    rw [shannonWords] at h
    rcases List.mem_cons.1 h with rfl | h
    · exact ⟨[], e, dl, rfl, rfl⟩
    · obtain ⟨pre, e', post, h1, h2⟩ := ih h
      refine ⟨e :: pre, e', post, by rw [h1]; rfl, ?_⟩
      rw [h2, show C + cntSum (e :: pre) = C + e.cnt.toNat + cntSum pre by
        rw [show cntSum (e :: pre) = e.cnt.toNat + cntSum pre from rfl]; omega]

/-- A codeword is apart from that of a later entry of no greater count. -/
theorem shannon_apart {S C C' c c' : Nat} (hS : S ≤ 2 ^ 40) (hc : c ≠ 0) (hc' : c' ≠ 0) (hle : c' ≤ c)
    (hC : C + c ≤ C') (hC' : C' < S) :
    let w := numeral ((shannonLen c S).getD 0) (shannonValue C S ((shannonLen c S).getD 0))
    let w' := numeral ((shannonLen c' S).getD 0) (shannonValue C' S ((shannonLen c' S).getD 0))
    ¬(w <+: w') ∧ ¬(w' <+: w) := by
  obtain ⟨L, hL, _, hL1, hL2⟩ := shannonLen_some hc hS
  obtain ⟨L', hL', _, hL1', hL2'⟩ := shannonLen_some hc' hS
  have hSpos : 0 < S := by omega
  have hLL : L ≤ L' := by
    by_contra hcon
    have := hL2 L' (by omega)
    have : c' * 2 ^ L' ≤ c * 2 ^ L' := Nat.mul_le_mul_right _ hle
    omega
  have hlt : ∀ {D M : Nat}, D < S → D * 2 ^ M / S < 2 ^ M := fun {D M} hD => by
    rw [Nat.div_lt_iff_lt_mul hSpos, Nat.mul_comm (2 ^ M)]
    exact Nat.mul_lt_mul_of_pos_right hD (Nat.two_pow_pos M)
  have hdiv : C' * 2 ^ L' / S / 2 ^ (L' - L) = C' * 2 ^ L / S := by
    rw [Nat.div_div_eq_div_mul, Nat.mul_comm S, ← Nat.div_div_eq_div_mul]
    congr 1
    rw [show L' = L + (L' - L) by omega, Nat.pow_add, ← Nat.mul_assoc, show L + (L' - L) - L = L' - L by omega]
    exact Nat.mul_div_cancel _ (Nat.two_pow_pos _)
  have hne : C * 2 ^ L / S ≠ C' * 2 ^ L / S := by
    have h1 : (C + c) * 2 ^ L ≤ C' * 2 ^ L := Nat.mul_le_mul_right _ hC
    have h2 : C * 2 ^ L / S + 1 ≤ C' * 2 ^ L / S := by
      rw [← Nat.add_div_right _ hSpos]
      apply Nat.div_le_div_right
      rw [Nat.add_mul] at h1
      omega
    omega
  intro w w'
  have hw : w = numeral L (C * 2 ^ L / S) := by show numeral _ _ = _; rw [hL]; rfl
  have hw' : w' = numeral L' (C' * 2 ^ L' / S) := by show numeral _ _ = _; rw [hL']; rfl
  have hfirst : ¬(w <+: w') := fun h => by
    have h1 := List.prefix_iff_eq_take.1 h
    rw [hw, hw', numeral_length, numeral_take _ _ _ hLL, hdiv] at h1
    exact hne (numeral_inj L _ _ (hlt (by omega)) (hlt hC') h1)
  refine ⟨hfirst, fun h => ?_⟩
  have hl := h.length_le
  rw [hw, hw', numeral_length, numeral_length] at hl
  have : w' = w := h.eq_of_length (by rw [hw, hw', numeral_length, numeral_length]; omega)
  exact hfirst (by rw [this])

/-- The raw Shannon codewords of a sorted distribution are prefix free (R174, R175). -/
theorem shannonWords_prefixFree {S : Nat} (hS : S ≤ 2 ^ 40) : ∀ (dl : List DistEntry) (C : Nat),
    IsDist dl → dl.Pairwise distBefore → C + cntSum dl ≤ S → PrefixFree (shannonWords S dl C) := by
  intro dl
  induction dl with
  | nil => intro C _ _ _; exact List.Pairwise.nil
  | cons e dl ih =>
    intro C hd hs hC
    have hsum : cntSum (e :: dl) = e.cnt.toNat + cntSum dl := rfl
    have hcnt : ∀ x ∈ e :: dl, x.cnt.toNat ≠ 0 := fun x hx h0 => hd.2 x hx (BitVec.eq_of_toNat_eq h0)
    rw [List.pairwise_cons] at hs
    have hd1 := hd.1
    rw [List.map_cons, List.nodup_cons] at hd1
    rw [shannonWords]
    refine List.pairwise_cons.2 ⟨fun w hw => ?_, ih (C + e.cnt.toNat) ⟨hd1.2, fun x hx => hd.2 x (by simp [hx])⟩
      hs.2 (by omega)⟩
    obtain ⟨pre, e', post, h1, h2⟩ := mem_shannonWords hw
    have he' : e' ∈ dl := by rw [h1]; simp
    have hsplit : cntSum dl = cntSum pre + (e'.cnt.toNat + cntSum post) := by
      rw [h1]; unfold cntSum; rw [List.map_append, List.sum_append]; rfl
    have hpos := hcnt e' (by simp [he'])
    have hle : e'.cnt.toNat ≤ e.cnt.toNat := by
      rcases hs.1 e' he' with h | ⟨h, _⟩
      · omega
      · rw [h]
    have := shannon_apart (S := S) (C := C) (C' := C + e.cnt.toNat + cntSum pre) hS (hcnt e (by simp)) hpos hle
      (by omega) (by omega)
    refine ⟨fun h => hd1.1 ?_, ?_⟩
    · have : w.1 = e'.sym := by rw [h2]
      have h3 : e.sym = w.1 := h
      rw [h3, this]
      exact List.mem_map_of_mem he'
    · rw [h2]; exact this

/-- Of a sorted distribution of two entries or more the first raw codeword goes left and the last goes right
(R174: the root is kept by `TREE.TRUNC`). -/
theorem shannon_root {dl : List DistEntry} (h : IsDist dl) (hs : dl.Pairwise distBefore) (h2 : 2 ≤ dl.length)
    (hS : cntSum dl ≤ 2 ^ 40) :
    ∃ l r, Shape.ofCodes (shannonWords (cntSum dl) dl 0) = .both l r := by
  have hp := shannonWords_prefixFree hS dl 0 h hs (by omega)
  have hcnt : ∀ x ∈ dl, x.cnt.toNat ≠ 0 := fun x hx h0 => h.2 x hx (BitVec.eq_of_toNat_eq h0)
  have hword : ∀ (S C : Nat) (pre : List DistEntry) (e : DistEntry) (post : List DistEntry),
      (e.sym, numeral ((shannonLen e.cnt.toNat S).getD 0)
        (shannonValue (C + cntSum pre) S ((shannonLen e.cnt.toNat S).getD 0))) ∈
        shannonWords S (pre ++ e :: post) C := by
    intro S C pre
    induction pre generalizing C with
    | nil => intro e post; exact List.mem_cons_self
    | cons x pre ih =>
      intro e post
      have := ih (C + x.cnt.toNat) e post
      rw [show C + x.cnt.toNat + cntSum pre = C + cntSum (x :: pre) by
        rw [show cntSum (x :: pre) = x.cnt.toNat + cntSum pre from rfl]; omega] at this
      exact List.mem_cons_of_mem _ this
  obtain ⟨e, rest, hdl⟩ : ∃ e rest, dl = e :: rest := by
    cases dl with
    | nil => simp at h2
    | cons e rest => exact ⟨e, rest, rfl⟩
  have hrne : rest ≠ [] := by rintro rfl; rw [hdl] at h2; simp at h2
  obtain ⟨mid, z, hrest⟩ : ∃ mid z, rest = mid ++ [z] :=
    ⟨rest.dropLast, rest.getLast hrne, (List.dropLast_append_getLast hrne).symm⟩
  have hsum : cntSum dl = e.cnt.toNat + (cntSum mid + z.cnt.toNat) := by
    rw [hdl, hrest]; unfold cntSum; simp
  have hze : z.cnt.toNat ≤ e.cnt.toNat := by
    rw [hdl, hrest, List.pairwise_cons] at hs
    rcases hs.1 z (by simp) with h | ⟨h, _⟩
    · omega
    · rw [h]
  have hzpos := hcnt z (by rw [hdl, hrest]; simp)
  have hepos := hcnt e (by rw [hdl]; simp)
  have hlen : ∀ c, c ≠ 0 → c < cntSum dl → ∃ L, shannonLen c (cntSum dl) = some (L + 1) := fun c hc hlt => by
    obtain ⟨L, hL, _, hL1, _⟩ := shannonLen_some hc hS
    cases L with
    | zero => rw [Nat.pow_zero, Nat.mul_one] at hL1; omega
    | succ L => exact ⟨L, hL⟩
  obtain ⟨L, hL⟩ := hlen e.cnt.toNat hepos (by omega)
  obtain ⟨M, hM⟩ := hlen z.cnt.toNat hzpos (by omega)
  have hfirst := hword (cntSum dl) 0 [] e rest
  rw [List.nil_append, ← hdl, hL] at hfirst
  have hlast := hword (cntSum dl) 0 (e :: mid) z []
  rw [show (e :: mid) ++ [z] = dl by rw [hdl, hrest]; rfl, hM] at hlast
  have hv0 : shannonValue (0 + cntSum []) (cntSum dl) (L + 1) = 0 := by
    show (0 + 0) * _ / _ = 0
    rw [Nat.add_zero, Nat.zero_mul, Nat.zero_div]
  have hSpos : 0 < cntSum dl := by omega
  have hv1 : shannonValue (0 + cntSum (e :: mid)) (cntSum dl) (M + 1) / 2 ^ M = 1 := by
    have hC : 0 + cntSum (e :: mid) = cntSum dl - z.cnt.toNat := by
      rw [show cntSum (e :: mid) = e.cnt.toNat + cntSum mid from rfl]; omega
    rw [hC]
    unfold shannonValue
    rw [Nat.div_div_eq_div_mul, Nat.mul_comm (cntSum dl), ← Nat.div_div_eq_div_mul, Nat.pow_succ,
      Nat.mul_comm (2 ^ M) 2, ← Nat.mul_assoc, Nat.mul_div_cancel _ (Nat.two_pow_pos M)]
    apply Nat.div_eq_of_lt_le <;> omega
  simp only [Option.getD_some, hv0] at hfirst
  simp only [Option.getD_some] at hlast
  rw [numeral, Nat.zero_div] at hfirst
  rw [numeral, hv1] at hlast
  exact Shape.both_of_follow ((follow_ofCodes hp _ _).2 hfirst) ((follow_ofCodes hp _ _).2 hlast)

end Sys2Proof.Machine
end

