-- ==== Sys2Proof/Tests/Slice0.lean ====
section
/-! SUPPORT. Tests whose expected results are the spec's own words, examples and vectors (30_encoding.md R91,
R92; 95_test_vectors.md), and a witness for the hypotheses of every statement that has some. -/

namespace Sys2Proof.Machine.Tests

set_option Elab.async false

/-! ### The checks on what the host does (R24, R384) -/

/-- One byte more than a stream can have. -/
def tooLong : List Byte := List.replicate (2 ^ 64) 0

theorem tooLong_length : tooLong.length = 2 ^ 64 := List.length_replicate

theorem test_wf_stream_too_long : streamLenOk tooLong = false := by
  unfold streamLenOk
  rw [tooLong_length, decide_eq_false (Nat.lt_irrefl _)]
theorem test_wf_cursor_behind_end : HostAct.wf (.attachIn [1, 2] none 3) = false := by decide
theorem test_wf_cursor_at_end : HostAct.wf (.attachIn [1, 2] none 2) = true := by decide
theorem test_wf_second_pass_too_long : HostAct.wf (.attachIn [1] (some tooLong) 0) = false := by
  show (streamLenOk [1] && cursorOk [1] 0 && streamLenOk tooLong) = false
  rw [test_wf_stream_too_long, Bool.and_false]
theorem test_wf_output_too_long : HostAct.wf (.attachOut tooLong) = false := test_wf_stream_too_long
theorem test_step_refuses_cursor :
    hostStep (.attachIn [1, 2] none 3) State.reset = .refused .illFormedHostAct := rfl
theorem test_step_refuses_seek : hostStep (.seekIn 1) State.reset = .refused .illFormedHostAct := rfl

/-! ### Decoding, by words written out from R91 and R92 -/

theorem test_decode_system : decode 0b00000000 = .ok .nop ∧ decode 0b00000001 = .ok .reset := by decide
theorem test_decode_statistics : decode 0b00010000 = .ok .count ∧ decode 0b00010001 = .ok .dist ∧
    decode 0b00010010 = .ok .ranges := by decide
theorem test_decode_tree : decode 0b00011000 = .ok .treeFromScheme ∧ decode 0b00011001 = .ok .treeTrunc ∧
    decode 0b00011010 = .ok .treeDerive := by decide
theorem test_decode_builders : decode 0b00100000 = .ok .bldShannon ∧ decode 0b00100001 = .ok .bldFano ∧
    decode 0b00100010 = .ok .bldHuffman := by decide
theorem test_decode_compress : decode 0b01000000 = .ok .cmpShannon ∧ decode 0b01000001 = .ok .cmpFano ∧
    decode 0b01000010 = .ok .cmpHuffman ∧ decode 0b01000011 = .ok .cmpContext ∧
    decode 0b01000100 = .ok .cmpAdaptive ∧ decode 0b01000101 = .ok .cmpArith := by decide
theorem test_decode_decompress : decode 0b01001000 = .ok .decShannon ∧ decode 0b01001001 = .ok .decFano ∧
    decode 0b01001010 = .ok .decHuffman ∧ decode 0b01001011 = .ok .decContext ∧
    decode 0b01001100 = .ok .decAdaptive ∧ decode 0b01001101 = .ok .decArith := by decide
theorem test_decode_unassigned : decode 0b01000110 = .error (.illegal 0x46) ∧
    decode 0b01001111 = .error (.illegal 0x4F) ∧ decode 0b00000010 = .error (.illegal 0x02) := by decide
theorem test_table_word : decodeTableWord 8 0x4A = some .decHuffman ∧ decodeTableWord 8 0x46 = none := by
  decide

/-! ### One command on a small state -/

/-- The engine after reset with an input stream attached. -/
def atInput (bytes : List Byte) : State :=
  { State.reset with io := { Streams.empty with input := bytes } }

/-- The engine after reset with a frequency table in place. -/
def withFreq (f : Table (BitVec 32)) : State := { State.reset with freq := f }

/-- The engine after reset with a distribution in place. -/
def withDistribution (dl : List DistEntry) : State :=
  { State.reset with
    dist := Table.setList DistEntry.empty [] 0 dl
    w := { Working.empty with ndist := BitVec.ofNat 9 dl.length } }

/-- The state a command leaves; the reset state where it leaves none. -/
def left (o : Out) : State :=
  match o with
  | .next t => t
  | _ => State.reset

/-- What is seen of the state a command leaves. -/
def seen {α : Type} (o : Out) (f : State → α) : Option α :=
  match o with
  | .next t => some (f t)
  | _ => none

theorem test_nop : seen (exec .nop State.reset) (fun t => t.status.word) = some 0b00000010 := by decide
theorem test_reset : seen (exec .reset { State.reset with
      status := ⟨false, false, true⟩, faultCode := some .malformedTruncated, phase := .dec
      w := { Working.empty with total := 9 }, io := { Streams.empty with inPos := 3, outLen := 5 } })
    (fun t => (t.status.word, t.faultCode, t.phase, t.w.total, t.io.inPos, t.io.outLen)) =
    some (0, none, .idle, 0, 3, 5) := by decide

/-- R130's example. -/
theorem test_count : seen (exec .count (atInput [0x41, 0x41, 0x42])) (fun t =>
      (freqGet t.freq 0x41, freqGet t.freq 0x42, freqGet t.freq 0x43, t.w.total, t.io.inPos, t.status.word)) =
    some (2, 1, 0, 3, 3, 2) := by decide +kernel
/-- R62, R353: a failing access at the end of the stream is IO_READ, not the end. -/
theorem test_count_io_read : seen (exec .count
      { State.reset with io := { Streams.empty with input := [0x41], failIn := [2] } }) (fun t =>
      (t.faultCode, t.phase, t.w.total, t.io.inPos, t.status.word)) =
    some (some .ioRead, .prim, 1, 1, 4) := by decide +kernel

/-- T2. -/
theorem test_dist : seen (exec .dist (withFreq [(0x61, 5), (0x62, 2), (0x63, 1), (0x64, 1), (0x72, 2)]))
      State.distList = some [⟨0x61, 5⟩, ⟨0x62, 2⟩, ⟨0x72, 2⟩, ⟨0x63, 1⟩, ⟨0x64, 1⟩] := by decide +kernel

/-- T5. -/
theorem test_ranges : seen (exec .ranges (withFreq [(0x41, 9), (0x42, 1)])) (fun t =>
      (t.rangeList, t.w.nrange, t.w.rt)) =
    some ([⟨0x41, 0, 9⟩, ⟨0x42, 9, 10⟩, ⟨256, 10, 11⟩], 3, 11) := by decide +kernel
/-- T9, and T8 just below it. -/
theorem test_ranges_bound : seen (exec .ranges (withFreq [(0, 0x10000001)])) (fun t =>
      (t.faultCode, t.phase, t.w.rt)) = some (some .rangeTotal, .prim, 0) ∧
    seen (exec .ranges (withFreq [(0, 0x10000000)])) (fun t => (t.faultCode, t.w.rt)) =
      some (none, 0x20000000) := by decide +kernel

/-- R150's example. -/
theorem test_from_scheme : seen (exec .treeFromScheme
      { withDistribution [⟨0x61, 4⟩, ⟨0x62, 3⟩, ⟨0x63, 3⟩] with
        main := { TreeMem.empty with scheme := [(0x61, some [false, false]), (0x62, some [false, true]),
          (0x63, some [true, false])] } }) (fun t =>
      ((List.range 6).map t.main.node, t.main.nnodes, t.main.root)) =
    some ([⟨none, some 1, some 4⟩, ⟨none, some 2, some 3⟩, ⟨some 0x61, none, none⟩,
      ⟨some 0x62, none, none⟩, ⟨none, some 5, none⟩, ⟨some 0x63, none, none⟩], 6, some 0) := by
  decide +kernel

/-- T14's tree. -/
def t14 : TreeMem :=
  ⟨[], [(0, ⟨none, some 1, some 2⟩), (1, ⟨some 0x41, none, none⟩), (2, ⟨none, none, some 3⟩),
    (3, ⟨none, none, some 4⟩), (4, ⟨none, some 5, none⟩), (5, ⟨some 0x42, none, none⟩)], 6, some 0⟩

/-- T14. -/
theorem test_trunc : seen (exec .treeTrunc { State.reset with main := t14 }) (fun t =>
      (t.main.node 0, t.main.node 2, t.main.root)) =
    some (⟨none, some 1, some 5⟩, ⟨none, none, some 3⟩, some 0) := by decide +kernel
theorem test_derive : seen (exec .treeDerive { State.reset with main := t14 }) (fun t =>
      (t.main.code 0x41, t.main.code 0x42, t.main.code 0x43)) =
    some (some [false], some [true, true, true, false], none) := by decide +kernel

/-- T23, Shannon: `a 00, b 01, c 1`, 6 slots. -/
theorem test_shannon : seen (exec .bldShannon (withDistribution [⟨0x61, 1⟩, ⟨0x62, 1⟩, ⟨0x63, 1⟩]))
      (fun t => ([0x61, 0x62, 0x63].map t.main.code, t.main.nnodes, t.main.root)) =
    some ([some [false, false], some [false, true], some [true]], 6, some 0) := by decide +kernel
/-- T23, Fano: `a 0, b 10, c 11`. -/
theorem test_fano : seen (exec .bldFano (withDistribution [⟨0x61, 1⟩, ⟨0x62, 1⟩, ⟨0x63, 1⟩]))
      (fun t => (t.main.code 0x61, t.main.code 0x62, t.main.code 0x63, t.main.root)) =
    some (some [false], some [true, false], some [true, true], some 0) := by decide +kernel
/-- T24, Huffman: the tree in full. -/
theorem test_huffman : seen (exec .bldHuffman
      (withDistribution [⟨0x61, 5⟩, ⟨0x62, 2⟩, ⟨0x63, 2⟩, ⟨0x64, 1⟩, ⟨0x65, 1⟩])) (fun t =>
      ([5, 6, 7, 8].map t.main.node, t.main.root, t.main.code 0x63, t.main.code 0x61)) =
    some ([⟨none, some 4, some 3⟩, ⟨none, some 2, some 1⟩, ⟨none, some 6, some 5⟩,
      ⟨none, some 7, some 0⟩], some 8, some [false, false, false], some [true]) := by decide +kernel

/-- T33, Shannon. -/
theorem test_cmp_shannon : seen (exec .cmpShannon
      (atInput [0x61, 0x61, 0x61, 0x61, 0x62, 0x62, 0x62, 0x63, 0x63, 0x63])) (fun t =>
      (t.io.outRev.take 3, t.io.outLen)) = some ([0x80, 0x57, 0x00], 1027) := by decide +kernel
/-- T33, Fano. -/
theorem test_cmp_fano : seen (exec .cmpFano
      (atInput [0x61, 0x61, 0x61, 0x61, 0x62, 0x62, 0x62, 0x63, 0x63, 0x63])) (fun t =>
      (t.io.outRev.take 2, t.io.outLen)) = some ([0xBF, 0x0A], 1026) := by decide +kernel
/-- S1: the payload `00 40`, and the header's bytes 264 to 267 from the end. -/
theorem test_cmp_huffman : seen (exec .cmpHuffman
      (atInput [0x41, 0x41, 0x41, 0x41, 0x41, 0x41, 0x41, 0x41, 0x41, 0x42])) (fun t =>
      (t.io.outRev.take 2, (t.io.outRev.drop 758).take 8, t.io.outLen)) =
    some ([0x40, 0x00], [0, 0, 0, 1, 0, 0, 0, 9], 1026) := by decide +kernel
/-- T40. -/
theorem test_cmp_context : seen (exec .cmpContext (atInput [0x61, 0x62, 0x61, 0x62])) (fun t =>
      (t.io.outRev.take 1, t.io.outLen, t.w.nctx)) = some ([0x80], 3083, 2) := by decide +kernel
/-- R383, R390: a context an earlier command left and this run has not gives no codeword: "ab", then "bX". -/
theorem test_stale_context : seen (exec .cmpContext { State.reset with
      io := { Streams.empty with input := [0x61, 0x62], again := some [0x62, 0x58] }
      ctx := [(0x62, { CtxEntry.empty with model := { TreeMem.empty with scheme := [(0x58, some [false])] } })] })
    (fun t => (t.status.word, t.faultCode, t.phase)) = some (4, some .ioRead, .enc) := by decide +kernel
/-- T56. -/
theorem test_cmp_adaptive : seen (exec .cmpAdaptive
      (atInput [0x61, 0x62, 0x72, 0x61, 0x63, 0x61, 0x64, 0x61, 0x62, 0x72, 0x61])) (fun t => t.io.out) =
    some [0x61, 0x31, 0x0E, 0x48, 0xC6, 0xC6, 0x46, 0xC8] := by decide +kernel
/-- T64. -/
theorem test_cmp_arith : seen (exec .cmpArith
      (atInput [0x41, 0x41, 0x41, 0x41, 0x41, 0x41, 0x41, 0x41, 0x41, 0x42])) (fun t =>
      (t.io.outRev.take 2, t.io.outLen, t.w.low, t.w.high)) =
    some ([0x00, 0x26], 1026, 603133200, 2096143744) := by decide +kernel

/-- What is seen of the state a piece of a command leaves, ended or stopped. -/
def seenRun {α : Type} (m : Eng Unit) (s : State) (f : State → α) : α :=
  match m s with
  | .ok _ t => f t
  | .error _ t => f t

/-- The engine behind a frequency header: its counts and their sum, and the payload to come. -/
def behindHeader (f : Table (BitVec 32)) (total : BitVec 40) (payload : List Byte) : State :=
  { atInput payload with freq := f, w := { Working.empty with total := total } }

/-- R66, R101: four bytes, the first least significant. -/
theorem test_header_field : seenRun (do
      let v ← memRead 4
      setW (fun w => { w with low := BitVec.ofNat 32 v })) (atInput [0x09, 0x02, 0x00, 0x80, 0xFF])
    (fun t => (t.w.low, t.io.inPos)) = (0x80000209, 4) := by decide +kernel
/-- T33 read back by Shannon, with a byte behind it that is not read. -/
theorem test_dec_shannon : seenRun (staticRebuild shannonBlock)
      (behindHeader [(0x61, 4), (0x62, 3), (0x63, 3)] 10 [0x00, 0x57, 0x80, 0xFF]) (fun t =>
      (t.io.out, t.io.inPos)) =
    ([0x61, 0x61, 0x61, 0x61, 0x62, 0x62, 0x62, 0x63, 0x63, 0x63], 3) := by decide +kernel
/-- T38: a Huffman payload given to the Fano decoder. -/
theorem test_dec_fano : seenRun (staticRebuild fanoBlock)
      (behindHeader [(0x61, 5), (0x62, 2), (0x63, 1), (0x64, 1), (0x72, 2)] 11 [0x91, 0x75, 0x22]) (fun t =>
      (t.io.out, t.phase)) =
    ([0x62, 0x61, 0x62, 0x61, 0x61, 0x62, 0x63, 0x62, 0x62, 0x61, 0x62], .dec) := by decide +kernel
/-- S1 read back. -/
theorem test_dec_huffman : seenRun (staticRebuild huffmanBlock)
      (behindHeader [(0x41, 9), (0x42, 1)] 10 [0x00, 0x40]) (fun t => (t.io.out, t.w.nsym)) =
    ([0x41, 0x41, 0x41, 0x41, 0x41, 0x41, 0x41, 0x41, 0x41, 0x42], 10) := by decide +kernel
/-- T40 read back. -/
theorem test_dec_context : seenRun contextRebuild
      { behindHeader [(0x61, 2), (0x62, 2)] 4 [0x80] with
        ctx := [(0x61, ⟨true, [(0x62, 2)], TreeMem.empty⟩), (0x62, ⟨true, [(0x61, 1)], TreeMem.empty⟩)] }
      (fun t => t.io.out) = [0x61, 0x62, 0x61, 0x62] := by decide +kernel
/-- T53 and T59. -/
theorem test_dec_adaptive : seen (exec .decAdaptive (atInput [0x61, 0x98, 0x80])) (fun t =>
      (t.io.out, t.fgk.node 2)) =
      some ([0x61, 0x61, 0x62], ⟨1, 510, .internal, 0, some 0, some 4, some 3⟩) ∧
    seen (exec .decAdaptive (atInput [0x61, 0x30, 0x80])) (fun t => (t.io.out, t.faultCode, t.phase)) =
      some ([0x61], some .malformedLiteral, .dec) := by decide +kernel
/-- R315's example. -/
theorem test_dec_arith : seenRun (arithRebuild 2) (behindHeader [(0x41, 1), (0x42, 1)] 2 [0x30])
      (fun t => (t.io.out, t.w.nsym)) = ([0x41, 0x42], 2) := by decide +kernel

/-! ### Witnesses: a state and operands that meet the hypotheses of each statement -/

/-- A command that leaves a next state leaves `left`. -/
theorem next_left {o : Out} (h : (seen o (fun _ => ())).isSome = true) : o = .next (left o) := by
  cases o with
  | next t => rfl
  | fault r => cases h
  | refused r => cases h

/-- A faulted engine. -/
def faulted : State := { State.reset with status := ⟨false, false, true⟩, faultCode := some .ioRead }

/-- A state in the middle of a command. -/
def running : State := { State.reset with status := ⟨true, false, false⟩, phase := .enc }

/-- An output whose second access fails. -/
def shortOut : State :=
  { State.reset with io := { Streams.empty with input := [0x61, 0x62, 0x63], failOut := [2] } }

/-- R355, R380: hardware reset stops a running command. -/
theorem test_reset_stops : seen (hostStep .hwReset running) (fun t => (t.status.word, t.phase)) =
    some (0, .idle) := by decide
/-- R355, R381: `CMP.ADAPTIVE` on "abc" has written its first byte, the literal of `a`, before its second
write. -/
theorem test_reset_during : seen (hostStep (.resetDuring 0x44 false 2) (atInput [0x61, 0x62, 0x63]))
    (fun t => (t.io.out, t.status.word, t.fgk.n, t.io.failOut)) = some ([0x61], 0, 0, []) := by decide +kernel
/-- R26, R28: the tree of t14 as it is read back: slot 2 has no left child. -/
theorem test_read_tree : readBack { State.reset with main := t14 } (.main (.treeLeft 2)) = .word 14 16383 ∧
    readBack { State.reset with main := t14 } (.main (.treeSym 1)) = .sym (some 0x41) := by decide +kernel

theorem during_next (s : State) (h : (seen (hostStep (.resetDuring 0x44 false 2) s) (fun _ => ())).isSome = true) :
    hostStep (.resetDuring 0x44 false 2) s = .next (left (hostStep (.resetDuring 0x44 false 2) s)) := next_left h
theorem witness_BothResets : faulted.status.busy = false ∧
    hostStep (.resetDuring 0x44 false 2) shortOut = .next (left (hostStep (.resetDuring 0x44 false 2) shortOut)) :=
  ⟨rfl, during_next _ (by decide +kernel)⟩
theorem witness_NopEffect : State.reset.Ready ∧ (faulted.status.busy = false ∧ faulted.status.fault = true) ∧
    exec .nop State.reset = .next (left (exec .nop State.reset)) := ⟨by decide, by decide, rfl⟩
theorem witness_DecodeEncode : Instr.wf .cmpArith = true ∧ decode 0x45 = .ok .cmpArith ∧
    ∀ i : Instr, encode i ≠ 0x46 := ⟨rfl, by decide, by intro i; cases i <;> decide⟩
theorem witness_StepRunsCommand :
    (State.reset.withFetchWord 8 0x10).host = .writeCmd 0x10 :: [] ∧ decode 0x10 = .ok .count ∧
      Instr.wf .count = true := ⟨rfl, by decide, rfl⟩
theorem witness_IllegalCodeFaults : State.reset.Ready ∧
    (State.reset.withFetchWord 8 0x4F).host = .writeCmd 0x4F :: [] ∧ ∀ i : Instr, encode i ≠ 0x4F :=
  ⟨by decide, rfl, by intro i; cases i <;> decide⟩
theorem witness_FaultIsSticky : faulted.status.busy = false ∧ faulted.status.fault = true ∧
    (faulted.withFetchWord 8 0).host = .writeCmd 0x00 :: [] ∧ (0x00 : Byte) ≠ 0x01 ∧
    (faulted.withFetchWord 8 1).host = .writeCmd 0x01 :: [] := ⟨rfl, rfl, rfl, by decide, rfl⟩
theorem witness_BusyRefused : running.status.busy = true := rfl
theorem witness_HostAttaches : State.reset.status.busy = false ∧ ([1, 2] : List Byte).length < 2 ^ 64 ∧
    2 ≤ ([1, 2] : List Byte).length ∧ 1 ≤ (atInput [1]).io.input.length ∧
    (atInput [1]).io.input.length < 2 ^ 64 := by decide
/-- A state with the last slots of both arenas in use, and absent indices beside them. -/
def indices : State := { State.reset with
  w := { State.reset.w with cur := some 512 }
  main := { TreeMem.empty with root := some 10240, tree := [(0, ⟨none, some 10240, none⟩)] }
  ctx := [(7, { CtxEntry.empty with model := { TreeMem.empty with tree := [(510, ⟨none, none, some 0⟩)] } })]
  fgk := { FgkMem.empty with nyt := some 512, nodes := [(512, ⟨0, 0, .internal, 0, none, some 512, none⟩)]
                             leaf := [(255, some 0)] } }

theorem witness_ReadBack : indices.status.busy = false ∧ indices.faultCode = none ∧ State.reset.w.cur = none ∧
    indices.w.cur = some 512 ∧ 512 < Config.treeCap ∧ faulted.status.busy = false ∧ faulted.faultCode = some .ioRead ∧
    indices.phase = .idle ∧
    indices.main.root = some 10240 ∧ 10240 < Config.treeCap ∧ State.reset.main.root = none ∧
    (indices.main.node (0 : Fin 10241).val).left = some 10240 ∧
    (indices.main.node (0 : Fin 10241).val).right = none ∧
    (ctxGet indices.ctx (7 : Byte).toNat).model.root = none ∧
    ((ctxGet indices.ctx (7 : Byte).toNat).model.node (510 : Fin 511).val).left = none ∧
    ((ctxGet indices.ctx (7 : Byte).toNat).model.node (510 : Fin 511).val).right = some 0 ∧
    indices.fgk.root = none ∧ indices.fgk.nyt = some 512 ∧ 512 < Config.fgkCap ∧
    leafGet indices.fgk.leaf (255 : Byte).toNat = some 0 ∧ leafGet indices.fgk.leaf (0 : Byte).toNat = none ∧
    (indices.fgk.node (512 : Fin 513).val).parent = none ∧
    (indices.fgk.node (512 : Fin 513).val).left = some 512 ∧
    (indices.fgk.node (512 : Fin 513).val).right = none := by decide +kernel

/-- An input whose first access fails. -/
def failing : State := { State.reset with io := { Streams.empty with input := [0x41], failIn := [1] } }

theorem failing_next : exec .count failing = .next (left (exec .count failing)) :=
  next_left (by decide +kernel)
theorem count_next : exec .count (atInput [0x41]) = .next (left (exec .count (atInput [0x41]))) :=
  next_left (by decide +kernel)

theorem witness_InBaseLatched : (atInput [0x41]).Ready ∧
    exec .count (atInput [0x41]) = .next (left (exec .count (atInput [0x41]))) ∧
    Instr.cmdClass .count ≠ .system ∧ exec .nop State.reset = .next (left (exec .nop State.reset)) ∧
    Instr.cmdClass .nop = .system := ⟨by decide, count_next, by decide, rfl, rfl⟩
theorem witness_TwoEndings : Instr.count ≠ .reset ∧ failing.Ready ∧
    exec .count failing = .next (left (exec .count failing)) := ⟨by decide, by decide, failing_next⟩
theorem witness_FaultsByCommand : failing.Ready ∧ failing.RangeInv ∧ failing.io.Sound ∧
    8 * failing.io.rest.length < 2 ^ 64 ∧ exec .count failing = .next (left (exec .count failing)) ∧
    (left (exec .count failing)).status.fault = true ∧
    (left (exec .count failing)).faultCode = some .ioRead ∧ ∀ i : Instr, encode i ≠ 0x47 :=
  ⟨by decide, ⟨by decide, by decide, by decide, by decide, by decide, by decide, by decide, by decide, by decide,
      by decide, by decide⟩, by decide, by decide, failing_next, by decide +kernel, by decide +kernel,
    by intro i; cases i <;> decide⟩
theorem witness_ControlKept : State.reset.ControlInv ∧ step State.reset = .next State.reset :=
  ⟨⟨rfl, rfl, by decide, fun _ => rfl⟩, rfl⟩
theorem witness_MemoryKept : Memory.wf { State.reset with main := t14 } = true ∧
    step { State.reset with main := t14, host := [.writeCmd 0x19] } =
      .next (left (step { State.reset with main := t14, host := [.writeCmd 0x19] })) :=
  ⟨by decide +kernel, next_left (by decide +kernel)⟩
theorem witness_RangesKept : State.reset.RangeInv ∧ step State.reset = .next State.reset :=
  ⟨⟨by decide, by decide, by decide, by decide, by decide, by decide, by decide, by decide, by decide, by decide,
    by decide⟩, rfl⟩
theorem witness_StreamsKept : exec .count (atInput [0x41]) = .next (left (exec .count (atInput [0x41]))) :=
  count_next
theorem t14_holds : t14.Holds (.both (.leaf 0x41) (.right (.right (.left (.leaf 0x42))))) 0 :=
  ⟨1, 2, rfl, rfl, 3, rfl, 4, rfl, 5, rfl, rfl⟩
theorem witness_CommandsEnd :
    (let s : State := { State.reset with io := { Streams.empty with input := [1], again := some [2, 3] } }
    s.Ready ∧ s.io.Sound ∧ 8 * s.io.rest.length < 2 ^ 64 ∧ s.io.again = some [2, 3] ∧
      8 * ([2, 3] : List Byte).length < 2 ^ 64 ∧ Instr.cmpArith ≠ .treeTrunc ∧
      Instr.cmpArith ≠ .treeDerive ∧ Instr.cmpArith ≠ .bldShannon) ∧
    (let s : State := { State.reset with main := t14 }
    s.Ready ∧ s.io.Sound ∧ 8 * s.io.rest.length < 2 ^ 64 ∧ s.io.again = none ∧ ∃ (r : Nat) (sh : Shape),
      s.main.root = some r ∧ s.main.Holds sh r ∧ (s.main.slots sh r).Nodup ∧ sh.depth ≤ Config.treeCap) ∧
    IsDist (withDistribution [⟨7, 3⟩]).distList :=
  ⟨by decide, ⟨by decide, by decide, by decide, rfl,
    0, .both (.leaf 0x41) (.right (.right (.left (.leaf 0x42)))), rfl, t14_holds, by decide, by decide⟩,
    by have h : (withDistribution [⟨7, 3⟩]).distList = [⟨7, 3⟩] := by decide
       rw [h]; exact ⟨by decide, by decide⟩⟩

theorem witness_FaultLeavesPrefix : shortOut.Ready ∧
    exec .cmpAdaptive shortOut = .next (left (exec .cmpAdaptive shortOut)) ∧
    exec .cmpAdaptive (shortOut.setIo { shortOut.io with failIn := [], failOut := [] }) =
      .next (left (exec .cmpAdaptive (shortOut.setIo { shortOut.io with failIn := [], failOut := [] }))) ∧
    (left (exec .cmpAdaptive shortOut)).io.out = [0x61] ∧ encode .cmpAdaptive = 0x44 ∧
    hostStep (.resetDuring 0x44 false 2) shortOut = .next (left (hostStep (.resetDuring 0x44 false 2) shortOut)) :=
  ⟨by decide, next_left (by decide +kernel), next_left (by decide +kernel), by decide +kernel, by decide,
    during_next _ (by decide +kernel)⟩

theorem witness_CountFrame : exec .count failing = .next (left (exec .count failing)) := failing_next
theorem witness_DistRangesFrame :
    exec .dist (withFreq [(0, 1)]) = .next (left (exec .dist (withFreq [(0, 1)]))) ∧
    exec .ranges (withFreq [(0, 0x10000001)]) = .next (left (exec .ranges (withFreq [(0, 0x10000001)]))) ∧
    (distribution [(0, 1)]).length ≤ 1 ∧ (distribution [(0, 0x10000001)]).length ≤ 1 :=
  ⟨next_left (by decide +kernel), next_left (by decide +kernel), by decide +kernel, by decide +kernel⟩
theorem witness_TreeFrame :
    Instr.bldFano ∈ [Instr.treeFromScheme, .treeTrunc, .treeDerive, .bldShannon, .bldFano, .bldHuffman] ∧
    exec .bldFano (withDistribution [⟨1, 1⟩, ⟨2, 1⟩]) =
      .next (left (exec .bldFano (withDistribution [⟨1, 1⟩, ⟨2, 1⟩]))) ∧
    exec .treeFromScheme State.reset = .next (left (exec .treeFromScheme State.reset)) ∧
    exec .treeTrunc { State.reset with main := t14 } =
      .next (left (exec .treeTrunc { State.reset with main := t14 })) ∧
    exec .treeDerive { State.reset with main := t14 } =
      .next (left (exec .treeDerive { State.reset with main := t14 })) :=
  ⟨by decide, next_left (by decide +kernel), next_left (by decide +kernel), next_left (by decide +kernel),
    next_left (by decide +kernel)⟩
theorem witness_StaticFrame : Instr.decFano = StaticMethod.dec .fano ∧
    exec .decFano (atInput [0]) = .next (left (exec .decFano (atInput [0]))) ∧
    Instr.cmpFano = StaticMethod.cmp .fano ∧
    exec .cmpFano failing = .next (left (exec .cmpFano failing)) :=
  ⟨rfl, next_left (by decide +kernel), rfl, next_left (by decide +kernel)⟩
theorem witness_ContextFrame :
    exec .decContext (atInput [0]) = .next (left (exec .decContext (atInput [0]))) ∧
    exec .cmpContext failing = .next (left (exec .cmpContext failing)) :=
  ⟨next_left (by decide +kernel), next_left (by decide +kernel)⟩
theorem witness_AdaptiveFrame :
    exec .decAdaptive (atInput [0x61]) = .next (left (exec .decAdaptive (atInput [0x61]))) ∧
    exec .cmpAdaptive shortOut = .next (left (exec .cmpAdaptive shortOut)) :=
  ⟨next_left (by decide +kernel), next_left (by decide +kernel)⟩
theorem witness_ArithFrame :
    exec .decArith (atInput [0]) = .next (left (exec .decArith (atInput [0]))) ∧
    exec .cmpArith failing = .next (left (exec .cmpArith failing)) :=
  ⟨next_left (by decide +kernel), next_left (by decide +kernel)⟩

/-- A premise that covers a served command on a short input. -/
theorem served_example : (atInput [0x41, 0x42]).Served ∧
    (atInput [0x41, 0x42]).io.rest.length ≤ Config.inLenMax ∧ (atInput [0x41, 0x42]).io.rest ≠ [] := by
  decide

theorem witness_CountCompletes : (atInput [0x41, 0x42]).Served ∧
    (atInput [0x41, 0x42]).io.rest.length ≤ Config.inLenMax := by decide
/-- An input of many equal bytes. -/
theorem served_many {n : Nat} (h : n < 2 ^ 64) :
    (atInput (List.replicate n 0)).Served ∧ (atInput (List.replicate n 0)).io.rest.length = n := by
  have h1 : (atInput (List.replicate n 0)).io.input.length = n := List.length_replicate
  have h0 : (atInput (List.replicate n 0)).io.inPos.toNat = 0 := rfl
  refine ⟨⟨⟨rfl, rfl⟩, ⟨rfl, rfl, rfl⟩, ?_, ?_⟩, ?_⟩
  · rw [h1]; exact h
  · rw [h0]; exact Nat.zero_le _
  · unfold Streams.rest
    rw [List.length_drop, h1, h0, Nat.sub_zero]
theorem witness_CountOverflows : (atInput (List.replicate (2 ^ 32) 0)).Served ∧
    Config.inLenMax < (atInput (List.replicate (2 ^ 32) 0)).io.rest.length ∧
    Instr.cmpArith ∈ [Instr.cmpShannon, .cmpFano, .cmpHuffman, .cmpContext, .cmpArith] :=
  have h := served_many (n := 2 ^ 32) (by decide)
  ⟨h.1, by rw [h.2]; decide, by decide⟩
/-- An input that holds other bytes after the rewind. -/
def rewinding (S b : List Byte) : State :=
  { State.reset with io := { Streams.empty with input := S, again := some b } }

theorem witness_CountReadFault : failing.Ready ∧ failing.io.Sound ∧
    failing.io.rest.length ≤ Config.inLenMax ∧ 1 ≤ 1 ∧ 1 ≤ failing.io.rest.length + 1 ∧
    1 ∈ failing.io.failIn ∧ (∀ j ∈ failing.io.failIn, 1 ≤ j → 1 ≤ j) ∧
    (let s : State := { failing with io := { failing.io with failIn := [2] } };
      2 ≤ s.io.rest.length + 1 ∧ 2 ∈ s.io.failIn ∧ ∀ j ∈ s.io.failIn, 1 ≤ j → 2 ≤ j) ∧
    -- the second pass: shorter; with a new byte; with a new pair; the same bytes in another order
    ((rewinding [0x62, 0x61] [0x62]).Rewound [0x62] ∧
      ((rewinding [0x62, 0x61] [0x62]).secondPass [0x62]).length ≠ (rewinding [0x62, 0x61] [0x62]).io.rest.length) ∧
    ((rewinding [0x62, 0x61] [0x62, 0x63]).Rewound [0x62, 0x63] ∧
      ∃ x ∈ (rewinding [0x62, 0x61] [0x62, 0x63]).secondPass [0x62, 0x63],
        x ∉ (rewinding [0x62, 0x61] [0x62, 0x63]).io.rest) ∧
    (let s : State := rewinding [0x62, 0x61] [0x61, 0x62];
      s.Rewound [0x61, 0x62] ∧ s.io.rest ≠ [] ∧ (s.secondPass [0x61, 0x62]).length = s.io.rest.length ∧
      (∀ x ∈ s.secondPass [0x61, 0x62], x ∈ s.io.rest) ∧
      (0x62 : Byte) ∈ successors 0x61 (s.secondPass [0x61, 0x62]) ∧ (0x62 : Byte) ∉ successors 0x61 s.io.rest) ∧
    (let s : State := rewinding [0x61, 0x61, 0x62] [0x61, 0x61, 0x61];
      s.Rewound [0x61, 0x61, 0x61] ∧ (s.secondPass [0x61, 0x61, 0x61]).length = s.io.rest.length ∧
      (∀ x ∈ s.secondPass [0x61, 0x61, 0x61], x ∈ s.io.rest) ∧
      ∀ c, c < 256 → ∀ x ∈ successors c (s.secondPass [0x61, 0x61, 0x61]), x ∈ successors c s.io.rest) ∧
    arithFits (rewinding [0x61, 0x62] [0x62, 0x61]).io.rest :=
  ⟨by decide, by decide, by decide, by decide, by decide, by decide, by decide, by decide,
    ⟨⟨by decide, rfl, rfl, by decide, rfl, by decide⟩, by decide⟩,
    ⟨⟨by decide, rfl, rfl, by decide, rfl, by decide⟩, by decide⟩,
    ⟨⟨by decide, rfl, rfl, by decide, rfl, by decide⟩, by decide, by decide, by decide, by decide, by decide⟩,
    ⟨⟨by decide, rfl, rfl, by decide, rfl, by decide⟩, by decide, by decide, by decide +kernel⟩,
    by unfold arithFits; decide +kernel⟩
theorem witness_DistCompletes : (withFreq [(0, 1)]).Ready := by decide
theorem witness_RangesCompletes : (withFreq [(0, 0x10000000)]).Ready ∧
    rangeTotal (distribution (withFreq [(0, 0x10000000)]).freq) ≤ Config.arithTMax ∧
    distribution (withFreq [(0, 0x10000000)]).freq ≠ [] ∧
    rangeTotal (distribution State.reset.freq) ≤ Config.arithTMax ∧
    distribution State.reset.freq = [] := by decide +kernel
/-- An input of a given artifact has the premises of the decompressors, if it is short enough. -/
theorem served_input {bytes : List Byte} (h : bytes.length < 2 ^ 64) :
    (atInput bytes).Served ∧ (atInput bytes).io.rest = bytes :=
  ⟨⟨by constructor <;> rfl, ⟨rfl, rfl, rfl⟩, h, Nat.zero_le _⟩, rfl⟩

theorem witness_RangesTraps : ((withFreq [(0, 0x10000001)]).Ready ∧
      Config.arithTMax < rangeTotal (distribution (withFreq [(0, 0x10000001)]).freq)) ∧
    ((atInput (List.replicate (2 ^ 29 + 1) 0)).Served ∧
      (atInput (List.replicate (2 ^ 29 + 1) 0)).io.rest.length ≤ Config.inLenMax ∧
      ¬arithFits (atInput (List.replicate (2 ^ 29 + 1) 0)).io.rest) ∧
    ((atInput (headerBytes [(0, 0x10000001)] ++ [])).Served ∧
      (atInput (headerBytes [(0, 0x10000001)] ++ [])).io.rest = headerBytes [(0, 0x10000001)] ++ []) :=
  have h := served_many (n := 2 ^ 29 + 1) (by decide)
  ⟨by decide +kernel, ⟨h.1, by rw [h.2]; decide, fun hf => by
    unfold arithFits at hf
    rw [h.2] at hf
    have : Config.arithTMax = 2 ^ 29 := rfl
    omega⟩, served_input (by decide +kernel)⟩
theorem witness_FromSchemeCompletes :
    let s : State := { withDistribution [⟨1, 1⟩, ⟨2, 1⟩] with
      main := { TreeMem.empty with scheme := [(1, some [false]), (2, some [true, true])] } }
    s.Ready ∧ (s.codewords.map (fun c => c.2.length)).sum < Config.treeCap ∧
      s.codewords = [(1, [false]), (2, [true, true])] := by decide +kernel
theorem witness_TruncCompletes : State.reset.Ready ∧ State.reset.main.root = none ∧
    t14.root = some 0 ∧ t14.Holds (.both (.leaf 0x41) (.right (.right (.left (.leaf 0x42))))) 0 ∧
    (t14.slots (.both (.leaf 0x41) (.right (.right (.left (.leaf 0x42))))) 0).Nodup ∧
    Shape.depth (.both (.leaf 0x41) (.right (.right (.left (.leaf 0x42))))) ≤ Config.treeCap ∧
    (t14.node 2).binary = false ∧ (t14.node 2).unary = true ∧ (t14.node 0).binary = true :=
  ⟨by decide, rfl, rfl, t14_holds, by decide, by decide, by decide, by decide, by decide⟩
theorem witness_DeriveCompletes : State.reset.Ready ∧ State.reset.main.root = none ∧
    t14.root = some 0 ∧ t14.Holds (.both (.leaf 0x41) (.right (.right (.left (.leaf 0x42))))) 0 ∧
    Shape.depth (.both (.leaf 0x41) (.right (.right (.left (.leaf 0x42))))) ≤ Config.treeCap :=
  ⟨by decide, rfl, rfl, t14_holds, by decide⟩
theorem witness_BuildersSmall : State.reset.Ready ∧ State.reset.distList = [] ∧
    (withDistribution [⟨7, 3⟩]).Ready ∧ (withDistribution [⟨7, 3⟩]).distList = [⟨7, 3⟩] := by decide

/-- A sorted distribution of three entries. -/
def three : List DistEntry := [⟨0x61, 4⟩, ⟨0x62, 3⟩, ⟨0x63, 3⟩]

theorem three_dist : (withDistribution three).Ready ∧ IsDist (withDistribution three).distList ∧
    2 ≤ (withDistribution three).distList.length ∧
    (withDistribution three).distList.Pairwise distBefore ∧ (withDistribution three).distList ≠ [] := by
  have h : (withDistribution three).distList = three := by decide
  rw [h]
  refine ⟨by decide, ⟨by decide, by decide⟩, by decide, ?_, by decide⟩
  unfold distBefore
  decide
theorem witness_ShannonCompletes : (withDistribution three).Ready ∧ IsDist (withDistribution three).distList ∧
    2 ≤ (withDistribution three).distList.length ∧ (withDistribution three).distList.Pairwise distBefore ∧
    IsDist three ∧ 2 ≤ three.length ∧ three[2]? = some ⟨0x63, 3⟩ :=
  ⟨three_dist.1, three_dist.2.1, three_dist.2.2.1, three_dist.2.2.2.1, ⟨by decide, by decide⟩, by decide, by decide⟩
/-- R175's examples: the raw codewords of the counts 4, 3, 3. -/
theorem test_shannon_words : shannonWords (cntSum three) three 0 =
    [(0x61, [false, false]), (0x62, [false, true]), (0x63, [true, false])] := by decide
theorem witness_FanoCompletes : (withDistribution three).Ready ∧ IsDist (withDistribution three).distList ∧
    2 ≤ (withDistribution three).distList.length ∧ 2 ≤ three.length ∧ 0 < 1 ∧ fanoSplit three = 0 ∧
    fanoSplit (⟨0x60, 1⟩ :: three) = 1 :=
  ⟨three_dist.1, three_dist.2.1, three_dist.2.2.1, by decide, by decide, by decide +kernel, by decide +kernel⟩
theorem witness_HuffmanCompletes : (withDistribution three).Ready ∧
    IsDist (withDistribution three).distList ∧ 2 ≤ (withDistribution three).distList.length ∧
    (withDistribution three).distList[2]? = some ⟨0x63, 3⟩ :=
  ⟨three_dist.1, three_dist.2.1, three_dist.2.2.1, by decide⟩
theorem witness_BuilderContract : (withDistribution three).Ready ∧
    IsDist (withDistribution three).distList ∧ (withDistribution three).distList.Pairwise distBefore ∧
    (withDistribution three).distList ≠ [] :=
  ⟨three_dist.1, three_dist.2.1, three_dist.2.2.2.1, three_dist.2.2.2.2⟩
theorem witness_CmpStaticCompletes : (atInput [0x41, 0x42]).Served ∧
    (atInput [0x41, 0x42]).io.rest.length ≤ Config.inLenMax ∧ (atInput [0x41, 0x42]).io.rest ≠ [] :=
  served_example

theorem witness_DecStaticCompletes :
    (atInput (staticArtifact .huffman [0x41, 0x42] ++ [0xFF])).Served ∧
    ([0x41, 0x42] : List Byte).length ≤ Config.inLenMax ∧
    (atInput (staticArtifact .huffman [0x41, 0x42] ++ [0xFF])).io.rest =
      staticArtifact .huffman [0x41, 0x42] ++ [0xFF] :=
  have h := served_input (bytes := staticArtifact .huffman [0x41, 0x42] ++ [0xFF]) (by decide +kernel)
  ⟨h.1, by decide, h.2⟩
theorem witness_StaticRoundTrip : (atInput [0x41, 0x42]).Served ∧
    (atInput (staticArtifact .fano [0x41, 0x42])).Served ∧
    (atInput [0x41, 0x42]).io.rest.length ≤ Config.inLenMax ∧
    (atInput (staticArtifact .fano [0x41, 0x42])).io.rest = staticArtifact .fano [0x41, 0x42] :=
  have h := served_input (bytes := staticArtifact .fano [0x41, 0x42]) (by decide +kernel)
  ⟨by decide, h.1, by decide, h.2⟩
theorem witness_DecHeaderOnly : ((atInput (List.replicate 1024 7)).Served ∧
      (atInput (List.replicate 1024 7)).io.rest.length = 1024) ∧
    ((atInput (contextHeader [(0, 1)] [(3, [])])).Served ∧
      (([(3, [])] : List (Byte × Table (BitVec 32))).map Prod.fst).Nodup ∧ 0 < freqSum [(0, 1)] ∧
      (atInput (contextHeader [(0, 1)] [(3, [])])).io.rest = contextHeader [(0, 1)] [(3, [])]) :=
  have h := served_input (bytes := List.replicate 1024 7) (by decide +kernel)
  have k := served_input (bytes := contextHeader [(0, 1)] [(3, [])]) (by decide +kernel)
  ⟨⟨h.1, by rw [h.2]; decide +kernel⟩, k.1, by decide, by decide +kernel, k.2⟩
/-- A context header of one record, without its last byte. -/
def cutHeader : List Byte := (contextHeader [(0, 1)] [(3, [])]).take 2056
/-- A context header whose second record repeats the first id. -/
def repeated : List Byte := headerBytes [(0, 1)] ++ leBytes 8 2 ++ contextRecords [(3, [])] ++ 3 :: []
theorem witness_DecHeaderCut :
    (Instr.decArith ∈ [Instr.decShannon, .decFano, .decHuffman, .decContext, .decArith] ∧
      (atInput (List.replicate 1023 7)).Served ∧ (atInput (List.replicate 1023 7)).io.rest.length < 1024 ∧
      (atInput []).Served ∧ (atInput []).io.rest.length < 1024) ∧
    ((atInput cutHeader).Served ∧ (atInput cutHeader).io.rest <+: contextHeader [(0, 1)] [(3, [])] ∧
      (atInput cutHeader).io.rest.length < (contextHeader [(0, 1)] [(3, [])]).length) ∧
    ((atInput (headerBytes [] ++ leBytes 8 257 ++ [])).Served ∧
      (atInput (headerBytes [] ++ leBytes 8 257 ++ [])).io.rest = headerBytes [] ++ leBytes 8 257 ++ []) ∧
    ((atInput repeated).Served ∧ (atInput repeated).io.rest = repeated ∧
      (3 : Byte) ∈ ([(3, [])] : List (Byte × Table (BitVec 32))).map Prod.fst) :=
  have h := served_input (bytes := List.replicate 1023 7) (by decide +kernel)
  have k := served_input (bytes := cutHeader) (by decide +kernel)
  ⟨⟨by decide, h.1, by rw [h.2]; decide +kernel, by decide, by decide⟩,
    ⟨k.1, by rw [k.2]; exact List.take_prefix _ _, by rw [k.2]; decide +kernel⟩,
    served_input (by decide +kernel),
    (served_input (by decide +kernel)).1, (served_input (bytes := repeated) (by decide +kernel)).2, by decide⟩
/-- A run of `A` under trees that give `A` the codeword 0. -/
theorem run_bits (n : Nat) (tree : Option Byte → Shape) (h0 : codeIn (tree none).paths 0x41 = some [false])
    (h1 : codeIn (tree (some 0x41)).paths 0x41 = some [false]) :
    ContextBits tree none (List.replicate n 0x41) (List.replicate n false) := by
  have gen : ∀ n, ContextBits tree (some 0x41) (List.replicate n 0x41) (List.replicate n false) := by
    intro n
    induction n with
    | zero => rfl
    | succ n ih => exact ⟨[false], _, h1, rfl, ih⟩
  cases n with
  | zero => rfl
  | succ n => exact ⟨[false], _, h0, rfl, gen n⟩

/-- Eight `A` where ten symbols are due; bit 1 as the eighth of a one-symbol tree; a second symbol of a context
that is absent, or empty; `a` and half a literal, or its own. -/
theorem witness_MalformedPayload :
    ((atInput (headerBytes [(0x41, 9), (0x42, 1)] ++ [0])).Served ∧
      (∀ b ∈ List.replicate 8 (0x41 : Byte),
        (codeIn (StaticMethod.huffman.shape (distribution [(0x41, 9), (0x42, 1)])).paths b).isSome = true) ∧
      ([0] : List Byte) ≠ [] ∧ payloadBits [0] = codeBits (StaticMethod.huffman.shape (distribution [(0x41, 9), (0x42, 1)]))
        (List.replicate 8 0x41) ++ [] ∧
      (List.replicate 8 (0x41 : Byte)).length < freqSum [(0x41, 9), (0x42, 1)] ∧
      (∃ c ∈ (StaticMethod.huffman.shape (distribution [(0x41, 9), (0x42, 1)])).paths,
        [] <+: c.2 ∧ ([] : Bits).length < c.2.length) ∧
      ((∀ b ∈ List.replicate 8 (0x41 : Byte),
          (codeIn (StaticMethod.huffman.shape (distribution [(0x41, 8)])).paths b).isSome = true) ∧
        payloadBits [0] = codeBits (StaticMethod.huffman.shape (distribution [(0x41, 8)])) (List.replicate 8 0x41) ++ [] ∧
        (List.replicate 8 (0x41 : Byte)).length = freqSum [(0x41, 8)])) ∧
    ((atInput (headerBytes [(0x41, 8)] ++ [1])).Served ∧ distribution [(0x41, 8)] = [⟨0x41, 8⟩] ∧
      payloadBits [1] = List.replicate 7 false ++ true :: [] ∧ 7 < (8 : BitVec 32).toNat) ∧
    -- two symbols `A` under a global table and a record that both have `A` alone: complete; cut; a bit 1
    ((atInput (contextHeader [(0x41, 8)] [(0x41, [(0x41, 1)])] ++ [0])).Served ∧
      ([((0x41 : Byte), [(0x41, (1 : BitVec 32))])].map Prod.fst).Nodup ∧
      ContextBits (contextTree [(0x41, 8)] [(0x41, [(0x41, 1)])]) none (List.replicate 8 0x41)
        (List.replicate 8 false) ∧
      ContextBits (contextTree [(0x41, 9)] [(0x41, [(0x41, 1)])]) none (List.replicate 8 0x41)
        (List.replicate 8 false) ∧
      ContextBits (contextTree [(0x41, 8)] [(0x41, [(0x41, 1)])]) none (List.replicate 1 0x41)
        (List.replicate 1 false) ∧
      payloadBits [0] = List.replicate 8 false ++ [] ∧
      (List.replicate 8 (0x41 : Byte)).length = freqSum [(0x41, 8)] ∧
      (List.replicate 8 (0x41 : Byte)).length < freqSum [(0x41, 9)] ∧
      (∃ w ∈ (contextTree [(0x41, 9)] [(0x41, [(0x41, 1)])] (some 0x41)).paths,
        [] <+: w.2 ∧ ([] : Bits).length < w.2.length) ∧
      contextTree [(0x41, 8)] [(0x41, [(0x41, 1)])] (some 0x41) = degenerateShape 0x41 ∧
      payloadBits [0x40] = [false] ++ true :: List.replicate 6 false) ∧
    -- after the first `A` no record, or one with an all-zero table
    (ContextBits (contextTree [(0x41, 2)] []) none [0x41] [false] ∧
      ContextBits (contextTree [(0x41, 2)] [(0x41, [])]) none [0x41] [false] ∧
      payloadBits [0] = [false] ++ List.replicate 7 false ∧ ([0x41] : List Byte).length < freqSum [(0x41, 2)] ∧
      ([0x41] : List Byte).getLast? = some 0x41 ∧
      (0x41 : Byte) ∉ ([] : List (Byte × Table (BitVec 32))).map Prod.fst ∧
      ((0x41, []) : Byte × Table (BitVec 32)) ∈ [((0x41, []) : Byte × Table (BitVec 32))] ∧
      distribution [] = []) ∧
    ((atInput [0x61, 0]).Served ∧ payloadBits [0x61, 0] =
        adaptiveBits (fgkStart FgkMem.empty) [0x61] ++ List.replicate 8 false ∧
      List.replicate 8 false <+: fgkBits ([(0x61 : Byte)].foldl fgkAfter (fgkStart FgkMem.empty)) 0 ∧
      (List.replicate 8 false).length <
        (fgkBits ([(0x61 : Byte)].foldl fgkAfter (fgkStart FgkMem.empty)) 0).length) ∧
    ((atInput [0x61, 0x30, 0x80]).Served ∧ (0x61 : Byte) ∈ [(0x61 : Byte)] ∧ payloadBits [0x61, 0x30, 0x80] =
        adaptiveBits (fgkStart FgkMem.empty) [0x61] ++ nytPath ([(0x61 : Byte)].foldl fgkAfter
          (fgkStart FgkMem.empty)) ++ byteBits 0x61 ++ List.replicate 7 false) :=
  ⟨⟨(served_input (by decide +kernel)).1, by decide +kernel, by decide, by decide +kernel, by decide +kernel,
      by decide +kernel, by decide +kernel⟩,
    ⟨(served_input (by decide +kernel)).1, by decide +kernel, by decide, by decide⟩,
    ⟨(served_input (by decide +kernel)).1, by decide,
      run_bits 8 _ (by decide +kernel) (by decide +kernel), run_bits 8 _ (by decide +kernel) (by decide +kernel),
      run_bits 1 _ (by decide +kernel) (by decide +kernel), by decide, by decide +kernel, by decide +kernel, by decide +kernel, by decide +kernel, by decide⟩,
    ⟨⟨[false], [], by decide +kernel, rfl, rfl⟩, ⟨[false], [], by decide +kernel, rfl, rfl⟩, by decide,
      by decide +kernel, by decide, by decide, by decide, by decide +kernel⟩,
    ⟨by decide, by decide +kernel, by decide +kernel, by decide +kernel⟩,
    ⟨by decide, by decide, by decide +kernel⟩⟩
theorem witness_HeaderWriteFault :
    (let s : State := { State.reset with io := { Streams.empty with input := [1], failOut := [1024, 2000] } }
    s.Ready ∧ s.io.Sound ∧ s.io.failIn = [] ∧ s.io.rest.length ≤ Config.inLenMax ∧ 1 ≤ 1024 ∧
      1024 ∈ s.io.failOut ∧ ∀ j ∈ s.io.failOut, 1 ≤ j → 1024 ≤ j) ∧ arithFits [1] ∧
    (let s : State := { State.reset with io := { Streams.empty with input := [1], failOut := [1032] } }
    s.Ready ∧ s.io.Sound ∧ s.io.failIn = [] ∧ 1032 ∈ s.io.failOut ∧ (∀ j ∈ s.io.failOut, 1 ≤ j → 1032 ≤ j) ∧
      1032 ≤ (contextHeaderOf s.io.rest).length) :=
  ⟨by decide, by unfold arithFits; decide +kernel, by decide, by decide, rfl, by decide, by decide, by decide +kernel⟩
theorem witness_CmpContextCompletes : (atInput [0x41, 0x42]).Served ∧
    (atInput [0x41, 0x42]).io.rest.length ≤ Config.inLenMax := ⟨served_example.1, served_example.2.1⟩
theorem witness_DecContextCompletes : (atInput (contextArtifact [] ++ [5])).Served ∧
    ([] : List Byte).length ≤ Config.inLenMax ∧
    (atInput (contextArtifact [] ++ [5])).io.rest = contextArtifact [] ++ [5] :=
  have h := served_input (bytes := contextArtifact [] ++ [5]) (by decide +kernel)
  ⟨h.1, by decide, h.2⟩
theorem witness_ContextRoundTrip : (atInput [0x41, 0x42]).Served ∧
    (atInput (contextArtifact [0x41])).Served ∧ (atInput [0x41, 0x42]).io.rest.length ≤ Config.inLenMax ∧
    (atInput (contextArtifact [0x41])).io.rest = contextArtifact [0x41] :=
  have h := served_input (bytes := contextArtifact [0x41]) (by decide +kernel)
  ⟨by decide, h.1, by decide, h.2⟩
theorem witness_SiblingProperty : shortOut.Ready ∧ shortOut.io.Sound ∧
    8 * shortOut.io.rest.length < 2 ^ 64 ∧
    exec .cmpAdaptive shortOut = .next (left (exec .cmpAdaptive shortOut)) ∧
    exec .decAdaptive shortOut = .next (left (exec .decAdaptive shortOut)) ∧
    0 < (fgkStart FgkMem.empty).n.toNat ∧
    ((fgkStart FgkMem.empty).node 0).weight = ((fgkStart FgkMem.empty).node 0).weight :=
  ⟨by decide, by decide, by decide, next_left (by decide +kernel), next_left (by decide +kernel), by decide, rfl⟩
theorem witness_CmpAdaptiveCompletes : (atInput [0x41, 0x42]).Served ∧
    (atInput [0x41, 0x42]).io.rest.length < 2 ^ 40 := by decide
theorem witness_DecAdaptiveCompletes : (atInput (adaptiveArtifact FgkMem.empty [0x61, 0x62])).Served ∧
    ([0x61, 0x62] : List Byte).length < 2 ^ 40 ∧
    (atInput (adaptiveArtifact FgkMem.empty [0x61, 0x62])).io.rest =
      adaptiveArtifact FgkMem.empty [0x61, 0x62] :=
  have h := served_input (bytes := adaptiveArtifact FgkMem.empty [0x61, 0x62]) (by decide +kernel)
  ⟨h.1, by decide, h.2⟩
theorem witness_AdaptiveRoundTrip : (atInput [0x61, 0x62]).Served ∧
    (atInput (adaptiveArtifact FgkMem.empty [0x61, 0x62])).Served :=
  ⟨by decide, witness_DecAdaptiveCompletes.1⟩
theorem fits_example : arithFits [0x41, 0x42] := by unfold arithFits; decide +kernel
theorem witness_CmpArithCompletes : (atInput [0x41, 0x42]).Served ∧ arithFits (atInput [0x41, 0x42]).io.rest ∧
    (atInput [0x41, 0x42]).io.rest ≠ [] := ⟨by decide, fits_example, by decide⟩
theorem witness_DecArithCompletes : (atInput (arithArtifact [0x41, 0x42])).Served ∧
    arithFits [0x41, 0x42] ∧
    (atInput (arithArtifact [0x41, 0x42])).io.rest = arithArtifact [0x41, 0x42] ∧
    (atInput (headerBytes [(0, 0x10000000)] ++ [])).Served ∧
    rangeTotal (distribution [(0, 0x10000000)]) ≤ Config.arithTMax ∧ 0 < freqSum [(0, 0x10000000)] :=
  have h := served_input (bytes := arithArtifact [0x41, 0x42]) (by decide +kernel)
  ⟨h.1, fits_example, h.2, (served_input (by decide +kernel)).1, by decide +kernel, by decide +kernel⟩
theorem witness_ArithRoundTrip : (atInput [0x41, 0x42]).Served ∧
    (atInput (arithArtifact [0x41, 0x42])).Served ∧ arithFits (atInput [0x41, 0x42]).io.rest ∧
    ([0x41] : List Byte).length ≤ 2 ^ 28 :=
  ⟨by decide, witness_DecArithCompletes.1, fits_example, by decide⟩
theorem witness_CompressDeterministic :
    let u : State := { atInput [9, 0x41, 0x42] with
      io := { (atInput [9, 0x41, 0x42]).io with inPos := 1 }, main := t14 }
    Instr.cmpArith ∈ [Instr.cmpShannon, .cmpFano, .cmpHuffman, .cmpContext, .cmpAdaptive, .cmpArith] ∧
    (atInput [0x41, 0x42]).Served ∧ u.Served ∧ (atInput [0x41, 0x42]).io.rest = u.io.rest ∧
    (atInput [0x41, 0x42]).io.rest.length ≤ Config.inLenMax ∧ arithFits (atInput [0x41, 0x42]).io.rest :=
  ⟨by decide, by decide, by decide, by decide, by decide, fits_example⟩

end Sys2Proof.Machine.Tests
end

section

namespace Sys2Proof.Machine

/-! ### Rules for pieces that leave a condition as it was -/

section
variable {σ α β : Type} {P : σ → Prop} {E : Stop → σ → Prop} {Q : β → σ → Prop}

/-- The value of a piece with what is known of it, whatever the state becomes. -/
theorem Run.Sat.bind_fact {m : Run σ α} {f : α → Run σ β} {R : σ → Prop} {φ : α → Prop}
    (hm : Run.Sat P m (fun a s => R s ∧ φ a) E) (hf : ∀ a, φ a → Run.Sat R (f a) Q E) :
    Run.Sat P (m >>= f) Q E := .bind hm fun a s hs => hf a hs.2 s hs.1

/-- A value read with what is known of it. -/
theorem Run.Sat.read_fact {f : σ → α} {g : α → Run σ β} {φ : α → Prop} (hf : ∀ s, P s → φ (f s))
    (h : ∀ a, φ a → Run.Sat P (g a) Q E) : Run.Sat P (Run.read f >>= g) Q E :=
  .bind_fact (.read fun s hs => ⟨hs, hf s hs⟩) h

/-- A value read of which nothing need be known. -/
theorem Run.Sat.read_any {f : σ → α} {g : α → Run σ β} (h : ∀ a, Run.Sat P (g a) Q E) :
    Run.Sat P (Run.read f >>= g) Q E := .read_fact (φ := fun _ => True) (fun _ _ => trivial) fun a _ => h a

/-- An assignment that keeps the condition. -/
theorem Run.Sat.update_keep {f : σ → σ} {g : Unit → Run σ β} (hf : ∀ s, P s → P (f s))
    (h : Run.Sat P (g ()) Q E) : Run.Sat P (Run.update f >>= g) Q E := .update_bind hf h

/-- Behind a test its outcome is known. -/
theorem Run.Sat.require_fact {b : Bool} {c : FaultCode} {g : Unit → Run σ β}
    (hE : ∀ s, P s → E (.raise c) s) (h : b = true → Run.Sat P (g ()) Q E) :
    Run.Sat P (Run.require b c >>= g) Q E :=
  .bind_fact (φ := fun _ => b = true) (.require (fun hb _ hs => ⟨hs, hb⟩) fun _ => hE) fun _ => h

end

/-! ### The three invariants from one state to another -/

/-- Each of the three invariants that holds in `s` holds in `t`. -/
structure State.Carries (s t : State) : Prop where
  control : s.ControlInv → t.ControlInv
  memory : Memory.wf s = true → Memory.wf t = true
  ranges : s.RangeInv → t.RangeInv

theorem State.Carries.refl (s : State) : s.Carries s := ⟨id, id, id⟩

theorem State.Carries.trans {s t u : State} (h : s.Carries t) (h' : t.Carries u) : s.Carries u :=
  ⟨h'.control ∘ h.control, h'.memory ∘ h.memory, h'.ranges ∘ h.ranges⟩

theorem State.carries_setIo (s : State) (x : Streams) : s.Carries (s.setIo x) :=
  ⟨fun h => { h with }, id, fun h => { h with }⟩

theorem State.carries_setHost (s : State) (x : List HostAct) : s.Carries (s.setHost x) :=
  ⟨fun h => { h with }, id, fun h => { h with }⟩

/-- The state after reset is in agreement, in canonical form and in range (R35). -/
theorem State.reset_controlInv : State.reset.ControlInv := ⟨rfl, rfl, by decide, fun _ => rfl⟩

theorem Memory.wf_reset : Memory.wf State.reset = true := by decide

theorem State.reset_rangeInv : State.reset.RangeInv :=
  ⟨by decide, by decide, by decide, by decide, by decide, by decide, by decide, by decide, by decide,
    by decide, .inl (by decide)⟩

theorem State.carries_resetWith (s t : State) (x : Streams) : s.Carries (t.resetWith x) :=
  ⟨fun _ => { State.reset_controlInv with }, fun _ => Memory.wf_reset, fun _ => { State.reset_rangeInv with }⟩

/-- Without a fault `NCTX` is in its range (log entry 6). -/
theorem State.RangeInv.nctx_le {s : State} (h : s.RangeInv) (hf : s.status.fault = false) :
    s.w.nctx.toNat ≤ 256 := by
  rcases h.nctx with hn | ⟨ht, _⟩
  · exact hn
  · rw [hf] at ht; cases ht

/-- An illegal code (R346). -/
theorem State.carries_illegal {s : State} (hs : s.status.fault = false) :
    s.Carries ((s.setStatus s.status.notDone).takeFault .illegalCmd) :=
  ⟨fun _ => ⟨rfl, rfl, fun h => Bool.false_ne_true h.1, fun h => Bool.noConfusion h⟩, id,
    fun h => { h with nctx := .inl (h.nctx_le hs) }⟩

end Sys2Proof.Machine
end

section

namespace Sys2Proof.Machine

/-! ### Code models: the canonical form and the count of slots -/

/-- What a block on a code model of `size` slots keeps: the canonical form, and the range of `NNODES`. -/
structure TreeMem.Stays (size : Nat) (t u : TreeMem) : Prop where
  wf : TreeMem.wf size t = true → TreeMem.wf size u = true
  count : t.nnodes.toNat ≤ Config.treeCap → u.nnodes.toNat ≤ Config.treeCap

theorem TreeMem.Stays.refl {size : Nat} (t : TreeMem) : t.Stays size t := ⟨id, id⟩

/-- `TreeMem.Stays` as a frame. -/
def TreeMem.stays (size : Nat) : Frame TreeMem where
  rel := TreeMem.Stays size
  refl := TreeMem.Stays.refl
  trans _ _ _ h h' := ⟨h'.wf ∘ h.wf, h'.count ∘ h.count⟩

section
variable {size : Nat} {t₀ t : TreeMem}

theorem TreeMem.Stays.setCode (h : t₀.Stays size t) (s : Byte) (c : Bits) :
    t₀.Stays size (t.setCode s.toNat c) := ⟨fun hw => TreeMem.setCode_wf c s.isLt (h.wf hw), h.count⟩

theorem TreeMem.Stays.clearScheme (h : t₀.Stays size t) : t₀.Stays size t.clearScheme :=
  ⟨fun hw => TreeMem.clearScheme_wf (h.wf hw), h.count⟩

theorem TreeMem.Stays.setNode (h : t₀.Stays size t) {n : Nat} {e : TreeNode}
    (hn : TreeMem.wf size t₀ = true → n < size)
    (he : TreeMem.wf size t₀ = true → slotOk size e.left = true ∧ slotOk size e.right = true) :
    t₀.Stays size (t.setNode n e) :=
  ⟨fun hw => TreeMem.setNode_wf (hn hw) (he hw).1 (he hw).2 (h.wf hw), h.count⟩

theorem TreeMem.Stays.setRoot (h : t₀.Stays size t) {r : Option Nat}
    (hr : TreeMem.wf size t₀ = true → slotOk size r = true) : t₀.Stays size { t with root := r } :=
  ⟨fun hw => TreeMem.setRoot_wf (hr hw) (h.wf hw), h.count⟩

theorem TreeMem.Stays.setCount (h : t₀.Stays size t) {n : BitVec 14} (hn : n.toNat ≤ Config.treeCap) :
    t₀.Stays size { t with nnodes := n } := ⟨fun hw => TreeMem.setCount_wf n (h.wf hw), fun _ => hn⟩

/-- The children of a node, seen at any time, are slots. -/
theorem TreeMem.Stays.node (h : t₀.Stays size t) (n : Nat) (hw : TreeMem.wf size t₀ = true) :
    slotOk size (t.node n).left = true ∧ slotOk size (t.node n).right = true := TreeMem.node_wf (h.wf hw) n

end

theorem slotOk_some {size i : Nat} : slotOk size (some i) = true ↔ i < size := decide_eq_true_iff

/-! #### `TREE.DERIVE`, `TREE.TRUNC` -/

variable {size : Nat}

theorem visit_stays : ∀ (n : Nat) (i : Option Nat) (p : Bits), Run.Keeps (TreeMem.stays size) (visit n i p)
  | 0, none, _ | _ + 1, none, _ => .pure _
  | 0, some _, _ => .stuck
  | n + 1, some i, p => by
    refine .bind (.read _) fun nd => ?_
    obtain ⟨sym, left, right⟩ := nd
    cases sym with
    | some s => exact .update fun t => (TreeMem.Stays.refl t).setCode s p
    | none => exact .bind (visit_stays n left _) fun _ => visit_stays n right _

theorem deriveBlock_stays : Run.Keeps (TreeMem.stays size) deriveBlock :=
  .bind (.update fun t => (TreeMem.Stays.refl t).clearScheme) fun _ => .bind (.read _) fun _ =>
    visit_stays _ _ _

/-- The node `resolve` gives back is a slot. -/
theorem resolve_stays {t₀ : TreeMem} : ∀ (n i : Nat), (TreeMem.wf size t₀ = true → i < size) →
    Run.Sat (t₀.Stays size) (resolve n i)
      (fun j t => t₀.Stays size t ∧ (TreeMem.wf size t₀ = true → j < size)) (fun _ => t₀.Stays size)
  | 0, _, _ => .stuck fun _ h => h
  | n + 1, i, hi => by
    refine .read_fact (φ := fun nd => TreeMem.wf size t₀ = true →
      slotOk size nd.left = true ∧ slotOk size nd.right = true) (fun t h => h.node i) fun nd hnd => ?_
    obtain ⟨sym, left, right⟩ := nd
    match sym, left, right with
    | some _, _, _ => exact .pure fun t h => ⟨h, hi⟩
    | none, none, none => exact .pure fun t h => ⟨h, hi⟩
    | none, some l, none => exact resolve_stays n l fun hw => slotOk_some.1 (hnd hw).1
    | none, none, some r => exact resolve_stays n r fun hw => slotOk_some.1 (hnd hw).2
    | none, some l, some r =>
      exact .bind_fact (resolve_stays n l fun hw => slotOk_some.1 (hnd hw).1) fun l' hl =>
        .update_keep (fun t h => h.setNode hi fun hw => ⟨slotOk_some.2 (hl hw), (h.node i hw).2⟩) <|
        .bind_fact (resolve_stays n r fun hw => slotOk_some.1 (hnd hw).2) fun r' hr =>
        .update_keep (fun t h => h.setNode hi fun hw => ⟨(h.node i hw).1, slotOk_some.2 (hr hw)⟩) <|
        .pure fun t h => ⟨h, hi⟩

theorem truncBlock_stays : Run.Keeps (TreeMem.stays size) truncBlock := .of_sat fun t₀ => by
  refine .read_fact (φ := fun r => TreeMem.wf size t₀ = true → slotOk size r = true)
    (fun t h hw => (TreeMem.wf_iff.1 (h.wf hw)).2.2.1) fun r hr => ?_
  cases r with
  | none => exact .pure fun _ h => h
  | some r =>
    exact .bind_fact (resolve_stays _ r fun hw => slotOk_some.1 (hr hw)) fun r' hr' =>
      .update fun t h => h.setRoot fun hw => slotOk_some.2 (hr' hw)

/-! #### `TREE.FROMSCHEME` -/

theorem TreeNode.setChild_slots {e : TreeNode} {c : Nat} (b : Bool) (hc : c < size)
    (he : slotOk size e.left = true ∧ slotOk size e.right = true) :
    slotOk size (e.setChild b (some c)).left = true ∧ slotOk size (e.setChild b (some c)).right = true := by
  cases b
  · exact ⟨slotOk_some.2 hc, he.2⟩
  · exact ⟨he.1, slotOk_some.2 hc⟩

/-- The slot a path ends on is one of the arena: no slot is made behind it (R151). -/
theorem growPath_stays {t₀ : TreeMem} : ∀ (bs : Bits) (cur : Nat),
    (TreeMem.wf Config.treeCap t₀ = true → cur < Config.treeCap) →
    Run.Sat (t₀.Stays Config.treeCap) (growPath bs cur)
      (fun j t => t₀.Stays Config.treeCap t ∧ (TreeMem.wf Config.treeCap t₀ = true → j < Config.treeCap))
      (fun _ => t₀.Stays Config.treeCap)
  | [], _, hcur => .pure fun _ h => ⟨h, hcur⟩
  | b :: bs, cur, hcur => by
    refine .read_fact (φ := fun c => TreeMem.wf Config.treeCap t₀ = true → slotOk Config.treeCap c = true)
      (fun t h hw => TreeMem.child_wf (h.wf hw) cur b) fun c hc => ?_
    cases c with
    | some child => exact growPath_stays bs child fun hw => slotOk_some.1 (hc hw)
    | none =>
      refine .read_bind fun n => .require_fact (fun t h => h.1) fun hn => ?_
      have hn : n < Config.treeCap := of_decide_eq_true hn
      refine .update_bind (R := t₀.Stays Config.treeCap) (fun t h => ?_) <|
        .update_keep (fun t h => h.setNode hcur fun hw => TreeNode.setChild_slots b hn (h.node cur hw)) <|
        growPath_stays bs n fun _ => hn
      have hnext : (t.nnodes + 1).toNat ≤ Config.treeCap := by
        rw [BitVec.toNat_add, ← h.2]
        exact (Nat.mod_le _ _).trans hn
      exact (h.1.setNode (fun _ => hn) fun _ => ⟨rfl, rfl⟩).setCount hnext

theorem plantSymbol_stays (e : DistEntry) : Run.Keeps (TreeMem.stays Config.treeCap) (plantSymbol e) := by
  refine .bind (.read _) fun c => .of_sat fun t₀ => ?_
  cases c with
  | none => exact .pure fun _ h => h
  | some bits =>
    exact .bind_fact (growPath_stays bits 0 fun _ => by decide) fun cur hcur =>
      .update fun t h => h.setNode hcur fun hw => h.node cur hw

theorem fromSchemeBlock_stays (dl : List DistEntry) :
    Run.Keeps (TreeMem.stays Config.treeCap) (fromSchemeBlock dl) := by
  refine .bind (.update fun t => ?_) fun _ => .each plantSymbol_stays dl
  have h0 : t.Stays Config.treeCap (t.setNode 0 TreeNode.empty) :=
    (TreeMem.Stays.refl t).setNode (fun _ => by decide) fun _ => ⟨rfl, rfl⟩
  exact (h0.setCount (n := 1) (by decide)).setRoot fun _ => slotOk_some.2 (by decide)

/-! #### The builders -/

theorem emptyResult_stays : Run.Keeps (TreeMem.stays size) emptyResult :=
  .update fun t => (((TreeMem.Stays.refl t).clearScheme).setCount (n := 0) (by decide)).setRoot fun _ => rfl

theorem degenerateResult_stays (hsize : 2 ≤ size) (sym : Byte) :
    Run.Keeps (TreeMem.stays size) (degenerateResult sym) := .update fun t => by
  have h := ((TreeMem.Stays.refl (size := size) t).clearScheme).setCode sym [false]
  have h0 := h.setNode (n := 0) (e := ⟨none, some 1, none⟩) (fun _ => by omega)
    fun _ => ⟨slotOk_some.2 (by omega), rfl⟩
  have h1 := h0.setNode (n := 1) (e := ⟨some sym, none, none⟩) (fun _ => by omega) fun _ => ⟨rfl, rfl⟩
  exact (h1.setCount (n := 2) (by decide)).setRoot fun _ => slotOk_some.2 (by omega)

theorem shannonLoop_stays : ∀ (dl : List DistEntry) (S C : Nat),
    Run.Keeps (TreeMem.stays size) (shannonLoop dl S C)
  | [], _, _ => .pure _
  | e :: es, S, C => by
    unfold shannonLoop
    cases shannonLen e.cnt.toNat S with
    | none => exact .stuck
    | some L =>
      exact .bind (.update fun t => (TreeMem.Stays.refl t).setCode e.sym _) fun _ =>
        shannonLoop_stays es S _

theorem fano_stays : ∀ (n : Nat) (seg : List DistEntry) (p : Bits), Run.Keeps (TreeMem.stays size) (fano n seg p)
  | 0, _, _ => .stuck
  | _ + 1, [], _ => .stuck
  | _ + 1, [e], p => .update fun t => (TreeMem.Stays.refl t).setCode e.sym p
  | n + 1, _ :: _ :: _, _ => .bind (fano_stays n _ _) fun _ => fano_stays n _ _

theorem plantLeaves_stays : ∀ (dl : List DistEntry) (i : Nat), i + dl.length ≤ size →
    Run.Keeps (TreeMem.stays size) (plantLeaves dl i)
  | [], _, _ => .pure _
  | e :: es, i, hi => by
    rw [List.length_cons] at hi
    exact .bind (.update fun t => (TreeMem.Stays.refl t).setNode (fun _ => by omega) fun _ => ⟨rfl, rfl⟩)
      fun _ => plantLeaves_stays es (i + 1) (by omega)

/-- `PopMin` takes a node out (R183). -/
theorem popMin_perm : ∀ {q : List QNode} {m : QNode} {r : List QNode}, popMin q = some (m, r) → (m :: r).Perm q
  | x :: xs, m, r, h => by
    rw [popMin] at h
    cases hx : popMin xs with
    | none =>
      have hxs : xs = [] := by
        cases xs with
        | nil => rfl
        | cons y ys =>
          rw [popMin] at hx
          split at hx
          · cases hx
          · split at hx <;> cases hx
      rw [hx] at h
      cases h
      rw [hxs]
    | some p =>
      obtain ⟨m', r'⟩ := p
      have hp := popMin_perm hx
      simp only [hx] at h
      split at h
      · cases h; exact (List.Perm.swap x m r').trans (hp.cons x)
      · cases h; exact List.Perm.refl _

theorem leafQueue_length : ∀ (dl : List DistEntry) (i : Nat), (leafQueue dl i).length = dl.length
  | [], _ => rfl
  | _ :: es, i => congrArg (· + 1) (leafQueue_length es (i + 1))

theorem leafQueue_slot : ∀ (dl : List DistEntry) (i : Nat), ∀ x ∈ leafQueue dl i, x.slot < i + dl.length
  | e :: es, i, x, hx => by
    rw [List.length_cons]
    rcases List.mem_cons.1 hx with rfl | hx
    · show i < _; omega
    · have := leafQueue_slot es (i + 1) x hx; omega

/-- A merge takes two nodes out of `Q` and puts in one, in a new slot: `NNODES` and the size of `Q` sum up to
the same (R184). -/
theorem mergeLoop_stays {t₀ : TreeMem} (hcap : size ≤ Config.treeCap) : ∀ (k : Nat) (q : List QNode),
    (∀ x ∈ q, x.slot < size) →
    Run.Sat (fun t => t₀.Stays size t ∧ t.nnodes.toNat + q.length ≤ size + 1) (mergeLoop k q)
      (fun j t => t₀.Stays size t ∧ j < size) (fun _ => t₀.Stays size)
  | 0, _, _ => .stuck fun _ h => h.1
  | k + 1, q, hq => by
    unfold mergeLoop
    cases ha : popMin q with
    | none => exact .stuck fun _ h => h.1
    | some p =>
      obtain ⟨a, q1⟩ := p
      have hp1 := popMin_perm ha
      have ha' : a.slot < size := hq a (hp1.subset (by simp))
      cases hb : popMin q1 with
      | none => simp only [hb]; exact .pure fun t h => ⟨h.1, ha'⟩
      | some p =>
        obtain ⟨b, q2⟩ := p
        have hp2 := popMin_perm hb
        have hq1 : ∀ x ∈ q1, x.slot < size := fun x hx => hq x (hp1.subset (by simp [hx]))
        have hq2 : ∀ x ∈ q2, x.slot < size := fun x hx => hq1 x (hp2.subset (by simp [hx]))
        have hb' : b.slot < size := hq1 b (hp2.subset (by simp))
        have hlen : q.length = q2.length + 2 := by
          rw [← hp1.length_eq, List.length_cons, ← hp2.length_eq, List.length_cons]
        simp only [hb]
        refine .read_bind fun n => .bind_fact (φ := fun _ => n < size)
          (R := fun t => t₀.Stays size t ∧ t.nnodes.toNat + (q2.length + 1) ≤ size + 1)
          (.update fun t h => ?_) fun _ hn => .update_keep (fun t h => ?_) ?_
        · obtain ⟨⟨hst, hcnt⟩, rfl⟩ := h
          have h14 : Config.treeCap = 10241 := rfl
          have hsucc : (t.nnodes + 1).toNat = t.nnodes.toNat + 1 := by
            rw [BitVec.toNat_add, show (1 : BitVec 14).toNat = 1 from rfl, Nat.mod_eq_of_lt (by omega)]
          refine ⟨⟨hst.setCount (by rw [hsucc]; omega), ?_⟩, by omega⟩
          show (t.nnodes + 1).toNat + _ ≤ _
          rw [hsucc]; omega
        · exact ⟨h.1.setNode (fun _ => hn) fun _ => ⟨slotOk_some.2 hb', slotOk_some.2 ha'⟩, h.2⟩
        · have := mergeLoop_stays (t₀ := t₀) hcap k (q2 ++ [⟨n, a.weight + b.weight⟩]) (by
            intro x hx
            rcases List.mem_append.1 hx with hx | hx
            · exact hq2 x hx
            · rw [List.mem_singleton.1 hx]; exact hn)
          rwa [List.length_append] at this

/-- A Huffman tree of `n` leaves has `2 n - 1` nodes. -/
theorem huffmanBlock_stays (hsize : 2 ≤ size) (hcap : size ≤ Config.treeCap) {dl : List DistEntry}
    (hdl : 2 * dl.length ≤ size + 1) : Run.Keeps (TreeMem.stays size) (huffmanBlock dl) := by
  match dl, hdl with
  | [], _ => exact emptyResult_stays
  | [e], _ => exact degenerateResult_stays hsize e.sym
  | e :: e' :: es, hdl =>
    have hcap' : Config.treeCap = 10241 := rfl
    refine .bind (plantLeaves_stays (e :: e' :: es) 0 (by omega)) fun _ => .of_sat fun t₀ =>
      .update_bind (R := fun t => t₀.Stays size t ∧ t.nnodes.toNat + (leafQueue (e :: e' :: es) 0).length ≤ size + 1)
        (fun t h => ?_) <| .bind_fact (mergeLoop_stays hcap _ _ fun x hx => ?_) fun r hr =>
          .update_keep (fun t h => h.setRoot fun _ => slotOk_some.2 hr) (deriveBlock_stays.sat t₀)
    · have hn : (BitVec.ofNat 14 (e :: e' :: es).length).toNat = (e :: e' :: es).length := by
        rw [BitVec.toNat_ofNat, Nat.mod_eq_of_lt (by omega)]
      refine ⟨h.setCount (by rw [hn]; omega), ?_⟩
      show (BitVec.ofNat 14 (e :: e' :: es).length).toNat + _ ≤ _
      rw [hn, leafQueue_length]; omega
    · have := leafQueue_slot _ _ x hx; omega

theorem shannonBlock_stays (dl : List DistEntry) : Run.Keeps (TreeMem.stays Config.treeCap) (shannonBlock dl) := by
  match dl with
  | [] => exact emptyResult_stays
  | [e] => exact degenerateResult_stays (by decide) e.sym
  | e :: e' :: es =>
    exact .bind (.update fun t => (TreeMem.Stays.refl t).clearScheme) fun _ =>
      .bind (shannonLoop_stays _ _ _) fun _ => .bind (fromSchemeBlock_stays _) fun _ =>
      .bind truncBlock_stays fun _ => deriveBlock_stays

theorem fanoBlock_stays (dl : List DistEntry) : Run.Keeps (TreeMem.stays Config.treeCap) (fanoBlock dl) := by
  match dl with
  | [] => exact emptyResult_stays
  | [e] => exact degenerateResult_stays (by decide) e.sym
  | e :: e' :: es =>
    exact .bind (.update fun t => (TreeMem.Stays.refl t).clearScheme) fun _ =>
      .bind (fano_stays _ _ _) fun _ => fromSchemeBlock_stays _

end Sys2Proof.Machine
end

section

namespace Sys2Proof.Machine

/-! ### The adaptive tree: the canonical form and the count of nodes -/

/-- What the adaptive commands keep of the tree: its canonical form, where it had it (`m`), and a count of nodes
that fits the arena. -/
structure FgkMem.Sized (m : Prop) (g : FgkMem) : Prop where
  wf : m → g.wf = true
  count : g.n.toNat ≤ Config.fgkCap

section
variable {m : Prop} {g : FgkMem}

theorem FgkMem.Sized.setNode (h : g.Sized m) {n : Nat} {e : FgkNode} (hn : m → n < Config.fgkCap)
    (he : m → e.linksOk) : (g.setNode n e).Sized m :=
  ⟨fun hm => FgkMem.setNode_wf (hn hm) (he hm) (h.wf hm), h.count⟩

theorem FgkMem.Sized.modNode (h : g.Sized m) {n : Nat} {f : FgkNode → FgkNode} (hn : m → n < Config.fgkCap)
    (hf : ∀ e : FgkNode, m → e.linksOk → (f e).linksOk) : (g.modNode n f).Sized m :=
  h.setNode hn fun hm => hf _ hm (FgkMem.node_wf (h.wf hm) n)

theorem FgkMem.Sized.relink (h : g.Sized m) {p c : Nat} (isLeft : Bool) (hp : m → p < Config.fgkCap)
    (hc : m → c < Config.fgkCap) : (g.relink p isLeft c).Sized m :=
  h.modNode hp fun e hm he => by
    cases isLeft
    · exact ⟨he.1, he.2.1, slotOk_some.2 (hc hm)⟩
    · exact ⟨he.1, slotOk_some.2 (hc hm), he.2.2⟩

/-- The parent of a node is a slot. -/
theorem FgkMem.Sized.parent (h : g.Sized m) (n : Nat) (hm : m) :
    slotOk Config.fgkCap (g.node n).parent = true := (FgkMem.node_wf (h.wf hm) n).1

end

variable {m : Prop} {E : Stop → FgkMem → Prop}

theorem fgkInit_sized : Run.Sat (fun g => m → g.wf = true) fgkInit (fun _ => FgkMem.Sized m) E := by
  refine .update fun g h => ⟨fun hm => ?_, show (1 : BitVec 10).toNat ≤ Config.fgkCap by decide⟩
  have hslot : slotOk Config.fgkCap (some 0) = true := slotOk_some.2 (by decide)
  have hnode := FgkMem.setNode_wf (n := 0) (e := ⟨0, BitVec.ofNat 10 Config.rankMax, .nyt, 0, none, none, none⟩)
    (by decide) ⟨rfl, rfl, rfl⟩ (h hm)
  exact FgkMem.clearLeaf_wf (FgkMem.setHeads_wf 1 hslot hslot hnode)

/-- The leader is the node itself or one in use (R257). -/
theorem fgkLeader_lt {g : FgkMem} {n c : Nat} (hn : n < c) (hc : g.n.toNat ≤ c) : fgkLeader g n < c := by
  have hfold : ∀ (l : List Nat) (ld : Nat), (∀ i ∈ l, i < c) → ld < c →
      l.foldl (fun ld i => if (g.node i).weight = (g.node n).weight ∧
        (g.node ld).rank.toNat < (g.node i).rank.toNat then i else ld) ld < c := by
    intro l
    induction l with
    | nil => intro ld _ hld; exact hld
    | cons i l ih =>
      intro ld hl hld
      refine ih _ (fun j hj => hl j (List.mem_cons_of_mem _ hj)) ?_
      show (if _ then i else ld) < c
      split
      · exact hl i List.mem_cons_self
      · exact hld
  exact hfold _ n (fun i hi => (List.mem_range.1 hi).trans_le hc) hn

/-- The leaf `FgkSplit` makes is a slot of the arena (R256). -/
theorem fgkSplit_sized (b : Byte) : Run.Sat (FgkMem.Sized m) (fgkSplit b)
    (fun n g => g.Sized m ∧ n < Config.fgkCap) (fun _ => FgkMem.Sized m) := by
  refine .read_bind fun used => .require_fact (fun _ h => h.1) fun hu => .read_fact
    (φ := fun o => m → slotOk Config.fgkCap o = true)
    (fun g h hm => (FgkMem.wf_iff.1 (h.1.wf hm)).2.2.2.1) fun o ho => ?_
  have hu : used + 2 ≤ Config.fgkCap := of_decide_eq_true hu
  cases o with
  | none => exact .stuck fun _ h => h.1
  | some o =>
    have ho' : m → o < Config.fgkCap := fun hm => slotOk_some.1 (ho hm)
    refine .read_any fun r => .update_bind (R := FgkMem.Sized m) (fun g h => ?_) <|
      .update_keep (fun g h => h.setNode (fun _ => by omega) fun hm => ⟨ho hm, rfl, rfl⟩) <|
      .update_keep (fun g h => h.setNode (fun _ => by omega) fun hm => ⟨ho hm, rfl, rfl⟩) <|
      .update_keep (fun g h => h.modNode ho' fun e _ he =>
        ⟨he.1, slotOk_some.2 (by omega), slotOk_some.2 (by omega)⟩) <|
      .update_keep (fun g h => ?_) (.pure fun g h => ⟨h, by omega⟩)
    · obtain ⟨hg, hused⟩ := h
      have h513 : Config.fgkCap = 513 := rfl
      refine ⟨fun hm => ?_, ?_⟩
      · have hwf := hg.wf hm
        obtain ⟨_, _, hroot, hnyt, _⟩ := FgkMem.wf_iff.1 hwf
        exact FgkMem.setHeads_wf (g.n + 2) hroot hnyt hwf
      · show (g.n + 2).toNat ≤ _
        rw [BitVec.toNat_add, show (2 : BitVec 10).toNat = 2 from rfl]
        omega
    · refine ⟨fun hm => ?_, h.count⟩
      have hwf := FgkMem.setLeaf_wf b.isLt (i := some used) (slotOk_some.2 (by omega)) (h.wf hm)
      exact FgkMem.setHeads_wf g.n (FgkMem.wf_iff.1 hwf).2.2.1 (slotOk_some.2 (by omega)) hwf

theorem fgkSwap_sized {a b : Nat} (ha : m → a < Config.fgkCap) (hb : m → b < Config.fgkCap) :
    Run.Sat (FgkMem.Sized m) (fgkSwap a b) (fun _ => FgkMem.Sized m) (fun _ => FgkMem.Sized m) := by
  refine .read_fact (φ := fun p => m → slotOk Config.fgkCap p = true) (fun g h => h.parent a) fun pa? hpa =>
    .read_fact (φ := fun p => m → slotOk Config.fgkCap p = true) (fun g h => h.parent b) fun pb? hpb => ?_
  match pa?, pb? with
  | none, _ | some _, none => exact .stuck fun _ h => h
  | some pa, some pb =>
    exact .read_any fun aLeft => .read_any fun bLeft =>
      .update_keep (fun g h => h.relink aLeft (fun hm => slotOk_some.1 (hpa hm)) hb) <|
      .update_keep (fun g h => h.relink bLeft (fun hm => slotOk_some.1 (hpb hm)) ha) <|
      .update_keep (fun g h => h.modNode ha fun e hm he => ⟨hpb hm, he.2⟩) <|
      .update_keep (fun g h => h.modNode hb fun e hm he => ⟨hpa hm, he.2⟩) <|
      .read_any fun ra => .read_any fun rb =>
      .update_keep (fun g h => h.modNode ha fun e _ he => he) <|
      .update fun g h => h.modNode hb fun e _ he => he

theorem fgkUpdate_sized : ∀ (k : Nat) (n? : Option Nat), (m → slotOk Config.fgkCap n? = true) →
    Run.Sat (FgkMem.Sized m) (fgkUpdate k n?) (fun _ => FgkMem.Sized m) (fun _ => FgkMem.Sized m)
  | 0, none, _ | _ + 1, none, _ => .pure fun _ h => h
  | 0, some _, _ => .stuck fun _ h => h
  | k + 1, some n, hn => by
    have hn' : m → n < Config.fgkCap := fun hm => slotOk_some.1 (hn hm)
    have hclimb : Run.Sat (FgkMem.Sized m) (do
        Run.update (fun g => g.modNode n (fun e => { e with weight := e.weight + 1 }))
        let next ← Run.read (fun g => (g.node n).parent)
        fgkUpdate k next) (fun _ => FgkMem.Sized m) (fun _ => FgkMem.Sized m) :=
      .update_keep (fun g h => h.modNode hn' fun e _ he => he) <|
        .read_fact (φ := fun p => m → slotOk Config.fgkCap p = true) (fun g h => h.parent n) (fgkUpdate_sized k)
    exact .read_fact (φ := fun ld => m → ld < Config.fgkCap) (fun g h hm => fgkLeader_lt (hn' hm) h.count)
      fun ld hld => .read_any fun par => .ite (fun _ => .bind (fgkSwap_sized hn' hld) fun _ => hclimb) fun _ => hclimb

end Sys2Proof.Machine
end

section

namespace Sys2Proof.Machine

/-! ### A running command -/

/-- What holds in `s` while a command runs that was given in `s₀`.  A command that packs bits (`p`) has room for
one in `OBITS`; one that has made an adaptive tree (`a`) keeps its nodes within the arena. -/
structure State.Runs (s₀ : State) (p a : Prop) (s : State) : Prop where
  status : s.status = ⟨true, false, false⟩
  code : s.faultCode = s₀.faultCode
  memory : Memory.wf s₀ = true → Memory.wf s = true
  ranges : s₀.RangeInv → s.RangeInv
  room : p → s.w.ocnt.toNat ≤ 7
  slots : a → s.fgk.n.toNat ≤ Config.fgkCap

/-- What holds in `s` where the command given in `s₀` raises fault `c`. -/
structure State.Stops (s₀ : State) (c : FaultCode) (s : State) : Prop where
  status : s.status = ⟨true, false, false⟩
  memory : Memory.wf s₀ = true → Memory.wf s = true
  ranges : s₀.RangeInv → (s.takeFault c).RangeInv

/-- `State.Stops` as the condition where a piece stops; nothing is claimed of a loop without an end. -/
def State.stops (s₀ : State) : Stop → State → Prop
  | .raise c, s => s₀.Stops c s
  | .stuck, _ => True

/-- A piece of a command that keeps what a running command keeps. -/
abbrev Run.Safe (s₀ : State) (p a : Prop) {α : Type} (m : Eng α) : Prop :=
  Run.Sat (s₀.Runs p a) m (fun _ => s₀.Runs p a) s₀.stops

section
variable {s₀ s : State} {p a : Prop}

theorem State.Runs.fault (h : s₀.Runs p a s) : s.status.fault = false := by rw [h.status]

theorem State.Runs.stops (h : s₀.Runs p a s) (c : FaultCode) : s₀.Stops c s :=
  ⟨h.status, h.memory, fun hr => { h.ranges hr with nctx := .inl ((h.ranges hr).nctx_le h.fault) }⟩

/-- Fewer conditions. -/
theorem State.Runs.forget (h : s₀.Runs p a s) : s₀.Runs False a s := { h with room := False.elim }

/-- A write of working registers that keeps their ranges. -/
theorem State.Runs.setW (h : s₀.Runs p a s) {w : Working} (hr : s.RangeInv → (s.setW w).RangeInv)
    (hp : p → w.ocnt.toNat ≤ 7) : s₀.Runs p a (s.setW w) := { h with ranges := hr ∘ h.ranges, room := hp }

end

/-! #### Ways of putting safe pieces together -/

section
variable {s₀ : State} {p a : Prop} {α β : Type}

theorem pure_safe (x : α) : Run.Safe s₀ p a (pure x) := .pure fun _ h => h
theorem raise_safe (c : FaultCode) : Run.Safe s₀ p a (Run.raise c : Eng α) := .raise fun _ h => h.stops c
theorem stuck_safe : Run.Safe s₀ p a (Run.stuck : Eng α) := .stuck fun _ _ => trivial
theorem require_safe (b : Bool) (c : FaultCode) : Run.Safe s₀ p a (Run.require b c) :=
  .require (fun _ _ h => h) fun _ _ h => h.stops c

/-- What a condition carries over is a frame. -/
def Frame.carry (P : State → Prop) : Frame State := ⟨fun s t => P s → P t, fun _ => id, fun _ _ _ h h' => h' ∘ h⟩

theorem Run.Keeps.safe {m : Eng α} (h : Run.Keeps (Frame.carry (s₀.Runs p a)) m) : Run.Safe s₀ p a m :=
  (h.carries fun _ _ => id).conseq (fun _ h => h) (fun _ _ h => h) fun e _ h => by
    cases e with
    | raise c => exact h.stops c
    | stuck => trivial

/-- A condition on a part of the state that the piece leaves alone. -/
theorem Run.Safe.and_same {m : Eng α} {f : State → β} (C : β → Prop) (h : Run.Safe s₀ p a m)
    (hk : Run.Keeps (Frame.same f) m) : Run.Sat (fun s => s₀.Runs p a s ∧ C (f s)) m
      (fun _ s => s₀.Runs p a s ∧ C (f s)) s₀.stops :=
  (h.and (hk.carries (P := fun s => C (f s)) fun _ _ he hc => he ▸ hc)).conseq (fun _ h => h) (fun _ _ h => h)
    fun _ _ h => h.1

end

/-! #### The writes that touch no invariant -/

section
variable {s₀ : State} {p a : Prop}

theorem runs_phase : (Frame.carry (s₀.Runs p a)).AllowsPhase := fun _ _ h =>
  { h with ranges := fun hr => { h.ranges hr with } }
theorem runs_in : (Frame.carry (s₀.Runs p a)).AllowsIn := fun _ _ _ h =>
  { h with ranges := fun hr => { h.ranges hr with } }
theorem runs_touchOut : (Frame.carry (s₀.Runs p a)).AllowsTouchOut := fun _ _ h =>
  { h with ranges := fun hr => { h.ranges hr with } }
theorem runs_out : (Frame.carry (s₀.Runs p a)).AllowsOut := fun _ _ h =>
  { h with ranges := fun hr => { h.ranges hr with } }
theorem runs_fresh : (Frame.carry (s₀.Runs p a)).AllowsFresh := fun _ _ h =>
  { h with ranges := fun hr => { h.ranges hr with } }
theorem runs_total : (Frame.carry (s₀.Runs p a)).AllowsTotal := fun _ _ h =>
  h.setW (fun hr => { hr with }) h.room
theorem runs_nsym : (Frame.carry (s₀.Runs p a)).AllowsNsym := fun _ _ h => h.setW (fun hr => { hr with }) h.room
theorem runs_cur : (Frame.carry (s₀.Runs p a)).AllowsCur := fun _ _ h => h.setW (fun hr => { hr with }) h.room
theorem runs_pend : (Frame.carry (s₀.Runs p a)).AllowsPend := fun _ _ h => h.setW (fun hr => { hr with }) h.room
theorem runs_val : (Frame.carry (s₀.Runs p a)).AllowsVal := fun _ _ h => h.setW (fun hr => { hr with }) h.room

theorem setPhase_safe (x : Phase) : Run.Safe s₀ p a (setPhase x) := (setPhase_keeps runs_phase x).safe
theorem touchInput_safe : Run.Safe s₀ p a touchInput := (touchInput_keeps runs_in).safe
theorem inRead_safe : Run.Safe s₀ p a inRead := (inRead_keeps runs_in).safe
theorem inAtEnd_safe : Run.Safe s₀ p a inAtEnd := (inAtEnd_keeps runs_in).safe
theorem outWrite_safe (v : Byte) : Run.Safe s₀ p a (outWrite v) := (outWrite_keeps runs_touchOut runs_out v).safe
theorem memRead_safe (n : Nat) : Run.Safe s₀ p a (memRead n) := (memRead_keeps runs_in n).safe
theorem bumpNsym_safe : Run.Safe s₀ p a bumpNsym := (bumpNsym_keeps runs_nsym runs_fresh).safe
theorem writeHeader_safe (f : Table (BitVec 32)) : Run.Safe s₀ p a (writeHeader f) :=
  (writeHeader_keeps runs_touchOut runs_out f).safe
theorem writeContextHeader_safe : Run.Safe s₀ p a writeContextHeader :=
  (writeContextHeader_keeps runs_touchOut runs_out).safe

/-! #### The writes with a range -/

section
variable {s : State}

theorem State.Runs.setParse (h : s₀.Runs p a s) (v : BitVec 8) {n : BitVec 4}
    (hn : s.RangeInv → n.toNat ≤ 8) : s₀.Runs p a (s.setW { s.w with ibits := v, icnt := n }) :=
  h.setW (fun hr => { hr with icnt := hn hr }) h.room

theorem State.Runs.setPrev (h : s₀.Runs p a s) {x : BitVec 9} (hx : x.toNat ≤ 256) :
    s₀.Runs p a (s.setW { s.w with prev := x }) := h.setW (fun hr => { hr with prev := hx }) h.room

/-- `PREV <- NONE` (R25). -/
theorem State.Runs.clearPrev (h : s₀.Runs p a s) : s₀.Runs p a (s.setW { s.w with prev := 256 }) :=
  h.setPrev (by decide)

theorem State.Runs.setNctx (h : s₀.Runs p a s) {x : BitVec 9} (hx : x.toNat ≤ 256) :
    s₀.Runs p a (s.setW { s.w with nctx := x }) := h.setW (fun hr => { hr with nctx := .inl hx }) h.room

theorem State.Runs.setRt (h : s₀.Runs p a s) {n : BitVec 9} {x : BitVec 30} (hn : n.toNat ≤ 257)
    (hx : x.toNat ≤ 2 ^ 29) : s₀.Runs p a (s.setW { s.w with nrange := n, rt := x }) :=
  h.setW (fun hr => { hr with nrange := hn, rt := hx }) h.room

theorem State.Runs.setInterval (h : s₀.Runs p a s) {x y : Nat} (hx : x < 2 ^ 31) (hy : y ≤ 2 ^ 31) :
    s₀.Runs p a (s.setW (s.w.setInterval x y)) := by
  refine h.setW (fun hr => { hr with low := ?_, high := ?_ }) h.room
  · show (BitVec.ofNat 32 x).toNat < 2 ^ 31
    rwa [BitVec.toNat_ofNat, Nat.mod_eq_of_lt (by omega)]
  · show (BitVec.ofNat 32 y).toNat ≤ 2 ^ 31
    rwa [BitVec.toNat_ofNat, Nat.mod_eq_of_lt (by omega)]

theorem State.Runs.setFreq (h : s₀.Runs p a s) {f : Table (BitVec 32)}
    (hf : Memory.wf s = true → Table.wf 0 256 f = true) : s₀.Runs p a (s.setFreq f) :=
  { h with
    memory := fun hm => Memory.wf_setFreq (hf (h.memory hm)) (h.memory hm)
    ranges := fun hr => { h.ranges hr with } }

theorem State.Runs.setDist (h : s₀.Runs p a s) {t : Table DistEntry}
    (ht : Memory.wf s = true → Table.wf DistEntry.empty 256 t = true) : s₀.Runs p a (s.setDist t) :=
  { h with
    memory := fun hm => Memory.wf_setDist (ht (h.memory hm)) (h.memory hm)
    ranges := fun hr => { h.ranges hr with } }

theorem State.Runs.setRange (h : s₀.Runs p a s) {t : Table RangeEntry}
    (ht : Memory.wf s = true → Table.wf RangeEntry.empty 257 t = true) : s₀.Runs p a (s.setRange t) :=
  { h with
    memory := fun hm => Memory.wf_setRange (ht (h.memory hm)) (h.memory hm)
    ranges := fun hr => { h.ranges hr with } }

theorem State.Runs.setCtx (h : s₀.Runs p a s) {t : Table CtxEntry} (ht : Memory.wf s = true → ctxWf t) :
    s₀.Runs p a (s.setCtx t) :=
  { h with
    memory := fun hm => Memory.wf_setCtx (ht (h.memory hm)) (h.memory hm)
    ranges := fun hr => { h.ranges hr with } }

/-- The registers of R383. -/
theorem State.Runs.init (h : s₀.Runs p a s) : s₀.Runs True a (s.setW { s.w with
    obits := 0, ocnt := 0, ibits := 0, icnt := 0, nsym := 0, prev := 256, cur := none, pend := 0 }) :=
  { h with
    ranges := fun hr => { h.ranges hr with
      prev := show (256 : BitVec 9).toNat ≤ 256 by decide
      ocnt := show (0 : BitVec 4).toNat ≤ 8 by decide
      icnt := show (0 : BitVec 4).toNat ≤ 8 by decide }
    room := fun _ => show (0 : BitVec 4).toNat ≤ 7 by decide }

end

/-! #### The bit packer and the bit parser -/

/-- A byte written out makes room. -/
theorem flushByte_safe : Run.Sat (s₀.Runs False a) flushByte (fun _ => s₀.Runs True a) s₀.stops :=
  .read_any fun v => .bind (outWrite_safe v) fun _ => .update fun s h =>
    { h with
      ranges := fun hr => { h.ranges hr with ocnt := show (0 : BitVec 4).toNat ≤ 8 by decide }
      room := fun _ => show (0 : BitVec 4).toNat ≤ 7 by decide }

/-- A byte that could not be written out leaves `OCNT` at 8 (R70, R351). -/
theorem putBit_safe (b : Bool) : Run.Safe s₀ True a (putBit b) := by
  refine .update_bind (R := fun s => s₀.Runs False a s ∧ s.w.ocnt.toNat ≤ 8) (fun s h => ?_) <| .read_bind fun full =>
    .ite (fun _ => flushByte_safe.conseq (fun s h => h.1.1) (fun _ _ h => h) fun _ _ h => h)
      fun hfull => .pure fun s h => ?_
  · have hroom := h.room trivial
    have hocnt : (s.w.ocnt + 1).toNat = s.w.ocnt.toNat + 1 := by
      rw [BitVec.toNat_add, show (1 : BitVec 4).toNat = 1 from rfl, Nat.mod_eq_of_lt (by omega)]
    have h8 : (s.w.ocnt + 1).toNat ≤ 8 := by omega
    exact ⟨h.forget.setW (fun hr => { hr with ocnt := h8 }) False.elim, h8⟩
  · obtain ⟨⟨h, h8⟩, rfl⟩ := h
    have hne : s.w.ocnt.toNat ≠ 8 := fun he => hfull (beq_iff_eq.2 (BitVec.eq_of_toNat_eq he))
    exact { h with room := fun _ => by omega }

theorem putBits_safe (c : Bits) : Run.Safe s₀ True a (putBits c) := .each putBit_safe c

theorem padAndFlush_safe : Run.Safe s₀ True a padAndFlush :=
  .read_any fun _ => .ite (fun _ => pure_safe _) fun _ =>
    flushByte_safe.conseq (fun _ h => h.forget) (fun _ _ h => h) fun _ _ h => h

theorem takeBit_safe : Run.Sat (fun s => s₀.Runs p a s ∧ s.w.icnt ≠ 0) takeBit
    (fun _ => s₀.Runs p a) s₀.stops := by
  refine .read_any fun b => .update_bind (R := s₀.Runs p a) (fun s h => h.1.setParse s.w.ibits fun hr => ?_)
    (pure_safe _)
  have hne : s.w.icnt.toNat ≠ 0 := fun he => h.2 (BitVec.eq_of_toNat_eq he)
  have h8 := hr.icnt
  rw [BitVec.toNat_sub, show (1 : BitVec 4).toNat = 1 from rfl]
  omega

theorem getBitOpt_safe : Run.Safe s₀ p a getBitOpt := by
  refine .read_bind fun n => .ite (fun _ => .bind (R := fun _ => s₀.Runs p a)
    (inRead_safe.conseq (fun _ h => h.1) (fun _ _ h => h) fun _ _ h => h) fun r => ?_) fun hn =>
    .bind (takeBit_safe.conseq (fun s h => ⟨h.1, fun h0 => hn (beq_iff_eq.2 (h.2.trans h0))⟩) (fun _ _ h => h)
      fun _ _ h => h) fun _ => pure_safe _
  cases r with
  | none => exact pure_safe _
  | some v =>
    exact .update_bind (R := fun s => s₀.Runs p a s ∧ s.w.icnt ≠ 0)
      (fun s h => ⟨h.setParse v fun _ => show (8 : BitVec 4).toNat ≤ 8 by decide,
        show (8 : BitVec 4) ≠ 0 by decide⟩) <| .bind takeBit_safe fun _ => pure_safe _

theorem getBit_safe : Run.Safe s₀ p a getBit := .bind getBitOpt_safe fun r => by
  cases r with
  | none => exact raise_safe _
  | some b => exact pure_safe _

theorem getBitOrZero_safe : Run.Safe s₀ p a getBitOrZero := .bind getBitOpt_safe fun _ => pure_safe _

theorem inRewind_safe : Run.Safe s₀ p a inRewind :=
  .bind touchInput_safe fun _ => .update_keep (fun s h => { h with ranges := fun hr => { h.ranges hr with } }) <|
    .update fun s h => h.setParse s.w.ibits fun _ => show (0 : BitVec 4).toNat ≤ 8 by decide

/-! #### Counting and the distribution -/

theorem countLoop_safe : ∀ n, Run.Safe s₀ p a (countLoop n)
  | 0 => stuck_safe
  | n + 1 => .bind inRead_safe fun r => by
    cases r with
    | none => exact pure_safe _
    | some b =>
      exact .read_any fun _ => .bind (require_safe _ _) fun _ =>
        .update_keep (fun _ h => h.setFreq fun hm => freqBump_wf b (Memory.wf_iff.1 hm).1) <|
        .update_keep (fun s h => runs_total s _ h) (countLoop_safe n)

theorem countBlock_safe : Run.Safe s₀ p a countBlock :=
  .update_keep (fun _ h => h.setFreq fun _ => Table.wf_nil _ _) <|
    .update_keep (fun s h => runs_total s 0 h) <| .read_any fun _ => countLoop_safe _

/-- `NDIST` is the number of distinct bytes counted (R132). -/
theorem distBlock_ndist : Run.Sat (s₀.Runs p a) distBlock
    (fun _ s => s₀.Runs p a s ∧ s.w.ndist.toNat ≤ 256) s₀.stops := .update fun s h => by
  have hlen := distribution_length s.freq
  have hn : (BitVec.ofNat 9 (distribution s.freq).length).toNat ≤ 256 := by rw [BitVec.toNat_ofNat]; omega
  have hdist := h.setDist fun hm => Table.wf_setList (distribution s.freq) (k := 0) (by omega) (Memory.wf_iff.1 hm).2.1
  exact ⟨hdist.setW (fun hr => { hr with ndist := hn }) h.room, hn⟩

theorem distBlock_safe : Run.Safe s₀ p a distBlock :=
  distBlock_ndist.conseq (fun _ h => h) (fun _ _ h => h.1) fun _ _ h => h

theorem distList_length (s : State) : s.distList.length = s.w.ndist.toNat := by
  rw [State.distList, List.length_map, List.length_range]

theorem writeRange_safe {i : Nat} (hi : i < 257) (sym : BitVec 9) (lo hi' : Nat) :
    Run.Safe s₀ p a (writeRange i sym lo hi') := .update fun _ h =>
  runs_fresh _ _ (h.setRange fun hm => rangeSet_wf _ hi (Memory.wf_iff.1 hm).2.2.1)

theorem rangeLoop_safe : ∀ (dl : List DistEntry) (i cum : Nat), i + dl.length ≤ 256 →
    Run.Safe s₀ p a (rangeLoop dl i cum)
  | [], _, _, _ => pure_safe _
  | e :: es, i, cum, hi => by
    rw [List.length_cons] at hi
    exact .bind (writeRange_safe (by omega) _ _ _) fun _ => rangeLoop_safe es (i + 1) _ (by omega)

theorem rangesBlock_safe : Run.Safe s₀ p a rangesBlock := by
  refine .bind distBlock_ndist fun _ => .bind_fact (R := s₀.Runs p a) (φ := fun dl => dl.length ≤ 256)
    (.read fun s h => ⟨h.1, (distList_length s).trans_le h.2⟩) fun dl hdl => ?_
  cases dl.getLast? with
  | none => exact .update fun s h => h.setRt (n := 0) (x := 0) (by decide) (by decide)
  | some last =>
    refine .bind (rangeLoop_safe dl 0 0 (by omega)) fun cum => .bind (writeRange_safe (by omega) _ _ _) fun _ =>
      .require_fact (fun s h => h.stops _) fun ht => .update fun s h => h.setRt ?_ ?_
    · rw [BitVec.toNat_ofNat]; omega
    · have ht : cum + last.cnt.toNat ≤ 2 ^ 29 := of_decide_eq_true ht
      rw [BitVec.toNat_ofNat]; omega

/-! #### Code models -/

theorem onMain_safe {m : Run TreeMem Unit} (hm : Run.Keeps (TreeMem.stays Config.treeCap) m) :
    Run.Safe s₀ p a (onMain m) := by
  have hset : ∀ {s : State} {t : TreeMem}, s₀.Runs p a s → s.main.Stays Config.treeCap t →
      s₀.Runs p a (s.setMain t) := fun h ht =>
    { h with
      memory := fun hw => Memory.wf_setMain (ht.wf (Memory.wf_iff.1 (h.memory hw)).2.2.2.1) (h.memory hw)
      ranges := fun hr => { h.ranges hr with nnodes := ht.count (h.ranges hr).nnodes } }
  intro s h
  have hs := hm s.main
  unfold onMain
  cases hr : m s.main with
  | ok x t => rw [hr] at hs; exact hset h hs
  | error e t =>
    rw [hr] at hs
    cases e with
    | raise c => exact (hset h hs).stops c
    | stuck => trivial

/-- A builder that keeps the form of a code model, on every distribution of at most 511 entries. -/
abbrev Builder.Stays (builder : Builder) : Prop := ∀ dl, 2 * dl.length ≤ Config.treeCap + 1 →
  Run.Keeps (TreeMem.stays Config.treeCap) (builder dl)

theorem withDist_safe {builder : Builder} (hb : builder.Stays) : Run.Safe s₀ p a (withDist builder) :=
  .read_fact (φ := fun dl => 2 * dl.length ≤ Config.treeCap + 1) (fun s _ => by
    have hcap : Config.treeCap = 10241 := rfl
    have hn := s.w.ndist.isLt
    rw [distList_length]; omega) fun dl hdl => onMain_safe (hb dl hdl)

theorem shannonBlock_builds : Builder.Stays shannonBlock := fun dl _ => shannonBlock_stays dl
theorem fanoBlock_builds : Builder.Stays fanoBlock := fun dl _ => fanoBlock_stays dl
theorem huffmanBlock_builds : Builder.Stays huffmanBlock := fun _ h => huffmanBlock_stays (by decide) le_rfl h

/-! #### The static codec -/

theorem encodeLoop_safe : ∀ n, Run.Safe s₀ True a (encodeLoop n)
  | 0 => stuck_safe
  | n + 1 => .bind inRead_safe fun r => by
    cases r with
    | none => exact pure_safe _
    | some b =>
      exact .read_any fun c => .read_any fun more => .bind (require_safe _ _) fun _ => .bind (putBits_safe _) fun _ =>
        .bind bumpNsym_safe fun _ => encodeLoop_safe n

theorem requireAllSeen_safe : Run.Safe s₀ p a requireAllSeen := .read_any fun _ => require_safe _ _

theorem encodePayload_safe : Run.Safe s₀ True a encodePayload :=
  .update_keep (fun s h => runs_nsym s 0 h) <| .read_any fun _ => .bind (encodeLoop_safe _) fun _ =>
    requireAllSeen_safe

theorem staticCompress_safe {builder : Builder} (hb : builder.Stays) :
    Run.Safe s₀ True a (staticCompress builder) :=
  .bind (setPhase_safe _) fun _ => .bind countBlock_safe fun _ => .bind (setPhase_safe _) fun _ =>
  .bind distBlock_safe fun _ => .bind (withDist_safe hb) fun _ => .bind (setPhase_safe _) fun _ =>
  .read_any fun f => .bind (writeHeader_safe f) fun _ => .bind (setPhase_safe _) fun _ =>
  .bind inRewind_safe fun _ => .bind encodePayload_safe fun _ => .bind (setPhase_safe _) fun _ =>
  padAndFlush_safe

theorem readHeaderWith_safe {store : Nat → BitVec 32 → State → State}
    (hs : ∀ i v s, i < 256 → s₀.Runs p a s → s₀.Runs p a (store i v s)) :
    Run.Safe s₀ p a (readHeaderWith store) :=
  .each_mem _ fun i hi => .bind (memRead_safe 4) fun _ => .update fun s h => hs i _ s (List.mem_range.1 hi) h

theorem readHeader_safe : Run.Safe s₀ p a readHeader :=
  .bind (readHeaderWith_safe fun _ v _ hi h => h.setFreq fun hm => freqSet_wf v hi (Memory.wf_iff.1 hm).1)
    fun _ => .update fun s h => runs_total s _ h

theorem walkLoop_safe (T : Table TreeNode) : ∀ n cur, Run.Safe s₀ p a (walkLoop T n cur)
  | 0, _ => stuck_safe
  | n + 1, cur => by
    unfold walkLoop
    cases (treeGet T cur).sym with
    | some s => exact pure_safe _
    | none =>
      refine .bind getBit_safe fun b => .update_keep (fun s h => runs_cur s _ h) ?_
      cases (treeGet T cur).child b with
      | none => exact raise_safe _
      | some next => exact walkLoop_safe T n next

theorem walkSymbol_safe (T : Table TreeNode) (root : Option Nat) : Run.Safe s₀ p a (walkSymbol T root) := by
  cases root with
  | none => exact raise_safe _
  | some r => exact .update_keep (fun s h => runs_cur s _ h) <| .read_any fun _ => walkLoop_safe T _ r

theorem decodeLoop_safe : ∀ n, Run.Safe s₀ p a (decodeLoop n)
  | 0 => stuck_safe
  | n + 1 => .read_any fun _ => .ite (fun _ => .read_any fun _ => .bind (walkSymbol_safe _ _) fun b =>
      .bind (outWrite_safe b) fun _ => .bind bumpNsym_safe fun _ => decodeLoop_safe n) fun _ => pure_safe _

theorem decodePayload_safe : Run.Safe s₀ p a decodePayload :=
  .update_keep (fun s h => (runs_nsym s 0 h).setParse s.w.ibits (n := 0) fun _ => by decide) <|
    .read_any fun _ => decodeLoop_safe _

theorem staticRebuild_safe {builder : Builder} (hb : builder.Stays) : Run.Safe s₀ p a (staticRebuild builder) :=
  .bind (setPhase_safe _) fun _ => .bind distBlock_safe fun _ => .bind (withDist_safe hb) fun _ =>
  .bind (setPhase_safe _) fun _ => decodePayload_safe

theorem staticDecompress_safe {builder : Builder} (hb : builder.Stays) :
    Run.Safe s₀ p a (staticDecompress builder) :=
  .bind (setPhase_safe _) fun _ => .bind readHeader_safe fun _ => .bind inAtEnd_safe fun _ =>
  .ite (fun _ => pure_safe _) fun _ => staticRebuild_safe hb

end

end Sys2Proof.Machine
end

section

namespace Sys2Proof.Machine

variable {s₀ : State} {p a : Prop}

/-! #### The context codec -/

/-- Work on the code model of a context keeps the other memories, and the model's form. -/
theorem onCtxModel_safe {c : Nat} (hc : c < 256) {m : Run TreeMem Unit}
    (hm : Run.Keeps (TreeMem.stays 511) m) : Run.Safe s₀ p a (onCtxModel c m) := by
  have hset : ∀ {s : State} {t : TreeMem}, s₀.Runs p a s → (ctxGet s.ctx c).model.Stays 511 t →
      s₀.Runs p a (s.setCtx (ctxSet s.ctx c { ctxGet s.ctx c with model := t })) := fun h ht =>
    h.setCtx fun hw => by
      have hctx := (Memory.wf_iff.1 hw).2.2.2.2.1
      have hentry := CtxEntry.wf_iff.1 (ctxGet_wf hctx c)
      exact ctxSet_wf hc (CtxEntry.wf_iff.2 ⟨hentry.1, ht.wf hentry.2⟩) hctx
  intro s h
  have hs := hm (ctxGet s.ctx c).model
  unfold onCtxModel
  cases hr : m (ctxGet s.ctx c).model with
  | ok x t => rw [hr] at hs; exact hset h hs
  | error e t =>
    rw [hr] at hs
    cases e with
    | raise c => exact (hset h hs).stops c
    | stuck => trivial

theorem State.Runs.setEntry {s : State} (h : s₀.Runs p a s) {c : Nat} {e : CtxEntry}
    (hc : Memory.wf s = true → c < 256) (he : (ctxGet s.ctx c).wf = true → e.wf = true) :
    s₀.Runs p a (s.setCtx (ctxSet s.ctx c e)) := h.setCtx fun hw =>
  have hctx := (Memory.wf_iff.1 hw).2.2.2.2.1
  ctxSet_wf (hc hw) (he (ctxGet_wf hctx c)) hctx

theorem CtxEntry.wf_present {e : CtxEntry} (b : Bool) (h : e.wf = true) :
    CtxEntry.wf { e with present := b } = true := h

theorem CtxEntry.wf_freq {e : CtxEntry} (b : Bool) {f : Table (BitVec 32)} (h : e.wf = true)
    (hf : Table.wf 0 256 e.freq = true → Table.wf 0 256 f = true) :
    CtxEntry.wf { e with present := b, freq := f } = true := by
  rw [CtxEntry.wf_iff] at h ⊢
  exact ⟨hf h.1, h.2⟩

theorem updateCtx_safe {c : Nat} (hc : c < 256) {f : CtxEntry → CtxEntry}
    (hf : ∀ e : CtxEntry, e.wf = true → (f e).wf = true) : Run.Safe s₀ p a (updateCtx c f) :=
  .update fun _ h => h.setEntry (fun _ => hc) (hf _)

/-- `PREV` is a byte or NONE in every round (R231). -/
theorem countPairsLoop_safe : ∀ n, Run.Sat (fun s => s₀.Runs p a s ∧ s.w.prev.toNat ≤ 256) (countPairsLoop n)
    (fun _ s => s₀.Runs p a s ∧ s.w.prev.toNat ≤ 256) s₀.stops
  | 0 => .stuck fun _ _ => trivial
  | n + 1 => by
    have hread : Run.Sat (fun s => s₀.Runs p a s ∧ s.w.prev.toNat ≤ 256) inRead
        (fun _ s => s₀.Runs p a s ∧ s.w.prev.toNat ≤ 256) s₀.stops :=
      inRead_safe.and_same (f := fun s => s.w.prev) (fun x => x.toNat ≤ 256) (inRead_keeps fun _ _ _ => rfl)
    refine .bind hread fun r => ?_
    cases r with
    | none => exact .pure fun _ h => h
    | some b =>
      have hb : (b.setWidth 9).toNat ≤ 256 := by rw [BitVec.toNat_setWidth]; omega
      have hnext : Run.Sat (s₀.Runs p a) (do
          setW (fun w => { w with prev := b.setWidth 9 })
          countPairsLoop n) (fun _ s => s₀.Runs p a s ∧ s.w.prev.toNat ≤ 256) s₀.stops :=
        .update_bind (fun s h => ⟨h.setPrev hb, hb⟩) (countPairsLoop_safe n)
      exact .read_any fun _ => .require_fact (fun _ h => h.1.stops _) fun _ =>
        .update_keep (fun _ h => ⟨h.1.setFreq fun hm => freqBump_wf b (Memory.wf_iff.1 hm).1, h.2⟩) <|
        .update_keep (fun s h => ⟨runs_total s _ h.1, h.2⟩) <|
        .bind_fact (R := s₀.Runs p a) (φ := fun x => x ≤ 256) (.read fun _ h => h) fun prev hprev =>
        .ite (fun _ => hnext) fun hne => .bind (updateCtx_safe (lt_of_le_of_ne hprev hne) fun e he =>
          CtxEntry.wf_freq true he (freqBump_wf b)) fun _ => hnext

theorem State.presentCtxs_lt {s : State} {c : Nat} (h : c ∈ s.presentCtxs) : c < 256 :=
  List.mem_range.1 (List.mem_filter.1 h).1

theorem State.presentCtxs_length (s : State) : s.presentCtxs.length ≤ 256 :=
  (List.length_filter_le _ _).trans (List.length_range).le

/-- A write to each context of a list. -/
theorem eachCtx_safe {f : CtxEntry → CtxEntry} (hf : ∀ e : CtxEntry, e.wf = true → (f e).wf = true)
    {cs : List Nat} (hcs : ∀ c ∈ cs, c < 256) : Run.Safe s₀ p a (Run.each cs (fun c => updateCtx c f)) :=
  .each_mem cs fun c hc => updateCtx_safe (hcs c hc) hf

theorem countPairs_safe : Run.Safe s₀ p a countPairs := by
  have hclear : Run.Safe s₀ p a (Run.each (List.range 256) (fun c =>
      updateCtx c (fun e => { e with present := false, freq := [] }))) :=
    @eachCtx_safe s₀ p a _ (fun e he => CtxEntry.wf_freq false he fun _ => Table.wf_nil _ _) _
      fun _ => List.mem_range.1
  unfold countPairs
  -- named, so that Lean does not run it when it compares the goal with a rule
  generalize Run.each (List.range 256) (fun c =>
    updateCtx c (fun e => { e with present := false, freq := [] })) = clear at hclear ⊢
  refine .update_keep (fun _ h => h.setFreq fun _ => Table.wf_nil _ _) <| .bind hclear fun _ =>
    .update_bind (R := fun s => s₀.Runs p a s ∧ s.w.prev.toNat ≤ 256)
      (fun s h => ⟨(runs_total s 0 h).clearPrev, show (256 : BitVec 9).toNat ≤ 256 by decide⟩) <|
    .read_any fun _ => .bind (countPairsLoop_safe _) fun _ => .update fun s h => h.1.setNctx ?_
  have := s.presentCtxs_length
  rw [BitVec.toNat_ofNat]; omega

theorem buildAllModels_safe : Run.Safe s₀ p a buildAllModels :=
  .bind distBlock_safe fun _ => .bind (withDist_safe huffmanBlock_builds) fun _ =>
  .read_fact (φ := fun cs => ∀ c ∈ cs, c < 256) (fun s _ _ hc => s.presentCtxs_lt hc) fun cs hcs =>
  .each_mem cs fun _ hc => .read_any fun f => onCtxModel_safe (hcs _ hc) <|
    huffmanBlock_stays (by decide) (by decide) (by have := distribution_length f; omega)

theorem encodeContextLoop_safe : ∀ n, Run.Safe s₀ True a (encodeContextLoop n)
  | 0 => stuck_safe
  | n + 1 => .bind inRead_safe fun r => by
    cases r with
    | none => exact pure_safe _
    | some b =>
      exact .read_any fun c => .read_any fun more => .bind (require_safe _ _) fun _ =>
        .bind (putBits_safe _) fun _ => .update_keep (fun s h => h.setPrev (by rw [BitVec.toNat_setWidth]; omega)) <|
        .bind bumpNsym_safe fun _ => encodeContextLoop_safe n

theorem encodeContextPayload_safe : Run.Safe s₀ True a encodeContextPayload :=
  .update_keep (fun s h => (runs_nsym s 0 h).clearPrev) <| .read_any fun _ =>
    .bind (encodeContextLoop_safe _) fun _ => requireAllSeen_safe

theorem contextCompress_safe : Run.Safe s₀ True a contextCompress := by
  have hcount : Run.Safe s₀ True a countPairs := @countPairs_safe s₀ True a
  unfold contextCompress
  generalize countPairs = count at hcount ⊢
  exact .bind (setPhase_safe _) fun _ => .bind hcount fun _ => .bind (setPhase_safe _) fun _ =>
    .bind buildAllModels_safe fun _ => .bind (setPhase_safe _) fun _ => .bind writeContextHeader_safe fun _ =>
    .bind (setPhase_safe _) fun _ => .bind inRewind_safe fun _ => .bind encodeContextPayload_safe fun _ =>
    .bind (setPhase_safe _) fun _ => padAndFlush_safe

/-- A field of `n` bytes is a number below 256^n (R66). -/
theorem memRead_lt : ∀ n, Run.Sat (fun _ => True) (memRead n) (fun v _ => v < 256 ^ n) (fun _ _ => True)
  | 0 => .pure fun _ _ => Nat.one_pos
  | n + 1 => .bind (R := fun _ _ => True) (fun s _ => by cases inRead s <;> trivial) fun r => by
    cases r with
    | none => exact .raise fun _ _ => trivial
    | some b =>
      refine .bind (memRead_lt n) fun v => .pure fun _ hv => ?_
      have := b.isLt
      rw [Nat.pow_succ]; omega

theorem memRead_safe_lt (n : Nat) :
    Run.Sat (s₀.Runs p a) (memRead n) (fun v s => s₀.Runs p a s ∧ v < 256 ^ n) s₀.stops :=
  ((memRead_safe n).and (memRead_lt n)).conseq (fun _ h => ⟨h, trivial⟩) (fun _ _ h => h) fun _ _ h => h.1

theorem readRecord_safe : Run.Safe s₀ p a readRecord :=
  .bind_fact (memRead_safe_lt 1) fun _ hc => .read_any fun _ => .bind (require_safe _ _) fun _ =>
  .bind (readHeaderWith_safe fun _ v _ hi h => h.setEntry (fun _ => hc) fun he =>
    CtxEntry.wf_freq _ he (freqSet_wf v hi)) fun _ => updateCtx_safe hc fun _ he => he

/-- `NCTX` may hold more than 256 only where MALFORMED_CONTEXT is raised at once (R241, log entry 6). -/
theorem writeNctx_safe (k : Nat) {rest : Eng Unit} (hrest : Run.Safe s₀ p a rest) : Run.Safe s₀ p a (do
    writeNctx k
    Run.require (decide (k ≤ 256)) .malformedContext
    rest) := by
  by_cases hk : k ≤ 256
  · refine .update_keep (fun s h => ?_) <| .bind (require_safe _ _) fun _ => hrest
    rw [if_pos (by omega)]
    exact h.setNctx (by rw [BitVec.toNat_ofNat]; omega)
  · refine .update_bind (R := s₀.Stops .malformedContext) (fun s h => ?_) <|
      .require_fact (fun _ h => h) fun hle => absurd (of_decide_eq_true hle) hk
    have hstop := h.stops .malformedContext
    split
    · exact { hstop with ranges := fun hr => { hstop.ranges hr with nctx := .inr ⟨rfl, rfl⟩ } }
    · exact { hstop with ranges := fun hr => { hstop.ranges hr with nctx := .inr ⟨rfl, rfl⟩ } }

theorem readContextHeader_safe : Run.Safe s₀ p a readContextHeader := by
  have hclear : Run.Safe s₀ p a (Run.each (List.range 256) (fun c =>
      updateCtx c (fun e => { e with present := false }))) :=
    @eachCtx_safe s₀ p a _ (fun _ he => CtxEntry.wf_present false he) _ fun _ => List.mem_range.1
  unfold readContextHeader
  generalize Run.each (List.range 256) (fun c => updateCtx c (fun e => { e with present := false })) = clear
    at hclear ⊢
  exact .bind hclear fun _ => .bind readHeader_safe fun _ => .bind (memRead_safe 8) fun k =>
    writeNctx_safe k (.times readRecord_safe k)

theorem decodeContextSymbol_safe : Run.Safe s₀ p a decodeContextSymbol :=
  .read_any fun _ => .ite (fun _ => .read_any fun _ => walkSymbol_safe _ _) fun _ =>
    .read_any fun _ => .bind (require_safe _ _) fun _ => walkSymbol_safe _ _

theorem decodeContextLoop_safe : ∀ n, Run.Safe s₀ p a (decodeContextLoop n)
  | 0 => stuck_safe
  | n + 1 => .read_any fun _ => .ite (fun _ => .bind decodeContextSymbol_safe fun b =>
      .bind (outWrite_safe b) fun _ => .update_keep (fun s h => h.setPrev (by rw [BitVec.toNat_setWidth]; omega)) <|
      .bind bumpNsym_safe fun _ => decodeContextLoop_safe n) fun _ => pure_safe _

theorem decodeContextPayload_safe : Run.Safe s₀ p a decodeContextPayload :=
  .update_keep (fun s h => ((runs_nsym s 0 h).setParse s.w.ibits (n := 0) fun _ => by decide).clearPrev) <|
    .read_any fun _ => decodeContextLoop_safe _

theorem contextDecompress_safe : Run.Safe s₀ p a contextDecompress := by
  have hread : Run.Safe s₀ p a readContextHeader := @readContextHeader_safe s₀ p a
  unfold contextDecompress
  generalize readContextHeader = read at hread ⊢
  exact .bind (setPhase_safe _) fun _ => .bind hread fun _ => .bind (setPhase_safe _) fun _ =>
    .bind buildAllModels_safe fun _ => .bind (setPhase_safe _) fun _ => decodeContextPayload_safe

/-! #### The adaptive codec -/

theorem State.Runs.setFgk {s : State} (h : s₀.Runs p a s) {g : FgkMem} (hg : g.Sized (Memory.wf s₀ = true)) :
    s₀.Runs p True (s.setFgk g) :=
  { h with
    memory := fun hm => Memory.wf_setFgk (hg.wf hm) (h.memory hm)
    ranges := fun hr => { h.ranges hr with fgkN := hg.count }
    slots := fun _ => hg.count }

theorem State.Runs.sized {s : State} (h : s₀.Runs p True s) : s.fgk.Sized (Memory.wf s₀ = true) :=
  ⟨fun hm => (Memory.wf_iff.1 (h.memory hm)).2.2.2.2.2, h.slots trivial⟩

theorem onFgk_safe {α : Type} {P : FgkMem → Prop} {φ : α → Prop} {m : Run FgkMem α}
    (hP : ∀ s, s₀.Runs p a s → P s.fgk)
    (hm : Run.Sat P m (fun x g => g.Sized (Memory.wf s₀ = true) ∧ φ x)
      (fun _ g => g.Sized (Memory.wf s₀ = true))) :
    Run.Sat (s₀.Runs p a) (onFgk m) (fun x s => s₀.Runs p True s ∧ φ x) s₀.stops := by
  intro s h
  have hs := hm s.fgk (hP s h)
  unfold onFgk
  cases hr : m s.fgk with
  | ok x g => rw [hr] at hs; exact ⟨h.setFgk hs.1, hs.2⟩
  | error e g =>
    rw [hr] at hs
    cases e with
    | raise c => exact (h.setFgk hs).stops c
    | stuck => trivial

theorem onFgk_init_safe : Run.Sat (s₀.Runs p a) (onFgk fgkInit) (fun _ => s₀.Runs p True) s₀.stops :=
  (onFgk_safe (φ := fun _ => True) (fun _ h hm => (Memory.wf_iff.1 (h.memory hm)).2.2.2.2.2)
    (fgkInit_sized.conseq (fun _ h => h) (fun _ _ h => ⟨h, trivial⟩) fun _ _ h => h)).conseq (fun _ h => h)
    (fun _ _ h => h.1) fun _ _ h => h

theorem onFgk_split_safe (b : Byte) : Run.Sat (s₀.Runs p True) (onFgk (fgkSplit b))
    (fun n s => s₀.Runs p True s ∧ n < Config.fgkCap) s₀.stops :=
  onFgk_safe (fun _ h => h.sized) (fgkSplit_sized b)

theorem onFgk_update_safe {n : Nat} (hn : Memory.wf s₀ = true → n < Config.fgkCap) :
    Run.Safe s₀ p True (onFgk (fgkUpdate fgkBound (some n))) :=
  (onFgk_safe (φ := fun _ => True) (fun _ h => h.sized)
    ((fgkUpdate_sized _ _ fun hm => slotOk_some.2 (hn hm)).conseq (fun _ h => h) (fun _ _ h => ⟨h, trivial⟩)
      fun _ _ h => h)).conseq (fun _ h => h) (fun _ _ h => h.1) fun _ _ h => h

theorem putPath_safe (n : Nat) : Run.Safe s₀ True a (putPath n) := .read_any fun path => by
  cases path with
  | none => exact stuck_safe
  | some bits => exact putBits_safe bits

theorem nytSlot_safe : Run.Safe s₀ p a nytSlot := nytSlot_keeps.safe

theorem fgkEncodeSymbol_safe (b : Byte) : Run.Safe s₀ True True (fgkEncodeSymbol b) := by
  refine .read_fact (φ := fun lf => Memory.wf s₀ = true → slotOk Config.fgkCap lf = true)
    (fun s h hm => FgkMem.leaf_wf (h.sized.wf hm) _) fun lf hlf => ?_
  cases lf with
  | some n => exact .bind (putPath_safe n) fun _ => onFgk_update_safe fun hm => slotOk_some.1 (hlf hm)
  | none =>
    exact .bind nytSlot_safe fun nyt => .bind (putPath_safe nyt) fun _ => .bind (putBits_safe _) fun _ =>
      .bind_fact (onFgk_split_safe b) fun n hn => onFgk_update_safe fun _ => hn

theorem adaptiveEncodeLoop_safe : ∀ n, Run.Safe s₀ True True (adaptiveEncodeLoop n)
  | 0 => stuck_safe
  | n + 1 => .bind inRead_safe fun r => by
    cases r with
    | none => exact pure_safe _
    | some b => exact .bind (fgkEncodeSymbol_safe b) fun _ => .bind bumpNsym_safe fun _ => adaptiveEncodeLoop_safe n

theorem fgkPad_safe : Run.Safe s₀ True a fgkPad := .bind nytSlot_safe fun nyt => .read_any fun path => by
  cases path with
  | none => exact stuck_safe
  | some bits => exact .read_any fun _ => putBits_safe _

theorem adaptiveCompress_safe : Run.Sat (s₀.Runs True a) adaptiveCompress (fun _ => s₀.Runs True True) s₀.stops :=
  .bind onFgk_init_safe fun _ => .bind (setPhase_safe _) fun _ => .update_keep (fun s h => runs_nsym s 0 h) <|
  .read_any fun _ => .bind (adaptiveEncodeLoop_safe _) fun _ => .bind (setPhase_safe _) fun _ =>
  .bind fgkPad_safe fun _ => padAndFlush_safe

/-- The descent ends on a slot (R267). -/
theorem fgkDescend_safe : ∀ (k cur : Nat), (Memory.wf s₀ = true → cur < Config.fgkCap) →
    Run.Sat (s₀.Runs p True) (fgkDescend k cur)
      (fun r s => s₀.Runs p True s ∧ (Memory.wf s₀ = true → slotOk Config.fgkCap r = true)) s₀.stops
  | 0, _, _ => .stuck fun _ _ => trivial
  | k + 1, cur, hcur => by
    refine .read_fact (φ := fun nd => Memory.wf s₀ = true → nd.linksOk)
      (fun s h hm => FgkMem.node_wf (h.sized.wf hm) cur) fun nd hnd => .ite (fun _ => .bind getBitOpt_safe fun b => ?_)
      fun _ => .pure fun _ h => ⟨h, fun hm => slotOk_some.2 (hcur hm)⟩
    cases b with
    | none => exact .pure fun _ h => ⟨h, fun _ => rfl⟩
    | some bit =>
      have hchild : Memory.wf s₀ = true → slotOk Config.fgkCap (if bit then nd.right else nd.left) = true := fun hm => by
        obtain ⟨_, hleft, hright⟩ := hnd hm
        cases bit
        · exact hleft
        · exact hright
      refine .update_keep (fun s h => runs_cur s _ h) ?_
      cases hc : (if bit then nd.right else nd.left) with
      | none => exact .stuck fun _ _ => trivial
      | some next => exact fgkDescend_safe k next fun hm => slotOk_some.1 (hc ▸ hchild hm)

theorem readLiteral_safe : ∀ n v, Run.Safe s₀ p a (readLiteral n v)
  | 0, _ => pure_safe _
  | n + 1, v => .bind getBitOpt_safe fun b => by
    cases b with
    | none => exact pure_safe _
    | some bit => exact readLiteral_safe n _

theorem fgkDecodeSymbol_safe : Run.Safe s₀ p True fgkDecodeSymbol := by
  refine .read_fact (φ := fun r => Memory.wf s₀ = true → slotOk Config.fgkCap r = true)
    (fun s h hm => (FgkMem.wf_iff.1 (h.sized.wf hm)).2.2.1) fun root hroot =>
    .update_keep (fun s h => runs_cur s _ h) ?_
  cases root with
  | none => exact stuck_safe
  | some r =>
    refine .read_any fun _ => .bind_fact (fgkDescend_safe _ r fun hm => slotOk_some.1 (hroot hm)) fun found hfound => ?_
    cases found with
    | none => exact pure_safe _
    | some n =>
      refine .read_any fun nd => .ite (fun _ => .bind (readLiteral_safe 8 0) fun lit => ?_) fun _ =>
        .bind (onFgk_update_safe fun hm => slotOk_some.1 (hfound hm)) fun _ => pure_safe _
      cases lit with
      | none => exact pure_safe _
      | some v =>
        exact .read_any fun _ => .bind (require_safe _ _) fun _ => .bind_fact (onFgk_split_safe _) fun m hm =>
          .bind (onFgk_update_safe fun _ => hm) fun _ => pure_safe _

theorem adaptiveDecodeLoop_safe : ∀ n, Run.Safe s₀ p True (adaptiveDecodeLoop n)
  | 0 => stuck_safe
  | n + 1 => .bind fgkDecodeSymbol_safe fun r => by
    cases r with
    | none => exact pure_safe _
    | some b => exact .bind (outWrite_safe b) fun _ => .bind bumpNsym_safe fun _ => adaptiveDecodeLoop_safe n

theorem adaptiveDecompress_safe : Run.Sat (s₀.Runs p a) adaptiveDecompress (fun _ => s₀.Runs p True) s₀.stops :=
  .bind onFgk_init_safe fun _ => .bind (setPhase_safe _) fun _ =>
  .update_keep (fun s h => (runs_nsym s 0 h).setParse s.w.ibits (n := 0) fun _ => by decide) <|
  .read_any fun _ => adaptiveDecodeLoop_safe _

end Sys2Proof.Machine
end

section

namespace Sys2Proof.Machine

/-! #### The arithmetic codec -/

/-- What the interval coder works with: `LOW`, `HIGH`, `RT` and the valid entries of `RANGE`. -/
structure Coder where
  low : Nat
  high : Nat
  rt : Nat
  table : List RangeEntry

def State.coder (s : State) : Coder := ⟨s.w.low.toNat, s.w.high.toNat, s.w.rt.toNat, s.rangeList⟩

/-- The table is one `RANGES` has made: entries of a total within its bound (R29, R134 to R136). -/
structure Coder.Tabled (c : Coder) : Prop where
  most : c.rt ≤ Config.arithTMax
  entries : ∀ e ∈ c.table, e.Ok c.rt
  empty : c.table = [] → c.rt = 0

/-- Between two symbols: a settled interval, still the whole one where the table is empty. -/
structure Coder.Ready (c : Coder) : Prop extends c.Tabled where
  settled : Settled c.low c.high
  start : c.rt = 0 → c.low = 0

/-- While an interval is renormalised: it is not empty, or begins at 0 (where the table is empty). -/
structure Coder.Spans (c : Coder) : Prop extends c.Tabled where
  top : c.high ≤ Config.scaleM
  span : c.low = 0 ∨ (c.low < c.high ∧ 0 < c.rt)

/-- Entry `e` can be encoded: it is one of the total, or the table is empty. -/
structure Coder.Takes (e : RangeEntry) (c : Coder) : Prop extends c.Ready where
  takes : e.Ok c.rt ∨ c.rt = 0

/-- The test under which a rule of the renormalisation fires (R304). -/
def Renorm.Fires (l h : Nat) : Renorm → Prop
  | .lower => h ≤ Config.half
  | .upper => Config.half ≤ l
  | .middle => Config.quarter ≤ l ∧ h ≤ Config.threeQuarters
  | .done => Config.half < h ∧ l < Config.half ∧ ¬(Config.quarter ≤ l ∧ h ≤ Config.threeQuarters)

theorem Working.renorm_fires (w : Working) : w.renorm.Fires w.low.toNat w.high.toNat := by
  unfold Working.renorm
  split
  · assumption
  · split
    · assumption
    · split
      · assumption
      · exact ⟨by omega, by omega, by assumption⟩

/-- Rule `r` is the next of the renormalisation. -/
structure Coder.Fires (r : Renorm) (c : Coder) : Prop extends c.Spans where
  fires : r.Fires c.low c.high

/-- Every rule maps an interval of the scale to one of the scale (R304). -/
theorem Coder.Fires.map {c : Coder} {r : Renorm} (h : c.Fires r) (hne : r ≠ .done) :
    Coder.Spans { c with low := r.map c.low, high := r.map c.high } := by
  have hr := h.fires
  have hM : Config.scaleM = 2147483648 := rfl
  have hH : Config.half = 1073741824 := rfl
  have hQ : Config.quarter = 536870912 := rfl
  have hT : Config.threeQuarters = 1610612736 := rfl
  have htop := h.top
  have hspan := h.span
  refine { h with top := ?_, span := ?_ }
  all_goals
    cases r
    case done => exact absurd rfl hne
    all_goals simp only [Renorm.Fires] at hr; simp only [Renorm.map]; omega

/-- Where no rule fires the interval is settled (R305). -/
theorem Coder.Fires.ready {c : Coder} (h : c.Fires .done) : c.Ready :=
  { h with
    settled := ⟨h.top, h.fires.1, h.fires.2.1, h.fires.2.2⟩
    start := fun h0 => h.span.elim id fun hs => absurd h0 (Nat.ne_of_gt hs.2) }

/-- The sub-interval of an entry (R303, R305). -/
theorem Coder.Takes.narrow {c : Coder} {e : RangeEntry} (h : c.Takes e) :
    Coder.Spans { c with
      low := subBound c.low c.high c.rt e.cumLo.toNat, high := subBound c.low c.high c.rt e.cumHi.toNat } := by
  rcases h.takes with he | h0
  · obtain ⟨_, hlt, htop⟩ := narrow_within he h.most h.settled
    have hrt : 0 < c.rt := (Nat.zero_le _).trans_lt (he.less.trans_le he.most)
    exact { h with top := htop.trans h.settled.top, span := .inr ⟨hlt, hrt⟩ }
  · have hlow : ∀ x, subBound c.low c.high c.rt x = 0 := fun x => by
      rw [subBound, h0, h.start h0, Nat.div_zero]
    exact { h with top := (hlow _).trans_le (Nat.zero_le _), span := .inl (hlow _) }

theorem Coder.Spans.bounds {c : Coder} (h : c.Spans) : c.low < 2 ^ 31 ∧ c.high ≤ 2 ^ 31 := by
  have hM : Config.scaleM = 2147483648 := rfl
  have := h.top
  have := h.span
  omega

theorem State.coder_setInterval (s : State) {x y : Nat} (hx : x < 2 ^ 31) (hy : y ≤ 2 ^ 31) :
    (s.setW (s.w.setInterval x y)).coder = { s.coder with low := x, high := y } := by
  have h1 : (BitVec.ofNat 32 x).toNat = x := by rw [BitVec.toNat_ofNat, Nat.mod_eq_of_lt (by omega)]
  have h2 : (BitVec.ofNat 32 y).toNat = y := by rw [BitVec.toNat_ofNat, Nat.mod_eq_of_lt (by omega)]
  show Coder.mk (BitVec.ofNat 32 x).toNat (BitVec.ofNat 32 y).toNat _ _ = _
  rw [h1, h2]
  rfl

variable {s₀ : State} {p a : Prop} {α : Type}

/-- A piece that keeps what a running command keeps and takes the coder from `C` to `D`. -/
abbrev Run.Coded (s₀ : State) (p a : Prop) (C : Coder → Prop) (m : Eng α) (D : Coder → Prop) : Prop :=
  Run.Sat (fun s => s₀.Runs p a s ∧ C s.coder) m (fun _ s => s₀.Runs p a s ∧ D s.coder) s₀.stops

/-- A piece that leaves the coder alone. -/
theorem Run.Safe.coded {m : Eng α} (h : Run.Safe s₀ p a m) (hk : Run.Keeps (Frame.same State.coder) m)
    (C : Coder → Prop) : Run.Coded s₀ p a C m C := h.and_same C hk

theorem State.Runs.setCoder {s : State} (h : s₀.Runs p a s) {x y : Nat}
    (hc : Coder.Spans { s.coder with low := x, high := y }) :
    s₀.Runs p a (s.setW (s.w.setInterval x y)) ∧ (s.setW (s.w.setInterval x y)).coder.Spans := by
  obtain ⟨hx, hy⟩ := hc.bounds
  refine ⟨h.setInterval hx hy, ?_⟩
  rw [State.coder_setInterval s hx hy]
  exact hc

/-! ##### The range table -/

theorem rangeLoop_sum {P : State → Prop} (hP : ∀ s t n, P s → P ((s.setRange t).setFresh n)) :
    ∀ (dl : List DistEntry) (i cum : Nat), Run.Sat P (rangeLoop dl i cum)
      (fun c s => P s ∧ c = cum + cntSum dl) (fun _ _ => True)
  | [], _, _ => .pure fun _ h => ⟨h, rfl⟩
  | e :: es, i, cum => .update_keep (fun s h => hP s _ _ h) <|
      (rangeLoop_sum hP es (i + 1) _).conseq (fun _ h => h)
        (fun _ _ h => ⟨h.1, by rw [h.2, cntSum_cons, Nat.add_assoc]⟩) fun _ _ h => h

/-- Beyond the bound `RANGES` raises its fault (R136). -/
theorem rangesBlock_over : Run.Sat (fun s => Config.arithTMax < rangeTotal (distribution s.freq)) rangesBlock
    (fun _ _ => False) (fun _ _ => True) := by
  intro s hs
  refine Run.Sat.bind (P := (· = s)) (R := fun _ t => t.distList = distribution s.freq)
    (fun u hu => ?_) (fun _ => .bind_fact (φ := fun dl => dl = distribution s.freq) (R := fun _ => True)
      (.read fun _ h => ⟨trivial, h⟩) fun dl hdl => ?_) s rfl
  · subst hu
    obtain ⟨t, ht, hdl⟩ := distBlock_distList u
    rw [ht]
    exact hdl
  · cases hl : dl.getLast? with
    | none =>
      rw [List.getLast?_eq_none_iff] at hl
      rw [← hdl, hl] at hs
      exact absurd hs (by decide)
    | some last =>
      have htot : rangeTotal (distribution s.freq) = cntSum dl + last.cnt.toNat := by
        rw [← hdl, rangeTotal, eosWeight, hl]; rfl
      refine .bind_fact (rangeLoop_sum (fun _ _ _ _ => trivial) dl 0 0) fun cum hcum =>
        .update_keep (fun _ _ => trivial) <| .require_fact (fun _ _ => trivial) fun hle => ?_
      have hle := of_decide_eq_true hle
      omega

theorem rangesBlock_tabled : Run.Sat (fun _ => True) rangesBlock (fun _ s => s.coder.Tabled) (fun _ _ => True) := by
  intro s _
  by_cases h : rangeTotal (distribution s.freq) ≤ Config.arithTMax
  · obtain ⟨t, ht, _, htable, hrt, _⟩ := rangesBlock_ok s h
    have hA : Config.arithTMax = 536870912 := rfl
    have hspec := rangeTable_spec (distribution_isDist s.freq).2 (by omega)
    rw [ht]
    refine ⟨hrt.trans_le h, fun e he => ?_, fun hnil => ?_⟩
    · show e.Ok t.w.rt.toNat
      rw [hrt]
      exact hspec.1 e (htable ▸ he)
    · show t.w.rt.toNat = 0
      have hnil : rangeTable (distribution s.freq) = [] := htable ▸ hnil
      rw [hrt]
      cases hd : distribution s.freq with
      | nil => rfl
      | cons e es =>
        have := rangeTable_length (dl := distribution s.freq) (by rw [hd]; exact List.cons_ne_nil _ _)
        rw [hnil] at this
        cases this
  · have := rangesBlock_over s (Nat.not_le.1 h)
    cases hr : rangesBlock s with
    | ok x t => rw [hr] at this; exact this.elim
    | error e t => trivial

theorem rangesBlock_coded : Run.Sat (s₀.Runs p a) rangesBlock (fun _ s => s₀.Runs p a s ∧ s.coder.Tabled) s₀.stops :=
  (rangesBlock_safe.and rangesBlock_tabled).conseq (fun _ h => ⟨h, trivial⟩) (fun _ _ h => h) fun _ _ h => h.1

/-! ##### The encoder -/

theorem emitWithPending_safe (b : Bool) : Run.Safe s₀ True a (emitWithPending b) :=
  .bind (putBit_safe b) fun _ => .read_any fun n => .bind (.times (putBit_safe _) n) fun _ =>
    .update fun s h => runs_pend s 0 h

theorem emitWithPending_coded (b : Bool) (C : Coder → Prop) : Run.Coded s₀ True a C (emitWithPending b) C :=
  (emitWithPending_safe b).coded
    (emitWithPending_keeps (fun _ _ => rfl) (fun _ _ => rfl) (fun _ _ _ => rfl) (fun _ _ => rfl) b) C

theorem narrow_coded (e : RangeEntry) :
    Run.Coded s₀ p a (Coder.Takes e) (narrow e) Coder.Spans :=
  .update fun _ h => h.1.setCoder h.2.narrow

theorem rescale_coded {r : Renorm} (hr : r ≠ .done) :
    Run.Coded s₀ p a (Coder.Fires r) (setW (fun w => w.rescale r)) Coder.Spans :=
  .update fun _ h => h.1.setCoder (h.2.map hr)

theorem readRenorm_coded : Run.Sat (fun s => s₀.Runs p a s ∧ s.coder.Spans) (Run.read fun s => s.w.renorm)
    (fun r s => s₀.Runs p a s ∧ s.coder.Fires r) s₀.stops :=
  .read fun s h => ⟨h.1, h.2, s.w.renorm_fires⟩

theorem encRenorm_coded : ∀ n, Run.Coded s₀ True a Coder.Spans (encRenorm n) Coder.Ready
  | 0 => .stuck fun _ _ => trivial
  | n + 1 => by
    refine .bind readRenorm_coded fun r => ?_
    cases r with
    | lower =>
      exact .bind (emitWithPending_coded false _) fun _ => .bind (rescale_coded (by decide)) fun _ => encRenorm_coded n
    | upper =>
      exact .bind (emitWithPending_coded true _) fun _ => .bind (rescale_coded (by decide)) fun _ => encRenorm_coded n
    | middle =>
      exact .update_keep (fun s h => ⟨runs_pend s _ h.1, h.2⟩) <|
        .bind (rescale_coded (by decide)) fun _ => encRenorm_coded n
    | done => exact .pure fun _ h => ⟨h.1, h.2.ready⟩

theorem arithEncode_coded (e : RangeEntry) :
    Run.Coded s₀ True a (Coder.Takes e) (arithEncode e) Coder.Ready :=
  .bind (narrow_coded e) fun _ => encRenorm_coded _

theorem arithEncodeSym_coded (sym : Nat) : Run.Coded s₀ True a Coder.Ready (arithEncodeSym sym) Coder.Ready :=
  .read_bind fun e => by
    cases e with
    | none => exact .stuck fun _ _ => trivial
    | some x =>
      exact (arithEncode_coded x).conseq (fun s h => ⟨h.1.1, h.1.2, .inl (h.1.2.entries x
        (List.mem_of_find?_eq_some h.2.symm))⟩) (fun _ _ h => h) fun _ _ h => h

theorem inRead_coded (C : Coder → Prop) : Run.Coded s₀ p a C inRead C :=
  inRead_safe.coded (inRead_keeps fun _ _ _ => rfl) C

theorem bumpNsym_coded (C : Coder → Prop) : Run.Coded s₀ p a C bumpNsym C :=
  bumpNsym_safe.coded (bumpNsym_keeps (fun _ _ => rfl) fun _ _ => rfl) C

theorem setPhase_coded (x : Phase) (C : Coder → Prop) : Run.Coded s₀ p a C (setPhase x) C :=
  (setPhase_safe x).coded (setPhase_keeps (fun _ _ => rfl) x) C

theorem arithEncodeLoop_coded : ∀ n, Run.Coded s₀ True a Coder.Ready (arithEncodeLoop n) Coder.Ready
  | 0 => .stuck fun _ _ => trivial
  | n + 1 => .bind (inRead_coded _) fun r => by
    cases r with
    | none => exact .pure fun _ h => h
    | some b =>
      exact .read_any fun _ => .require_fact (fun _ h => h.1.stops _) fun _ =>
        .bind (arithEncodeSym_coded _) fun _ => .bind (bumpNsym_coded _) fun _ => arithEncodeLoop_coded n

/-- The whole scale (R291, R300). -/
theorem State.Runs.setWhole {s : State} (h : s₀.Runs p a s) (ht : s.coder.Tabled) :
    s₀.Runs p a (s.setW (s.w.setInterval 0 Config.scaleM)) ∧
      (s.setW (s.w.setInterval 0 Config.scaleM)).coder.Ready := by
  refine ⟨h.setInterval (by decide) (by decide), ?_⟩
  rw [State.coder_setInterval s (by decide) (by decide)]
  have hwhole : Settled 0 Config.scaleM := ⟨by decide, by decide, by decide, by decide⟩
  exact { ht with settled := hwhole, start := fun _ => rfl }

/-- The last entry is the end-of-stream symbol's (R300); there is none where the table is empty. -/
theorem State.last_takes {s : State} (h : s.coder.Ready) :
    s.coder.Takes (rangeGet s.range (s.w.nrange.toNat - 1)) := by
  refine { h with takes := ?_ }
  by_cases h0 : s.w.nrange.toNat = 0
  · exact .inr (h.empty (by show s.rangeList = []; rw [State.rangeList, h0]; rfl))
  · exact .inl (h.entries _ (List.mem_map.2 ⟨_, List.mem_range.2 (by omega), rfl⟩))

theorem arithFlush_safe : Run.Safe s₀ True a arithFlush :=
  .update_keep (fun s h => runs_pend s _ h) <| .read_any fun _ =>
    .ite (fun _ => emitWithPending_safe _) fun _ => emitWithPending_safe _

theorem arithSecondPass_coded : Run.Sat (fun s => s₀.Runs True a s ∧ s.coder.Tabled) arithSecondPass
    (fun _ => s₀.Runs True a) s₀.stops := by
  refine .bind (setPhase_coded _ _) fun _ =>
    .bind (inRewind_safe.coded (inRewind_keeps (fun _ _ _ => rfl) (fun _ => rfl) fun _ _ _ => rfl) _) fun _ =>
    .update_bind (R := fun s => s₀.Runs True a s ∧ s.coder.Ready) (fun s h => ?_) <| .read_any fun _ =>
    .bind (arithEncodeLoop_coded _) fun _ => .bind (requireAllSeen_safe.coded (.bind (.read _) fun _ => .require _ _) _)
    fun _ => .read_bind fun last => .bind ((arithEncode_coded last).conseq (fun s h => ⟨h.1.1, ?_⟩)
      (fun _ _ h => h.1) fun _ _ h => h) fun _ => .bind (setPhase_safe _) fun _ => .bind arithFlush_safe fun _ =>
    padAndFlush_safe
  · obtain ⟨hruns, hready⟩ := h.1.setWhole h.2
    exact ⟨runs_nsym _ 0 (runs_pend _ 0 hruns), hready⟩
  · rw [h.2]; exact State.last_takes h.1.2

theorem arithCompress_safe : Run.Safe s₀ True a arithCompress :=
  .bind (setPhase_safe _) fun _ => .bind countBlock_safe fun _ => .bind (setPhase_safe _) fun _ =>
  .bind rangesBlock_coded fun _ => .bind (setPhase_coded _ _) fun _ => .read_any fun f =>
  .bind ((writeHeader_safe f).coded (writeHeader_keeps (fun _ _ => rfl) (fun _ _ => rfl) f) _) fun _ =>
  .read_any fun _ => .ite (fun _ => .pure fun _ h => h.1) fun _ => arithSecondPass_coded

/-! ##### The decoder -/

theorem shiftVal_safe (f : Nat → Nat) : Run.Safe s₀ p a (shiftVal f) :=
  .bind getBitOrZero_safe fun _ => .update fun s h => runs_val s _ h

theorem shiftVal_coded (f : Nat → Nat) (C : Coder → Prop) : Run.Coded s₀ p a C (shiftVal f) C :=
  (shiftVal_safe f).coded (shiftVal_keeps (fun _ _ _ => rfl) (fun _ _ _ => rfl) (fun _ _ => rfl) f) C

theorem decRenorm_coded : ∀ n, Run.Coded s₀ p a Coder.Spans (decRenorm n) Coder.Ready
  | 0 => .stuck fun _ _ => trivial
  | n + 1 => .bind readRenorm_coded fun _ =>
    .ite (fun hr => .pure fun _ h => ⟨h.1, (hr ▸ h.2).ready⟩) fun hr =>
      .bind (rescale_coded hr) fun _ => .bind (shiftVal_coded _ _) fun _ => decRenorm_coded n

/-- The entry found is one of the table (R320). -/
theorem arithFind_coded : Run.Sat (fun s => s₀.Runs p a s ∧ s.coder.Ready) arithFind
    (fun e s => s₀.Runs p a s ∧ s.coder.Takes e) s₀.stops := .read_bind fun e => by
  cases e with
  | none => exact .raise fun s h => h.1.1.stops _
  | some x =>
    exact .pure fun s h => ⟨h.1.1, h.1.2, .inl (h.1.2.entries x (List.mem_of_find?_eq_some h.2.symm))⟩

theorem arithDecodeLoop_coded : ∀ n, Run.Coded s₀ p a Coder.Ready (arithDecodeLoop n) Coder.Ready
  | 0 => .stuck fun _ _ => trivial
  | n + 1 => .read_any fun _ => .ite (fun _ => .bind arithFind_coded fun e =>
      .ite (fun _ => .pure fun _ h => ⟨h.1, h.2.toReady⟩) fun _ =>
        .bind ((outWrite_safe _).coded (outWrite_keeps (fun _ _ => rfl) (fun _ _ => rfl) _) _)
        fun _ => .bind (bumpNsym_coded _) fun _ => .bind (narrow_coded e) fun _ =>
        .bind (decRenorm_coded _) fun _ => arithDecodeLoop_coded n) fun _ => .pure fun _ h => h

theorem arithRebuild_safe (total : Nat) : Run.Safe s₀ p a (arithRebuild total) :=
  .bind (setPhase_safe _) fun _ => .bind rangesBlock_coded fun _ => .bind (setPhase_coded _ _) fun _ =>
  .update_keep (fun s h => ⟨runs_val _ 0 (runs_nsym _ 0 (h.1.setParse s.w.ibits (n := 0) fun _ => by decide)), h.2⟩) <|
  .bind (.times (shiftVal_coded _ _) _) fun _ => .update_bind (fun _ h => h.1.setWhole h.2) <|
  (arithDecodeLoop_coded _).conseq (fun _ h => h) (fun _ _ h => h.1) fun _ _ h => h

theorem arithDecompress_safe : Run.Safe s₀ p a arithDecompress :=
  .bind (setPhase_safe _) fun _ => .bind readHeader_safe fun _ => .read_any fun _ =>
  .ite (fun _ => pure_safe _) fun _ => arithRebuild_safe _

end Sys2Proof.Machine
end

section

namespace Sys2Proof.Machine

/-! ### A whole command -/

/-- The block of each primitive and stream command (R130 to R323); the system commands have none. -/
def Instr.block : Instr → Eng Unit
  | .nop | .reset => pure ()
  | .count => countBlock
  | .dist => distBlock
  | .ranges => rangesBlock
  | .treeFromScheme => withDist fromSchemeBlock
  | .treeTrunc => onMain truncBlock
  | .treeDerive => onMain deriveBlock
  | .bldShannon => withDist shannonBlock
  | .bldFano => withDist fanoBlock
  | .bldHuffman => withDist huffmanBlock
  | .cmpShannon => staticCompress shannonBlock
  | .cmpFano => staticCompress fanoBlock
  | .cmpHuffman => staticCompress huffmanBlock
  | .cmpContext => contextCompress
  | .cmpAdaptive => adaptiveCompress
  | .cmpArith => arithCompress
  | .decShannon => staticDecompress shannonBlock
  | .decFano => staticDecompress fanoBlock
  | .decHuffman => staticDecompress huffmanBlock
  | .decContext => contextDecompress
  | .decAdaptive => adaptiveDecompress
  | .decArith => arithDecompress

/-- What a command does, by its class (R92, R362). -/
theorem exec_eq (i : Instr) (s : State) : exec i s =
    match i.cmdClass with
    | .system => if i = .nop then execNop s else execReset s
    | .primitive => runPrimitive (Instr.block i) s
    | .stream => runStream (Instr.block i) s := by
  cases i <;> rfl

theorem primitive_safe {s₀ : State} {p a : Prop} {i : Instr} (h : i.cmdClass = .primitive) :
    Run.Safe s₀ p a (Instr.block i) := by
  cases i with
  | count => exact countBlock_safe
  | dist => exact distBlock_safe
  | ranges => exact rangesBlock_safe
  | treeFromScheme => exact withDist_safe fun dl _ => fromSchemeBlock_stays dl
  | treeTrunc => exact onMain_safe truncBlock_stays
  | treeDerive => exact onMain_safe deriveBlock_stays
  | bldShannon => exact withDist_safe shannonBlock_builds
  | bldFano => exact withDist_safe fanoBlock_builds
  | bldHuffman => exact withDist_safe huffmanBlock_builds
  | _ => cases h

/-- At the end of a stream command neither the packer nor the adaptive tree matters any more. -/
theorem Run.Sat.atEnd {s₀ : State} {P : State → Prop} {p a : Prop} {m : Eng Unit}
    (h : Run.Sat P m (fun _ => s₀.Runs p a) s₀.stops) : Run.Sat P m (fun _ => s₀.Runs False False) s₀.stops :=
  h.conseq (fun _ h => h) (fun _ _ h => { h with room := False.elim, slots := False.elim }) fun _ _ h => h

/-- A stream command begins with an empty packer (R383). -/
theorem stream_safe {s₀ : State} {i : Instr} (h : i.cmdClass = .stream) :
    Run.Sat (s₀.Runs True False) (Instr.block i) (fun _ => s₀.Runs False False) s₀.stops := by
  cases i with
  | cmpShannon => exact (staticCompress_safe shannonBlock_builds).atEnd
  | cmpFano => exact (staticCompress_safe fanoBlock_builds).atEnd
  | cmpHuffman => exact (staticCompress_safe huffmanBlock_builds).atEnd
  -- the two context commands with `@`, so that Lean does not run them when it compares them with the goal
  | cmpContext => exact @Run.Sat.atEnd s₀ _ True False contextCompress (@contextCompress_safe s₀ False)
  | cmpAdaptive => exact adaptiveCompress_safe.atEnd
  | cmpArith => exact arithCompress_safe.atEnd
  | decShannon => exact (staticDecompress_safe shannonBlock_builds).atEnd
  | decFano => exact (staticDecompress_safe fanoBlock_builds).atEnd
  | decHuffman => exact (staticDecompress_safe huffmanBlock_builds).atEnd
  | decContext => exact @Run.Sat.atEnd s₀ _ True False contextDecompress (@contextDecompress_safe s₀ True False)
  | decAdaptive => exact adaptiveDecompress_safe.atEnd
  | decArith => exact arithDecompress_safe.atEnd
  | _ => cases h

theorem State.Runs.acceptPlain {s : State} (h : s.Ready) : s.Runs False False s.acceptPlain where
  status := by
    show Status.mk true false s.status.fault = _
    rw [h.2]
  code := rfl
  memory := id
  ranges hr := { hr with nctx := .inl (hr.nctx_le h.2) }
  room := False.elim
  slots := False.elim

theorem State.Runs.accept {s : State} (h : s.Ready) : s.Runs False False s.accept :=
  { State.Runs.acceptPlain h with ranges := fun hr => { hr with nctx := .inl (hr.nctx_le h.2) } }

/-- The end of a command (R362). -/
theorem State.Runs.complete {s₀ s : State} {p a : Prop} (hs : s₀.Ready) (h : s₀.Runs p a s) :
    s₀.Carries s.complete where
  control hc := by
    have hstatus : s.complete.status = ⟨false, true, false⟩ := by rw [State.complete_status, h.status]; rfl
    have hcode : s.complete.faultCode.isSome = false := by
      rw [State.complete_faultCode, h.code, ← hc.agree, hs.2]
    exact ⟨by rw [hstatus], by rw [hcode, hstatus], by rw [hstatus]; exact fun h => Bool.false_ne_true h.2, fun _ => rfl⟩
  memory := h.memory
  ranges hr := { h.ranges hr with nctx := .inl ((h.ranges hr).nctx_le h.fault) }

/-- A fault taken (R350). -/
theorem State.Stops.takeFault {s₀ s : State} {c : FaultCode} (h : s₀.Stops c s) : s₀.Carries (s.takeFault c) where
  control _ := by
    have hstatus : (s.takeFault c).status = ⟨false, false, true⟩ := by rw [State.takeFault_status, h.status]; rfl
    exact ⟨by rw [hstatus], by rw [hstatus]; rfl, by rw [hstatus]; exact fun h => Bool.false_ne_true h.1,
      by rw [hstatus]; exact fun h => Bool.noConfusion h⟩
  memory := h.memory
  ranges := h.ranges

/-- A command is ignored, ends, or takes a fault; each way it carries the invariants. -/
theorem runCommand_carries {s t : State} {accept : State → State} {body : Eng Unit}
    (ha : s.Ready → s.Runs False False (accept s))
    (hb : Run.Sat (s.Runs False False) body (fun _ => s.Runs False False) s.stops)
    (h : runCommand accept body s = .next t) : s.Carries t := by
  obtain ⟨hbusy, ⟨_, rfl⟩ | ⟨hfault, hrun⟩⟩ := runCommand_next h
  · exact State.Carries.refl _
  · have hbody := hb _ (ha ⟨hbusy, hfault⟩)
    obtain ⟨u, hu, rfl⟩ | ⟨c, u, hu, rfl⟩ := hrun
    · rw [hu] at hbody
      exact hbody.complete ⟨hbusy, hfault⟩
    · rw [hu] at hbody
      exact hbody.takeFault

theorem exec_carries {i : Instr} {s t : State} (h : exec i s = .next t) : s.Carries t := by
  rw [exec_eq] at h
  cases hc : i.cmdClass with
  | system =>
    rw [hc] at h
    dsimp only at h
    split at h
    · exact runCommand_carries State.Runs.acceptPlain (pure_safe ()) h
    · unfold execReset at h
      split at h
      · cases h
      · cases h; exact State.carries_resetWith s s _
  | primitive =>
    rw [hc] at h
    exact runCommand_carries State.Runs.accept (.bind (setPhase_safe _) fun _ => .bind (primitive_safe hc) fun _ =>
      setPhase_safe _) h
  | stream =>
    rw [hc] at h
    exact runCommand_carries State.Runs.accept (.bind (R := fun _ => s.Runs True False)
      (.update fun _ h => h.init) fun _ => .bind (stream_safe hc) fun _ => setPhase_safe _) h

/-! ### A step -/

theorem writeCmd_carries {c : Byte} {s t : State} (h : writeCmd c s = .next t) : s.Carries t := by
  unfold writeCmd at h
  split at h
  · exact exec_carries h
  · unfold illegalCode at h
    split at h
    · cases h
    · split at h
      · cases h; exact State.Carries.refl _
      · next hf => cases h; exact State.carries_illegal (Bool.eq_false_iff.2 hf)

theorem hostOnly_carries {ok : Bool} {s t : State} {x : Streams} (h : hostOnly ok s (s.setIo x) = .next t) :
    s.Carries t := by
  obtain ⟨_, _, rfl⟩ := hostOnly_next h
  exact s.carries_setIo x

theorem hostStep_carries {a : HostAct} {s t : State} (h : hostStep a s = .next t) : s.Carries t := by
  cases a with
  | writeCmd c => exact writeCmd_carries h
  | attachIn bytes again cursor => exact hostOnly_carries h
  | seekIn cursor => exact hostOnly_carries h
  | attachOut bytes => exact hostOnly_carries h
  | setOracle failIn failOut => cases h; exact s.carries_setIo _
  | hwReset => cases h; exact State.carries_resetWith s s _
  | resetDuring c onInput k =>
    obtain ⟨u, _, rfl⟩ := resetDuring_next h
    exact State.carries_resetWith s _ _

/-- Every step carries the three invariants on. -/
theorem step_carries {s t : State} (h : step s = .next t) : s.Carries t := by
  unfold step at h
  split at h
  · cases h; exact State.Carries.refl _
  · exact (s.carries_setHost _).trans (hostStep_carries h)

/-! ### The statements -/

/-- Settles O16: of the three invariants that a step carries on, the form of the memories. -/
theorem memoryKept : Obligations.MemoryKept := fun _ _ hs h => (step_carries h).memory hs

/-- Settles O17: of the three invariants that a step carries on, the ranges of the registers. -/
theorem rangesKept : Obligations.RangesKept := fun _ _ hs h => (step_carries h).ranges hs

/-- Settles O15: of the three invariants that a step carries on, the agreement of `STATUS`, `FAULTCODE`, `PHASE`. -/
theorem controlKept : Obligations.ControlKept := fun _ _ hs h => (step_carries h).control hs

/-- Settles O18, invariant by invariant. -/
theorem invariantsAtReset : Obligations.InvariantsAtReset :=
  ⟨State.reset_controlInv, Memory.wf_reset, State.reset_rangeInv⟩

/-- Settles O6: the act at the head of the list is done, and `CMD` runs what the byte decodes to. -/
theorem stepRunsCommand : Obligations.StepRunsCommand := by
  intro s c i rest hhost hdec _
  unfold step
  rw [hhost]
  exact writeCmd_ok hdec _

/-- Settles O1, register by register; every memory is empty, so every entry reads its reset value. -/
theorem resetState : Obligations.ResetState := by
  refine ⟨fun r => ?_, rfl, rfl, rfl, rfl, fun n => ⟨rfl, rfl, rfl, rfl, rfl, rfl, rfl, rfl⟩, rfl⟩
  cases r <;> rfl

end Sys2Proof.Machine
end

section

namespace Sys2Proof.Machine

/-! ### What the host reads between commands -/

/-- An index of an arena smaller than the field's last pattern reads as itself, never as the pattern of -1 (R26). -/
theorem indexRead_reads {width cap : Nat} (hcap : cap < 2 ^ width) (x : Option Nat) :
    (x = none → indexRead width x = .word width (BitVec.ofNat width (2 ^ width - 1))) ∧
    ∀ i, x = some i → i < cap → indexRead width x = .word width (BitVec.ofNat width i) ∧
      BitVec.ofNat width i ≠ BitVec.ofNat width (2 ^ width - 1) := by
  refine ⟨fun hx => hx ▸ rfl, fun i hx hi => ⟨hx ▸ rfl, fun heq => ?_⟩⟩
  have hnat := congrArg BitVec.toNat heq
  rw [BitVec.toNat_ofNat, BitVec.toNat_ofNat, Nat.mod_eq_of_lt (by omega), Nat.mod_eq_of_lt (by omega)] at hnat
  omega

/-- `CMD` and `STATUS` read as they are even while a command runs (R21, R393). -/
theorem readBack_always (s : State) {r : Reg} (h : r = .CMD ∨ r = .STATUS) : readBack s (.reg r) = s.field (.reg r) := by
  unfold readBack
  obtain rfl | rfl := h <;> exact if_neg (by simp)

theorem field_status (s : State) : s.field (.reg .STATUS) = .word 8 (BitVec.ofNat 8
    ((if s.status.busy then 1 else 0) + (if s.status.done then 2 else 0) + (if s.status.fault then 4 else 0))) := by
  show ReadValue.word 8 (BitVec.ofNat 8 s.status.word.toNat) = _
  obtain ⟨busy, done, fault⟩ := s.status
  cases busy <;> cases done <;> cases fault <;> rfl

/-- Settles O11: `CMD` and `STATUS` read as they are at all times, every other field between commands; an index field
reads as the index it holds. -/
theorem Settled.readBack : Obligations.ReadBack := by
  refine ⟨fun s => ⟨readBack_always s (.inl rfl), (readBack_always s (.inr rfl)).trans (field_status s)⟩,
    fun s hs => ?_⟩
  simp only [readBack_idle hs]
  refine ⟨?_, ?_, fun x f hf => ?_, fun x f hf => ?_⟩
  · show ReadValue.word 8 (BitVec.ofNat 8 (faultCodeWord s.faultCode).toNat) = _
    cases s.faultCode with
    | none => rfl
    | some c => cases c <;> rfl
  · show ReadValue.word 8 (BitVec.ofNat 8 s.phase.word.toNat) = _
    cases s.phase <;> rfl
  · have hread : s.field f = indexRead 14 x := by
      obtain ⟨rfl, rfl⟩ | ⟨rfl, rfl⟩ | ⟨rfl, rfl⟩ | ⟨_, rfl, rfl⟩ | ⟨_, rfl, rfl⟩ | ⟨_, rfl, rfl⟩ | ⟨_, _, rfl, rfl⟩ |
        ⟨_, _, rfl, rfl⟩ := hf <;> rfl
    rw [hread]
    exact indexRead_reads (by decide) x
  · have hread : s.field f = indexRead 10 x := by
      obtain ⟨rfl, rfl⟩ | ⟨rfl, rfl⟩ | ⟨_, rfl, rfl⟩ | ⟨_, rfl, rfl⟩ | ⟨_, rfl, rfl⟩ | ⟨_, rfl, rfl⟩ := hf <;> rfl
    rw [hread]
    exact indexRead_reads (by decide) x

end Sys2Proof.Machine
end

section

namespace Sys2Proof.Machine

/-! ### The streams over a whole command -/

/-- A frame that allows every write that a command's block makes. -/
structure Frame.AllowsWork (F : Frame State) : Prop where
  phase : F.AllowsPhase
  reads : F.AllowsIn
  rewind : F.AllowsRewind
  touchOut : F.AllowsTouchOut
  out : F.AllowsOut
  freq : F.AllowsFreq
  dist : F.AllowsDist
  range : F.AllowsRange
  rt : F.AllowsRt
  main : F.AllowsMain
  ctx : F.AllowsCtx
  fgk : F.AllowsFgk
  fresh : F.AllowsFresh
  total : F.AllowsTotal
  nsym : F.AllowsNsym
  cur : F.AllowsCur
  prev : F.AllowsPrev
  nctx : F.AllowsNctx
  pack : F.AllowsPack
  parse : F.AllowsParse
  interval : F.AllowsInterval
  pend : F.AllowsPend
  val : F.AllowsVal

/-- A frame that also allows what accepting, ending and trapping a command write. -/
structure Frame.AllowsAll (F : Frame State) : Prop extends F.AllowsWork where
  control : F.AllowsControl
  accept : F.AllowsAccept

/-- A frame that allows a block's writes is kept by every command's block. -/
theorem Frame.AllowsWork.block {F : Frame State} (h : F.AllowsWork) (i : Instr) : Run.Keeps F (Instr.block i) := by
  have cmp : ∀ b : Builder, Run.Keeps F (staticCompress b) := staticCompress_keeps h.phase h.reads h.rewind h.parse
    h.touchOut h.out h.pack h.nsym h.freq h.total h.dist h.main
  have dec : ∀ b : Builder, Run.Keeps F (staticDecompress b) := staticDecompress_keeps h.phase h.reads h.parse h.cur
    h.touchOut h.out h.nsym h.freq h.total h.dist h.main
  cases i with
  | nop | reset => exact .pure _
  | count => exact countBlock_keeps h.reads h.freq h.total
  | dist => exact distBlock_keeps h.dist
  | ranges => exact rangesBlock_keeps h.dist h.range h.rt
  | treeFromScheme | bldShannon | bldFano | bldHuffman => exact withDist_keeps h.main _
  | treeTrunc | treeDerive => exact onMain_keeps h.main _
  | cmpShannon | cmpFano | cmpHuffman => exact cmp _
  | decShannon | decFano | decHuffman => exact dec _
  | cmpContext =>
    exact contextCompress_keeps h.phase h.reads h.rewind h.parse h.touchOut h.out h.pack h.nsym h.freq h.total h.dist
      h.main h.prev h.ctx h.nctx
  | decContext =>
    exact contextDecompress_keeps h.phase h.reads h.parse h.cur h.touchOut h.out h.nsym h.freq h.total h.dist h.main
      h.prev h.ctx h.nctx h.fresh
  | cmpAdaptive => exact adaptiveCompress_keeps h.phase h.reads h.touchOut h.out h.pack h.nsym h.fresh h.fgk
  | decAdaptive =>
    exact adaptiveDecompress_keeps h.phase h.reads h.parse h.cur h.fgk h.touchOut h.out h.nsym h.fresh
  | cmpArith =>
    exact arithCompress_keeps h.phase h.reads h.rewind h.parse h.touchOut h.out h.pack h.pend h.interval h.nsym h.freq
      h.total h.dist h.range h.rt
  | decArith =>
    exact arithDecompress_keeps h.phase h.reads h.parse h.val h.interval h.touchOut h.out h.nsym h.freq h.total h.dist
      h.range h.rt

/-- A frame that allows all the writes is kept by every command but `RESET`. -/
theorem Frame.AllowsAll.exec {F : Frame State} (h : F.AllowsAll) {i : Instr} (hi : i ≠ .reset) {s t : State}
    (hx : Machine.exec i s = .next t) : F.rel s t := by
  have plain : ∀ s : State, F.rel s s.acceptPlain := fun s => h.control s s.status.accepted s.faultCode
  rw [exec_eq] at hx
  cases hc : i.cmdClass with
  | system =>
    cases i with
    | nop => exact runCommand_frame plain h.phase h.control (.pure ()) hx
    | reset => exact absurd rfl hi
    | _ => cases hc
  | primitive =>
    rw [hc] at hx
    exact runPrimitive_frame h.accept h.phase h.control (h.block i) hx
  | stream =>
    rw [hc] at hx
    exact runStream_frame h.accept h.phase h.control h.pack h.parse h.nsym h.prev h.cur h.pend (h.block i) hx

theorem State.Appended.refl (s : State) : s.Appended s [] :=
  ⟨(List.append_nil _).symm, (BitVec.add_zero _).symm⟩

theorem State.Appended.trans {s t u : State} {a b : List Byte} (h : s.Appended t a) (h' : t.Appended u b) :
    s.Appended u (a ++ b) := by
  refine ⟨?_, ?_⟩
  · rw [h'.out, h.out, List.append_assoc]
  · rw [h'.len, h.len, BitVec.add_assoc, List.length_append, BitVec.ofNat_add]

theorem State.wroteAll_appended (s : State) (bytes : List Byte) : s.Appended (s.wroteAll bytes) bytes :=
  ⟨s.wroteAll_out bytes, rfl⟩

/-- Whether anything has been appended depends on `OUT` and `OUT_LEN` alone. -/
theorem State.Appended.congr {s s' t t' : State} {bytes : List Byte} (h : s.Appended t bytes)
    (hs : s'.io.outRev = s.io.outRev ∧ s'.io.outLen = s.io.outLen)
    (ht : t'.io.outRev = t.io.outRev ∧ t'.io.outLen = t.io.outLen) : s'.Appended t' bytes := by
  obtain ⟨h1, h2⟩ := hs
  obtain ⟨h3, h4⟩ := ht
  refine ⟨?_, by rw [h4, h2]; exact h.len⟩
  have := h.out
  unfold Streams.out at this ⊢
  rw [h3, h1, this]

/-- The input is what it was, or what the second pass brings (R390). -/
def Streams.InputKept (x y : Streams) : Prop :=
  (y.input = x.input ∧ y.again = x.again) ∨ (x.again = some y.input ∧ y.again = none)

theorem Streams.InputKept.trans {x y z : Streams} (h : x.InputKept y) (h' : y.InputKept z) : x.InputKept z := by
  obtain ⟨hi, ha⟩ | ⟨ha, hn⟩ := h <;> obtain ⟨hi', ha'⟩ | ⟨ha', hn'⟩ := h'
  · exact .inl ⟨hi'.trans hi, ha'.trans ha⟩
  · exact .inr ⟨ha ▸ ha', hn'⟩
  · exact .inr ⟨hi' ▸ ha, ha'.trans hn⟩
  · rw [hn] at ha'; cases ha'

/-- The rewind is the one place where the input can change. -/
theorem Streams.inputKept_rewind (x : Streams) :
    x.InputKept { x with inPos := x.inBase, input := x.again.getD x.input, again := none } := by
  cases ha : x.again with
  | none => exact .inl ⟨rfl, ha.symm⟩
  | some b => exact .inr ⟨ha, rfl⟩

/-- R60, R61, R68: what a command keeps of the streams. -/
structure State.StreamsKept (s t : State) : Prop where
  input : s.io.InputKept t.io
  out : ∃ bytes, s.Appended t bytes
  failIn : t.io.failIn = s.io.failIn
  failOut : t.io.failOut = s.io.failOut

theorem State.StreamsKept.of_same {s t : State} (hin : s.io.InputKept t.io) (hout : t.io.outRev = s.io.outRev)
    (hlen : t.io.outLen = s.io.outLen) (hfi : t.io.failIn = s.io.failIn) (hfo : t.io.failOut = s.io.failOut) :
    s.StreamsKept t :=
  ⟨hin, ⟨[], (State.Appended.refl s).congr ⟨rfl, rfl⟩ ⟨hout, hlen⟩⟩, hfi, hfo⟩

/-- A write outside the input, the output and the oracle. -/
theorem State.StreamsKept.of_io {s t : State} (h : t.io = s.io) : s.StreamsKept t :=
  .of_same (.inl ⟨by rw [h], by rw [h]⟩) (by rw [h]) (by rw [h]) (by rw [h]) (by rw [h])

theorem State.StreamsKept.trans {s t u : State} (h : s.StreamsKept t) (h' : t.StreamsKept u) : s.StreamsKept u := by
  obtain ⟨a, ha⟩ := h.out
  obtain ⟨b, hb⟩ := h'.out
  exact ⟨h.input.trans h'.input, ⟨_, ha.trans hb⟩, h'.failIn.trans h.failIn, h'.failOut.trans h.failOut⟩

/-- The frame of the streams. -/
def streamsFrame : Frame State := ⟨State.StreamsKept, fun _ => .of_io rfl, fun _ _ _ => .trans⟩

theorem streamsFrame_allowsAll : streamsFrame.AllowsAll where
  phase _ _ := .of_io rfl
  control _ _ _ := .of_io rfl
  accept _ _ := .of_same (.inl ⟨rfl, rfl⟩) rfl rfl rfl rfl
  reads _ _ _ := .of_same (.inl ⟨rfl, rfl⟩) rfl rfl rfl rfl
  rewind s := .of_same s.io.inputKept_rewind rfl rfl rfl rfl
  touchOut _ _ := .of_same (.inl ⟨rfl, rfl⟩) rfl rfl rfl rfl
  out s v := ⟨.inl ⟨rfl, rfl⟩, ⟨[v], (s.wroteAll_appended [v]).congr ⟨rfl, rfl⟩ ⟨rfl, rfl⟩⟩, rfl, rfl⟩
  freq _ _ := .of_io rfl
  dist _ _ _ := .of_io rfl
  range _ _ _ := .of_io rfl
  rt _ _ _ := .of_io rfl
  main _ _ := .of_io rfl
  ctx _ _ := .of_io rfl
  fgk _ _ := .of_io rfl
  fresh _ _ := .of_io rfl
  total _ _ := .of_io rfl
  nsym _ _ := .of_io rfl
  cur _ _ := .of_io rfl
  prev _ _ := .of_io rfl
  nctx _ _ := .of_io rfl
  pack _ _ _ := .of_io rfl
  parse _ _ _ := .of_io rfl
  interval _ _ _ := .of_io rfl
  pend _ _ := .of_io rfl
  val _ _ := .of_io rfl

/-- `RESET` leaves the streams as they are (R381); every other command keeps the frame of the streams. -/
theorem exec_streamsKept {i : Instr} {s t : State} (h : exec i s = .next t) : s.StreamsKept t := by
  by_cases hi : i = .reset
  · subst hi
    have hreset : execReset s = .next t := h
    unfold execReset at hreset
    split at hreset
    · cases hreset
    · cases hreset
      exact .of_io rfl
  · exact streamsFrame_allowsAll.exec hi h

/-- Settles O19: every write of every command keeps the frame of the streams. -/
theorem streamsKept : Obligations.StreamsKept := by
  intro i s t h
  obtain ⟨hin, hout, hfi, hfo⟩ := exec_streamsKept h
  exact ⟨hin.imp And.left And.left, hout, hfi, hfo⟩

end Sys2Proof.Machine
end

section

namespace Sys2Proof.Machine

/-! ### How a command ends, from how its block ends -/

/-- `STATUS` and `FAULTCODE`, which no block writes. -/
def State.control (s : State) : Status × Option FaultCode := (s.status, s.faultCode)

theorem control_allowsWork : (Frame.same State.control).AllowsWork where
  phase _ _ := rfl
  reads _ _ _ := rfl
  rewind _ := rfl
  touchOut _ _ := rfl
  out _ _ := rfl
  freq _ _ := rfl
  dist _ _ _ := rfl
  range _ _ _ := rfl
  rt _ _ _ := rfl
  main _ _ := rfl
  ctx _ _ := rfl
  fgk _ _ := rfl
  fresh _ _ := rfl
  total _ _ := rfl
  nsym _ _ := rfl
  cur _ _ := rfl
  prev _ _ := rfl
  nctx _ _ := rfl
  pack _ _ _ := rfl
  parse _ _ _ := rfl
  interval _ _ _ := rfl
  pend _ _ := rfl
  val _ _ := rfl

theorem Run.Keeps.ok {σ α : Type} {F : Frame σ} {m : Run σ α} (h : Run.Keeps F m) {s t : σ} {a : α}
    (hm : m s = .ok a t) : F.rel s t := by simpa [hm, endState] using h s

theorem Run.Keeps.error {σ α : Type} {F : Frame σ} {m : Run σ α} (h : Run.Keeps F m) {s t : σ} {e : Stop}
    (hm : m s = .error e t) : F.rel s t := by simpa [hm, endState] using h s

theorem State.ended_of_control {s u : State} (h : s.Ready) (hu : u.control = s.accept.control) :
    s.Ended u.complete := by
  have hst : u.status = ⟨true, false, s.status.fault⟩ := (congrArg Prod.fst hu :)
  refine ⟨?_, rfl, (congrArg Prod.snd hu :)⟩
  rw [State.complete_status, hst, h.2]
  rfl

theorem State.trapped_of_control {s u : State} (h : s.Ready) (hu : u.control = s.accept.control) (c : FaultCode) :
    (u.takeFault c).Trapped c u.phase := by
  have hst : u.status = ⟨true, false, s.status.fault⟩ := (congrArg Prod.fst hu :)
  refine ⟨?_, rfl, rfl⟩
  rw [State.takeFault_status, hst, h.2]
  rfl

/-- A stream command whose block ends. -/
theorem exec_stream_ok {i : Instr} (hi : i.cmdClass = .stream) {s u : State} (h : s.Ready)
    (hb : Instr.block i s.streamStart = .ok () u) : exec i s = .next u.complete ∧ s.Ended u.complete := by
  rw [exec_eq, hi]
  exact ⟨runStream_ok h hb,
    State.ended_of_control h (Run.Keeps.ok (s := s.streamStart) (control_allowsWork.block i) hb)⟩

/-- A stream command whose block raises a fault. -/
theorem exec_stream_raise {i : Instr} (hi : i.cmdClass = .stream) {s u : State} {c : FaultCode} (h : s.Ready)
    (hb : Instr.block i s.streamStart = .error (.raise c) u) :
    exec i s = .next (u.takeFault c) ∧ (u.takeFault c).Trapped c u.phase := by
  rw [exec_eq, hi]
  exact ⟨runStream_raise h hb,
    State.trapped_of_control h (Run.Keeps.error (s := s.streamStart) (control_allowsWork.block i) hb) c⟩

/-- A primitive command whose block raises a fault. -/
theorem exec_primitive_raise {i : Instr} (hi : i.cmdClass = .primitive) {s u : State} {c : FaultCode} (h : s.Ready)
    (hb : Instr.block i (s.accept.setPhase .prim) = .error (.raise c) u) :
    exec i s = .next (u.takeFault c) ∧ (u.takeFault c).Trapped c u.phase := by
  rw [exec_eq, hi]
  exact ⟨runPrimitive_raise h hb, State.trapped_of_control h
    (Run.Keeps.error (s := s.accept.setPhase .prim) (control_allowsWork.block i) hb) c⟩

/-! ### The models the builders leave -/

/-- A code model in the form every builder leaves it: `SCHEME` is the leaf paths of a tree, `ROOT` the root of
that tree, absent where it has no leaf (R170 to R172). -/
structure TreeMem.Models (t : TreeMem) (sh : Shape) : Prop where
  code : ∀ b : Byte, t.code b.toNat = codeIn sh.paths b
  roots : sh ≠ .dead → t.Roots sh
  absent : sh = .dead → t.root = none

theorem TreeMem.Agrees.models {t : TreeMem} {sh : Shape} (h : t.Agrees sh) (hne : sh ≠ .dead) : t.Models sh :=
  ⟨h.2, fun _ => h.1, fun he => absurd he hne⟩

/-- The block of a static method's builder. -/
def StaticMethod.block : StaticMethod → Builder
  | .shannon => shannonBlock
  | .fano => fanoBlock
  | .huffman => huffmanBlock

theorem StaticMethod.block_cmp (m : StaticMethod) : Instr.block m.cmp = staticCompress m.block := by cases m <;> rfl
theorem StaticMethod.block_dec (m : StaticMethod) : Instr.block m.dec = staticDecompress m.block := by cases m <;> rfl
theorem StaticMethod.cmp_stream (m : StaticMethod) : m.cmp.cmdClass = .stream := by cases m <;> rfl
theorem StaticMethod.dec_stream (m : StaticMethod) : m.dec.cmdClass = .stream := by cases m <;> rfl

theorem StaticMethod.shape_nil (m : StaticMethod) : m.shape [] = .dead := by cases m <;> rfl
theorem StaticMethod.shape_one (m : StaticMethod) (e : DistEntry) : m.shape [e] = degenerateShape e.sym := by
  cases m <;> rfl

/-- The leaves of a method's tree are the symbols of the distribution (R170). -/
theorem StaticMethod.shape_symbols (m : StaticMethod) {dl : List DistEntry} (h : IsDist dl)
    (hs : dl.Pairwise distBefore) (hS : cntSum dl ≤ 2 ^ 40) (b : Byte) :
    b ∈ (m.shape dl).symbols ↔ b ∈ dl.map DistEntry.sym := by
  match dl with
  | [] => rw [m.shape_nil]; rfl
  | [e] => rw [m.shape_one]; rfl
  | e₁ :: e₂ :: es =>
    cases m with
    | shannon =>
      show b ∈ (Shape.ofCodes _).trunc.symbols ↔ _
      rw [Shape.trunc_symbols, ofCodes_symbols (shannonWords_prefixFree hS _ 0 h hs (by rw [Nat.zero_add])),
        shannonWords_fst]
    | fano =>
      show b ∈ (fanoTree _ _).symbols ↔ _
      rw [(fanoTree_symbols _ _ (List.cons_ne_nil _ _) le_rfl).1]
    | huffman =>
      show b ∈ (huffmanTree _ _).symbols ↔ _
      rw [← leafTrees_shapes _ 0]
      refine (huffmanTree_symbols _ _ (by simp [leafTrees]) (leafTrees_length _ 0).le).1.mem_iff.trans ?_
      rw [leafTrees_symbols]

/-- A method's tree has no leaf exactly if the distribution is empty (R171). -/
theorem StaticMethod.shape_dead (m : StaticMethod) {dl : List DistEntry} (h : IsDist dl) (hs : dl.Pairwise distBefore)
    (hS : cntSum dl ≤ 2 ^ 40) : m.shape dl = .dead ↔ dl = [] := by
  refine ⟨fun hd => ?_, fun he => he ▸ m.shape_nil⟩
  cases dl with
  | nil => rfl
  | cons e es =>
    have hmem := (m.shape_symbols h hs hS e.sym).2 (by simp)
    rw [hd] at hmem
    cases hmem

theorem emptyResult_models (t : TreeMem) : ∃ u, emptyResult t = .ok () u ∧ u.Models .dead :=
  ⟨_, rfl, fun _ => rfl, fun h => absurd rfl h, fun _ => rfl⟩

theorem degenerateResult_models (sym : Byte) (t : TreeMem) :
    ∃ u, degenerateResult sym t = .ok () u ∧ u.Models (degenerateShape sym) := by
  refine ⟨_, rfl, fun b => ?_, fun _ => ⟨0, rfl, 1, ?_, ?_⟩, fun h => nomatch h⟩
  · show ((t.clearScheme.setCode sym.toNat [false]).code b.toNat) = codeIn [(sym, [false])] b
    rw [TreeMem.code_setCode, TreeMem.clearScheme_code]
    by_cases hb : b = sym
    · subst hb; simp [codeIn]
    · rw [if_neg fun h => hb (BitVec.eq_of_toNat_eq h)]
      simp [codeIn, Ne.symm hb]
  · show (((t.clearScheme.setCode sym.toNat [false]).setNode 0 ⟨none, some 1, none⟩).setNode 1
      ⟨some sym, none, none⟩).node 0 = _
    rw [TreeMem.node_setNode, if_neg (by decide), TreeMem.node_setNode, if_pos rfl]
  · show ((((t.clearScheme.setCode sym.toNat [false]).setNode 0 ⟨none, some 1, none⟩).setNode 1
      ⟨some sym, none, none⟩).node 1).sym = _
    rw [TreeMem.node_setNode, if_pos rfl]

/-- What a builder leaves of a distribution in order (R170 to R172, R174, R178, R182). -/
theorem StaticMethod.block_models (m : StaticMethod) {dl : List DistEntry} (h : IsDist dl)
    (hs : dl.Pairwise distBefore) (hS : cntSum dl ≤ 2 ^ 40) (t : TreeMem) :
    ∃ u, m.block dl t = .ok () u ∧ u.Models (m.shape dl) := by
  have hne : dl ≠ [] → m.shape dl ≠ .dead := fun hne hd => hne ((m.shape_dead h hs hS).1 hd)
  match dl with
  | [] => rw [m.shape_nil]; cases m <;> exact emptyResult_models t
  | [e] => rw [m.shape_one]; cases m <;> exact degenerateResult_models e.sym t
  | e₁ :: e₂ :: es =>
    have h2 : 2 ≤ (e₁ :: e₂ :: es).length := by simp
    cases m with
    | shannon =>
      obtain ⟨u, hu, ha, _⟩ := shannonBlock_ok h h2 t
      exact ⟨u, hu, TreeMem.Agrees.models ha (hne (by simp))⟩
    | fano =>
      obtain ⟨u, hu, ha, _⟩ := fanoBlock_ok h h2 t
      exact ⟨u, hu, TreeMem.Agrees.models ha (hne (by simp))⟩
    | huffman =>
      obtain ⟨u, hu, ha, _⟩ := huffmanBlock_ok h h2 t
      exact ⟨u, hu, TreeMem.Agrees.models ha (hne (by simp))⟩

theorem freqSum_lt (f : Table (BitVec 32)) : freqSum f < 2 ^ 40 := by
  have hterm : ∀ n, ((List.range n).map fun k => (freqGet f k).toNat).sum ≤ n * (2 ^ 32 - 1) := by
    intro n
    induction n with
    | zero => simp
    | succ n ih =>
      have := (freqGet f n).isLt
      rw [List.range_succ, List.map_append, List.sum_append, List.map_singleton, List.sum_singleton]
      omega
  have := hterm 256
  unfold freqSum
  omega

theorem cntSum_distribution_le (f : Table (BitVec 32)) : cntSum (distribution f) ≤ 2 ^ 40 :=
  (cntSum_distribution f).trans_le (freqSum_lt f).le

/-- `StaticMethod.block_models` for the distribution of a table. -/
theorem StaticMethod.block_distribution (m : StaticMethod) (f : Table (BitVec 32)) (t : TreeMem) :
    ∃ u, m.block (distribution f) t = .ok () u ∧ u.Models (m.shape (distribution f)) :=
  m.block_models (distribution_isDist f) (distribution_sorted f) (cntSum_distribution_le f) t

theorem distribution_symbols {f : Table (BitVec 32)} {b : Byte} :
    b ∈ (distribution f).map DistEntry.sym ↔ freqGet f b.toNat ≠ 0 := by
  constructor
  · intro h
    obtain ⟨e, he, rfl⟩ := List.mem_map.1 h
    obtain ⟨hc, hn⟩ := mem_distribution.1 he
    rwa [← hc]
  · exact fun h => List.mem_map.2 ⟨⟨b, freqGet f b.toNat⟩, mem_distribution.2 ⟨rfl, h⟩, rfl⟩

/-- A byte has a codeword exactly if its count is not 0 (R170). -/
theorem StaticMethod.codeIn_isSome (m : StaticMethod) (f : Table (BitVec 32)) (b : Byte) :
    (codeIn (m.shape (distribution f)).paths b).isSome = true ↔ freqGet f b.toNat ≠ 0 := by
  rw [Machine.codeIn_isSome, m.shape_symbols (distribution_isDist f) (distribution_sorted f)
    (cntSum_distribution_le f), distribution_symbols]

theorem freqGet_countTable_ne {S : List Byte} (h : S.length < 2 ^ 32) (b : Byte) :
    freqGet (countTable S) b.toNat ≠ 0 ↔ b ∈ S := by
  have hc := countTable_get h b
  rw [← List.count_pos_iff, ← hc]
  constructor
  · intro hne
    exact Nat.pos_of_ne_zero fun h0 => hne (BitVec.eq_of_toNat_eq h0)
  · rintro hpos h0
    rw [h0] at hpos
    exact absurd hpos (by decide)

/-- The bytes with a codeword under the tree of a sequence's table are the bytes of the sequence. -/
theorem StaticMethod.codeIn_countTable (m : StaticMethod) {S : List Byte} (h : S.length < 2 ^ 32) (b : Byte) :
    (codeIn (m.shape (distribution (countTable S))).paths b).isSome = true ↔ b ∈ S :=
  (m.codeIn_isSome _ b).trans (freqGet_countTable_ne h b)

end Sys2Proof.Machine
end

section

namespace Sys2Proof.Machine

/-! ### Bytes written one after the other -/

section
variable {σ α β : Type}

theorem Run.each_append (f : α → Run σ Unit) : ∀ (xs ys : List α),
    Run.each (xs ++ ys) f = (Run.each xs f >>= fun _ => Run.each ys f)
  | [], _ => rfl
  | x :: xs, ys => by
    funext s
    rw [List.cons_append, Run.each_cons, Run.each_cons, Run.bind_assoc_apply, Run.each_append f xs ys]

end

/-- `OutWrite` of each byte of a list, in order. -/
def writeAll (bytes : List Byte) : Eng Unit := Run.each bytes outWrite

theorem writeAll_append (a b : List Byte) : writeAll (a ++ b) = (writeAll a >>= fun _ => writeAll b) :=
  Run.each_append outWrite a b

theorem memWrite_eq_writeAll : ∀ n v : Nat, memWrite n v = writeAll (leBytes n v)
  | 0, _ => rfl
  | n + 1, v => by rw [memWrite, memWrite_eq_writeAll n]; rfl

theorem writeHeader_eq_writeAll (f : Table (BitVec 32)) : writeHeader f = writeAll (headerBytes f) := by
  have key : ∀ l : List Nat, Run.each l (fun k => memWrite 4 (freqGet f k).toNat) =
      writeAll (l.flatMap fun k => leBytes 4 (freqGet f k).toNat) := by
    intro l
    induction l with
    | nil => rfl
    | cons k l ih => rw [Run.each_cons, List.flatMap_cons, writeAll_append, memWrite_eq_writeAll, ih]
  exact key _

/-- Where the oracle answers `ok` all bytes are written. -/
theorem writeAll_ok : ∀ (bytes : List Byte) {s : State}, s.io.failOut = [] →
    writeAll bytes s = .ok () (s.wroteAll bytes)
  | [], s, _ => by rw [State.wroteAll_nil]; rfl
  | b :: bytes, s, hf => by
    show (outWrite b >>= fun _ => writeAll bytes) s = _
    rw [Run.bind_ok (outWrite_ok hf b), writeAll_ok bytes (s := s.wrote b) hf, State.wrote_eq, State.wroteAll_wroteAll]
    rfl

/-- The oracle's first failing write from here on is the `k`-th. -/
structure Streams.FailsAt (x : Streams) (k : Nat) : Prop where
  pos : 1 ≤ k
  fails : x.failOut.contains (x.outAcc + k) = true
  before : ∀ j, 1 ≤ j → j < k → x.failOut.contains (x.outAcc + j) = false

/-- Where the oracle fails the `k`-th write and none before, the `k - 1` bytes before it are written (R65, R351). -/
theorem writeAll_fails : ∀ (bytes : List Byte) {s : State} {k : Nat}, s.io.FailsAt k → k ≤ bytes.length →
    writeAll bytes s = .error (.raise .ioWrite) (s.wroteAll (bytes.take (k - 1))).touchedOut
  | [], s, k, h, hk => absurd h.pos (by simp at hk; omega)
  | b :: bytes, s, 1, h, _ => by
    show (outWrite b >>= fun _ => writeAll bytes) s = _
    have hw : outWrite b s = .error (.raise .ioWrite) s.touchedOut := by rw [outWrite_eq, if_pos h.fails]
    rw [Run.bind_error hw, List.take_zero, State.wroteAll_nil]
  | b :: bytes, s, k + 2, h, hk => by
    show (outWrite b >>= fun _ => writeAll bytes) s = _
    have hw : outWrite b s = .ok () (s.wrote b) := by
      rw [outWrite_eq, h.before 1 le_rfl (by omega)]
      rfl
    have hnext : (s.wrote b).io.FailsAt (k + 1) := by
      refine ⟨by omega, ?_, fun j h1 h2 => ?_⟩
      · rw [← h.fails, show s.io.outAcc + (k + 2) = s.io.outAcc + 1 + (k + 1) by omega]
        rfl
      · rw [← h.before (j + 1) (by omega) (by omega), show s.io.outAcc + (j + 1) = s.io.outAcc + 1 + j by omega]
        rfl
    rw [Run.bind_ok hw, writeAll_fails bytes hnext (by simpa using hk), State.wrote_eq, State.wroteAll_wroteAll]
    rfl

/-- Writing bytes writes the streams alone. -/
def ioFrame : Frame State :=
  ⟨fun s t => t = s.setIo t.io, fun _ => rfl, fun _ _ u h h' => h'.trans (congrArg (·.setIo u.io) h)⟩

theorem writeAll_io (bytes : List Byte) : Run.Keeps ioFrame (writeAll bytes) :=
  .each (outWrite_keeps (fun _ _ => rfl) fun _ _ => rfl) bytes

/-- What comes after written bytes need only agree on states that differ in the streams. -/
theorem writeAll_bind_congr {bytes : List Byte} {f g : Unit → Eng Unit} {s : State}
    (h : ∀ t, t = s.setIo t.io → f () t = g () t) : (writeAll bytes >>= f) s = (writeAll bytes >>= g) s := by
  have hio := writeAll_io bytes s
  rw [Run.bind_apply, Run.bind_apply]
  cases hw : writeAll bytes s with
  | ok a t => rw [hw] at hio; exact h t hio
  | error e t => rfl

/-- The bytes of a context header as the state holds its tables (R233). -/
def State.contextHeaderBytes (s : State) : List Byte :=
  headerBytes s.freq ++ (leBytes 8 s.w.nctx.toNat ++
    s.presentCtxs.flatMap fun c => leBytes 1 c ++ headerBytes (ctxGet s.ctx c).freq)

/-- `WriteContextHeader()` (R233) writes its bytes one after the other. -/
theorem writeContextHeader_eq_writeAll (s : State) : writeContextHeader s = writeAll s.contextHeaderBytes s := by
  have records : ∀ (cs : List Nat) (t : State), t = s.setIo t.io →
      Run.each cs (fun c => do
        memWrite 1 c
        let g ← Run.read (fun s => (ctxGet s.ctx c).freq)
        writeHeader g) t =
      writeAll (cs.flatMap fun c => leBytes 1 c ++ headerBytes (ctxGet s.ctx c).freq) t := by
    intro cs
    induction cs with
    | nil => intro t _; rfl
    | cons c cs ih =>
      intro t ht
      rw [Run.each_cons, List.flatMap_cons, List.append_assoc, writeAll_append, Run.bind_assoc_apply,
        memWrite_eq_writeAll]
      refine writeAll_bind_congr fun u hu => ?_
      have hctx : u.ctx = s.ctx := by rw [hu, ht]; rfl
      rw [Run.bind_assoc_apply, Run.read_bind, hctx, writeHeader_eq_writeAll, writeAll_append]
      refine writeAll_bind_congr fun v hv => ih v ?_
      rw [hv, hu, ht]
      rfl
  show (writeHeader s.freq >>= _) s = _
  rw [State.contextHeaderBytes, writeAll_append, writeHeader_eq_writeAll]
  refine writeAll_bind_congr fun t ht => ?_
  show (memWrite 8 t.w.nctx.toNat >>= _) t = _
  have hw : t.w = s.w := by rw [ht]; rfl
  rw [hw, writeAll_append, memWrite_eq_writeAll]
  refine writeAll_bind_congr fun u hu => ?_
  have hctx : u.ctx = s.ctx := by rw [hu, ht]; rfl
  show Run.each u.presentCtxs _ u = _
  have hp : u.presentCtxs = s.presentCtxs := by unfold State.presentCtxs; rw [hctx]
  rw [hp]
  exact records _ u (by rw [hu, ht]; rfl)

end Sys2Proof.Machine
end

section

namespace Sys2Proof.Machine

/-! ### The first pass of the compressors with a header -/

/-- The first pass over `S` has been made in `s₀` and the header comes next (R203, R230, R300): the bytes are counted;
of the streams the cursor and the count of accesses have moved; the packer holds what it held. -/
structure State.Surveyed (s₀ s : State) (S : List Byte) : Prop where
  phase : s.phase = .hdrWr
  freq : s.freq = countTable S
  total : s.w.total.toNat = S.length
  io : ∃ p n, s.io = { s₀.io with inPos := p, inAcc := n }
  pack : s.w.obits = s₀.w.obits ∧ s.w.ocnt = s₀.w.ocnt

/-- The state after `S` has been counted, wherever the cursor is. -/
abbrev State.tallied (s : State) (S : List Byte) (p : BitVec 64) (n : Nat) : State :=
  ((s.setIo { s.io with inPos := p, inAcc := n }).setFreq (countTable S)).setW
    { s.w with total := BitVec.ofNat 40 S.length }

theorem toNat_total {S : List Byte} (h : S.length ≤ Config.inLenMax) : (BitVec.ofNat 40 S.length).toNat = S.length := by
  have hmax : Config.inLenMax = 2 ^ 32 - 1 := rfl
  rw [BitVec.toNat_ofNat]
  omega

/-- `COUNT`'s block (R130) over an input that is not too long. -/
theorem countBlock_tallied {s : State} (hf : s.io.failIn = []) (hs : s.io.Sound)
    (hl : s.io.rest.length ≤ Config.inLenMax) : ∃ p n, countBlock s = .ok () (s.tallied s.io.rest p n) := by
  refine ⟨s.io.inPos + BitVec.ofNat 64 s.io.rest.length, s.io.inAcc + s.io.rest.length + 1,
    (countBlock_ok hf hs hl).1.trans ?_⟩
  have htotal : (0 : BitVec 40) + BitVec.ofNat 40 s.io.rest.length = BitVec.ofNat 40 s.io.rest.length :=
    BitVec.zero_add _
  rw [State.tallied, ← htotal]
  rfl

theorem onMain_ok {α : Type} {m : Run TreeMem α} {s : State} {a : α} {t : TreeMem} (h : m s.main = .ok a t) :
    onMain m s = .ok a (s.setMain t) := by rw [onMain, h]

/-- `DIST` and `NDIST` written. -/
abbrev State.distributed (s : State) (x : Table DistEntry) (n : BitVec 9) : State :=
  (s.setDist x).setW { s.w with ndist := n }

/-- `withDist` behind `DIST` (R132): the builder gets the distribution of the counts. -/
theorem distBlock_withDist {b : Builder} {s : State} {u : TreeMem} (hb : b (distribution s.freq) s.main = .ok () u) :
    ∃ x n, distBlock s = .ok () (s.distributed x n) ∧
      withDist b (s.distributed x n) = .ok () ((s.distributed x n).setMain u) := by
  obtain ⟨t, ht, hl⟩ := distBlock_distList s
  refine ⟨_, _, rfl, ?_⟩
  cases ht
  refine onMain_ok ?_
  rw [hl]
  exact hb

/-- The second pass of `StaticCompress` (R203). -/
def staticSecondPass : Eng Unit := do
  setPhase .enc
  inRewind
  encodePayload
  setPhase .term
  padAndFlush

/-- `StaticCompress` (R203): the first pass leaves the builder's model of the counts, then comes the header. -/
theorem staticCompress_survey (m : StaticMethod) {s : State} (hf : s.io.failIn = []) (hs : s.io.Sound)
    (hl : s.io.rest.length ≤ Config.inLenMax) : ∃ u, s.Surveyed u s.io.rest ∧
      u.main.Models (m.shape (distribution (countTable s.io.rest))) ∧
      staticCompress m.block s = (writeAll (headerBytes (countTable s.io.rest)) >>= fun _ => staticSecondPass) u := by
  obtain ⟨p, k, hcount⟩ := countBlock_tallied (s := s.setPhase .scan1) hf hs hl
  rw [State.setPhase_io] at hcount
  obtain ⟨v, hv, hmodel⟩ := m.block_distribution (countTable s.io.rest) s.main
  obtain ⟨x, n, hdist, hbuild⟩ := distBlock_withDist
    (s := ((s.setPhase .scan1).tallied s.io.rest p k).setPhase .build) (b := m.block) hv
  refine ⟨(((((s.setPhase .scan1).tallied s.io.rest p k).setPhase .build).distributed x n).setMain v).setPhase .hdrWr,
    ⟨rfl, rfl, toNat_total hl, ⟨p, k, rfl⟩, rfl, rfl⟩, hmodel, ?_⟩
  rw [staticCompress, setPhase_bind, Run.bind_ok hcount, setPhase_bind, Run.bind_ok hdist, Run.bind_ok hbuild,
    setPhase_bind, Run.read_bind, writeHeader_eq_writeAll]
  rfl

/-- The second pass of `CMP.ARITH` (R300); an empty input has none. -/
def arithPayload : Eng Unit := do
  let total ← Run.read (fun s => s.w.total)
  if total = 0 then pure () else arithSecondPass

/-- The range table of `S` stands in `RANGE` (R134). -/
structure State.Ranged (s : State) (S : List Byte) : Prop where
  table : s.rangeList = rangeTable (distribution (countTable S))
  rt : s.w.rt.toNat = rangeTotal (distribution (countTable S))
  nrange : s.w.nrange.toNat = (rangeTable (distribution (countTable S))).length

theorem arithFits_length {S : List Byte} (h : arithFits S) : S.length ≤ Config.inLenMax :=
  (Nat.le_add_right _ _).trans (h.trans (by decide))

theorem arithFits_total {S : List Byte} (h : arithFits S) :
    rangeTotal (distribution (countTable S)) ≤ Config.arithTMax := by
  have hmax : Config.inLenMax = 2 ^ 32 - 1 := rfl
  have hlen := arithFits_length h
  unfold rangeTotal
  rw [cntSum_distribution, countTable_sum (by omega)]
  exact h

/-- `CMP.ARITH` (R300): the first pass leaves the range table of the counts, then comes the header. -/
theorem arithCompress_survey {s : State} (hf : s.io.failIn = []) (hs : s.io.Sound) (hfits : arithFits s.io.rest) :
    ∃ u, s.Surveyed u s.io.rest ∧ u.Ranged s.io.rest ∧
      arithCompress s = (writeAll (headerBytes (countTable s.io.rest)) >>= fun _ => arithPayload) u := by
  obtain ⟨p, k, hcount⟩ := countBlock_tallied (s := s.setPhase .scan1) hf hs (arithFits_length hfits)
  rw [State.setPhase_io] at hcount
  obtain ⟨v, hv, _, htable, hrt, hn, hsame⟩ := rangesBlock_ok
    (((s.setPhase .scan1).tallied s.io.rest p k).setPhase .build) (arithFits_total hfits)
  refine ⟨v.setPhase .hdrWr, ?_, ⟨htable, hrt, hn⟩, ?_⟩
  · rw [hsame]
    exact ⟨rfl, rfl, toNat_total (arithFits_length hfits), ⟨p, k, rfl⟩, rfl, rfl⟩
  · have hfreq : v.freq = countTable s.io.rest := by rw [hsame]; rfl
    rw [arithCompress, setPhase_bind, Run.bind_ok hcount, setPhase_bind, Run.bind_ok hv, setPhase_bind, Run.read_bind,
      State.setPhase_freq, hfreq, writeHeader_eq_writeAll]
    rfl

end Sys2Proof.Machine
end

section

namespace Sys2Proof.Machine

/-! ### The first pass of `CMP.CONTEXT` -/

theorem successors_append (c : Nat) (b : Byte) : ∀ D : List Byte, successors c (D ++ [b]) =
    successors c D ++ if D.getLast?.map BitVec.toNat = some c then [b] else []
  | [] => rfl
  | [a] => by
    simp only [List.singleton_append, successors, List.getLast?_singleton, Option.map_some, Option.some.injEq,
      List.nil_append]
  | a :: a' :: D => by
    have ih := successors_append c b (a' :: D)
    simp only [List.cons_append, successors, List.getLast?_cons_cons] at ih ⊢
    split
    · rw [ih, List.cons_append]
    · exact ih

/-- What `CountPairs()` does not touch. -/
def State.unpaired (s : State) : State :=
  (((s.setIo { s.io with inPos := 0, inAcc := 0 }).setFreq []).setCtx []).setW
    { s.w with total := 0, prev := 0, nctx := 0 }

/-- The bytes `D` have been counted, alone and by the byte before (R231). -/
structure State.Paired (s₀ s : State) (D : List Byte) : Prop where
  freq : s.freq = countTable D
  total : s.w.total = BitVec.ofNat 40 D.length
  prev : s.w.prev.toNat = (D.getLast?.map BitVec.toNat).getD Config.prevNone
  entry : ∀ c, c < 256 → (ctxGet s.ctx c).present = decide (successors c D ≠ []) ∧
    (ctxGet s.ctx c).freq = countTable (successors c D)
  same : s.unpaired = s₀.unpaired

theorem State.unpaired_io {s t : State} (h : t.unpaired = s.unpaired) :
    ∃ p n, t.io = { s.io with inPos := p, inAcc := n } := by
  have hio := congrArg State.io h
  refine ⟨t.io.inPos, t.io.inAcc, ?_⟩
  have := congrArg (fun x : Streams => { x with inPos := t.io.inPos, inAcc := t.io.inAcc }) hio
  exact this

theorem countTable_append (D : List Byte) (b : Byte) : countTable (D ++ [b]) = freqBump (countTable D) b.toNat := by
  simp only [countTable, List.foldl_append, List.foldl_cons, List.foldl_nil]

/-- `CTX[PREV]` counts the byte (R231). -/
abbrev CtxEntry.bump (b : Byte) (e : CtxEntry) : CtxEntry := { e with freq := freqBump e.freq b.toNat, present := true }

/-- The contexts after one more byte: that of the byte before, if there is one, has counted it. -/
def countSuccessor (ctx : Table CtxEntry) (prev : Nat) (b : Byte) : Table CtxEntry :=
  if prev = Config.prevNone then ctx else ctxSet ctx prev ((ctxGet ctx prev).bump b)

/-- One round of the loop of `CountPairs()`. -/
theorem countPairsLoop_step {s : State} {b : Byte} {l : List Byte} (hf : s.io.failIn = []) (hr : s.io.rest = b :: l)
    (ht : s.w.total.toNat < Config.inLenMax) (n : Nat) : countPairsLoop (n + 1) s =
      countPairsLoop n (((s.advanced.setFreq (freqBump s.freq b.toNat)).setCtx
        (countSuccessor s.ctx s.w.prev.toNat b)).setW { s.w with total := s.w.total + 1, prev := b.setWidth 9 }) := by
  rw [countPairsLoop, Run.bind_ok (inRead_some hf hr)]
  show (Run.require (decide (s.w.total.toNat < Config.inLenMax)) .countOverflow >>= _) s.advanced = _
  rw [decide_eq_true ht]
  by_cases hp : s.w.prev.toNat = Config.prevNone
  · have hctx : countSuccessor s.ctx s.w.prev.toNat b = s.ctx := if_pos hp
    rw [hctx]
    show (if s.w.prev.toNat = Config.prevNone then _ else _ : Eng Unit) _ = _
    rw [if_pos hp]
    rfl
  · have hctx : countSuccessor s.ctx s.w.prev.toNat b =
        ctxSet s.ctx s.w.prev.toNat ((ctxGet s.ctx s.w.prev.toNat).bump b) := if_neg hp
    rw [hctx]
    show (if s.w.prev.toNat = Config.prevNone then _ else _ : Eng Unit) _ = _
    rw [if_neg hp]
    rfl

theorem prevNone_eq : Config.prevNone = 256 := rfl

/-- The contexts of the bytes counted, after one more. -/
theorem countSuccessor_entry {ctx : Table CtxEntry} {D : List Byte} (b : Byte)
    (h : ∀ c, c < 256 → (ctxGet ctx c).present = decide (successors c D ≠ []) ∧
      (ctxGet ctx c).freq = countTable (successors c D)) (c : Nat) (hc : c < 256) :
    let e := ctxGet (countSuccessor ctx ((D.getLast?.map BitVec.toNat).getD Config.prevNone) b) c
    e.present = decide (successors c (D ++ [b]) ≠ []) ∧ e.freq = countTable (successors c (D ++ [b])) := by
  rw [successors_append]
  cases hl : D.getLast? with
  | none => simpa [countSuccessor] using h c hc
  | some a =>
    have hne : a.toNat ≠ Config.prevNone := by have := a.isLt; rw [prevNone_eq]; omega
    simp only [Option.map_some, Option.getD_some, Option.some.injEq, countSuccessor, if_neg hne, ctxGet_ctxSet]
    by_cases ha : a.toNat = c
    · subst ha
      rw [if_pos rfl, if_pos rfl, countTable_append, ← (h _ hc).2]
      simp
    · rw [if_neg (Ne.symm ha), if_neg ha, List.append_nil]
      exact h c hc

/-- The loop of `CountPairs()` (R231). -/
theorem countPairsLoop_ok {s₀ : State} : ∀ (A : List Byte) {D : List Byte} {s : State}, s₀.Paired s D →
    s.io.failIn = [] → s.io.Sound → s.io.rest = A → D.length + A.length ≤ Config.inLenMax →
    ∃ t, countPairsLoop (A.length + 1) s = .ok () t ∧ s₀.Paired t (D ++ A)
  | [], D, s, h, hf, _, hr, _ => by
    refine ⟨s.touched, ?_, ?_⟩
    · rw [List.length_nil, countPairsLoop, Run.bind_ok (inRead_end hf hr)]
      rfl
    · rw [List.append_nil]
      exact ⟨h.freq, h.total, h.prev, h.entry, h.same⟩
  | b :: A, D, s, h, hf, hs, hr, hl => by
    have hmax : Config.inLenMax = 2 ^ 32 - 1 := rfl
    rw [List.length_cons] at hl
    have htot : s.w.total.toNat < Config.inLenMax := by rw [h.total, toNat_total (by omega)]; omega
    rw [List.length_cons, countPairsLoop_step hf hr htot]
    have hstep : s₀.Paired (((s.advanced.setFreq (freqBump s.freq b.toNat)).setCtx
        (countSuccessor s.ctx s.w.prev.toNat b)).setW { s.w with total := s.w.total + 1, prev := b.setWidth 9 })
        (D ++ [b]) := by
      refine ⟨?_, ?_, ?_, fun c hc => ?_, h.same⟩
      · rw [countTable_append, ← h.freq]; rfl
      · show s.w.total + 1 = _
        rw [h.total, List.length_append, BitVec.ofNat_add]; rfl
      · show (b.setWidth 9).toNat = _
        have := b.isLt
        rw [List.getLast?_concat, BitVec.toNat_setWidth]
        show _ = b.toNat
        omega
      · show (ctxGet (countSuccessor s.ctx s.w.prev.toNat b) c).present = _ ∧ _
        rw [h.prev]
        exact countSuccessor_entry b h.entry c hc
    obtain ⟨t, ht, hp⟩ := countPairsLoop_ok A hstep hf (State.advanced_sound hs hr) (State.advanced_rest hs hr)
      (by rw [List.length_append, List.length_singleton]; omega)
    exact ⟨t, ht, by rwa [List.append_assoc] at hp⟩

theorem State.Paired.presentCtxs {s₀ s : State} {D : List Byte} (h : s₀.Paired s D) : s.presentCtxs = contextsOf D :=
  List.filter_congr fun c hc => (h.entry c (List.mem_range.1 hc)).1

/-- Each entry of `CTX` rewritten, one after the other: an entry named reads as rewritten. -/
theorem eachCtx_ok (f : CtxEntry → CtxEntry) : ∀ (cs : List Nat) (s : State), cs.Nodup → ∃ x,
    Run.each cs (fun c => updateCtx c f) s = .ok () (s.setCtx x) ∧
    (∀ c ∈ cs, ctxGet x c = f (ctxGet s.ctx c)) ∧ ∀ c, c ∉ cs → ctxGet x c = ctxGet s.ctx c
  | [], s, _ => ⟨s.ctx, rfl, by simp, fun _ _ => rfl⟩
  | c :: cs, s, hn => by
    obtain ⟨hc, hn⟩ := List.nodup_cons.1 hn
    obtain ⟨x, hx, hin, hout⟩ := eachCtx_ok f cs (s.setCtx (ctxSet s.ctx c (f (ctxGet s.ctx c)))) hn
    have hget : ∀ c', ctxGet (ctxSet s.ctx c (f (ctxGet s.ctx c))) c' =
        if c' = c then f (ctxGet s.ctx c) else ctxGet s.ctx c' := fun c' => ctxGet_ctxSet _ _ _ _
    refine ⟨x, hx, fun c' hc' => ?_, fun c' hc' => ?_⟩
    · rcases List.mem_cons.1 hc' with rfl | hmem
      · rw [hout c' hc, State.setCtx_ctx, hget, if_pos rfl]
      · rw [hin c' hmem, State.setCtx_ctx, hget, if_neg (by rintro rfl; exact hc hmem)]
    · obtain ⟨hne, hc'⟩ := not_or.1 (List.mem_cons.not.1 hc')
      rw [hout c' hc', State.setCtx_ctx, hget, if_neg hne]

/-- `CountPairs()` (R231) over an input that is not too long. -/
theorem countPairs_ok {s : State} (hf : s.io.failIn = []) (hs : s.io.Sound)
    (hl : s.io.rest.length ≤ Config.inLenMax) : ∃ t, countPairs s = .ok () t ∧ s.Paired t s.io.rest ∧
      t.w.nctx.toNat = (contextsOf s.io.rest).length := by
  obtain ⟨x, hx, hin, _⟩ := eachCtx_ok (fun e => { e with present := false, freq := [] }) (List.range 256)
    (s.setFreq []) List.nodup_range
  have hstart : s.Paired (((s.setFreq []).setCtx x).setW { s.w with total := 0, prev := 256 }) [] := by
    refine ⟨rfl, rfl, rfl, fun c hc => ?_, rfl⟩
    rw [State.setW_ctx, State.setCtx_ctx, hin c (List.mem_range.2 hc)]
    exact ⟨rfl, rfl⟩
  obtain ⟨t, ht, hp⟩ := countPairsLoop_ok s.io.rest hstart hf hs rfl (by simpa using hl)
  rw [List.nil_append] at hp
  refine ⟨t.setW { t.w with nctx := BitVec.ofNat 9 t.presentCtxs.length }, ?_,
    ⟨hp.freq, hp.total, hp.prev, hp.entry, hp.same⟩, ?_⟩
  · rw [countPairs, Run.update_bind, Run.bind_ok hx, setW_bind, Run.read_bind]
    exact Run.bind_ok ht
  · have hlen : (contextsOf s.io.rest).length ≤ 256 := (List.length_filter_le _ _).trans (List.length_range).le
    show (BitVec.ofNat 9 t.presentCtxs.length).toNat = _
    rw [hp.presentCtxs, BitVec.toNat_ofNat]
    omega

/-! ### `BuildAllModels()` -/

/-- What `BuildAllModels()` does not touch. -/
def State.unbuilt (s : State) : State :=
  (((s.setDist []).setMain TreeMem.empty).setCtx []).setW { s.w with ndist := 0 }

/-- Every present table of `s` has its Huffman model in `t` (R232). -/
structure State.Modelled (s t : State) : Prop where
  main : t.main.Models (huffmanOf s.freq)
  present : ∀ c, (ctxGet t.ctx c).present = (ctxGet s.ctx c).present
  freq : ∀ c, (ctxGet t.ctx c).freq = (ctxGet s.ctx c).freq
  model : ∀ c, c < 256 → (ctxGet s.ctx c).present = true →
    (ctxGet t.ctx c).model.Models (huffmanOf (ctxGet s.ctx c).freq)
  same : t.unbuilt = s.unbuilt

/-- One model of `BuildAllModels()`. -/
def buildCtxModel (c : Nat) : Eng Unit := do
  let f ← Run.read (fun s => (ctxGet s.ctx c).freq)
  onCtxModel c (huffmanBlock (distribution f))

theorem buildCtxModel_ok (c : Nat) (s : State) : ∃ u, u.Models (huffmanOf (ctxGet s.ctx c).freq) ∧
    buildCtxModel c s = .ok () (s.setCtx (ctxSet s.ctx c { ctxGet s.ctx c with model := u })) := by
  obtain ⟨u, hu, hm⟩ := StaticMethod.huffman.block_distribution (ctxGet s.ctx c).freq (ctxGet s.ctx c).model
  refine ⟨u, hm, ?_⟩
  show onCtxModel c (StaticMethod.huffman.block (distribution (ctxGet s.ctx c).freq)) s = _
  rw [onCtxModel, hu]

theorem buildCtxModels_ok : ∀ (cs : List Nat) (s : State), ∃ x, Run.each cs buildCtxModel s = .ok () (s.setCtx x) ∧
    (∀ c, (ctxGet x c).present = (ctxGet s.ctx c).present ∧ (ctxGet x c).freq = (ctxGet s.ctx c).freq) ∧
    (∀ c, c ∉ cs → ctxGet x c = ctxGet s.ctx c) ∧
    ∀ c ∈ cs, (ctxGet x c).model.Models (huffmanOf (ctxGet s.ctx c).freq)
  | [], s => ⟨s.ctx, rfl, fun _ => ⟨rfl, rfl⟩, fun _ _ => rfl, by simp⟩
  | c :: cs, s => by
    obtain ⟨u, hm, hu⟩ := buildCtxModel_ok c s
    obtain ⟨x, hx, hsame, hout, hin⟩ := buildCtxModels_ok cs
      (s.setCtx (ctxSet s.ctx c { ctxGet s.ctx c with model := u }))
    have hget : ∀ c', ctxGet (ctxSet s.ctx c { ctxGet s.ctx c with model := u }) c' =
        if c' = c then { ctxGet s.ctx c with model := u } else ctxGet s.ctx c' := fun c' => ctxGet_ctxSet _ _ _ _
    simp only [State.setCtx_ctx, hget] at hsame hout hin
    refine ⟨x, by rw [Run.each_cons, Run.bind_ok hu, hx]; rfl, fun c' => ?_, fun c' hc' => ?_, fun c' hc' => ?_⟩
    · by_cases h : c' = c
      · subst h; simpa using hsame c'
      · simpa [h] using hsame c'
    · obtain ⟨hne, hc'⟩ := not_or.1 (List.mem_cons.not.1 hc')
      rw [hout c' hc', if_neg hne]
    · by_cases hmem : c' ∈ cs
      · have := hin c' hmem
        by_cases h : c' = c
        · subst h; simpa using this
        · simpa [h] using this
      · obtain rfl := (List.mem_cons.1 hc').resolve_right hmem
        rw [hout c' hmem, if_pos rfl]
        exact hm

/-- `BuildAllModels()` (R232). -/
theorem buildAllModels_ok (s : State) : ∃ t, buildAllModels s = .ok () t ∧ s.Modelled t := by
  obtain ⟨v, hv, hm⟩ := StaticMethod.huffman.block_distribution s.freq s.main
  obtain ⟨x, n, hdist, hbuild⟩ := distBlock_withDist (b := huffmanBlock) hv
  obtain ⟨y, hy, hsame, _, hin⟩ := buildCtxModels_ok s.presentCtxs ((s.distributed x n).setMain v)
  refine ⟨((s.distributed x n).setMain v).setCtx y, ?_, hm, fun c => (hsame c).1, fun c => (hsame c).2,
    fun c hc hp => hin c (List.mem_filter.2 ⟨List.mem_range.2 hc, hp⟩), rfl⟩
  rw [buildAllModels, Run.bind_ok hdist, Run.bind_ok hbuild]
  exact hy

/-- The second pass of `CMP.CONTEXT` (R230). -/
def contextSecondPass : Eng Unit := do
  setPhase .enc
  inRewind
  encodeContextPayload
  setPhase .term
  padAndFlush

/-- The models of `S` stand in the engine (R232). -/
structure State.ContextModels (s : State) (S : List Byte) : Prop where
  main : s.main.Models (huffmanOf (countTable S))
  present : ∀ c, c < 256 → (ctxGet s.ctx c).present = decide (successors c S ≠ [])
  model : ∀ c, c < 256 → successors c S ≠ [] →
    (ctxGet s.ctx c).model.Models (huffmanOf (countTable (successors c S)))

theorem leBytes_one (c : Nat) : leBytes 1 c = [BitVec.ofNat 8 c] := by
  show [BitVec.ofNat 8 (c % 256)] = _
  congr 1
  apply BitVec.eq_of_toNat_eq
  rw [BitVec.toNat_ofNat, BitVec.toNat_ofNat]
  omega

/-- The context header's bytes after `CountPairs()` (R233). -/
theorem contextHeaderBytes_eq {s : State} {S : List Byte} (hf : s.freq = countTable S)
    (hn : s.w.nctx.toNat = (contextsOf S).length) (he : ∀ c, c < 256 →
      (ctxGet s.ctx c).present = decide (successors c S ≠ []) ∧ (ctxGet s.ctx c).freq = countTable (successors c S)) :
    s.contextHeaderBytes = contextHeaderOf S := by
  have hp : s.presentCtxs = contextsOf S := List.filter_congr fun c hc => (he c (List.mem_range.1 hc)).1
  rw [State.contextHeaderBytes, contextHeaderOf, hf, hn, hp, List.append_assoc]
  congr 2
  refine List.flatMap_congr fun c hc => ?_
  rw [leBytes_one, (he c (List.mem_range.1 (List.mem_filter.1 hc).1)).2]
  rfl

/-- `CMP.CONTEXT` (R230): the first pass leaves the models of the counts, then comes the header. -/
theorem contextCompress_survey {s : State} (hf : s.io.failIn = []) (hs : s.io.Sound)
    (hl : s.io.rest.length ≤ Config.inLenMax) : ∃ u, s.Surveyed u s.io.rest ∧ u.ContextModels s.io.rest ∧
      contextCompress s = (writeAll (contextHeaderOf s.io.rest) >>= fun _ => contextSecondPass) u := by
  obtain ⟨t, ht, hp, hn⟩ := countPairs_ok (s := s.setPhase .scan1) hf hs hl
  rw [State.setPhase_io] at hp hn
  obtain ⟨v, hv, hm⟩ := buildAllModels_ok (t.setPhase .build)
  have hfreq : v.freq = countTable s.io.rest := (congrArg State.freq hm.same : _).trans hp.freq
  have hw : ({ v.w with ndist := 0 } : Working) = { t.w with ndist := 0 } := congrArg State.w hm.same
  have hpw : ({ t.w with total := 0, prev := 0, nctx := 0 } : Working) =
      { s.w with total := 0, prev := 0, nctx := 0 } :=
    congrArg State.w hp.same
  obtain ⟨p, n, hio⟩ := State.unpaired_io hp.same
  have hentry : ∀ c, c < 256 → (ctxGet v.ctx c).present = decide (successors c s.io.rest ≠ []) ∧
      (ctxGet v.ctx c).freq = countTable (successors c s.io.rest) := fun c hc =>
    ⟨(hm.present c).trans (hp.entry c hc).1, (hm.freq c).trans (hp.entry c hc).2⟩
  refine ⟨v.setPhase .hdrWr, ⟨rfl, hfreq, ?_, ⟨p, n, (congrArg State.io hm.same : _).trans hio⟩, ?_, ?_⟩,
    ⟨?_, fun c hc => (hentry c hc).1, fun c hc hne => ?_⟩, ?_⟩
  · have htotal : v.w.total = t.w.total := (congrArg Working.total hw :)
    rw [State.setPhase_w, htotal, hp.total, toNat_total hl]
  · exact (congrArg Working.obits hw :).trans (congrArg Working.obits hpw :)
  · exact (congrArg Working.ocnt hw :).trans (congrArg Working.ocnt hpw :)
  · rw [← hp.freq]; exact hm.main
  · rw [← (hp.entry c hc).2]
    exact hm.model c hc ((hp.entry c hc).1.trans (decide_eq_true hne))
  · have hnctx : v.w.nctx = t.w.nctx := (congrArg Working.nctx hw :)
    rw [contextCompress, setPhase_bind, Run.bind_ok ht, setPhase_bind, Run.bind_ok hv, setPhase_bind, Run.bind_apply,
      writeContextHeader_eq_writeAll, contextHeaderBytes_eq (s := v.setPhase .hdrWr) hfreq
        ((congrArg BitVec.toNat hnctx).trans hn) hentry, Run.bind_apply]
    rfl

end Sys2Proof.Machine
end

section

namespace Sys2Proof.Machine

/-! ### A failing write in the header -/

/-- The premise of the statement, at the start of a stream command: its ordinals begin at 1 (R68). -/
theorem failsAt_streamStart {s : State} {k : Nat} (h1 : 1 ≤ k) (hk : k ∈ s.io.failOut)
    (hmin : ∀ j ∈ s.io.failOut, 1 ≤ j → k ≤ j) : s.streamStart.io.FailsAt k := by
  refine ⟨h1, ?_, fun j hj1 hjk => ?_⟩
  · show s.io.failOut.contains (0 + k) = true
    rw [Nat.zero_add]
    exact List.contains_iff_mem.2 hk
  · show s.io.failOut.contains (0 + j) = false
    rw [Nat.zero_add, ← Bool.not_eq_true, List.contains_iff_mem]
    exact fun hj => absurd (hmin j hj hj1) (by omega)

/-- A compressor whose first pass is followed by a header, the `k`-th write of which fails (R65, R350). -/
theorem header_write_fails {i : Instr} (hi : i.cmdClass = .stream) {s u : State} {S header : List Byte} {k : Nat}
    {pass : Unit → Eng Unit} (hs : s.Ready) (hk : s.streamStart.io.FailsAt k) (hu : s.streamStart.Surveyed u S)
    (hrun : Instr.block i s.streamStart = (writeAll header >>= pass) u) (hlen : k ≤ header.length) :
    ∃ t, exec i s = .next t ∧ t.Trapped .ioWrite .hdrWr ∧ s.Appended t (header.take (k - 1)) := by
  obtain ⟨p, n, hio⟩ := hu.io
  have hfail : u.io.FailsAt k := by rw [hio]; exact ⟨hk.pos, hk.fails, hk.before⟩
  rw [Run.bind_error (writeAll_fails header hfail hlen)] at hrun
  obtain ⟨hnext, htrap⟩ := exec_stream_raise hi hs hrun
  refine ⟨_, hnext, ⟨htrap.status, hu.phase, rfl⟩, ?_⟩
  exact (u.wroteAll_appended (header.take (k - 1))).congr (by rw [hio]; exact ⟨rfl, rfl⟩) ⟨rfl, rfl⟩

/-- Settles O48: in each of the five compressors the header follows the first pass, and its failing byte ends it. -/
theorem headerWriteFault : Obligations.HeaderWriteFault := by
  intro s k hready hsound hin hlen h1 hk hmin
  have hfail := failsAt_streamStart h1 hk hmin
  have static : ∀ m : StaticMethod, k ≤ 1024 → ∃ t, exec m.cmp s = .next t ∧ t.Trapped .ioWrite .hdrWr ∧
      s.Appended t ((headerBytes (countTable s.io.rest)).take (k - 1)) := fun m hk => by
    obtain ⟨u, hu, _, hrun⟩ := staticCompress_survey m (s := s.streamStart) hin hsound hlen
    rw [← m.block_cmp] at hrun
    exact header_write_fails m.cmp_stream hready hfail hu hrun (by rwa [headerBytes_length])
  refine ⟨fun i hi hk hfits => ?_, fun hk => ?_⟩
  · simp only [List.mem_cons, List.not_mem_nil, or_false] at hi
    obtain rfl | rfl | rfl | rfl := hi
    · exact static .shannon hk
    · exact static .fano hk
    · exact static .huffman hk
    · obtain ⟨u, hu, _, hrun⟩ := arithCompress_survey (s := s.streamStart) hin hsound (hfits rfl)
      exact header_write_fails (i := .cmpArith) rfl hready hfail hu hrun (by rwa [headerBytes_length])
  · obtain ⟨u, hu, _, hrun⟩ := contextCompress_survey (s := s.streamStart) hin hsound hlen
    exact header_write_fails (i := .cmpContext) rfl hready hfail hu hrun hk

end Sys2Proof.Machine
end

section

namespace Sys2Proof.Machine

/-! ### A second pass over other bytes -/

/-- A loop that gives each byte of the input to `put` and ends with the input. -/
structure Feeds (loop : Nat → Eng Unit) (put : Byte → Eng Unit) : Prop where
  atEnd : ∀ (n : Nat) {s t : State}, inRead s = .ok none t → loop (n + 1) s = .ok () t
  atByte : ∀ (n : Nat) {s t : State} {b : Byte}, inRead s = .ok (some b) t →
    loop (n + 1) s = (put b >>= fun _ => loop n) t

/-- Each byte of a list is good where it stands, `done` being the bytes before it. -/
def AllGood (good : List Byte → Byte → Prop) : List Byte → List Byte → Prop
  | _, [] => True
  | done, b :: S => good done b ∧ AllGood good (done ++ [b]) S

/-- What the input stream gives next. -/
def Streams.source (x : Streams) : List Byte × BitVec 64 × List Nat := (x.input, x.inPos, x.failIn)

theorem Streams.rest_of_source {x y : Streams} (h : x.source = y.source) : x.rest = y.rest := by
  have h1 : x.input = y.input := congrArg Prod.fst h
  have h2 : x.inPos = y.inPos := congrArg (fun p => p.2.1) h
  rw [Streams.rest, Streams.rest, h1, h2]

/-- While bytes are left the cursor lies in the input. -/
theorem Streams.sound_of_cons {x : Streams} (hl : x.input.length < 2 ^ 64) {b : Byte} {l : List Byte}
    (h : x.rest = b :: l) : x.Sound := by
  obtain ⟨hlt, _⟩ := List.getElem?_eq_some_iff.1 (Streams.rest_cons h)
  exact ⟨hl, hlt.le⟩

/-- A loop over bytes, where `put` goes on with a good byte and raises IO_READ at one that is not: `I` is what holds
after the bytes done. -/
theorem Feeds.run {loop : Nat → Eng Unit} {put : Byte → Eng Unit} (hloop : Feeds loop put)
    {I : List Byte → State → Prop} {good : List Byte → Byte → Prop}
    (hgood : ∀ done b s, I done s → good done b → ∃ t, put b s.advanced = .ok () t ∧ I (done ++ [b]) t ∧
      t.io.source = s.advanced.io.source)
    (hbad : ∀ done b s, I done s → ¬good done b → ∃ t, put b s.advanced = .error (.raise .ioRead) t) :
    ∀ (S done : List Byte) {s : State}, I done s → s.io.failIn = [] → s.io.input.length < 2 ^ 64 → s.io.rest = S →
    (AllGood good done S → ∃ t, loop (S.length + 1) s = .ok () t.touched ∧ I (done ++ S) t) ∧
    (¬AllGood good done S → ∃ t, loop (S.length + 1) s = .error (.raise .ioRead) t)
  | [], done, s, hI, hf, _, hr =>
    ⟨fun _ => ⟨s, hloop.atEnd 0 (inRead_end hf hr), by rwa [List.append_nil]⟩, fun h => absurd trivial h⟩
  | b :: S, done, s, hI, hf, hl, hr => by
    have hs := Streams.sound_of_cons hl hr
    have hbyte := hloop.atByte (S.length + 1) (inRead_some hf hr)
    rw [List.length_cons, hbyte]
    by_cases hb : good done b
    · obtain ⟨t, ht, hIt, hsrc⟩ := hgood done b s hI hb
      have hinput : t.io.input = s.io.input := congrArg Prod.fst hsrc
      have hfail : t.io.failIn = s.io.failIn := congrArg (fun p => p.2.2) hsrc
      obtain ⟨hall, hnot⟩ := Feeds.run hloop hgood hbad S (done ++ [b]) hIt (hfail.trans hf) (by rwa [hinput])
        ((Streams.rest_of_source hsrc).trans (State.advanced_rest hs hr))
      rw [Run.bind_ok ht]
      refine ⟨fun h => ?_, fun h => hnot fun h' => h ⟨hb, h'⟩⟩
      obtain ⟨u, hu, hIu⟩ := hall h.2
      exact ⟨u, hu, by rwa [List.append_assoc] at hIu⟩
    · obtain ⟨t, ht⟩ := hbad done b s hI hb
      exact ⟨fun h => absurd h.1 hb, fun _ => ⟨t, Run.bind_error ht⟩⟩

/-- A byte that the first pass over `S` had, while fewer bytes are done than it had. -/
def seenBefore (S done : List Byte) (b : Byte) : Prop := b ∈ S ∧ done.length < S.length

theorem allGood_seenBefore {S : List Byte} : ∀ {T done : List Byte}, done.length ≤ S.length →
    (AllGood (seenBefore S) done T ↔ (∀ x ∈ T, x ∈ S) ∧ done.length + T.length ≤ S.length)
  | [], done, h => by simp [AllGood, h]
  | b :: T, done, _ => by
    by_cases hd : done.length < S.length
    · have ih := allGood_seenBefore (S := S) (T := T) (done := done ++ [b]) (by simpa using hd)
      rw [AllGood, ih, seenBefore, List.length_append, List.length_singleton, List.length_cons, List.forall_mem_cons]
      constructor
      · rintro ⟨⟨hb, _⟩, hT, hle⟩
        exact ⟨⟨hb, hT⟩, by omega⟩
      · rintro ⟨⟨hb, hT⟩, hle⟩
        exact ⟨⟨hb, hd⟩, hT, by omega⟩
    · constructor
      · exact fun h => absurd h.1.2 hd
      · rintro ⟨_, hle⟩
        rw [List.length_cons] at hle
        omega

/-- `requireAllSeen` (R205). -/
theorem requireAllSeen_eq (s : State) : requireAllSeen s =
    if s.w.nsym = s.w.total then .ok () s else .error (.raise .ioRead) s := by
  show Run.require (s.w.nsym == s.w.total) .ioRead s = _
  by_cases h : s.w.nsym = s.w.total
  · rw [if_pos h, beq_iff_eq.2 h]; rfl
  · rw [if_neg h, beq_eq_false_iff_ne.2 h]; rfl

/-- A payload: a loop over the bytes of the second pass, then the check that they were as many as the first pass had. -/
def payloadOf (loop : Nat → Eng Unit) : Eng Unit := do
  let bound ← Run.read State.readBound
  loop bound
  requireAllSeen

/-- The payload over the bytes `T` after a first pass over `S`: it ends where `T` differs in none of the ways that
`put` and the final check see, and else raises IO_READ (R205, R207, R390). -/
theorem payloadOf_run {loop : Nat → Eng Unit} {put : Byte → Eng Unit} (hloop : Feeds loop put)
    {I : List Byte → State → Prop} {good : List Byte → Byte → Prop}
    (hgood : ∀ done b s, I done s → good done b → ∃ t, put b s.advanced = .ok () t ∧ I (done ++ [b]) t ∧
      t.io.source = s.advanced.io.source)
    (hbad : ∀ done b s, I done s → ¬good done b → ∃ t, put b s.advanced = .error (.raise .ioRead) t)
    {S T : List Byte} (hcount : ∀ done s, I done s → s.w.nsym.toNat = done.length ∧ s.w.total.toNat = S.length)
    {s : State} (hI : I [] s) (hf : s.io.failIn = []) (hl : s.io.input.length < 2 ^ 64) (hr : s.io.rest = T) :
    (T.length = S.length → AllGood good [] T → ∃ t, payloadOf loop s = .ok () t.touched ∧ I T t) ∧
    (¬(T.length = S.length ∧ AllGood good [] T) → ∃ t, payloadOf loop s = .error (.raise .ioRead) t) := by
  have hpay : payloadOf loop s = (loop (T.length + 1) >>= fun _ => requireAllSeen) s := by rw [← hr]; rfl
  obtain ⟨hall, hnot⟩ := hloop.run hgood hbad T [] hI hf hl hr
  have hlast : ∀ t, I T t → (t.touched.w.nsym = t.touched.w.total ↔ T.length = S.length) := fun t ht => by
    obtain ⟨h1, h2⟩ := hcount T t ht
    rw [← h1, ← h2]
    exact BitVec.toNat_inj.symm
  rw [hpay]
  refine ⟨fun hlen h => ?_, fun h => ?_⟩
  · obtain ⟨t, ht, hIt⟩ := hall h
    exact ⟨t, by rw [Run.bind_ok ht, requireAllSeen_eq, if_pos ((hlast t hIt).2 hlen)], hIt⟩
  · by_cases hg : AllGood good [] T
    · obtain ⟨t, ht, hIt⟩ := hall hg
      exact ⟨t.touched, by rw [Run.bind_ok ht, requireAllSeen_eq, if_neg fun he => h ⟨(hlast t hIt).1 he, hg⟩]⟩
    · obtain ⟨t, ht⟩ := hnot hg
      exact ⟨t, Run.bind_error ht⟩

/-! ### From the header to the payload -/

/-- A second pass: the rewind, the payload, what comes after it (R203, R230, R300). -/
def secondPass (payload tail : Eng Unit) : Eng Unit := do
  setPhase .enc
  inRewind
  payload
  tail

/-- The state in which the payload starts: the header has been written since `s`, the input holds `b` (R390), the
memories are those of the first pass, which `u` ends. -/
structure State.Restarted (s u w : State) (header b : List Byte) : Prop where
  phase : w.phase = .enc
  failIn : w.io.failIn = []
  failOut : w.io.failOut = []
  len : w.io.input.length < 2 ^ 64
  rest : w.io.rest = s.secondPass b
  out : s.Appended w header
  pack : w.w.obits = 0 ∧ w.w.ocnt = 0
  same : w = ((u.setPhase .enc).setIo w.io).setW { u.w with icnt := 0 }

/-- Header and rewind on a host whose input holds `b` afterwards. -/
theorem secondPass_start {i : Instr} {s u : State} {S header b : List Byte} {payload tail : Eng Unit}
    (hs : s.Rewound b) (hu : s.streamStart.Surveyed u S)
    (hrun : Instr.block i s.streamStart = (writeAll header >>= fun _ => secondPass payload tail) u) :
    ∃ w, Instr.block i s.streamStart = (payload >>= fun _ => tail) w ∧ s.Restarted u w header b := by
  obtain ⟨p, n, hio⟩ := hu.io
  have hin : u.io.failIn = [] := by rw [hio]; exact hs.failIn
  have hout : u.io.failOut = [] := by rw [hio]; exact hs.failOut
  have hinput : u.io.again.getD u.io.input = b := by
    rw [hio]
    show s.io.again.getD s.io.input = b
    rw [hs.again]
    rfl
  have hbase : u.io.inBase = s.io.inPos := by rw [hio]; rfl
  have hrew := inRewind_eq ((u.wroteAll header).setPhase .enc)
  rw [if_neg (by rw [State.setPhase_io, State.setIo_io, hin]; exact Bool.false_ne_true)] at hrew
  rw [Run.bind_ok (writeAll_ok header hout), secondPass, setPhase_bind, Run.bind_ok hrew] at hrun
  refine ⟨_, hrun, rfl, hin, hout, ?_, ?_, ?_, ?_, rfl⟩
  · show (u.io.again.getD u.io.input).length < 2 ^ 64
    rw [hinput]
    exact hs.len
  · show (u.io.again.getD u.io.input).drop u.io.inBase.toNat = _
    rw [hinput, hbase]
    rfl
  · exact (u.wroteAll_appended header).congr (by rw [hio]; exact ⟨rfl, rfl⟩) ⟨rfl, rfl⟩
  · exact ⟨hu.pack.1, hu.pack.2⟩

/-- A payload that raises IO_READ traps the command in `ENC` behind the header. -/
theorem payload_traps {i : Instr} (hi : i.cmdClass = .stream) {s u w v : State} {header b : List Byte}
    {payload tail : Eng Unit} (hs : s.Ready) (hw : s.Restarted u w header b)
    (hrun : Instr.block i s.streamStart = (payload >>= fun _ => tail) w)
    (hphase : Run.Keeps (Frame.same State.phase) payload) (hout : Run.Keeps streamsFrame payload)
    (hv : payload w = .error (.raise .ioRead) v) :
    ∃ t bytes, exec i s = .next t ∧ t.Trapped .ioRead .enc ∧ s.Appended t (header ++ bytes) := by
  obtain ⟨bytes, happ⟩ := (hout.error hv : w.StreamsKept v).out
  have hph : v.phase = w.phase := hphase.error hv
  rw [Run.bind_error hv] at hrun
  obtain ⟨hnext, htrap⟩ := exec_stream_raise hi hs hrun
  exact ⟨_, bytes, hnext, ⟨htrap.status, hph.trans hw.phase, rfl⟩,
    (hw.out.trans happ).congr ⟨rfl, rfl⟩ ⟨rfl, rfl⟩⟩

end Sys2Proof.Machine
end

section

namespace Sys2Proof.Machine

/-! ### The payload of the static codec over other bytes -/

/-- What the payload loops do not touch. -/
def State.recoded (s : State) : State :=
  (s.setIo { s.io with inPos := 0, inAcc := 0, outRev := [], outLen := 0, outAcc := 0 }).setW
    { s.w with nsym := 0, obits := 0, ocnt := 0, prev := 0, low := 0, high := 0, pend := 0 }

theorem State.recoded_of_unpacked {s t : State} (h : t.unpacked = s.unpacked) : t.recoded = s.recoded := by
  have hview : ∀ u : State, u.recoded = (u.unpacked.setIo { u.unpacked.io with inPos := 0, inAcc := 0 }).setW
      { u.unpacked.w with nsym := 0, prev := 0, low := 0, high := 0, pend := 0 } := fun _ => rfl
  rw [hview, hview, h]

/-- Since `s₀` the bits have been put and `n` symbols counted; only what the payload loops write has changed. -/
structure State.Coding (s₀ s : State) (bits : Bits) (n : Nat) : Prop where
  packed : s₀.Packed s bits
  count : s.w.nsym.toNat = n
  same : s.recoded = s₀.recoded

section
variable {s₀ s : State} {bits : Bits} {n : Nat}

theorem State.Coding.start (h1 : s₀.w.obits = 0) (h2 : s₀.w.ocnt = 0) (h3 : s₀.w.nsym = 0) : s₀.Coding s₀ [] 0 :=
  ⟨.start h1 h2, by rw [h3]; rfl, rfl⟩

theorem State.Coding.main (h : s₀.Coding s bits n) : s.main = s₀.main := (congrArg State.main h.same :)
theorem State.Coding.ctx (h : s₀.Coding s bits n) : s.ctx = s₀.ctx := (congrArg State.ctx h.same :)
theorem State.Coding.freq (h : s₀.Coding s bits n) : s.freq = s₀.freq := (congrArg State.freq h.same :)
theorem State.Coding.failOut (h : s₀.Coding s bits n) : s.io.failOut = s₀.io.failOut :=
  (congrArg (fun x : State => x.io.failOut) h.same :)
theorem State.Coding.total (h : s₀.Coding s bits n) : s.w.total = s₀.w.total :=
  (congrArg (fun x : State => x.w.total) h.same :)

/-- Reading a byte puts no bits. -/
theorem State.Coding.advanced (h : s₀.Coding s bits n) : s₀.Coding s.advanced bits n := ⟨h.packed, h.count, h.same⟩
theorem State.Coding.touched (h : s₀.Coding s bits n) : s₀.Coding s.touched bits n := ⟨h.packed, h.count, h.same⟩

/-- `PutBits(c)` (R71). -/
theorem State.Coding.putBits (h : s₀.Coding s bits n) (hf : s₀.io.failOut = []) (c : Bits) :
    ∃ t, putBits c s = .ok () t ∧ s₀.Coding t (bits ++ c) n ∧ t.unpacked = s.unpacked := by
  obtain ⟨t, ht, hp, hu⟩ := putBits_packed (h.failOut.trans hf) h.packed c
  have hn : t.w.nsym = s.w.nsym := (congrArg (fun x : State => x.w.nsym) hu :)
  exact ⟨t, ht, ⟨hp, (congrArg BitVec.toNat hn).trans h.count, (State.recoded_of_unpacked hu).trans h.same⟩, hu⟩

/-- `NSYM <- NSYM + 1` while symbols are left. -/
theorem State.Coding.bump (h : s₀.Coding s bits n) (hn : n < s₀.w.total.toNat) :
    bumpNsym s = .ok () (s.setW { s.w with nsym := s.w.nsym + 1 }) ∧
      s₀.Coding (s.setW { s.w with nsym := s.w.nsym + 1 }) bits (n + 1) := by
  obtain ⟨hb, hv⟩ := bumpNsym_below (s := s) (by rw [h.count, h.total]; exact hn)
  exact ⟨hb, h.packed, by rw [← h.count]; exact hv, h.same⟩

end

theorem State.unpacked_source {s t : State} (h : t.unpacked = s.unpacked) : t.io.source = s.io.source :=
  (congrArg (fun x : State => x.io.source) h :)

/-- What `EncodePayload()` does with a byte (R205). -/
def encodeByte (b : Byte) : Eng Unit := do
  let c ← Run.read (fun s => s.main.code b.toNat)
  let more ← Run.read (fun s => decide (s.w.nsym.toNat < s.w.total.toNat))
  Run.require (c.isSome && more) .ioRead
  putBits (c.getD [])
  bumpNsym

theorem encodeLoop_feeds : Feeds encodeLoop encodeByte where
  atEnd n s t h := by rw [encodeLoop, Run.bind_ok h]; rfl
  atByte n s t b h := by
    rw [encodeLoop, Run.bind_ok h]
    simp only [encodeByte, Run.bind_assoc_apply, Run.read_bind, bind_assoc]

theorem encodeByte_eq (b : Byte) (s : State) : encodeByte b s =
    (Run.require ((s.main.code b.toNat).isSome && decide (s.w.nsym.toNat < s.w.total.toNat)) .ioRead >>= fun _ =>
      putBits ((s.main.code b.toNat).getD []) >>= fun _ => bumpNsym) s := rfl

/-- A byte of the tree is put and counted. -/
theorem encodeByte_ok {s₀ s : State} {bits c : Bits} {n : Nat} {b : Byte} (h : s₀.Coding s bits n)
    (hf : s₀.io.failOut = []) (hc : s₀.main.code b.toNat = some c) (hn : n < s₀.w.total.toNat) :
    ∃ t, encodeByte b s = .ok () t ∧ s₀.Coding t (bits ++ c) (n + 1) ∧ t.io.source = s.io.source := by
  obtain ⟨t, ht, hcode, hu⟩ := h.putBits hf c
  obtain ⟨hb, hbump⟩ := hcode.bump hn
  refine ⟨_, ?_, hbump, State.unpacked_source (t := t) hu⟩
  rw [encodeByte_eq, h.main, hc, h.count, h.total, decide_eq_true hn]
  show (putBits c >>= fun _ => bumpNsym) s = _
  rw [Run.bind_ok ht, hb]

/-- A byte without a codeword, or one too many, raises IO_READ. -/
theorem encodeByte_raises {s₀ s : State} {bits : Bits} {n : Nat} {b : Byte} (h : s₀.Coding s bits n)
    (hbad : ¬((s₀.main.code b.toNat).isSome = true ∧ n < s₀.w.total.toNat)) :
    encodeByte b s = .error (.raise .ioRead) s := by
  have hfalse : ((s₀.main.code b.toNat).isSome && decide (n < s₀.w.total.toNat)) = false := by
    rw [← Bool.not_eq_true, Bool.and_eq_true, decide_eq_true_eq]
    exact hbad
  rw [encodeByte_eq, h.main, h.count, h.total, hfalse]
  rfl

theorem codeBits_append (sh : Shape) (done : List Byte) (b : Byte) :
    codeBits sh (done ++ [b]) = codeBits sh done ++ (codeIn sh.paths b).getD [] := by
  simp only [codeBits, List.flatMap_append, List.flatMap_cons, List.flatMap_nil, List.append_nil]

/-- The second pass reads as the first where it counts: as many bytes, each one that the first pass had. -/
abbrev SameBytes (S T : List Byte) : Prop := T.length = S.length ∧ ∀ x ∈ T, x ∈ S

theorem allGood_sameBytes {S T : List Byte} : T.length = S.length ∧ AllGood (seenBefore S) [] T ↔ SameBytes S T := by
  rw [allGood_seenBefore (Nat.zero_le _)]
  simp only [List.length_nil, Nat.zero_add]
  exact ⟨fun ⟨hl, hT, _⟩ => ⟨hl, hT⟩, fun ⟨hl, hT⟩ => ⟨hl, hT, hl.le⟩⟩

/-- `EncodePayload()` (R205, R207, R390) over the bytes `T` after a first pass over `S`. -/
theorem encodePayload_run {s : State} {sh : Shape} {S T : List Byte} (hm : s.main.Models sh)
    (hsh : ∀ b, (codeIn sh.paths b).isSome = true ↔ b ∈ S) (ht : s.w.total.toNat = S.length)
    (hp : s.w.obits = 0 ∧ s.w.ocnt = 0) (hfi : s.io.failIn = []) (hfo : s.io.failOut = [])
    (hl : s.io.input.length < 2 ^ 64) (hr : s.io.rest = T) :
    (SameBytes S T → ∃ t n, encodePayload s = .ok () t ∧ s.Coding t (codeBits sh T) n) ∧
    (¬SameBytes S T → ∃ t, encodePayload s = .error (.raise .ioRead) t) := by
  obtain ⟨s₀, hs₀⟩ : ∃ s₀, s₀ = s.setW { s.w with nsym := 0 } := ⟨_, rfl⟩
  have hmain : s₀.main = s.main := by rw [hs₀]; rfl
  have htotal : s₀.w.total.toNat = S.length := by rw [hs₀]; exact ht
  have hgood : ∀ done b t, s₀.Coding t (codeBits sh done) done.length → seenBefore S done b →
      ∃ u, encodeByte b t.advanced = .ok () u ∧ s₀.Coding u (codeBits sh (done ++ [b])) (done ++ [b]).length ∧
        u.io.source = t.advanced.io.source := fun done b t hI hg => by
    obtain ⟨c, hc⟩ := Option.isSome_iff_exists.1 ((hsh b).2 hg.1)
    rw [codeBits_append, hc, List.length_append]
    exact encodeByte_ok hI.advanced (by rw [hs₀]; exact hfo) (by rw [hmain, hm.code, hc]; rfl)
      (by rw [htotal]; exact hg.2)
  have hbad : ∀ done b t, s₀.Coding t (codeBits sh done) done.length → ¬seenBefore S done b →
      ∃ u, encodeByte b t.advanced = .error (.raise .ioRead) u := fun done b t hI hg =>
    ⟨_, encodeByte_raises hI.advanced (by rw [hmain, hm.code, hsh, htotal]; exact hg)⟩
  obtain ⟨hok, htrap⟩ := payloadOf_run encodeLoop_feeds hgood hbad
    (fun _ _ hI => ⟨hI.count, by rw [hI.total, htotal]⟩) (s := s₀) (T := T)
    (.start (by rw [hs₀]; exact hp.1) (by rw [hs₀]; exact hp.2) (by rw [hs₀]; rfl)) (by rw [hs₀]; exact hfi)
    (by rw [hs₀]; exact hl) (by rw [hs₀]; exact hr)
  have hpay : encodePayload s = payloadOf encodeLoop s₀ := by rw [hs₀]; rfl
  rw [hpay]
  refine ⟨fun h => ?_, fun h => htrap fun h' => h (allGood_sameBytes.1 h')⟩
  obtain ⟨hlen, hall⟩ := allGood_sameBytes.2 h
  obtain ⟨t, ht, hI⟩ := hok hlen hall
  refine ⟨_, _, ht, ?_, hI.count, ?_⟩
  · have := hI.packed
    rw [hs₀] at this
    exact this
  · have := hI.same
    rw [hs₀] at this
    exact this

/-- The last byte of a payload: the command ends with the payload's bits packed behind the header (R72, R203). -/
theorem payload_ends {i : Instr} (hi : i.cmdClass = .stream) {s u w v : State} {header b : List Byte} {bits : Bits}
    {n : Nat} {payload : Eng Unit} (hs : s.Ready) (hw : s.Restarted u w header b)
    (hrun : Instr.block i s.streamStart = (payload >>= fun _ => (do setPhase .term; padAndFlush)) w)
    (hv : payload w = .ok () v) (hcode : w.Coding v bits n) :
    ∃ t, exec i s = .next t ∧ s.Ended t ∧ s.Appended t (header ++ packBits bits) := by
  obtain ⟨t, ht, hout, hlen, _⟩ := padAndFlush_packed (s := v.setPhase .term) (s₀ := w) (c := bits)
    (hcode.failOut.trans hw.failOut) hcode.packed
  rw [Run.bind_ok hv, setPhase_bind, ht] at hrun
  obtain ⟨hnext, hend⟩ := exec_stream_ok hi hs hrun
  refine ⟨_, hnext, hend, hw.out.trans ⟨?_, hlen⟩⟩
  show t.io.outRev.reverse = w.io.outRev.reverse ++ _
  rw [hout, List.reverse_append, List.reverse_reverse]

/-- The static compressors on a host that breaks the duty of R390. -/
theorem staticCompress_rewound (m : StaticMethod) {s : State} {b : List Byte} (hs : s.Rewound b)
    (hl : s.io.rest.length ≤ Config.inLenMax) :
    (¬SameBytes s.io.rest (s.secondPass b) → ∃ t bytes, exec m.cmp s = .next t ∧ t.Trapped .ioRead .enc ∧
      s.Appended t (headerBytes (countTable s.io.rest) ++ bytes)) ∧
    (SameBytes s.io.rest (s.secondPass b) → ∃ t, exec m.cmp s = .next t ∧ s.Ended t ∧
      s.Appended t (headerBytes (countTable s.io.rest) ++
        packBits (codeBits (m.shape (distribution (countTable s.io.rest))) (s.secondPass b)))) := by
  have hmax : Config.inLenMax = 2 ^ 32 - 1 := rfl
  obtain ⟨u, hu, hmodel, hblock⟩ := staticCompress_survey m (s := s.streamStart) hs.failIn hs.sound hl
  rw [← m.block_cmp] at hblock
  obtain ⟨w, hrun, hw⟩ := secondPass_start (payload := encodePayload) (tail := do setPhase .term; padAndFlush) hs hu
    hblock
  have hmain : w.main = u.main := by rw [hw.same]; rfl
  have htotal : w.w.total = u.w.total := by rw [hw.same]; rfl
  obtain ⟨hok, htrap⟩ := encodePayload_run (s := w) (hmain ▸ hmodel)
    (m.codeIn_countTable (S := s.io.rest) (by omega)) (by rw [htotal]; exact hu.total)
    hw.pack hw.failIn hw.failOut hw.len
    hw.rest
  refine ⟨fun h => ?_, fun h => ?_⟩
  · obtain ⟨v, hv⟩ := htrap h
    have hk := streamsFrame_allowsAll
    exact payload_traps m.cmp_stream hs.ready hw hrun
      (encodePayload_keeps (fun _ _ _ => rfl) (fun _ _ => rfl) (fun _ _ => rfl) (fun _ _ _ => rfl) fun _ _ => rfl)
      (encodePayload_keeps hk.reads hk.touchOut hk.out hk.pack hk.nsym) hv
  · obtain ⟨v, n, hv, hcode⟩ := hok h
    exact payload_ends m.cmp_stream hs.ready hw hrun hv hcode

end Sys2Proof.Machine
end

section

namespace Sys2Proof.Machine

/-! ### The payload of `CMP.CONTEXT` over other bytes -/

/-- What `EncodeContextPayload()` does with a byte (R234). -/
def encodeContextByte (b : Byte) : Eng Unit := do
  let c ← Run.read (fun s => s.contextCode b)
  let more ← Run.read (fun s => decide (s.w.nsym.toNat < s.w.total.toNat))
  Run.require (c.isSome && more) .ioRead
  putBits (c.getD [])
  setW (fun w => { w with prev := b.setWidth 9 })
  bumpNsym

theorem encodeContextLoop_feeds : Feeds encodeContextLoop encodeContextByte where
  atEnd n s t h := by rw [encodeContextLoop, Run.bind_ok h]; rfl
  atByte n s t b h := by
    rw [encodeContextLoop, Run.bind_ok h]
    simp only [encodeContextByte, Run.bind_assoc_apply, Run.read_bind, bind_assoc]

/-- `b` came in `S` where a byte follows `last`: at first any byte of `S`, then one that followed `last` (R231). -/
def follows (S : List Byte) : Option Byte → Byte → Prop
  | none, b => b ∈ S
  | some a, b => b ∈ successors a.toNat S

theorem successors_subset (c : Nat) : ∀ S : List Byte, successors c S ⊆ S
  | [] => by simp [successors]
  | [_] => by simp [successors]
  | a :: b :: S => by
    have ih := successors_subset c (b :: S)
    unfold successors
    split
    · exact fun x hx => (List.mem_cons.1 hx).elim (fun h => by simp [h]) fun h => List.mem_cons_of_mem _ (ih h)
    · exact fun x hx => List.mem_cons_of_mem _ (ih hx)

theorem successors_length (c : Nat) : ∀ S : List Byte, (successors c S).length ≤ S.length
  | [] => le_rfl
  | [_] => by simp [successors]
  | a :: b :: S => by
    have ih := successors_length c (b :: S)
    unfold successors
    split <;> simp only [List.length_cons] at ih ⊢ <;> omega

/-- A byte has a codeword after `last` exactly if it followed it in the first pass (R234, R383). -/
theorem contextCode_isSome {s : State} {S : List Byte} (hm : s.ContextModels S) (hl : S.length < 2 ^ 32)
    {last : Option Byte} (hp : s.w.prev.toNat = (last.map BitVec.toNat).getD Config.prevNone) (b : Byte) :
    (s.contextCode b).isSome = true ↔ follows S last b := by
  cases last with
  | none =>
    have hp' : s.w.prev.toNat = Config.prevNone := hp
    rw [State.contextCode, if_pos hp', hm.main.code]
    exact StaticMethod.huffman.codeIn_countTable hl b
  | some a =>
    have ha := a.isLt
    have hp' : s.w.prev.toNat = a.toNat := hp
    rw [State.contextCode, hp', if_neg (by rw [prevNone_eq]; omega), hm.present _ ha]
    by_cases hne : successors a.toNat S = []
    · simp [hne, follows]
    · rw [if_pos (decide_eq_true hne), (hm.model _ ha hne).code]
      exact StaticMethod.huffman.codeIn_countTable ((successors_length _ _).trans_lt hl) b

/-- A good byte of the second pass of `CMP.CONTEXT`. -/
def followsBefore (S done : List Byte) (b : Byte) : Prop := follows S done.getLast? b ∧ done.length < S.length

/-- Each byte followed the one before it in the first pass. -/
def FollowsAll (S : List Byte) : Option Byte → List Byte → Prop
  | _, [] => True
  | last, b :: T => follows S last b ∧ FollowsAll S (some b) T

theorem allGood_followsBefore {S : List Byte} : ∀ {T done : List Byte}, done.length ≤ S.length →
    (AllGood (followsBefore S) done T ↔ FollowsAll S done.getLast? T ∧ done.length + T.length ≤ S.length)
  | [], done, h => by simp [AllGood, FollowsAll, h]
  | b :: T, done, _ => by
    by_cases hd : done.length < S.length
    · have ih := allGood_followsBefore (S := S) (T := T) (done := done ++ [b]) (by simpa using hd)
      rw [AllGood, ih, followsBefore, FollowsAll, List.getLast?_concat, List.length_append, List.length_singleton,
        List.length_cons]
      constructor
      · rintro ⟨⟨hb, _⟩, hT, hle⟩
        exact ⟨⟨hb, hT⟩, by omega⟩
      · rintro ⟨⟨hb, hT⟩, hle⟩
        exact ⟨⟨hb, hd⟩, hT, by omega⟩
    · constructor
      · exact fun h => absurd h.1.2 hd
      · rintro ⟨_, hle⟩
        rw [List.length_cons] at hle
        omega

theorem followsAll_some {S : List Byte} : ∀ {T : List Byte} {a : Byte}, FollowsAll S (some a) T ↔
    ∀ c, c < 256 → ∀ x ∈ successors c (a :: T), x ∈ successors c S
  | [], a => by simp [FollowsAll, successors]
  | b :: T, a => by
    rw [FollowsAll, followsAll_some, follows]
    constructor
    · rintro ⟨hb, hT⟩ c hc x hx
      unfold successors at hx
      split at hx
      · next h =>
        rcases List.mem_cons.1 hx with rfl | hx
        · rwa [← h]
        · exact hT c hc x hx
      · exact hT c hc x hx
    · intro h
      refine ⟨h _ a.isLt b (by simp [successors]), fun c hc x hx => h c hc x ?_⟩
      unfold successors
      split
      · exact List.mem_cons_of_mem _ hx
      · exact hx

/-- The second pass of `CMP.CONTEXT` reads as the first where it counts: also each byte follows one it had followed. -/
abbrev SameContexts (S T : List Byte) : Prop := T.length = S.length ∧ (∀ x ∈ T, x ∈ S) ∧
  ∀ c, c < 256 → ∀ x ∈ successors c T, x ∈ successors c S

theorem allGood_sameContexts {S T : List Byte} :
    T.length = S.length ∧ AllGood (followsBefore S) [] T ↔ SameContexts S T := by
  rw [allGood_followsBefore (Nat.zero_le _), List.length_nil, Nat.zero_add]
  refine and_congr_right fun hlen => ?_
  rw [and_iff_left hlen.le]
  cases T with
  | nil => simp [FollowsAll, successors]
  | cons b T =>
    show b ∈ S ∧ FollowsAll S (some b) T ↔ _
    rw [followsAll_some]
    refine ⟨fun ⟨hb, hT⟩ => ⟨fun x hx => ?_, hT⟩, fun ⟨hb, hT⟩ => ⟨hb b (by simp), hT⟩⟩
    obtain rfl | hx := List.mem_cons.1 hx
    · exact hb
    · obtain ⟨pre, post, rfl⟩ := List.append_of_mem hx
      have hfollow : ∀ (pre : List Byte) (a : Byte), ∃ c, c < 256 ∧ x ∈ successors c (a :: (pre ++ x :: post)) := by
        intro pre
        induction pre with
        | nil => exact fun a => ⟨a.toNat, a.isLt, by simp [successors]⟩
        | cons a' pre ih =>
          intro a
          obtain ⟨c, hc, hx⟩ := ih a'
          refine ⟨c, hc, ?_⟩
          rw [List.cons_append, successors]
          split
          · exact List.mem_cons_of_mem _ hx
          · exact hx
      obtain ⟨c, hc, hx⟩ := hfollow pre b
      exact successors_subset c S (hT c hc x hx)

theorem encodeContextByte_eq (b : Byte) (s : State) : encodeContextByte b s =
    (Run.require ((s.contextCode b).isSome && decide (s.w.nsym.toNat < s.w.total.toNat)) .ioRead >>= fun _ =>
      putBits ((s.contextCode b).getD []) >>= fun _ => setW (fun w => { w with prev := b.setWidth 9 }) >>= fun _ =>
      bumpNsym) s := rfl

/-- What holds after the bytes `done` of the second pass of `CMP.CONTEXT`. -/
structure State.ContextCoding (s₀ s : State) (done : List Byte) : Prop where
  coding : ∃ bits, s₀.Coding s bits done.length
  prev : s.w.prev.toNat = (done.getLast?.map BitVec.toNat).getD Config.prevNone

theorem State.ContextCoding.code {s₀ s : State} {S done : List Byte} (hm : s₀.ContextModels S) (hl : S.length < 2 ^ 32)
    (h : s₀.ContextCoding s done) (b : Byte) : (s.contextCode b).isSome = true ↔ follows S done.getLast? b := by
  obtain ⟨bits, hc⟩ := h.coding
  refine contextCode_isSome ⟨?_, fun c h => ?_, fun c h hne => ?_⟩ hl h.prev b
  · rw [hc.main]; exact hm.main
  · rw [hc.ctx]; exact hm.present c h
  · rw [hc.ctx]; exact hm.model c h hne

/-- A byte that followed the one before it is put and counted. -/
theorem encodeContextByte_ok {s₀ s : State} {done : List Byte} {b : Byte} {c : Bits} (h : s₀.ContextCoding s done)
    (hf : s₀.io.failOut = []) (hc : s.contextCode b = some c) (hn : done.length < s₀.w.total.toNat) :
    ∃ t, encodeContextByte b s = .ok () t ∧ s₀.ContextCoding t (done ++ [b]) ∧ t.io.source = s.io.source := by
  obtain ⟨bits, hcoding⟩ := h.coding
  obtain ⟨t, ht, hcode, hu⟩ := hcoding.putBits hf c
  obtain ⟨v, hv⟩ : ∃ v, v = t.setW { t.w with prev := b.setWidth 9 } := ⟨_, rfl⟩
  have hcode' : s₀.Coding v (bits ++ c) done.length := by rw [hv]; exact ⟨hcode.packed, hcode.count, hcode.same⟩
  obtain ⟨hb, hbump⟩ := hcode'.bump hn
  refine ⟨v.setW { v.w with nsym := v.w.nsym + 1 }, ?_, ⟨⟨_, by rw [List.length_append]; exact hbump⟩, ?_⟩, ?_⟩
  · rw [encodeContextByte_eq, hc, hcoding.count, hcoding.total, decide_eq_true hn]
    show (putBits c >>= _) s = _
    rw [Run.bind_ok ht, setW_bind, ← hv, hb]
  · have := b.isLt
    rw [List.getLast?_concat, hv]
    show (b.setWidth 9).toNat = b.toNat
    rw [BitVec.toNat_setWidth]
    omega
  · rw [hv]
    exact State.unpacked_source (t := t) hu

theorem encodeContextByte_raises {s₀ s : State} {done : List Byte} {b : Byte} (h : s₀.ContextCoding s done)
    (hbad : ¬((s.contextCode b).isSome = true ∧ done.length < s₀.w.total.toNat)) :
    encodeContextByte b s = .error (.raise .ioRead) s := by
  obtain ⟨bits, hcoding⟩ := h.coding
  have hfalse : ((s.contextCode b).isSome && decide (done.length < s₀.w.total.toNat)) = false := by
    rw [← Bool.not_eq_true, Bool.and_eq_true, decide_eq_true_eq]
    exact hbad
  rw [encodeContextByte_eq, hcoding.count, hcoding.total, hfalse]
  rfl

/-- `EncodeContextPayload()` (R234, R390) over the bytes `T` after a first pass over `S`. -/
theorem encodeContextPayload_run {s : State} {S T : List Byte} (hm : s.ContextModels S) (hS : S.length < 2 ^ 32)
    (ht : s.w.total.toNat = S.length) (hp : s.w.obits = 0 ∧ s.w.ocnt = 0) (hfi : s.io.failIn = [])
    (hfo : s.io.failOut = []) (hl : s.io.input.length < 2 ^ 64) (hr : s.io.rest = T) :
    (SameContexts S T → ∃ t bits n, encodeContextPayload s = .ok () t ∧ s.Coding t bits n) ∧
    (¬SameContexts S T → ∃ t, encodeContextPayload s = .error (.raise .ioRead) t) := by
  obtain ⟨s₀, hs₀⟩ : ∃ s₀, s₀ = s.setW { s.w with nsym := 0, prev := 256 } := ⟨_, rfl⟩
  have htotal : s₀.w.total.toNat = S.length := by rw [hs₀]; exact ht
  have hm₀ : s₀.ContextModels S := by rw [hs₀]; exact ⟨hm.main, hm.present, hm.model⟩
  have hadv : ∀ {done t}, s₀.ContextCoding t done → s₀.ContextCoding t.advanced done := fun h =>
    ⟨h.coding.imp fun _ hc => hc.advanced, h.prev⟩
  have hgood : ∀ done b t, s₀.ContextCoding t done → followsBefore S done b →
      ∃ u, encodeContextByte b t.advanced = .ok () u ∧ s₀.ContextCoding u (done ++ [b]) ∧
        u.io.source = t.advanced.io.source := fun done b t hI hg => by
    obtain ⟨c, hc⟩ := Option.isSome_iff_exists.1 (((hadv hI).code hm₀ hS b).2 hg.1)
    exact encodeContextByte_ok (hadv hI) (by rw [hs₀]; exact hfo) hc (by rw [htotal]; exact hg.2)
  have hbad : ∀ done b t, s₀.ContextCoding t done → ¬followsBefore S done b →
      ∃ u, encodeContextByte b t.advanced = .error (.raise .ioRead) u := fun done b t hI hg =>
    ⟨_, encodeContextByte_raises (hadv hI) (by rw [(hadv hI).code hm₀ hS, htotal]; exact hg)⟩
  have hstart : s₀.ContextCoding s₀ [] :=
    ⟨⟨[], .start (by rw [hs₀]; exact hp.1) (by rw [hs₀]; exact hp.2) (by rw [hs₀]; rfl)⟩, by rw [hs₀]; rfl⟩
  obtain ⟨hok, htrap⟩ := payloadOf_run encodeContextLoop_feeds hgood hbad (fun _ _ hI => by
    obtain ⟨bits, hc⟩ := hI.coding
    exact ⟨hc.count, by rw [hc.total, htotal]⟩) (T := T) hstart (by rw [hs₀]; exact hfi) (by rw [hs₀]; exact hl)
    (by rw [hs₀]; exact hr)
  have hpay : encodeContextPayload s = payloadOf encodeContextLoop s₀ := by rw [hs₀]; rfl
  rw [hpay]
  refine ⟨fun h => ?_, fun h => htrap fun h' => h (allGood_sameContexts.1 h')⟩
  obtain ⟨hlen, hall⟩ := allGood_sameContexts.2 h
  obtain ⟨t, ht, hI⟩ := hok hlen hall
  obtain ⟨bits, hc⟩ := hI.coding
  rw [hs₀] at hc
  exact ⟨_, bits, _, ht, ⟨hc.packed, hc.count, hc.same⟩⟩

/-- `CMP.CONTEXT` on a host that breaks the duty of R390. -/
theorem contextCompress_rewound {s : State} {b : List Byte} (hs : s.Rewound b)
    (hl : s.io.rest.length ≤ Config.inLenMax) :
    (¬SameContexts s.io.rest (s.secondPass b) → ∃ t bytes, exec .cmpContext s = .next t ∧ t.Trapped .ioRead .enc ∧
      s.Appended t (contextHeaderOf s.io.rest ++ bytes)) ∧
    (SameContexts s.io.rest (s.secondPass b) → ∃ t, exec .cmpContext s = .next t ∧ s.Ended t) := by
  have hmax : Config.inLenMax = 2 ^ 32 - 1 := rfl
  obtain ⟨u, hu, hmodels, hblock⟩ := contextCompress_survey (s := s.streamStart) hs.failIn hs.sound hl
  obtain ⟨w, hrun, hw⟩ := secondPass_start (i := .cmpContext) (payload := encodeContextPayload)
    (tail := do setPhase .term; padAndFlush) hs hu hblock
  have hctx : w.ctx = u.ctx := by rw [hw.same]; rfl
  have hmain : w.main = u.main := by rw [hw.same]; rfl
  have htotal : w.w.total = u.w.total := by rw [hw.same]; rfl
  have hmodels' : w.ContextModels s.io.rest := ⟨by rw [hmain]; exact hmodels.main,
    by rw [hctx]; exact hmodels.present, by rw [hctx]; exact hmodels.model⟩
  obtain ⟨hok, htrap⟩ := encodeContextPayload_run (s := w) hmodels' (by omega) (by rw [htotal]; exact hu.total) hw.pack
    hw.failIn hw.failOut hw.len hw.rest
  refine ⟨fun h => ?_, fun h => ?_⟩
  · obtain ⟨v, hv⟩ := htrap h
    have hk := streamsFrame_allowsAll
    exact payload_traps (i := .cmpContext) rfl hs.ready hw hrun
      (encodeContextPayload_keeps (fun _ _ _ => rfl) (fun _ _ => rfl) (fun _ _ => rfl) (fun _ _ _ => rfl)
        (fun _ _ => rfl) fun _ _ => rfl)
      (encodeContextPayload_keeps hk.reads hk.touchOut hk.out hk.pack hk.nsym hk.prev) hv
  · obtain ⟨v, bits, n, hv, hcode⟩ := hok h
    obtain ⟨t, ht, hend, _⟩ := payload_ends (i := .cmpContext) rfl hs.ready hw hrun hv hcode
    exact ⟨t, ht, hend⟩

end Sys2Proof.Machine
end

section

namespace Sys2Proof.Machine

/-! ### The payload of `CMP.ARITH` over other bytes -/

theorem rangesFrom_sym : ∀ (dl : List DistEntry) (cum : Nat),
    (rangesFrom dl cum).map (fun e => e.sym.toNat) = dl.map fun e => e.sym.toNat
  | [], _ => rfl
  | e :: es, cum => by
    have := e.sym.isLt
    have hwide : (e.sym.setWidth 9).toNat = e.sym.toNat := by rw [BitVec.toNat_setWidth]; omega
    rw [rangesFrom, List.map_cons, List.map_cons, rangesFrom_sym es, hwide]

/-- A symbol of the distribution has its entry in the range table (R292). -/
theorem rangeTable_find {dl : List DistEntry} {b : Byte} (h : b ∈ dl.map DistEntry.sym) :
    ∃ e ∈ rangeTable dl, (rangeTable dl).find? (fun e => e.sym.toNat == b.toNat) = some e := by
  obtain ⟨d, hd, rfl⟩ := List.mem_map.1 h
  have hsub : rangesFrom dl 0 ⊆ rangeTable dl := by
    cases dl with
    | nil => cases hd
    | cons e es => exact List.subset_append_left _ _
  have hmem : d.sym.toNat ∈ (rangesFrom dl 0).map (fun e => e.sym.toNat) := by
    rw [rangesFrom_sym]
    exact List.mem_map_of_mem hd
  obtain ⟨x, hx, hsym⟩ := List.mem_map.1 hmem
  cases hf : (rangeTable dl).find? (fun e => e.sym.toNat == d.sym.toNat) with
  | none => exact absurd (beq_iff_eq.2 hsym) (List.find?_eq_none.1 hf x (hsub hx))
  | some e => exact ⟨e, List.mem_of_find?_eq_some hf, rfl⟩

/-- The range table of `S` serves the interval coder: every entry is a proper part of the total, every byte of `S` has
its entry, and so has the end-of-stream symbol (R134, R136, R292). -/
structure State.Serves (s : State) (S : List Byte) : Prop where
  most : s.w.rt.toNat ≤ Config.arithTMax
  entries : ∀ e ∈ s.rangeList, e.Ok s.w.rt.toNat
  symbol : ∀ b ∈ S, ∃ e ∈ s.rangeList, s.rangeFor b.toNat = some e
  last : rangeGet s.range (s.w.nrange.toNat - 1) ∈ s.rangeList

theorem State.Ranged.serves {s : State} {S : List Byte} (h : s.Ranged S) (hne : S ≠ []) (hfits : arithFits S) :
    s.Serves S := by
  have hlen := arithFits_length hfits
  have hmax : Config.inLenMax = 2 ^ 32 - 1 := rfl
  have htmax : Config.arithTMax = 2 ^ 29 := rfl
  have htot := arithFits_total hfits
  have hsym : ∀ b ∈ S, b ∈ (distribution (countTable S)).map DistEntry.sym := fun b hb =>
    distribution_symbols.2 ((freqGet_countTable_ne (by omega) b).2 hb)
  refine ⟨by rw [h.rt]; exact htot, ?_, fun b hb => ?_, ?_⟩
  · rw [h.table, h.rt]
    exact (rangeTable_spec (distribution_isDist _).2 (by omega)).1
  · obtain ⟨e, he, hf⟩ := rangeTable_find (hsym b hb)
    rw [State.rangeFor, h.table]
    exact ⟨e, he, hf⟩
  · obtain ⟨b, hb⟩ := List.exists_mem_of_ne_nil S hne
    have hpos : 0 < s.w.nrange.toNat := by
      rw [h.nrange, rangeTable_length (List.ne_nil_of_mem (List.mem_map.1 (hsym b hb)).choose_spec.1)]
      omega
    exact List.mem_map_of_mem (List.mem_range.2 (by omega))

/-- What holds after the bytes `done` of the second pass of `CMP.ARITH`: the coder stands on a settled interval, with
as many bits deferred as its renormalisations can have left. -/
structure State.ArithCoding (s₀ s : State) (n : Nat) : Prop where
  coding : ∃ bits, s₀.Coding s bits n
  interval : ∃ x : Interval, s.At x ∧ Settled x.low x.high ∧ x.pend ≤ renormBound * n

theorem State.recoded_of_unranged {s t : State} (h : t.unranged = s.unranged) : t.recoded = s.recoded := by
  have hview : ∀ u : State, u.recoded = (u.unranged.setIo { u.unranged.io with inPos := 0, inAcc := 0 }).setW
      { u.unranged.w with nsym := 0, prev := 0 } := fun _ => rfl
  rw [hview, hview, h]

section
variable {s₀ s : State} {n : Nat}

theorem State.ArithCoding.serves {S : List Byte} (h : s₀.ArithCoding s n) (hs : s₀.Serves S) : s.Serves S := by
  obtain ⟨bits, hc⟩ := h.coding
  have hrt : s.w.rt = s₀.w.rt := (congrArg (fun x : State => x.w.rt) hc.same :)
  have hn : s.w.nrange = s₀.w.nrange := (congrArg (fun x : State => x.w.nrange) hc.same :)
  have hrange : s.range = s₀.range := (congrArg State.range hc.same :)
  have hlist : s.rangeList = s₀.rangeList := by unfold State.rangeList; rw [hn, hrange]
  refine ⟨by rw [hrt]; exact hs.most, by rw [hlist, hrt]; exact hs.entries, fun b hb => ?_, ?_⟩
  · rw [State.rangeFor, hlist]; exact hs.symbol b hb
  · rw [hlist, hrange, hn]; exact hs.last

/-- `ArithEncode(i)` (R302) while few bytes are done. -/
theorem State.ArithCoding.encode {S : List Byte} {e : RangeEntry} (h : s₀.ArithCoding s n) (hs : s₀.Serves S)
    (hf : s₀.io.failOut = []) (he : e ∈ s.rangeList) (hn : n ≤ 2 ^ 29) :
    ∃ t, arithEncode e s = .ok () t ∧ (∃ bits, s₀.Coding t bits n) ∧
      (∃ x : Interval, t.At x ∧ Settled x.low x.high ∧ x.pend ≤ renormBound * (n + 1)) ∧ t.unranged = s.unranged := by
  obtain ⟨bits, hc⟩ := h.coding
  obtain ⟨x, hx, hsett, hpend⟩ := h.interval
  have hserve := h.serves hs
  have h33 : renormBound = 33 := rfl
  obtain ⟨t, ht, hp, hAt, hu, hsett', hpend'⟩ := arithEncode_ok (hc.failOut.trans hf) hc.packed hx hsett
    (hserve.entries e he) hserve.most (by rw [h33] at hpend ⊢; omega)
  have hnsym : t.w.nsym = s.w.nsym := (congrArg (fun x : State => x.w.nsym) hu :)
  exact ⟨t, ht, ⟨_, hp, (congrArg BitVec.toNat hnsym).trans hc.count, (State.recoded_of_unranged hu).trans hc.same⟩,
    ⟨_, hAt, hsett', by rw [Nat.mul_add, Nat.mul_one]; omega⟩, hu⟩

end

/-- What `CMP.ARITH` does with a byte of its second pass (R300). -/
def encodeArithByte (b : Byte) : Eng Unit := do
  let ok ← Run.read (fun s =>
    decide (freqGet s.freq b.toNat ≠ 0) && decide (s.w.nsym.toNat < s.w.total.toNat))
  Run.require ok .ioRead
  arithEncodeSym b.toNat
  bumpNsym

theorem arithEncodeLoop_feeds : Feeds arithEncodeLoop encodeArithByte where
  atEnd n s t h := by rw [arithEncodeLoop, Run.bind_ok h]; rfl
  atByte n s t b h := by
    rw [arithEncodeLoop, Run.bind_ok h]
    simp only [encodeArithByte, Run.bind_assoc_apply, Run.read_bind, bind_assoc]

theorem encodeArithByte_eq (b : Byte) (s : State) : encodeArithByte b s =
    (Run.require (decide (freqGet s.freq b.toNat ≠ 0) && decide (s.w.nsym.toNat < s.w.total.toNat)) .ioRead >>= fun _ =>
      arithEncodeSym b.toNat >>= fun _ => bumpNsym) s := rfl

theorem arithEncodeSym_eq {s : State} {sym : Nat} {e : RangeEntry} (h : s.rangeFor sym = some e) :
    arithEncodeSym sym s = arithEncode e s := by
  unfold arithEncodeSym
  rw [Run.read_bind, h]

/-- A byte that the first pass had is coded and counted. -/
theorem encodeArithByte_ok {s₀ s : State} {S : List Byte} {n : Nat} {b : Byte} (h : s₀.ArithCoding s n)
    (hs : s₀.Serves S) (hf : s₀.io.failOut = []) (hb : b ∈ S) (hfreq : freqGet s₀.freq b.toNat ≠ 0)
    (hn : n < s₀.w.total.toNat) (hsmall : n ≤ 2 ^ 29) :
    ∃ t, encodeArithByte b s = .ok () t ∧ s₀.ArithCoding t (n + 1) ∧ t.io.source = s.io.source := by
  obtain ⟨bits, hc⟩ := h.coding
  obtain ⟨e, he, hfor⟩ := (h.serves hs).symbol b hb
  obtain ⟨t, ht, ⟨bits', hc'⟩, ⟨x, hAt, hsett, hpend⟩, hu⟩ := h.encode hs hf he hsmall
  obtain ⟨hbump, hc''⟩ := hc'.bump hn
  refine ⟨t.setW { t.w with nsym := t.w.nsym + 1 }, ?_, ⟨⟨_, hc''⟩, x, ⟨hAt.low, hAt.high, hAt.pend⟩, hsett, hpend⟩,
    (congrArg (fun x : State => x.io.source) hu :)⟩
  rw [encodeArithByte_eq, hc.freq, hc.count, hc.total, decide_eq_true hfreq, decide_eq_true hn]
  show (arithEncodeSym b.toNat >>= fun _ => bumpNsym) s = _
  rw [Run.bind_ok ((arithEncodeSym_eq hfor).trans ht), hbump]

theorem encodeArithByte_raises {s₀ s : State} {n : Nat} {b : Byte} (h : s₀.ArithCoding s n)
    (hbad : ¬(freqGet s₀.freq b.toNat ≠ 0 ∧ n < s₀.w.total.toNat)) :
    encodeArithByte b s = .error (.raise .ioRead) s := by
  obtain ⟨bits, hc⟩ := h.coding
  have hfalse : (decide (freqGet s₀.freq b.toNat ≠ 0) && decide (n < s₀.w.total.toNat)) = false := by
    rw [← Bool.not_eq_true, Bool.and_eq_true, decide_eq_true_eq, decide_eq_true_eq]
    exact hbad
  rw [encodeArithByte_eq, hc.freq, hc.count, hc.total, hfalse]
  rfl

/-- The interval coder reset, then the payload of `CMP.ARITH` (R300). -/
def encodeArithPayload : Eng Unit := do
  setW (fun w => { w.setInterval 0 Config.scaleM with pend := 0, nsym := 0 })
  payloadOf arithEncodeLoop

theorem encodeArithPayload_keeps {F : Frame State} (h : F.AllowsIn) (ht : F.AllowsTouchOut) (ho : F.AllowsOut)
    (hk : F.AllowsPack) (hd : F.AllowsPend) (hi : F.AllowsInterval) (hn : F.AllowsNsym) :
    Run.Keeps F encodeArithPayload := by
  refine .bind (.update fun s => ?_) fun _ => .bind (.read _) fun _ =>
    .bind (arithEncodeLoop_keeps h ht ho hk hd hi hn _) fun _ => .bind (.read _) fun _ => .require _ _
  exact F.trans _ _ _ (hi s _ _) (F.trans _ _ _ (hd (s.setW (s.w.setInterval 0 Config.scaleM)) 0)
    (hn (s.setW { s.w.setInterval 0 Config.scaleM with pend := 0 }) 0))

/-- `CMP.ARITH` behind its payload: the end-of-stream symbol and the flush (R300, R301). -/
def arithTail : Eng Unit := do
  let last ← Run.read (fun s => rangeGet s.range (s.w.nrange.toNat - 1))
  arithEncode last
  setPhase .term
  arithFlush
  padAndFlush

/-- The payload of `CMP.ARITH` (R300, R390) over the bytes `T` after a first pass over `S`. -/
theorem encodeArithPayload_run {s : State} {S T : List Byte} (hserve : s.Serves S) (hfits : arithFits S)
    (hfreq : s.freq = countTable S) (ht : s.w.total.toNat = S.length) (hp : s.w.obits = 0 ∧ s.w.ocnt = 0)
    (hfi : s.io.failIn = []) (hfo : s.io.failOut = []) (hl : s.io.input.length < 2 ^ 64) (hr : s.io.rest = T) :
    (SameBytes S T → ∃ s₀ t : State, s₀.Serves S ∧ s₀.io.failOut = [] ∧ encodeArithPayload s = .ok () t ∧
      s₀.ArithCoding t T.length) ∧
    (¬SameBytes S T → ∃ t, encodeArithPayload s = .error (.raise .ioRead) t) := by
  have hmax : Config.inLenMax = 2 ^ 32 - 1 := rfl
  have htmax : Config.arithTMax = 2 ^ 29 := rfl
  have hS := arithFits_length hfits
  have hS' : S.length ≤ 2 ^ 29 := (Nat.le_add_right _ _).trans hfits
  obtain ⟨s₀, hs₀⟩ : ∃ s₀, s₀ = s.setW { s.w.setInterval 0 Config.scaleM with pend := 0, nsym := 0 } := ⟨_, rfl⟩
  have htotal : s₀.w.total.toNat = S.length := by rw [hs₀]; exact ht
  have hmem : ∀ b : Byte, freqGet s₀.freq b.toNat ≠ 0 ↔ b ∈ S := fun b => by
    rw [hs₀, State.setW_freq, hfreq, freqGet_countTable_ne (by omega)]
  have hserve₀ : s₀.Serves S := by rw [hs₀]; exact ⟨hserve.most, hserve.entries, hserve.symbol, hserve.last⟩
  have hfo₀ : s₀.io.failOut = [] := by rw [hs₀]; exact hfo
  have hadv : ∀ {n t}, s₀.ArithCoding t n → s₀.ArithCoding t.advanced n := fun h =>
    ⟨h.coding.imp fun _ hc => hc.advanced, h.interval.imp fun _ hx => ⟨⟨hx.1.low, hx.1.high, hx.1.pend⟩, hx.2⟩⟩
  have hgood : ∀ done b t, s₀.ArithCoding t (List.length done) → seenBefore S done b →
      ∃ u, encodeArithByte b t.advanced = .ok () u ∧ s₀.ArithCoding u (done ++ [b]).length ∧
        u.io.source = t.advanced.io.source := fun done b t hI hg => by
    rw [List.length_append]
    exact encodeArithByte_ok (hadv hI) hserve₀ hfo₀ hg.1 ((hmem b).2 hg.1) (by rw [htotal]; exact hg.2)
      (hg.2.le.trans hS')
  have hbad : ∀ done b t, s₀.ArithCoding t (List.length done) → ¬seenBefore S done b →
      ∃ u, encodeArithByte b t.advanced = .error (.raise .ioRead) u := fun done b t hI hg =>
    ⟨_, encodeArithByte_raises (hadv hI) (by rw [hmem, htotal]; exact hg)⟩
  have hstart : s₀.ArithCoding s₀ 0 := by
    refine ⟨⟨[], .start (by rw [hs₀]; exact hp.1) (by rw [hs₀]; exact hp.2) (by rw [hs₀]; rfl)⟩, Interval.whole, ?_, ?_,
      Nat.zero_le _⟩
    · rw [hs₀]; exact ⟨rfl, rfl, rfl⟩
    · exact ⟨le_rfl, by decide, by decide, by decide⟩
  obtain ⟨hok, htrap⟩ := payloadOf_run (I := fun done t => s₀.ArithCoding t done.length)
    arithEncodeLoop_feeds hgood hbad
    (fun _ _ hI => by
      obtain ⟨bits, hc⟩ := hI.coding
      exact ⟨hc.count, by rw [hc.total, htotal]⟩) (T := T) hstart (by rw [hs₀]; exact hfi) (by rw [hs₀]; exact hl)
    (by rw [hs₀]; exact hr)
  have hpay : encodeArithPayload s = payloadOf arithEncodeLoop s₀ := by rw [hs₀]; rfl
  rw [hpay]
  refine ⟨fun h => ?_, fun h => htrap fun h' => h (allGood_sameBytes.1 h')⟩
  obtain ⟨hlen, hall⟩ := allGood_sameBytes.2 h
  obtain ⟨t, ht, hI⟩ := hok hlen hall
  exact ⟨s₀, _, hserve₀, hfo₀, ht, hI.coding.imp fun _ hc => hc.touched,
    hI.interval.imp fun _ hx => ⟨⟨hx.1.low, hx.1.high, hx.1.pend⟩, hx.2⟩⟩

/-- `ArithFlush()` (R306) puts bits and ends. -/
theorem arithFlush_ok {s₀ s : State} {bits : Bits} (hf : s.io.failOut = []) (h : s₀.Packed s bits) :
    ∃ t bits', arithFlush s = .ok () t ∧ s₀.Packed t bits' ∧ t.io.failOut = [] := by
  obtain ⟨v, hv⟩ : ∃ v, v = s.setW { s.w with pend := s.w.pend + 1 } := ⟨_, rfl⟩
  have hflush : ∀ b : Bool, arithFlush s = emitWithPending b v → ∃ t bits', arithFlush s = .ok () t ∧
      s₀.Packed t bits' ∧ t.io.failOut = [] := fun b hb => by
    obtain ⟨t, ht, hp, _, _, _, hu⟩ := emitWithPending_ok (s := v) (by rw [hv]; exact hf) (by rw [hv]; exact h) b
    exact ⟨t, _, hb.trans ht, hp, (State.unranged_failOut hu).trans (by rw [hv]; exact hf)⟩
  have hrun : arithFlush s =
      (if v.w.low.toNat < Config.quarter then emitWithPending false else emitWithPending true) v := by
    rw [hv]; rfl
  by_cases hlow : v.w.low.toNat < Config.quarter
  · exact hflush false (by rw [hrun, if_pos hlow])
  · exact hflush true (by rw [hrun, if_neg hlow])

/-- What comes behind the payload of `CMP.ARITH` ends. -/
theorem arithTail_ok {s₀ s : State} {S : List Byte} {n : Nat} (h : s₀.ArithCoding s n) (hs : s₀.Serves S)
    (hf : s₀.io.failOut = []) (hn : n ≤ 2 ^ 29) : ∃ t, arithTail s = .ok () t := by
  obtain ⟨t, ht, ⟨bits, hc⟩, _, hu⟩ := h.encode hs hf (h.serves hs).last hn
  have hft := hc.failOut.trans hf
  obtain ⟨v, bits', hv, hp, hfv⟩ := arithFlush_ok (s := t.setPhase .term) (s₀ := s₀) (bits := bits) hft hc.packed
  obtain ⟨u, hpad, _⟩ := padAndFlush_packed hfv hp
  exact ⟨u, by rw [arithTail, Run.read_bind, Run.bind_ok ht, setPhase_bind, Run.bind_ok hv, hpad]⟩

/-- On a nonempty input the second pass is made (R300). -/
theorem arithPayload_eq {s : State} (h : s.w.total ≠ 0) :
    arithPayload s = secondPass encodeArithPayload arithTail s := by
  show (if s.w.total = 0 then pure () else arithSecondPass : Eng Unit) s = _
  rw [if_neg h]
  simp only [arithSecondPass, secondPass, encodeArithPayload, payloadOf, arithTail, bind_assoc]

/-- `CMP.ARITH` on a host that breaks the duty of R390. -/
theorem arithCompress_rewound {s : State} {b : List Byte} (hs : s.Rewound b) (hne : s.io.rest ≠ [])
    (hfits : arithFits s.io.rest) :
    (¬SameBytes s.io.rest (s.secondPass b) → ∃ t bytes, exec .cmpArith s = .next t ∧ t.Trapped .ioRead .enc ∧
      s.Appended t (headerBytes (countTable s.io.rest) ++ bytes)) ∧
    (SameBytes s.io.rest (s.secondPass b) → ∃ t, exec .cmpArith s = .next t ∧ s.Ended t) := by
  obtain ⟨u, hu, hranged, hblock⟩ := arithCompress_survey (s := s.streamStart) hs.failIn hs.sound hfits
  have htotal : u.w.total ≠ 0 := fun h0 => hne (List.eq_nil_of_length_eq_zero (hu.total.symm.trans (by rw [h0]; rfl)))
  have hblock' : Instr.block .cmpArith s.streamStart = (writeAll (headerBytes (countTable s.io.rest)) >>= fun _ =>
      secondPass encodeArithPayload arithTail) u :=
    hblock.trans (writeAll_bind_congr fun t ht => arithPayload_eq (by rw [ht]; exact htotal))
  obtain ⟨w, hrun, hw⟩ := secondPass_start hs hu hblock'
  have hserve := hranged.serves hne hfits
  have hserve' : w.Serves s.io.rest := by
    rw [hw.same]; exact ⟨hserve.most, hserve.entries, hserve.symbol, hserve.last⟩
  have hfreq : w.freq = u.freq := by rw [hw.same]; rfl
  have htotal' : w.w.total = u.w.total := by rw [hw.same]; rfl
  obtain ⟨hok, htrap⟩ := encodeArithPayload_run (s := w) hserve' hfits (hfreq.trans hu.freq)
    (by rw [htotal']; exact hu.total) hw.pack hw.failIn hw.failOut hw.len hw.rest
  refine ⟨fun h => ?_, fun h => ?_⟩
  · obtain ⟨v, hv⟩ := htrap h
    have hk := streamsFrame_allowsAll
    exact payload_traps (i := .cmpArith) rfl hs.ready hw hrun
      (encodeArithPayload_keeps (fun _ _ _ => rfl) (fun _ _ => rfl) (fun _ _ => rfl) (fun _ _ _ => rfl)
        (fun _ _ => rfl) (fun _ _ _ => rfl) fun _ _ => rfl)
      (encodeArithPayload_keeps hk.reads hk.touchOut hk.out hk.pack hk.pend hk.interval hk.nsym) hv
  · obtain ⟨s₀, v, hs₀, hf₀, hv, hI⟩ := hok h
    obtain ⟨t, ht⟩ := arithTail_ok hI hs₀ hf₀ (by rw [h.1]; exact (Nat.le_add_right _ _).trans hfits)
    rw [Run.bind_ok hv, ht] at hrun
    obtain ⟨hnext, hend⟩ := exec_stream_ok (i := .cmpArith) rfl hs.ready hrun
    exact ⟨_, hnext, hend⟩

end Sys2Proof.Machine
end

section

namespace Sys2Proof.Machine

/-! ### The first failing access of `COUNT` -/

/-- `InRead()` (R62) where the oracle fails the access. -/
theorem inRead_fails {s : State} (h : s.io.failIn.contains (s.io.inAcc + 1) = true) :
    inRead s = .error (.raise .ioRead) s.touched := by rw [inRead_eq, if_pos h]

/-- `COUNT`'s loop where the access behind the bytes `A` fails, and none before. -/
theorem countLoop_fails {s : State} {A l : List Byte} (n : Nat)
    (hf : ∀ j, 1 ≤ j → j ≤ A.length → s.io.failIn.contains (s.io.inAcc + j) = false)
    (hfail : s.io.failIn.contains (s.io.inAcc + (A.length + 1)) = true) (hs : s.io.Sound) (hr : s.io.rest = A ++ l)
    (ht : s.w.total.toNat + A.length ≤ Config.inLenMax) :
    countLoop (A.length + (n + 1)) s = .error (.raise .ioRead) (s.counted A).touched := by
  rw [(countLoop_run A (n + 1) hf hs hr ht).1, countLoop]
  exact Run.bind_error (inRead_fails (by rw [← hfail, ← Nat.add_assoc]; rfl))

/-- `COUNT` where the oracle fails the `k`-th access, and none before (R62, R351). -/
theorem count_fails {s : State} {k : Nat} (hready : s.Ready) (hs : s.io.Sound) (hl : s.io.rest.length ≤ Config.inLenMax)
    (h1 : 1 ≤ k) (hk : k ≤ s.io.rest.length + 1) (hmem : k ∈ s.io.failIn) (hmin : ∀ j ∈ s.io.failIn, 1 ≤ j → k ≤ j) :
    ∃ t, exec .count s = .next t ∧ t.Trapped .ioRead .prim ∧ t.io.inPos.toNat = s.io.inPos.toNat + (k - 1) ∧
      t.w.total.toNat = k - 1 ∧ ∀ b : Byte, (freqGet t.freq b.toNat).toNat = (s.io.rest.take (k - 1)).count b := by
  have hmax : Config.inLenMax = 2 ^ 32 - 1 := rfl
  obtain ⟨s₀, hs₀⟩ : ∃ s₀, s₀ = ((s.accept.setPhase .prim).setFreq []).setW { s.w with total := 0 } := ⟨_, rfl⟩
  have hA : (s.io.rest.take (k - 1)).length = k - 1 := List.length_take_of_le (by omega)
  have hloop : countLoop ((s.io.rest.take (k - 1)).length + (s.io.rest.length - (k - 1) + 1)) s₀ =
      .error (.raise .ioRead) (s₀.counted (s.io.rest.take (k - 1))).touched := by
    refine countLoop_fails (l := s.io.rest.drop (k - 1)) _ (fun j hj1 hj => ?_) ?_ ?_ ?_ ?_
    · rw [hs₀]
      show s.io.failIn.contains (0 + j) = false
      rw [Nat.zero_add, ← Bool.not_eq_true, List.contains_iff_mem]
      exact fun hj' => absurd (hmin j hj' hj1) (by omega)
    · rw [hs₀, hA]
      show s.io.failIn.contains (0 + (k - 1 + 1)) = true
      rw [show 0 + (k - 1 + 1) = k by omega]
      exact List.contains_iff_mem.2 hmem
    · rw [hs₀]; exact hs
    · rw [hs₀]; exact (List.take_append_drop _ _).symm
    · rw [hs₀, hA]
      show 0 + (k - 1) ≤ _
      omega
  have hblock : Instr.block .count (s.accept.setPhase .prim) =
      .error (.raise .ioRead) (s₀.counted (s.io.rest.take (k - 1))).touched := by
    rw [← hloop, hA, show k - 1 + (s.io.rest.length - (k - 1) + 1) = s.io.rest.length + 1 by omega, hs₀]
    rfl
  obtain ⟨hnext, htrap⟩ := exec_primitive_raise (i := .count) rfl hready hblock
  refine ⟨_, hnext, ⟨htrap.status, by rw [hs₀]; rfl, rfl⟩, ?_, ?_, fun b => ?_⟩
  · rw [hs₀]
    show (s.io.inPos + BitVec.ofNat 64 (s.io.rest.take (k - 1)).length).toNat = _
    have hrest : s.io.rest.length = s.io.input.length - s.io.inPos.toNat := List.length_drop
    have hlen := hs.1
    have hpos := hs.2
    rw [hA, BitVec.toNat_add, BitVec.toNat_ofNat]
    omega
  · rw [hs₀]
    show ((0 : BitVec 40) + BitVec.ofNat 40 (s.io.rest.take (k - 1)).length).toNat = _
    rw [hA, BitVec.toNat_add, BitVec.toNat_ofNat]
    show (0 + _) % _ = _
    omega
  · rw [hs₀]
    exact countTable_get (S := s.io.rest.take (k - 1)) (by rw [hA]; omega) b

theorem not_sameBytes {S T : List Byte} : ¬SameBytes S T ↔ T.length ≠ S.length ∨ ∃ x ∈ T, x ∉ S := by
  unfold SameBytes
  push Not
  exact Decidable.imp_iff_not_or

theorem not_sameContexts {S T : List Byte} : ¬SameContexts S T ↔ T.length ≠ S.length ∨ (∃ x ∈ T, x ∉ S) ∨
    ∃ c, c < 256 ∧ ∃ x ∈ successors c T, x ∉ successors c S := by
  constructor
  · intro h
    by_contra hno
    push Not at hno
    exact h ⟨hno.1, hno.2.1, hno.2.2⟩
  · rintro (h | ⟨x, hx, h⟩ | ⟨c, hc, x, hx, h⟩) ⟨hl, hT, hS⟩
    · exact h hl
    · exact h (hT x hx)
    · exact h (hS c hc x hx)

/-- Settles O31: `COUNT` stops at its first failing access; a compressor's second pass stops at the first byte it cannot
code, or behind its last where there are fewer, and ends otherwise. -/
theorem countReadFault : Obligations.CountReadFault := by
  refine ⟨fun s k hready hs hl h1 hk hmem hmin => count_fails hready hs hl h1 hk hmem hmin,
    fun m s b hs hl => ?_, fun s b hs hl => ?_, fun s b hs hne hfits => ?_⟩
  · obtain ⟨htrap, hend⟩ := staticCompress_rewound m hs hl
    exact ⟨fun h => htrap (not_sameBytes.2 h), fun hlen hmem => hend ⟨hlen, hmem⟩⟩
  · obtain ⟨htrap, hend⟩ := contextCompress_rewound hs hl
    exact ⟨fun h => htrap (not_sameContexts.2 h), fun hlen hmem hsucc => hend ⟨hlen, hmem, hsucc⟩⟩
  · obtain ⟨htrap, hend⟩ := arithCompress_rewound hs hne hfits
    exact ⟨fun h => htrap (not_sameBytes.2 h), fun hlen hmem => hend ⟨hlen, hmem⟩⟩

end Sys2Proof.Machine
end

section

namespace Sys2Proof.Machine

/-! ### A walk that does not reach a leaf -/

/-- From a node on the way to a leaf the next bit selects a child on that way. -/
theorem TreeMem.Holds.step {t : TreeMem} {sh : Shape} {i : Nat} {x : Bool} {c : Bits} {b : Byte} (hh : t.Holds sh i)
    (h : sh.follow (x :: c) = some b) : ∃ (sh' : Shape) (j : Nat), (t.node i).sym = none ∧ (t.node i).child x = some j ∧
      t.Holds sh' j ∧ sh'.follow c = some b := by
  cases sh with
  | dead => cases h
  | leaf y => cases h
  | left l =>
    obtain ⟨j, hn, hj⟩ := hh
    cases x with
    | false => exact ⟨l, j, by rw [hn], by rw [hn]; rfl, hj, h⟩
    | true => cases h
  | right r =>
    obtain ⟨j, hn, hj⟩ := hh
    cases x with
    | false => cases h
    | true => exact ⟨r, j, by rw [hn], by rw [hn]; rfl, hj, h⟩
  | both l r =>
    obtain ⟨j, k, hn, hj, hk⟩ := hh
    cases x with
    | false => exact ⟨l, j, by rw [hn], by rw [hn]; rfl, hj, h⟩
    | true => exact ⟨r, k, by rw [hn], by rw [hn]; rfl, hk, h⟩

/-- The walk where the input ends inside a codeword (R73, R156). -/
theorem walkLoop_cut {t : TreeMem} (d : Bits) (hd : d ≠ []) : ∀ (r : Bits) {sh : Shape} {i : Nat} {b : Byte},
    t.Holds sh i → sh.follow (r ++ d) = some b → ∀ {s : State} (n : Nat), s.Parses → s.unread = r →
    ∃ u, walkLoop t.tree (r.length + 1 + n) i s = .error (.raise .malformedTruncated) u ∧ u.unwalked = s.unwalked ∧
      u.io.rest = [] ∧ u.io.Sound
  | [], sh, i, b, hh, h, s, n, hs, hu => by
    obtain ⟨x, d, rfl⟩ := List.exists_cons_of_ne_nil hd
    obtain ⟨_, _, hsym, _⟩ := hh.step h
    have hsym' : (treeGet t.tree i).sym = none := hsym
    refine ⟨s.touched, ?_, rfl, (getBitOpt_nil hs hu).2.2, hs.sound⟩
    rw [List.length_nil, show 0 + 1 + n = n + 1 by omega, walkLoop, hsym']
    exact Run.bind_error (getBit_nil hs hu)
  | x :: r, sh, i, b, hh, h, s, n, hs, hu => by
    obtain ⟨sh', j, hsym, hch, hj, hf⟩ := hh.step h
    obtain ⟨v, h1, h2, h3, h4⟩ := walkLoop_step hs hsym hch hu (r.length + 1 + n)
    obtain ⟨u, h5, h6, h7, h8⟩ := walkLoop_cut d hd r hj hf n h3 h2
    refine ⟨u, ?_, h6.trans h4, h7, h8⟩
    rw [List.length_cons, show r.length + 1 + 1 + n = (r.length + 1 + n) + 1 by omega, h1, h5]

theorem walkSymbol_some (T : Table TreeNode) (r : Nat) (s : State) : walkSymbol T (some r) s =
    walkLoop T ((s.setW { s.w with cur := some r }).bitsLeft + 2) r (s.setW { s.w with cur := some r }) := rfl

/-- `WalkSymbol` where the input ends inside a codeword. -/
theorem walkSymbol_cut {t : TreeMem} {sh : Shape} (ht : t.Models sh) {w : Byte × Bits} (hw : w ∈ sh.paths) {r : Bits}
    (hr : r <+: w.2) (hlt : r.length < w.2.length) {s : State} (hs : s.Parses) (hu : s.unread = r) :
    ∃ u, walkSymbol t.tree t.root s = .error (.raise .malformedTruncated) u ∧ u.unwalked = s.unwalked ∧
      u.io.rest = [] ∧ u.io.Sound := by
  obtain ⟨i, hroot, hh⟩ := ht.roots (by rintro rfl; cases hw)
  obtain ⟨d, hd⟩ := hr
  have hfollow : sh.follow (r ++ d) = some w.1 := by rw [hd]; exact Shape.mem_paths.1 hw
  have hne : d ≠ [] := by rintro rfl; rw [← hd, List.append_nil] at hlt; exact absurd hlt (lt_irrefl _)
  have hbits : (s.setW { s.w with cur := some i }).bitsLeft = r.length := by
    rw [← State.unread_length, ← hu]; rfl
  rw [hroot, walkSymbol_some, hbits, show r.length + 2 = r.length + 1 + 1 by rfl]
  exact walkLoop_cut d hne r hh hfollow 1 ⟨hs.honest, hs.sound, hs.held⟩ hu

/-- `WalkSymbol` where a bit 1 selects the absent child of the degenerate tree. -/
theorem walkSymbol_astray {t : TreeMem} {a : Byte} (ht : t.Models (degenerateShape a)) {s : State} {q : Bits}
    (hs : s.Parses) (hu : s.unread = true :: q) :
    ∃ u, walkSymbol t.tree t.root s = .error (.raise .malformedPath) u ∧ u.unwalked = s.unwalked := by
  obtain ⟨i, hroot, j, hn, _⟩ := ht.roots (by rintro ⟨⟩)
  have hn' : treeGet t.tree i = ⟨none, some j, none⟩ := hn
  obtain ⟨v, h1, _, _, h4⟩ := getBit_cons (s := s.setW { s.w with cur := some i }) ⟨hs.honest, hs.sound, hs.held⟩ hu
  refine ⟨v.setW { v.w with cur := none }, ?_,
    (State.unwalked_of_unparsed h4 : v.unwalked = (s.setW { s.w with cur := some i }).unwalked)⟩
  rw [hroot, walkSymbol_some, walkLoop, hn']
  exact Run.bind_ok h1

theorem walkSymbol_empty {t : TreeMem} (ht : t.Models .dead) (s : State) :
    walkSymbol t.tree t.root s = .error (.raise .malformedPath) s := by
  rw [ht.absent rfl]
  rfl

/-- `WalkSymbol` over a codeword. -/
theorem walkSymbol_code {t : TreeMem} {sh : Shape} (ht : t.Models sh) {b : Byte} {c r : Bits}
    (hc : codeIn sh.paths b = some c) {s : State} (hs : s.Parses) (hu : s.unread = c ++ r) :
    ∃ u, walkSymbol t.tree t.root s = .ok b u ∧ u.unread = r ∧ u.Parses ∧ u.unwalked = s.unwalked :=
  walkSymbol_follow (ht.roots (by rintro rfl; cases hc)) (Shape.follow_codeIn hc) hs hu

/-! ### Loops that decode a symbol a round -/

/-- A loop that decodes with `symbol` and writes with `note` while `NSYM` is below `TOTAL`. -/
structure Decodes (loop : Nat → Eng Unit) (symbol : Eng Byte) (note : Byte → Eng Unit) : Prop where
  more : ∀ (n : Nat) {s : State}, s.w.nsym.toNat < s.w.total.toNat →
    loop (n + 1) s = (symbol >>= fun b => note b >>= fun _ => loop n) s
  done : ∀ (n : Nat) {s : State}, ¬s.w.nsym.toNat < s.w.total.toNat → loop (n + 1) s = .ok () s

/-- Over the codewords of `L`, each in the tree of the symbol before, the loop takes as many rounds: `I` is what holds
after the symbols done, with the bits not yet taken. -/
theorem Decodes.run {loop : Nat → Eng Unit} {symbol : Eng Byte} {note : Byte → Eng Unit}
    (hloop : Decodes loop symbol note) {I : List Byte → Bits → State → Prop} {tree : Option Byte → Shape} {N : Nat}
    (hcount : ∀ done r s, I done r s → s.w.nsym.toNat = done.length ∧ s.w.total.toNat = N)
    (hstep : ∀ done b c r s, I done (c ++ r) s → codeIn (tree done.getLast?).paths b = some c → done.length < N →
      ∃ t u, symbol s = .ok b t ∧ note b t = .ok () u ∧ I (done ++ [b]) r u) (n : Nat) :
    ∀ (L done : List Byte) {c r : Bits} {s : State}, I done (c ++ r) s → ContextBits tree done.getLast? L c →
    done.length + L.length ≤ N → ∃ t, loop (L.length + n) s = loop n t ∧ I (done ++ L) r t
  | [], done, c, r, s, hI, hL, _ => by
    cases hL
    exact ⟨s, by rw [List.length_nil, Nat.zero_add], by rwa [List.append_nil]⟩
  | b :: L, done, c, r, s, hI, hL, hle => by
    obtain ⟨w, c', hw, rfl, hL'⟩ := hL
    rw [List.length_cons] at hle
    obtain ⟨h1, h2⟩ := hcount _ _ _ hI
    rw [List.append_assoc] at hI
    obtain ⟨t, u, ht, hu, hI'⟩ := hstep done b w (c' ++ r) s hI hw (by omega)
    obtain ⟨v, hv, hIv⟩ := Decodes.run hloop hcount hstep n L (done ++ [b]) hI' (by rwa [List.getLast?_concat])
      (by rw [List.length_append, List.length_singleton]; omega)
    refine ⟨v, ?_, by rwa [List.append_assoc] at hIv⟩
    rw [List.length_cons, show L.length + 1 + n = L.length + n + 1 by omega, hloop.more _ (by omega), Run.bind_ok ht,
      Run.bind_ok hu, hv]

/-- What the decode loops do not touch. -/
def State.redecoded (s : State) : State :=
  (s.setIo { s.io with inPos := 0, inAcc := 0, outRev := [], outLen := 0, outAcc := 0 }).setW
    { s.w with nsym := 0, ibits := 0, icnt := 0, cur := none, prev := 0 }

theorem State.redecoded_of_unwalked {s t : State} (h : t.unwalked = s.unwalked) : t.redecoded = s.redecoded := by
  have hview : ∀ u : State, u.redecoded = (u.unwalked.setIo { u.unwalked.io with outRev := [], outLen := 0, outAcc := 0
      }).setW { u.unwalked.w with nsym := 0, prev := 0 } := fun _ => rfl
  rw [hview, hview, h]

/-- Since `s₀` the symbols `L` have been decoded and written; the bits `r` are left; only what the decode loops write
has changed. -/
structure State.Decoding (s₀ s : State) (L : List Byte) (r : Bits) : Prop where
  parses : s.Parses
  unread : s.unread = r
  out : s₀.Appended s L
  count : s.w.nsym.toNat = L.length
  same : s.redecoded = s₀.redecoded

section
variable {s₀ s : State} {L : List Byte} {r : Bits}

theorem State.Decoding.main (h : s₀.Decoding s L r) : s.main = s₀.main := (congrArg State.main h.same :)
theorem State.Decoding.ctx (h : s₀.Decoding s L r) : s.ctx = s₀.ctx := (congrArg State.ctx h.same :)
theorem State.Decoding.phase (h : s₀.Decoding s L r) : s.phase = s₀.phase := (congrArg State.phase h.same :)
theorem State.Decoding.total (h : s₀.Decoding s L r) : s.w.total = s₀.w.total :=
  (congrArg (fun x : State => x.w.total) h.same :)
theorem State.Decoding.failOut (h : s₀.Decoding s L r) : s.io.failOut = s₀.io.failOut :=
  (congrArg (fun x : State => x.io.failOut) h.same :)

theorem State.Decoding.start (hp : s₀.Parses) (hn : s₀.w.nsym = 0) : s₀.Decoding s₀ [] s₀.unread :=
  ⟨hp, rfl, .refl s₀, by rw [hn]; rfl, rfl⟩

/-- A symbol walked to, in the state the walk leaves. -/
theorem State.Decoding.walked {c : Bits} (h : s₀.Decoding s L (c ++ r)) {t : State} (hu : t.unread = r) (hp : t.Parses)
    (hw : t.unwalked = s.unwalked) : s₀.Decoding t L r := by
  obtain ⟨ho, hl, hn⟩ := State.unwalked_out hw
  exact ⟨hp, hu, h.out.congr ⟨rfl, rfl⟩ ⟨ho, hl⟩, (congrArg BitVec.toNat hn).trans h.count,
    (State.redecoded_of_unwalked hw).trans h.same⟩

/-- A decoded symbol written out. -/
theorem State.Decoding.wrote (h : s₀.Decoding s L r) (b : Byte) (hn : L.length < s₀.w.total.toNat) :
    bumpNsym (s.wrote b) = .ok () ((s.wrote b).setW { s.w with nsym := s.w.nsym + 1 }) ∧
      s₀.Decoding ((s.wrote b).setW { s.w with nsym := s.w.nsym + 1 }) (L ++ [b]) r := by
  obtain ⟨hb, hv⟩ := bumpNsym_below (s := s.wrote b) (by
    show s.w.nsym.toNat < s.w.total.toNat
    rw [h.count, h.total]; exact hn)
  refine ⟨hb, ⟨h.parses.honest, h.parses.sound, h.parses.held⟩, h.unread, ?_, ?_, h.same⟩
  · exact (h.out.trans (s.wroteAll_appended [b])).congr ⟨rfl, rfl⟩ ⟨rfl, rfl⟩
  · rw [List.length_append, ← h.count]
    exact hv

end

/-- The symbol of `DecodePayload()` (R215). -/
def decodeSymbol : Eng Byte := do
  let t ← Run.read State.main
  walkSymbol t.tree t.root

/-- A decoded symbol is written and counted (R215). -/
def noteSymbol (b : Byte) : Eng Unit := do
  outWrite b
  bumpNsym

theorem decodeLoop_decodes : Decodes decodeLoop decodeSymbol noteSymbol where
  more n s h := by
    rw [decodeLoop, Run.read_bind, if_pos (decide_eq_true h)]
    simp only [decodeSymbol, noteSymbol, Run.read_bind, bind_assoc]
  done n s h := by
    rw [decodeLoop, Run.read_bind, if_neg (by rwa [decide_eq_true_eq])]
    rfl

theorem noteSymbol_ok {s₀ s : State} {L : List Byte} {r : Bits} (h : s₀.Decoding s L r) (hf : s₀.io.failOut = [])
    (b : Byte) (hn : L.length < s₀.w.total.toNat) :
    ∃ t, noteSymbol b s = .ok () t ∧ s₀.Decoding t (L ++ [b]) r := by
  obtain ⟨hb, hd⟩ := h.wrote b hn
  exact ⟨_, by rw [noteSymbol, Run.bind_ok (outWrite_ok (h.failOut.trans hf) b), hb], hd⟩

/-- The codewords of `L` in one tree. -/
theorem contextBits_codeBits {sh : Shape} : ∀ {L : List Byte} (p : Option Byte),
    (∀ b ∈ L, (codeIn sh.paths b).isSome = true) → ContextBits (fun _ => sh) p L (codeBits sh L)
  | [], _, _ => rfl
  | b :: L, _, h => by
    obtain ⟨c, hc⟩ := Option.isSome_iff_exists.1 (h b (by simp))
    refine ⟨c, codeBits sh L, hc, ?_, contextBits_codeBits _ fun b' hb' => h b' (by simp [hb'])⟩
    rw [codeBits, List.flatMap_cons, hc]
    rfl

/-- `DecodePayload()`'s loop (R215) over the codewords of `L`. -/
theorem decodeLoop_run {s₀ : State} {sh : Shape} {N : Nat} (hm : s₀.main.Models sh) (hf : s₀.io.failOut = [])
    (hN : s₀.w.total.toNat = N) (n : Nat) {L : List Byte} {r : Bits} (hs : s₀.Decoding s₀ [] (codeBits sh L ++ r))
    (hL : ∀ b ∈ L, (codeIn sh.paths b).isSome = true) (hle : L.length ≤ N) :
    ∃ t, decodeLoop (L.length + n) s₀ = decodeLoop n t ∧ s₀.Decoding t L r := by
  refine decodeLoop_decodes.run (tree := fun _ => sh) (N := N) (I := fun done r s => s₀.Decoding s done r)
    (fun done r s h => ⟨h.count, by rw [h.total, hN]⟩) (fun done b c r s h hc hn => ?_) n L [] hs
    (contextBits_codeBits _ hL) (by simpa using hle)
  obtain ⟨t, ht, hu, hp, hw⟩ := walkSymbol_code hm hc h.parses h.unread
  obtain ⟨u, hu', hd⟩ := noteSymbol_ok (h.walked hu hp hw) hf b (by rwa [hN])
  refine ⟨t, u, ?_, hu', hd⟩
  show walkSymbol s.main.tree s.main.root s = _
  rw [h.main]
  exact ht

/-! ### From the loop to the command -/

/-- The loop of a decompressor, entered in `w` with `N` symbols to decode. -/
structure State.Enters (s w : State) (i : Instr) (loop : Nat → Eng Unit) (N : Nat) : Prop where
  run : Instr.block i s.streamStart = loop (N + 1) w
  phase : w.phase = .dec
  out : s.Appended w []
  total : w.w.total.toNat = N
  failOut : w.io.failOut = []

theorem State.Appended.of_nil {s t u : State} {L : List Byte} (h : s.Appended t []) (h' : t.Appended u L) :
    s.Appended u L := h.trans h'

/-- All symbols decoded: the command ends (R215, R345). -/
theorem decoder_ends {i : Instr} (hi : i.cmdClass = .stream) {loop : Nat → Eng Unit} {symbol : Eng Byte}
    {note : Byte → Eng Unit} (hloop : Decodes loop symbol note) {s w t : State} {L : List Byte} {r : Bits} {N : Nat}
    (hs : s.Ready) (hw : s.Enters w i loop N) (hL : L.length = N) (ht : loop (L.length + 1) w = loop 1 t)
    (hd : w.Decoding t L r) : ∃ t, exec i s = .next t ∧ s.Ended t ∧ s.Appended t L := by
  have hrun := hw.run
  rw [← hL, ht, hloop.done 0 (by rw [hd.count, hd.total, hw.total, hL]; exact lt_irrefl _)] at hrun
  obtain ⟨hnext, hend⟩ := exec_stream_ok hi hs hrun
  exact ⟨_, hnext, hend, (hw.out.of_nil hd.out).congr ⟨rfl, rfl⟩ ⟨rfl, rfl⟩⟩

/-- The next symbol raises a fault: the command ends in it in `DEC`, the symbols so far written (R345). -/
theorem decoder_traps {i : Instr} (hi : i.cmdClass = .stream) {loop : Nat → Eng Unit} {symbol : Eng Byte}
    {note : Byte → Eng Unit} (hloop : Decodes loop symbol note) {s w t u : State} {L : List Byte} {r : Bits} {N : Nat}
    {c : FaultCode} (hs : s.Ready) (hw : s.Enters w i loop N) (hL : L.length < N)
    (ht : loop (L.length + (N - L.length + 1)) w = loop (N - L.length + 1) t) (hd : w.Decoding t L r)
    (hsym : symbol t = .error (.raise c) u) (hu : u.unwalked = t.unwalked) :
    ∃ v, exec i s = .next v ∧ v.Trapped c .dec ∧ s.Appended v L ∧ v.io = u.io := by
  have hrun := hw.run
  rw [show N + 1 = L.length + (N - L.length + 1) by omega, ht,
    hloop.more _ (by rw [hd.count, hd.total, hw.total]; exact hL), Run.bind_error hsym] at hrun
  obtain ⟨hnext, htrap⟩ := exec_stream_raise hi hs hrun
  obtain ⟨ho, hl, _⟩ := State.unwalked_out hu
  have hphase : u.phase = t.phase := (congrArg State.phase hu :)
  exact ⟨_, hnext, ⟨htrap.status, hphase.trans (hd.phase.trans hw.phase), rfl⟩,
    (hw.out.of_nil hd.out).congr ⟨rfl, rfl⟩ ⟨ho, hl⟩, rfl⟩

/-! ### Static payloads behind any header -/

/-- `StaticDecompress` (R213) behind a header with any table: the method's model of it, and the payload's bits. -/
theorem staticDecompress_enters (m : StaticMethod) {s : State} {f : Table (BitVec 32)} {p : List Byte} (hs : s.Served)
    (hr : s.io.rest = headerBytes f ++ p) (hp : p ≠ []) : ∃ w, s.Enters w m.dec decodeLoop (freqSum f) ∧
      w.main.Models (m.shape (distribution f)) ∧ w.Decoding w [] (payloadBits p) := by
  obtain ⟨hready, ⟨hin, hout, _⟩, hsound⟩ := hs
  obtain ⟨t, ht, hrest, hsound', hget, htotal, hsame⟩ :=
    readHeader_ok f (s := s.streamStart.setPhase .hdrRd) hin hsound hr
  have hdist := distribution_congr hget
  have hsum := freqSum_congr hget
  obtain ⟨q, k, hio⟩ : ∃ q k, t.io = { s.streamStart.io with inPos := q, inAcc := k } :=
    ⟨t.io.inPos, t.io.inAcc, by rw [hsame]; rfl⟩
  have hin' : t.io.failIn = [] := by rw [hio]; exact hin
  have hend : inAtEnd t = .ok false t.touched := by
    obtain ⟨b, l, rfl⟩ := List.exists_cons_of_ne_nil hp
    rw [inAtEnd_eq, hin', Streams.rest_cons hrest]
    rfl
  obtain ⟨v, hv, hmodel⟩ := m.block_distribution t.freq t.main
  obtain ⟨x, n, hd, hb⟩ := distBlock_withDist (s := t.touched.setPhase .build) (b := m.block) hv
  rw [hdist] at hmodel
  obtain ⟨w, hw⟩ : ∃ w, w = ((((t.touched.setPhase .build).distributed x n).setMain v).setPhase .dec).setW
      { t.w with ndist := n, nsym := 0, icnt := 0 } := ⟨_, rfl⟩
  have hN : w.w.total.toNat = freqSum f := by
    have := freqSum_lt f
    rw [hw]
    show t.w.total.toNat = _
    rw [htotal, hsum, BitVec.toNat_ofNat]
    omega
  have hunread : w.unread = payloadBits p := by
    rw [hw]
    show lowBits _ 0 ++ t.io.rest.flatMap byteBits = _
    rw [hrest]
    rfl
  refine ⟨w, ⟨?_, by rw [hw]; rfl, ?_, hN, by rw [hw]; show t.io.failOut = []; rw [hio]; exact hout⟩,
    by rw [hw]; exact hmodel, ?_⟩
  · rw [m.block_dec, staticDecompress, setPhase_bind, Run.bind_ok ht, Run.bind_ok hend]
    show staticRebuild m.block t.touched = _
    rw [staticRebuild, setPhase_bind, Run.bind_ok hd, Run.bind_ok hb, setPhase_bind, decodePayload, setW_bind,
      Run.read_bind, ← hN, hw]
    rfl
  · refine (State.Appended.refl s).congr ⟨rfl, rfl⟩ ?_
    rw [hw]
    show t.io.outRev = _ ∧ t.io.outLen = _
    rw [hio]
    exact ⟨rfl, rfl⟩
  · rw [← hunread]
    refine .start ⟨?_, ?_, ?_⟩ ?_ <;> rw [hw]
    · exact hin'
    · exact hsound'
    · exact Nat.zero_le _
    · rfl

end Sys2Proof.Machine
end

section

namespace Sys2Proof.Machine

/-- A payload that begins with the codewords of `L`, behind any header (R215, R345). -/
theorem staticDecompress_payload (m : StaticMethod) {s : State} {f : Table (BitVec 32)} {p L : List Byte} {r : Bits}
    (hs : s.Served) (hp : p ≠ []) (hr : s.io.rest = headerBytes f ++ p)
    (hL : ∀ b ∈ L, (codeIn (m.shape (distribution f)).paths b).isSome = true)
    (hbits : payloadBits p = codeBits (m.shape (distribution f)) L ++ r) :
    (L.length = freqSum f → ∃ t, exec m.dec s = .next t ∧ s.Ended t ∧ s.Appended t L) ∧
    (L.length < freqSum f → ∀ {c : FaultCode}, (∀ {t : State} {M : TreeMem}, t.Parses → t.unread = r →
        M.Models (m.shape (distribution f)) → ∃ u, walkSymbol M.tree M.root t = .error (.raise c) u ∧
          u.unwalked = t.unwalked ∧ (c = .malformedTruncated → u.io.rest = [] ∧ u.io.Sound)) →
      ∃ t, exec m.dec s = .next t ∧ t.Trapped c .dec ∧ s.Appended t L ∧ (c = .malformedTruncated → t.Drained)) := by
  obtain ⟨w, hw, hmodel, hd⟩ := staticDecompress_enters m hs hr hp
  rw [hbits] at hd
  refine ⟨fun hlen => ?_, fun hlt c hfault => ?_⟩
  · obtain ⟨t, ht, hdt⟩ := decodeLoop_run hmodel hw.failOut hw.total 1 hd hL hlen.le
    exact decoder_ends m.dec_stream decodeLoop_decodes hs.1 hw hlen ht hdt
  · obtain ⟨t, ht, hdt⟩ := decodeLoop_run hmodel hw.failOut hw.total (freqSum f - L.length + 1) hd hL hlt.le
    obtain ⟨u, hu, hun, hend⟩ := hfault hdt.parses hdt.unread hmodel
    obtain ⟨v, hv, htrap, happ, hio⟩ := decoder_traps m.dec_stream decodeLoop_decodes hs.1 hw hlt ht hdt
      (show walkSymbol t.main.tree t.main.root t = _ by rw [hdt.main]; exact hu) hun
    refine ⟨v, hv, htrap, happ, fun hc => ?_⟩
    rw [State.Drained, hio]
    exact Streams.drained (hend hc).2 (hend hc).1

theorem codeIn_degenerate (a : Byte) : codeIn (degenerateShape a).paths a = some [false] := by
  show codeIn [(a, [false])] a = _
  simp [codeIn]

theorem codeBits_degenerate (a : Byte) (k : Nat) :
    codeBits (degenerateShape a) (List.replicate k a) = List.replicate k false := by
  induction k with
  | zero => rfl
  | succ k ih =>
    rw [List.replicate_succ, List.replicate_succ, codeBits, List.flatMap_cons, codeIn_degenerate]
    exact congrArg (List.cons false) ih

/-- A bit 1 in the degenerate tree (R156, R345). -/
theorem staticDecompress_astray (m : StaticMethod) {s : State} {f : Table (BitVec 32)} {e : DistEntry} {p : List Byte}
    {k : Nat} {r : Bits} (hs : s.Served) (hr : s.io.rest = headerBytes f ++ p) (hdist : distribution f = [e])
    (hbits : payloadBits p = List.replicate k false ++ true :: r) (hk : k < e.cnt.toNat) :
    ∃ t, exec m.dec s = .next t ∧ t.Trapped .malformedPath .dec ∧ s.Appended t (List.replicate k e.sym) := by
  have hshape : m.shape (distribution f) = degenerateShape e.sym := by rw [hdist, m.shape_one]
  have hp : p ≠ [] := by rintro rfl; exact absurd hbits.symm (by simp [payloadBits])
  have hsum : freqSum f = e.cnt.toNat := by rw [← cntSum_distribution, hdist]; rfl
  obtain ⟨t, ht, htrap, happ, _⟩ := (staticDecompress_payload m (L := List.replicate k e.sym) hs hp hr
    (fun b hb => by rw [List.eq_of_mem_replicate hb, hshape, codeIn_degenerate]; rfl)
    (by rw [hshape, codeBits_degenerate]; exact hbits)).2 (by rw [List.length_replicate, hsum]; exact hk)
    (c := .malformedPath) (fun {t M} hp hu hM => by
      rw [hshape] at hM
      obtain ⟨u, hu, hun⟩ := walkSymbol_astray hM hp hu
      exact ⟨u, hu, hun, by rintro ⟨⟩⟩)
  exact ⟨t, ht, htrap, happ⟩

/-! ### The context header as read -/

/-- What reading the records does not touch. -/
def State.unrecorded (s : State) : State := (s.setIo { s.io with inPos := 0, inAcc := 0 }).setCtx []

/-- The records `recs` have been read since `s₀` (R241): their contexts are present and hold their tables, the other
contexts are not present. -/
structure State.Recorded (s₀ s : State) (recs : List (Byte × Table (BitVec 32))) : Prop where
  absent : ∀ c : Byte, c ∉ recs.map Prod.fst → (ctxGet s.ctx c.toNat).present = false
  there : ∀ r ∈ recs, (ctxGet s.ctx r.1.toNat).present = true ∧
    ∀ k, k < 256 → freqGet (ctxGet s.ctx r.1.toNat).freq k = freqGet r.2 k
  same : s.unrecorded = s₀.unrecorded

/-- The table of one record, stored in its context (R241). -/
theorem readRecordTable_ok (f : Table (BitVec 32)) (c : Nat) {s : State} {l : List Byte} (hf : s.io.failIn = [])
    (hs : s.io.Sound) (hr : s.io.rest = headerBytes f ++ l) : ∃ t, readHeaderWith (fun i v s =>
      s.setCtx (ctxSet s.ctx c { ctxGet s.ctx c with freq := freqSet (ctxGet s.ctx c).freq i v })) s = .ok () t ∧
    t.io.rest = l ∧ t.io.Sound ∧ t.unrecorded = s.unrecorded ∧ (∀ c', c' ≠ c → ctxGet t.ctx c' = ctxGet s.ctx c') ∧
    ∀ k, k < 256 → freqGet (ctxGet t.ctx c).freq k = freqGet f k := by
  have hr' : s.io.rest = ((List.range 256).flatMap fun k => leBytes 4 (freqGet f k).toNat) ++ l := hr
  obtain ⟨t, ht, hrest, hsound, _, hother, hfreq, hsame⟩ := readFields_ok f
    (store := fun i v s => s.setCtx (ctxSet s.ctx c { ctxGet s.ctx c with freq := freqSet (ctxGet s.ctx c).freq i v }))
    (fun _ _ _ => rfl)
    (fun done u => (∀ c', c' ≠ c → ctxGet u.ctx c' = ctxGet s.ctx c') ∧
      (∀ k ∈ done, freqGet (ctxGet u.ctx c).freq k = freqGet f k) ∧ u.unrecorded = s.unrecorded)
    (fun done k u ⟨h1, h2, h3⟩ => by
      refine ⟨fun c' hc' => ?_, fun k' hk' => ?_, h3⟩
      · show ctxGet (ctxSet u.ctx c _) c' = _
        rw [ctxGet_ctxSet, if_neg hc', h1 c' hc']
      · show freqGet (ctxGet (ctxSet u.ctx c _) c).freq k' = _
        rw [ctxGet_ctxSet, if_pos rfl, freqGet_freqSet]
        split
        · next h => rw [h]
        · next h => exact h2 k' ((List.mem_append.1 hk').resolve_right fun h' => h (List.mem_singleton.1 h')))
    (List.range 256) [] (l := l) hf hs hr' ⟨fun _ _ => rfl, by simp, rfl⟩
  rw [List.nil_append] at hfreq
  exact ⟨t, ht, hrest, hsound, hsame, hother, fun k hk => hfreq k (List.mem_range.2 hk)⟩

/-- One record (R241). -/
theorem readRecord_ok {s₀ s : State} {done : List (Byte × Table (BitVec 32))} {r : Byte × Table (BitVec 32)}
    {l : List Byte} (h : s₀.Recorded s done) (hnew : r.1 ∉ done.map Prod.fst) (hf : s.io.failIn = []) (hs : s.io.Sound)
    (hr : s.io.rest = r.1 :: headerBytes r.2 ++ l) : ∃ t, readRecord s = .ok () t ∧ s₀.Recorded t (done ++ [r]) ∧
      t.io.rest = l ∧ t.io.Sound := by
  obtain ⟨hread, hrest, hsound⟩ := memRead_ok (field := [r.1]) (l := headerBytes r.2 ++ l) hf hs hr
  have hval : leValue [r.1] = r.1.toNat := by simp [leValue]
  have hread' : memRead 1 s = .ok r.1.toNat (s.advancedBy [r.1].length) := by rw [hval] at hread; exact hread
  obtain ⟨t, ht, hrest', hsound', hsame, hother, hfreq⟩ := readRecordTable_ok r.2 r.1.toNat
    (s := s.advancedBy [r.1].length) hf hsound hrest
  refine ⟨t.setCtx (ctxSet t.ctx r.1.toNat { ctxGet t.ctx r.1.toNat with present := true }), ?_, ⟨fun c hc => ?_,
    fun r' hr' => ?_, (hsame.trans h.same : t.unrecorded = _)⟩, hrest', hsound'⟩
  · rw [readRecord, Run.bind_ok hread', Run.read_bind]
    show (Run.require (!(ctxGet s.ctx r.1.toNat).present) .malformedContext >>= _) _ = _
    rw [h.absent r.1 hnew]
    exact Run.bind_ok ht
  · rw [List.map_append, List.mem_append, not_or] at hc
    have hne : c.toNat ≠ r.1.toNat := fun he => hc.2 (by simp [BitVec.eq_of_toNat_eq he])
    rw [State.setCtx_ctx, ctxGet_ctxSet, if_neg hne, hother _ hne]
    exact h.absent c hc.1
  · rw [State.setCtx_ctx, ctxGet_ctxSet]
    rcases List.mem_append.1 hr' with hr' | hr'
    · have hne : r'.1.toNat ≠ r.1.toNat := fun he =>
        hnew (BitVec.eq_of_toNat_eq he ▸ List.mem_map_of_mem hr')
      rw [if_neg hne, hother _ hne]
      exact h.there r' hr'
    · rw [List.mem_singleton.1 hr', if_pos rfl]
      exact ⟨rfl, hfreq⟩

theorem State.unrecorded_failIn {s t : State} (h : t.unrecorded = s.unrecorded) : t.io.failIn = s.io.failIn :=
  (congrArg (fun x : State => x.io.failIn) h :)

theorem contextRecords_cons (r : Byte × Table (BitVec 32)) (recs : List (Byte × Table (BitVec 32))) :
    contextRecords (r :: recs) = r.1 :: headerBytes r.2 ++ contextRecords recs := rfl

/-- All the records, no context twice (R241). -/
theorem readRecords_ok {s₀ : State} (hf : s₀.io.failIn = []) :
    ∀ (recs done : List (Byte × Table (BitVec 32))) {s : State}
    {l : List Byte}, s₀.Recorded s done → ((done ++ recs).map Prod.fst).Nodup → s.io.Sound →
    s.io.rest = contextRecords recs ++ l → ∃ t, Run.times recs.length readRecord s = .ok () t ∧
      s₀.Recorded t (done ++ recs) ∧ t.io.rest = l ∧ t.io.Sound
  | [], done, s, l, h, _, hs, hr => ⟨s, rfl, by rwa [List.append_nil], hr, hs⟩
  | r :: recs, done, s, l, h, hn, hs, hr => by
    rw [contextRecords_cons, List.append_assoc] at hr
    have hnew : r.1 ∉ done.map Prod.fst := by
      rw [List.map_append, List.map_cons, List.nodup_append] at hn
      exact fun hmem => hn.2.2 _ hmem _ (List.mem_cons_self ..) rfl
    obtain ⟨t, ht, hrec, hrest, hsound⟩ := readRecord_ok h hnew ((State.unrecorded_failIn h.same).trans hf) hs hr
    obtain ⟨u, hu, hrec', hrest', hsound'⟩ := readRecords_ok hf recs (done ++ [r]) hrec
      (by rwa [List.append_assoc]) hsound
      hrest
    rw [List.append_assoc] at hrec'
    exact ⟨u, by rw [List.length_cons, Run.times_succ, Run.bind_ok ht, hu], hrec', hrest', hsound'⟩

/-- No context twice: at most 256 records. -/
theorem records_length {recs : List (Byte × Table (BitVec 32))} (h : (recs.map Prod.fst).Nodup) :
    recs.length ≤ 256 := by
  have hnat : ((recs.map Prod.fst).map BitVec.toNat).Nodup := h.map fun _ _ he => BitVec.eq_of_toNat_eq he
  have hlt : ∀ k ∈ (recs.map Prod.fst).map BitVec.toNat, k < 256 := fun k hk => by
    obtain ⟨c, _, rfl⟩ := List.mem_map.1 hk
    exact c.isLt
  simpa only [List.length_map] using nodup_length_le hnat hlt

/-- `ReadContextHeader()` (R241) over a whole context header: what it leaves for the models. -/
theorem readContextHeader_ok {s : State} {f : Table (BitVec 32)} {recs : List (Byte × Table (BitVec 32))}
    {p : List Byte} (hf : s.io.failIn = []) (hs : s.io.Sound) (hn : (recs.map Prod.fst).Nodup)
    (hr : s.io.rest = contextHeader f recs ++ p) : ∃ s₀ t : State, readContextHeader s = .ok () t ∧ s₀.Recorded t recs ∧
      t.io.rest = p ∧ t.io.Sound ∧ (∀ k, k < 256 → freqGet t.freq k = freqGet f k) ∧ t.w.total.toNat = freqSum f ∧
      t.io.failIn = [] ∧ t.io.failOut = s.io.failOut ∧ t.io.outRev = s.io.outRev ∧ t.io.outLen = s.io.outLen := by
  have hlen := records_length hn
  obtain ⟨x, hx, hin, _⟩ := eachCtx_ok (fun e => { e with present := false }) (List.range 256) s List.nodup_range
  rw [contextHeader, List.append_assoc, List.append_assoc] at hr
  obtain ⟨t, ht, hrest, hsound, hget, htotal, hsame⟩ := readHeader_ok f (s := s.setCtx x) hf hs hr
  obtain ⟨q, k, hio⟩ : ∃ q k, t.io = { s.io with inPos := q, inAcc := k } :=
    ⟨t.io.inPos, t.io.inAcc, by rw [hsame]; rfl⟩
  have hctx : t.ctx = x := by rw [hsame]; rfl
  have hft : t.io.failIn = [] := by rw [hio]; exact hf
  obtain ⟨hread, hrest', hsound'⟩ := memRead_ok hft hsound hrest
  rw [leBytes_length, leValue_leBytes 8 recs.length (by omega)] at hread
  rw [leBytes_length] at hrest' hsound'
  obtain ⟨u, hu⟩ : ∃ u, u = (t.advancedBy 8).setW { t.w with nctx := BitVec.ofNat 9 recs.length } := ⟨_, rfl⟩
  have huio : u.io = (t.advancedBy 8).io := by rw [hu]; rfl
  have hfu : u.io.failIn = [] := by rw [huio]; exact hft
  have hstart : u.Recorded u [] := ⟨fun c _ => by
    have huctx : u.ctx = x := by rw [hu]; exact hctx
    rw [huctx, hin _ (List.mem_range.2 c.isLt)], by simp, rfl⟩
  obtain ⟨v, hv, hrec, hrest'', hsound''⟩ := readRecords_ok hfu recs [] hstart hn (by rw [huio]; exact hsound')
    (by rw [huio]; exact hrest')
  have hwrite : writeNctx recs.length (t.advancedBy 8) = .ok () u := by
    rw [writeNctx, Run.update_apply, if_pos (by omega), hu]
    rfl
  have hsum := freqSum_lt f
  have hfreq : v.freq = t.freq := (congrArg State.freq hrec.same : _).trans (by rw [hu]; rfl)
  have htot : v.w.total = t.w.total := (congrArg (fun x : State => x.w.total) hrec.same : _).trans (by rw [hu]; rfl)
  have hout : ∀ {α : Type} (g : Streams → α), (∀ x p n, g { x with inPos := p, inAcc := n } = g x) → g v.io = g s.io :=
    fun g hg => by
      have h1 : g v.io = g u.io := by
        rw [← hg v.io 0 0, ← hg u.io 0 0]
        exact congrArg (fun x : State => g x.io) hrec.same
      rw [h1, huio]
      exact (hg t.io _ _).trans (by rw [hio, hg])
  refine ⟨u, v, ?_, hrec, hrest'', hsound'', by rw [hfreq]; exact hget, ?_, (hout (·.failIn) fun _ _ _ => rfl).trans hf,
    hout (·.failOut) fun _ _ _ => rfl, hout (·.outRev) fun _ _ _ => rfl, hout (·.outLen) fun _ _ _ => rfl⟩
  · rw [readContextHeader, Run.bind_ok hx, Run.bind_ok ht, Run.bind_ok hread, Run.bind_ok hwrite,
      decide_eq_true hlen, Run.require_true_bind, hv]
  · rw [htot, htotal, freqSum_congr hget, BitVec.toNat_ofNat]
    omega

/-! ### Context payloads behind any header -/

/-- The models of a context header stand in the engine (R241, R242). -/
structure State.RecordModels (s : State) (f : Table (BitVec 32)) (recs : List (Byte × Table (BitVec 32))) : Prop where
  main : s.main.Models (huffmanOf f)
  absent : ∀ c : Byte, c ∉ recs.map Prod.fst → (ctxGet s.ctx c.toNat).present = false
  there : ∀ r ∈ recs, (ctxGet s.ctx r.1.toNat).present = true ∧ (ctxGet s.ctx r.1.toNat).model.Models (huffmanOf r.2)

theorem huffmanOf_congr {f g : Table (BitVec 32)} (h : ∀ k, k < 256 → freqGet f k = freqGet g k) :
    huffmanOf f = huffmanOf g := by rw [huffmanOf, distribution_congr h, huffmanOf]

/-- `DEC.CONTEXT` (R240) behind a header with any tables in any order: their models, and the payload's bits. -/
theorem contextDecompress_enters {s : State} {f : Table (BitVec 32)} {recs : List (Byte × Table (BitVec 32))}
    {p : List Byte} (hs : s.Served) (hn : (recs.map Prod.fst).Nodup) (hr : s.io.rest = contextHeader f recs ++ p) :
    ∃ w, s.Enters w .decContext decodeContextLoop (freqSum f) ∧ w.RecordModels f recs ∧
      w.Decoding w [] (payloadBits p) ∧ w.w.prev.toNat = Config.prevNone := by
  obtain ⟨hready, ⟨hin, hout, _⟩, hsound⟩ := hs
  obtain ⟨s₀, t, ht, hrec, hrest, hsound', hget, htotal, hfi, hfo, hor, hol⟩ := readContextHeader_ok
    (s := s.streamStart.setPhase .hdrRd) hin hsound hn hr
  obtain ⟨v, hv, hm⟩ := buildAllModels_ok (t.setPhase .build)
  obtain ⟨w, hw⟩ : ∃ w, w = (v.setPhase .dec).setW { v.w with nsym := 0, icnt := 0, prev := 256 } := ⟨_, rfl⟩
  have hvio : v.io = t.io := (congrArg State.io hm.same :)
  have hvtotal : v.w.total = t.w.total := (congrArg (fun x : State => x.w.total) hm.same :)
  have hN : w.w.total.toNat = freqSum f := by
    rw [hw]
    exact (congrArg BitVec.toNat hvtotal).trans htotal
  have hunread : w.unread = payloadBits p := by
    rw [hw]
    show lowBits _ 0 ++ v.io.rest.flatMap byteBits = _
    rw [hvio, hrest]
    rfl
  refine ⟨w, ⟨?_, by rw [hw]; rfl, ?_, hN, ?_⟩, ⟨?_, fun c hc => ?_, fun r hr => ?_⟩, ?_, by rw [hw]; rfl⟩
  · show contextDecompress s.streamStart = _
    rw [contextDecompress, setPhase_bind, Run.bind_ok ht, contextRebuild, setPhase_bind, Run.bind_ok hv, setPhase_bind,
      decodeContextPayload, setW_bind, Run.read_bind, ← hN, hw]
    rfl
  · refine (State.Appended.refl s).congr ⟨rfl, rfl⟩ ?_
    rw [hw]
    show v.io.outRev = _ ∧ v.io.outLen = _
    rw [hvio]
    exact ⟨hor, hol⟩
  · rw [hw]
    show v.io.failOut = []
    rw [hvio, hfo]
    exact hout
  · rw [hw, ← huffmanOf_congr hget]
    exact hm.main
  · rw [hw]
    exact (hm.present c.toNat).trans (hrec.absent c hc)
  · obtain ⟨hpres, hfreq⟩ := hrec.there r hr
    rw [hw, ← huffmanOf_congr hfreq]
    exact ⟨(hm.present _).trans hpres, hm.model _ r.1.isLt hpres⟩
  · rw [← hunread]
    refine .start ⟨?_, ?_, ?_⟩ ?_ <;> rw [hw]
    · exact hvio ▸ hfi
    · exact hvio ▸ hsound'
    · exact Nat.zero_le _
    · rfl

/-- A decoded symbol of a context payload is written and counted, and is the next one's context (R242). -/
def noteContextSymbol (b : Byte) : Eng Unit := do
  outWrite b
  setW (fun w => { w with prev := b.setWidth 9 })
  bumpNsym

theorem decodeContextLoop_decodes : Decodes decodeContextLoop decodeContextSymbol noteContextSymbol where
  more n s h := by
    rw [decodeContextLoop, Run.read_bind, if_pos (decide_eq_true h)]
    simp only [noteContextSymbol, bind_assoc]
  done n s h := by
    rw [decodeContextLoop, Run.read_bind, if_neg (by rwa [decide_eq_true_eq])]
    rfl

/-- The decoder stands behind the symbols `L` of a context payload. -/
structure State.ContextDecoding (s₀ s : State) (L : List Byte) (r : Bits) : Prop where
  decoding : s₀.Decoding s L r
  prev : s.w.prev.toNat = (L.getLast?.map BitVec.toNat).getD Config.prevNone

theorem toNat_ne_prevNone (a : Byte) : a.toNat ≠ Config.prevNone := by
  have := a.isLt
  rw [prevNone_eq]
  omega

/-- A context without a record raises MALFORMED_CONTEXT (R242). -/
theorem decodeContextSymbol_absent {s : State} {a : Byte} (hp : s.w.prev.toNat = a.toNat)
    (h : (ctxGet s.ctx a.toNat).present = false) :
    decodeContextSymbol s = .error (.raise .malformedContext) s := by
  rw [decodeContextSymbol, Run.read_bind, hp, if_neg (toNat_ne_prevNone a), Run.read_bind, h]
  rfl

/-- Where the symbol before has a record, or there is none before, the next is walked to in its tree (R242). -/
theorem decodeContextSymbol_walks {s : State} {f : Table (BitVec 32)} {recs : List (Byte × Table (BitVec 32))}
    {last : Option Byte} (hm : s.RecordModels f recs)
    (hp : s.w.prev.toNat = (last.map BitVec.toNat).getD Config.prevNone)
    (hlast : ∀ a, last = some a → a ∈ recs.map Prod.fst) : ∃ M : TreeMem, M.Models (contextTree f recs last) ∧
      decodeContextSymbol s = walkSymbol M.tree M.root s := by
  cases last with
  | none =>
    have hp' : s.w.prev.toNat = Config.prevNone := hp
    exact ⟨s.main, hm.main, by rw [decodeContextSymbol, Run.read_bind, if_pos hp']; rfl⟩
  | some a =>
    have hp' : s.w.prev.toNat = a.toNat := hp
    cases hfind : recs.find? (fun r => r.1 == a) with
    | none =>
      obtain ⟨r, hr, hra⟩ := List.mem_map.1 (hlast a rfl)
      exact absurd (beq_iff_eq.2 hra) (List.find?_eq_none.1 hfind r hr)
    | some r =>
      have hra : r.1 = a := beq_iff_eq.1 (List.find?_some (p := fun r : Byte × Table (BitVec 32) => r.1 == a) hfind)
      obtain ⟨hpres, hmodel⟩ := hm.there r (List.mem_of_find?_eq_some hfind)
      rw [hra] at hpres hmodel
      refine ⟨(ctxGet s.ctx a.toNat).model, by rw [contextTree, hfind]; exact hmodel, ?_⟩
      rw [decodeContextSymbol, Run.read_bind, hp', if_neg (toNat_ne_prevNone a), Run.read_bind, hpres]
      rfl

/-- A tree with a leaf has its record. -/
theorem contextTree_record {f : Table (BitVec 32)} {recs : List (Byte × Table (BitVec 32))} {last : Option Byte}
    (h : contextTree f recs last ≠ .dead) : ∀ a, last = some a → a ∈ recs.map Prod.fst := by
  rintro a rfl
  cases hfind : recs.find? (fun r => r.1 == a) with
  | none => exact absurd (by rw [contextTree, hfind]) h
  | some r =>
    have hra : r.1 = a := beq_iff_eq.1 (List.find?_some (p := fun r : Byte × Table (BitVec 32) => r.1 == a) hfind)
    exact hra ▸ List.mem_map_of_mem (List.mem_of_find?_eq_some hfind)

section
variable {s₀ s : State} {f : Table (BitVec 32)} {recs : List (Byte × Table (BitVec 32))} {L : List Byte} {r : Bits}

theorem State.ContextDecoding.models (h : s₀.ContextDecoding s L r) (hm : s₀.RecordModels f recs) :
    s.RecordModels f recs :=
  ⟨by rw [h.decoding.main]; exact hm.main, by rw [h.decoding.ctx]; exact hm.absent,
    by rw [h.decoding.ctx]; exact hm.there⟩

theorem noteContextSymbol_ok (h : s₀.Decoding s L r) (hf : s₀.io.failOut = []) (b : Byte)
    (hn : L.length < s₀.w.total.toNat) : ∃ t, noteContextSymbol b s = .ok () t ∧ s₀.ContextDecoding t (L ++ [b]) r := by
  obtain ⟨v, hv⟩ : ∃ v, v = s.setW { s.w with prev := b.setWidth 9 } := ⟨_, rfl⟩
  have hd : s₀.Decoding v L r := by
    rw [hv]
    exact ⟨⟨h.parses.honest, h.parses.sound, h.parses.held⟩, h.unread, h.out.congr ⟨rfl, rfl⟩ ⟨rfl, rfl⟩,
      h.count, h.same⟩
  obtain ⟨hb, hd'⟩ := hd.wrote b hn
  refine ⟨(v.wrote b).setW { v.w with nsym := v.w.nsym + 1 }, ?_, hd', ?_⟩
  · rw [noteContextSymbol, Run.bind_ok (outWrite_ok (h.failOut.trans hf) b), setW_bind, ← hb, hv]
    rfl
  · have := b.isLt
    rw [List.getLast?_concat, hv]
    show (b.setWidth 9).toNat = b.toNat
    rw [BitVec.toNat_setWidth]
    omega

/-- `DecodeContextPayload()`'s loop (R242) over bits that code `L`. -/
theorem decodeContextLoop_run {N : Nat} {c : Bits} (hm : s₀.RecordModels f recs) (hf : s₀.io.failOut = [])
    (hN : s₀.w.total.toNat = N) (n : Nat) (hs : s₀.ContextDecoding s₀ [] (c ++ r))
    (hL : ContextBits (contextTree f recs) none L c) (hle : L.length ≤ N) :
    ∃ t, decodeContextLoop (L.length + n) s₀ = decodeContextLoop n t ∧ s₀.ContextDecoding t L r := by
  refine decodeContextLoop_decodes.run (tree := contextTree f recs) (N := N)
    (I := fun done r s => s₀.ContextDecoding s done r)
    (fun done r s h => ⟨h.decoding.count, by rw [h.decoding.total, hN]⟩) (fun done b c r s h hc hn => ?_) n L [] hs hL
    (by simpa using hle)
  obtain ⟨M, hM, hsym⟩ := decodeContextSymbol_walks (h.models hm) h.prev
    (contextTree_record fun hdead => by rw [hdead] at hc; cases hc)
  obtain ⟨t, ht, hu, hp, hw⟩ := walkSymbol_code hM hc h.decoding.parses h.decoding.unread
  obtain ⟨u, hu', hd⟩ := noteContextSymbol_ok (h.decoding.walked hu hp hw) hf b (by rwa [hN])
  exact ⟨t, u, hsym.trans ht, hu', hd⟩

end

end Sys2Proof.Machine
end

section

namespace Sys2Proof.Machine

/-- `DEC.CONTEXT` where all symbols are there (R242, R345). -/
theorem contextDecompress_accepts {s : State} {f : Table (BitVec 32)} {recs : List (Byte × Table (BitVec 32))}
    {p L : List Byte} {c r : Bits} (hs : s.Served) (hn : (recs.map Prod.fst).Nodup)
    (hr : s.io.rest = contextHeader f recs ++ p) (hL : ContextBits (contextTree f recs) none L c)
    (hbits : payloadBits p = c ++ r) (hlen : L.length = freqSum f) :
    ∃ t, exec .decContext s = .next t ∧ s.Ended t ∧ s.Appended t L := by
  obtain ⟨w, hw, hm, hd, hprev⟩ := contextDecompress_enters hs hn hr
  rw [hbits] at hd
  obtain ⟨t, ht, hdt⟩ := decodeContextLoop_run hm hw.failOut hw.total 1 ⟨hd, hprev⟩ hL hlen.le
  exact decoder_ends rfl decodeContextLoop_decodes hs.1 hw hlen ht hdt.decoding

/-- `DEC.CONTEXT` where the symbol behind `L` raises a fault (R242, R345). -/
theorem contextDecompress_traps {s : State} {f : Table (BitVec 32)} {recs : List (Byte × Table (BitVec 32))}
    {p L : List Byte} {c r : Bits} {e : FaultCode} (hs : s.Served) (hn : (recs.map Prod.fst).Nodup)
    (hr : s.io.rest = contextHeader f recs ++ p) (hL : ContextBits (contextTree f recs) none L c)
    (hbits : payloadBits p = c ++ r) (hlt : L.length < freqSum f)
    (hfault : ∀ {w t : State}, w.ContextDecoding t L r → t.RecordModels f recs →
      ∃ u, decodeContextSymbol t = .error (.raise e) u ∧ u.unwalked = t.unwalked ∧
        (e = .malformedTruncated → u.io.rest = [] ∧ u.io.Sound)) :
    ∃ t, exec .decContext s = .next t ∧ t.Trapped e .dec ∧ s.Appended t L ∧ (e = .malformedTruncated → t.Drained) := by
  obtain ⟨w, hw, hm, hd, hprev⟩ := contextDecompress_enters hs hn hr
  rw [hbits] at hd
  obtain ⟨t, ht, hdt⟩ := decodeContextLoop_run hm hw.failOut hw.total (freqSum f - L.length + 1) ⟨hd, hprev⟩ hL hlt.le
  obtain ⟨u, hu, hun, hend⟩ := hfault hdt (hdt.models hm)
  obtain ⟨v, hv, htrap, happ, hio⟩ := decoder_traps (i := .decContext) rfl decodeContextLoop_decodes hs.1 hw hlt ht
    hdt.decoding hu hun
  refine ⟨v, hv, htrap, happ, fun he => ?_⟩
  rw [State.Drained, hio]
  exact Streams.drained (hend he).2 (hend he).1

/-- The statement on `DEC.CONTEXT`: the next symbol's tree, if it has one, decides the fault. -/
theorem contextDecompress_payload {s : State} {f : Table (BitVec 32)} {recs : List (Byte × Table (BitVec 32))}
    {p L : List Byte} {c r : Bits} (hs : s.Served) (hn : (recs.map Prod.fst).Nodup)
    (hr : s.io.rest = contextHeader f recs ++ p) (hL : ContextBits (contextTree f recs) none L c)
    (hbits : payloadBits p = c ++ r) (hlt : L.length < freqSum f) :
    ((∃ w ∈ (contextTree f recs L.getLast?).paths, r <+: w.2 ∧ r.length < w.2.length) →
      ∃ t, exec .decContext s = .next t ∧ t.Trapped .malformedTruncated .dec ∧ s.Appended t L ∧ t.Drained) ∧
    (∀ b q, contextTree f recs L.getLast? = degenerateShape b → r = true :: q →
      ∃ t, exec .decContext s = .next t ∧ t.Trapped .malformedPath .dec ∧ s.Appended t L) ∧
    (∀ b, L.getLast? = some b → b ∉ recs.map Prod.fst →
      ∃ t, exec .decContext s = .next t ∧ t.Trapped .malformedContext .dec ∧ s.Appended t L) ∧
    (∀ b g, L.getLast? = some b → (b, g) ∈ recs → distribution g = [] →
      ∃ t, exec .decContext s = .next t ∧ t.Trapped .malformedPath .dec ∧ s.Appended t L) := by
  refine ⟨?_, fun b q htree hrq => ?_, fun b hlast hb => ?_, fun b g hlast hmem hg => ?_⟩
  · rintro ⟨w, hw, hpre, hlen⟩
    obtain ⟨t, ht, htrap, happ, hdrain⟩ := contextDecompress_traps (e := .malformedTruncated) hs hn hr hL hbits hlt
      fun {_ t} hd hm => by
        obtain ⟨M, hM, hsym⟩ := decodeContextSymbol_walks hm hd.prev
          (contextTree_record fun hdead => by rw [hdead] at hw; cases hw)
        obtain ⟨u, hu, hun, hend⟩ := walkSymbol_cut hM hw hpre hlen hd.decoding.parses hd.decoding.unread
        exact ⟨u, hsym.trans hu, hun, fun _ => hend⟩
    exact ⟨t, ht, htrap, happ, hdrain rfl⟩
  · obtain ⟨t, ht, htrap, happ, _⟩ := contextDecompress_traps (e := .malformedPath) hs hn hr hL hbits hlt
      fun {_ t} hd hm => by
        obtain ⟨M, hM, hsym⟩ := decodeContextSymbol_walks hm hd.prev
          (contextTree_record fun hdead => by rw [hdead] at htree; cases htree)
        rw [htree] at hM
        obtain ⟨u, hu, hun⟩ := walkSymbol_astray hM hd.decoding.parses (hd.decoding.unread.trans hrq)
        exact ⟨u, hsym.trans hu, hun, by rintro ⟨⟩⟩
    exact ⟨t, ht, htrap, happ⟩
  · obtain ⟨t, ht, htrap, happ, _⟩ := contextDecompress_traps (e := .malformedContext) hs hn hr hL hbits hlt
      fun {_ t} hd hm => by
        have hprev := hd.prev
        rw [hlast] at hprev
        exact ⟨t, decodeContextSymbol_absent hprev (hm.absent b hb), rfl, by rintro ⟨⟩⟩
    exact ⟨t, ht, htrap, happ⟩
  · have hrec : b ∈ recs.map Prod.fst := List.mem_map_of_mem (f := Prod.fst) hmem
    have hempty : contextTree f recs (some b) = .dead := by
      cases hfind : recs.find? (fun r => r.1 == b) with
      | none => rw [contextTree, hfind]
      | some r =>
        have hrb : r.1 = b := beq_iff_eq.1 (List.find?_some (p := fun r : Byte × Table (BitVec 32) => r.1 == b) hfind)
        have hrg : r = (b, g) := List.inj_on_of_nodup_map hn (List.mem_of_find?_eq_some hfind) hmem hrb
        have hdead : huffmanOf g = .dead := by rw [huffmanOf, hg]; rfl
        rw [contextTree, hfind, hrg]
        exact hdead
    obtain ⟨t, ht, htrap, happ, _⟩ := contextDecompress_traps (e := .malformedPath) hs hn hr hL hbits hlt
      fun {_ t} hd hm => by
        obtain ⟨M, hM, hsym⟩ := decodeContextSymbol_walks hm hd.prev fun a ha => by
          rw [hlast] at ha
          cases ha
          exact hrec
        rw [hlast, hempty] at hM
        exact ⟨t, hsym.trans (walkSymbol_empty hM t), rfl, by rintro ⟨⟩⟩
    exact ⟨t, ht, htrap, happ⟩

end Sys2Proof.Machine
end

section

namespace Sys2Proof.Machine

/-! ### The adaptive tree's memory -/

theorem FgkMem.node_setNode (g : FgkMem) (n : Nat) (e : FgkNode) (i : Nat) :
    (g.setNode n e).node i = if i = n then e else g.node i := fgkGet_fgkSet g.nodes n i e

theorem FgkMem.node_modNode (g : FgkMem) (n : Nat) (f : FgkNode → FgkNode) (i : Nat) :
    (g.modNode n f).node i = if i = n then f (g.node i) else g.node i := by
  rw [modNode, node_setNode]
  split
  case isTrue h => rw [h]
  case isFalse => rfl

theorem FgkMem.node_relink (g : FgkMem) (p : Nat) (isLeft : Bool) (c i : Nat) : (g.relink p isLeft c).node i =
    if i = p then (if isLeft then { g.node i with left := some c } else { g.node i with right := some c })
    else g.node i := g.node_modNode p _ i

/-- The weight of a slot, as a number. -/
def FgkMem.wt (g : FgkMem) (i : Nat) : Nat := (g.node i).weight.toNat

/-- The rank of a slot, as a number. -/
def FgkMem.rk (g : FgkMem) (i : Nat) : Nat := (g.node i).rank.toNat

/-- The registers and the leaves are the same. -/
structure FgkMem.SameHeads (g h : FgkMem) : Prop where
  count : h.n = g.n
  root : h.root = g.root
  nyt : h.nyt = g.nyt
  leaf : h.leaf = g.leaf

theorem FgkMem.SameHeads.trans {g h k : FgkMem} (h₁ : g.SameHeads h) (h₂ : h.SameHeads k) : g.SameHeads k :=
  ⟨h₂.count.trans h₁.count, h₂.root.trans h₁.root, h₂.nyt.trans h₁.nyt, h₂.leaf.trans h₁.leaf⟩

/-- The memories differ at most in slots not in use. -/
structure FgkMem.Alike (g h : FgkMem) : Prop where
  heads : g.SameHeads h
  node : ∀ i < g.n.toNat, h.node i = g.node i

theorem FgkMem.Alike.refl (g : FgkMem) : g.Alike g := ⟨⟨rfl, rfl, rfl, rfl⟩, fun _ _ => rfl⟩

/-! ### The leader -/

/-- The scan for the leader over a list of slots, from the candidate `ld` on. -/
def FgkMem.leaderIn (g : FgkMem) (n : Nat) (l : List Nat) (ld : Nat) : Nat :=
  l.foldl (fun ld i => if (g.node i).weight = (g.node n).weight ∧ (g.node ld).rank.toNat < (g.node i).rank.toNat then i
    else ld) ld

theorem fgkLeader_eq (g : FgkMem) (n : Nat) : fgkLeader g n = g.leaderIn n (List.range g.n.toNat) n := rfl

theorem FgkMem.leaderIn_cons (g : FgkMem) (n i : Nat) (l : List Nat) (ld : Nat) : g.leaderIn n (i :: l) ld =
    g.leaderIn n l (if g.wt i = g.wt n ∧ g.rk ld < g.rk i then i else ld) := by
  simp only [leaderIn, List.foldl_cons, wt, rk, BitVec.toNat_inj]

theorem FgkMem.leaderIn_spec (g : FgkMem) (n : Nat) : ∀ (l : List Nat) (ld : Nat), g.wt ld = g.wt n →
    g.wt (g.leaderIn n l ld) = g.wt n ∧ g.rk ld ≤ g.rk (g.leaderIn n l ld) ∧
    ∀ i ∈ l, g.wt i = g.wt n → g.rk i ≤ g.rk (g.leaderIn n l ld)
  | [], _, h => ⟨h, le_rfl, fun _ hi => absurd hi List.not_mem_nil⟩
  | i :: l, ld, h => by
    rw [leaderIn_cons]
    split
    case isTrue hi =>
      obtain ⟨h1, h2, h3⟩ := leaderIn_spec g n l i hi.1
      refine ⟨h1, hi.2.le.trans h2, fun j hj hw => ?_⟩
      rcases List.mem_cons.1 hj with rfl | hj
      · exact h2
      · exact h3 j hj hw
    case isFalse hi =>
      obtain ⟨h1, h2, h3⟩ := leaderIn_spec g n l ld h
      refine ⟨h1, h2, fun j hj hw => ?_⟩
      rcases List.mem_cons.1 hj with rfl | hj
      · exact (not_lt.1 fun hlt => hi ⟨hw, hlt⟩).trans h2
      · exact h3 j hj hw

/-- The leader has the node's weight and the highest rank among the nodes in use of that weight (R257). -/
theorem fgkLeader_spec (g : FgkMem) (n : Nat) : g.wt (fgkLeader g n) = g.wt n ∧ g.rk n ≤ g.rk (fgkLeader g n) ∧
    ∀ i < g.n.toNat, g.wt i = g.wt n → g.rk i ≤ g.rk (fgkLeader g n) := by
  obtain ⟨h1, h2, h3⟩ := g.leaderIn_spec n (List.range g.n.toNat) n rfl
  exact ⟨h1, h2, fun i hi => h3 i (List.mem_range.2 hi)⟩

theorem FgkMem.Alike.leaderIn {g h : FgkMem} (hgh : g.Alike h) {n : Nat} (hn : n < g.n.toNat) : ∀ (l : List Nat)
    (ld : Nat), (∀ i ∈ l, i < g.n.toNat) → ld < g.n.toNat → h.leaderIn n l ld = g.leaderIn n l ld
  | [], _, _, _ => rfl
  | i :: l, ld, hl, hld => by
    have hi : i < g.n.toNat := hl i List.mem_cons_self
    rw [leaderIn_cons, leaderIn_cons]
    simp only [wt, rk, hgh.node i hi, hgh.node n hn, hgh.node ld hld]
    exact hgh.leaderIn hn l _ (fun j hj => hl j (List.mem_cons_of_mem _ hj)) (by split <;> assumption)

theorem FgkMem.Alike.leader {g h : FgkMem} (hgh : g.Alike h) {n : Nat} (hn : n < g.n.toNat) :
    fgkLeader h n = fgkLeader g n := by
  rw [fgkLeader_eq, fgkLeader_eq, hgh.heads.count]
  exact hgh.leaderIn hn _ n (fun _ hi => List.mem_range.1 hi) hn

/-! ### The invariant of the tree: its shape and its weights -/

/-- The clauses of the sibling property (R252) that do not speak of weights; `r` is the root, `y` the `NYT` node. -/
structure FgkMem.Grown (g : FgkMem) (r y : Nat) : Prop where
  small : g.n.toNat ≤ 513
  root : g.root = some r
  root_lt : r < g.n.toNat
  root_parent : (g.node r).parent = none
  root_rank : g.rk r = 512
  low : ∀ i < g.n.toNat, 513 ≤ g.rk i + g.n.toNat
  high : ∀ i < g.n.toNat, g.rk i ≤ 512
  inj : ∀ i < g.n.toNat, ∀ j < g.n.toNat, g.rk i = g.rk j → i = j
  inner : ∀ i < g.n.toNat, (g.node i).kind = .internal →
    ∃ a b, (g.node i).left = some a ∧ (g.node i).right = some b ∧ a < g.n.toNat ∧ b < g.n.toNat ∧
      (g.node a).parent = some i ∧ (g.node b).parent = some i ∧ g.rk a + 1 = g.rk b
  outer : ∀ i < g.n.toNat, (g.node i).kind ≠ .internal → (g.node i).left = none ∧ (g.node i).right = none
  parent : ∀ i < g.n.toNat, i ≠ r → ∃ p, (g.node i).parent = some p ∧ p < g.n.toNat ∧ (g.node p).kind = .internal ∧
    ((g.node p).left = some i ∨ (g.node p).right = some i) ∧ g.rk i < g.rk p
  nyt : g.nyt = some y
  nyt_lt : y < g.n.toNat
  nyt_kind : (g.node y).kind = .nyt
  nyt_rank : g.rk y + g.n.toNat = 513
  nyt_only : ∀ i < g.n.toNat, (g.node i).kind = .nyt → i = y
  nyt_parent : ∀ p, (g.node y).parent = some p → g.rk p = g.rk y + 2
  leaf : ∀ b : Byte, ∀ i, leafGet g.leaf b.toNat = some i ↔
    i < g.n.toNat ∧ (g.node i).kind = .leaf ∧ (g.node i).sym = b

/-- One where `o` is `i`, else 0: what a node still misses while the update of `o` is pending. -/
def missing (o : Option Nat) (i : Nat) : Nat := if o = some i then 1 else 0

/-- The weights while the update of `o` is pending, or of a tree at rest (`none`); `M` is the number of bytes counted,
the pending one included. -/
structure FgkMem.Poised (g : FgkMem) (r y : Nat) (o : Option Nat) (M : Nat) : Prop where
  sorted : ∀ i < g.n.toNat, ∀ j < g.n.toNat, g.rk i < g.rk j → g.wt i ≤ g.wt j
  sums : ∀ i < g.n.toNat, (g.node i).kind = .internal → ∀ a b, (g.node i).left = some a → (g.node i).right = some b →
    g.wt i + missing o i = g.wt a + g.wt b
  nyt : g.wt y = 0
  top : g.wt r + (if o = none then 0 else 1) = M
  bound : M < 2 ^ 64
  pending : ∀ n, o = some n → n < g.n.toNat ∧ n ≠ y ∧ (g.node y).parent ≠ some n

/-- No node but `NYT` has weight 0. -/
def FgkMem.Positive (g : FgkMem) (y : Nat) : Prop := ∀ i < g.n.toNat, g.wt i = 0 → i = y

section
variable {g : FgkMem} {r y : Nat}

/-- The two children of a node: adjacent ranks. -/
theorem FgkMem.Grown.siblings (hg : g.Grown r y) {p c : Nat} (hp : p < g.n.toNat) (hc : c < g.n.toNat)
    (h : (g.node c).parent = some p) :
    ∃ a b, (g.node p).left = some a ∧ (g.node p).right = some b ∧ (g.node p).kind = .internal ∧ a < g.n.toNat ∧
      b < g.n.toNat ∧ (g.node a).parent = some p ∧ (g.node b).parent = some p ∧ g.rk a + 1 = g.rk b ∧
      g.rk b < g.rk p ∧ (c = a ∨ c = b) := by
  have hroot : ∀ i, (g.node i).parent = some p → i ≠ r := by
    rintro i hi rfl
    rw [hg.root_parent] at hi
    cases hi
  obtain ⟨q, hq, _, hkind, hlink, _⟩ := hg.parent c hc (hroot c h)
  obtain rfl : p = q := Option.some.inj (h.symm.trans hq)
  obtain ⟨a, b, ha, hb, ha', hb', hpa, hpb, hab⟩ := hg.inner p hp hkind
  obtain ⟨q, hq, _, _, _, hlt⟩ := hg.parent b hb' (hroot b hpb)
  obtain rfl : p = q := Option.some.inj (hpb.symm.trans hq)
  refine ⟨a, b, ha, hb, hkind, ha', hb', hpa, hpb, hab, hlt, ?_⟩
  rw [ha, hb] at hlink
  exact hlink.imp (fun h => (Option.some.inj h).symm) fun h => (Option.some.inj h).symm

theorem FgkMem.Grown.ne_root (hg : g.Grown r y) {i p : Nat} (h : (g.node i).parent = some p) : i ≠ r := by
  rintro rfl
  rw [hg.root_parent] at h
  cases h

theorem FgkMem.Grown.rank_lt (hg : g.Grown r y) {i p : Nat} (hi : i < g.n.toNat) (h : (g.node i).parent = some p) :
    p < g.n.toNat ∧ (g.node p).kind = .internal ∧ g.rk i < g.rk p := by
  obtain ⟨q, hq, hlt, hkind, _, hrk⟩ := hg.parent i hi (hg.ne_root h)
  obtain rfl : p = q := Option.some.inj (h.symm.trans hq)
  exact ⟨hlt, hkind, hrk⟩

/-- The sibling of the `NYT` node is the node ranked next to it. -/
theorem FgkMem.Grown.nyt_sibling (hg : g.Grown r y) {p c : Nat} (hc : c < g.n.toNat) (hcy : c ≠ y)
    (hy : (g.node y).parent = some p) (h : (g.node c).parent = some p) :
    g.rk c = g.rk y + 1 ∧ (g.node p).left = some y ∧ (g.node p).right = some c := by
  obtain ⟨hp, _, _⟩ := hg.rank_lt hc h
  obtain ⟨a, b, ha, hb, _, ha', _, _, _, hab, _, hor⟩ := hg.siblings hp hc h
  obtain ⟨a₂, b₂, ha₂, hb₂, _, _, _, _, _, _, _, hor₂⟩ := hg.siblings hp hg.nyt_lt hy
  obtain rfl : a = a₂ := Option.some.inj (ha.symm.trans ha₂)
  obtain rfl : b = b₂ := Option.some.inj (hb.symm.trans hb₂)
  have hlow := hg.low a ha'
  have hrank := hg.nyt_rank
  rcases hor₂ with rfl | rfl
  · rcases hor with rfl | rfl
    · exact absurd rfl hcy
    · exact ⟨hab.symm, ha, hb⟩
  · omega

/-- Every node but the root is ranked no higher than a child of the root. -/
theorem FgkMem.Grown.climb (hg : g.Grown r y) (k : Nat) : ∀ i < g.n.toNat, i ≠ r → 512 ≤ g.rk i + k →
    ∃ c < g.n.toNat, (g.node c).parent = some r ∧ g.rk i ≤ g.rk c := by
  induction k with
  | zero =>
    intro i hi hr hk
    exact absurd (hg.inj i hi r hg.root_lt (by rw [hg.root_rank]; exact le_antisymm (hg.high i hi) hk)) hr
  | succ k ih =>
    intro i hi hr hk
    obtain ⟨p, hp, hlt, _, _, hrk⟩ := hg.parent i hi hr
    by_cases h : p = r
    · exact ⟨i, hi, h ▸ hp, le_rfl⟩
    · obtain ⟨c, hc, hcr, hle⟩ := ih p hlt h (by omega)
      exact ⟨c, hc, hcr, hrk.le.trans hle⟩

/-- No weight is above the root's. -/
theorem FgkMem.Poised.le_root {o : Option Nat} {M : Nat} (hw : g.Poised r y o M) (hg : g.Grown r y) {i : Nat}
    (hi : i < g.n.toNat) : g.wt i ≤ g.wt r := by
  by_cases h : i = r
  · rw [h]
  · refine hw.sorted i hi r hg.root_lt (lt_of_le_of_ne (by rw [hg.root_rank]; exact hg.high i hi) fun he => h ?_)
    exact hg.inj i hi r hg.root_lt he

/-- A pending weight can be raised: no weight wraps around. -/
theorem FgkMem.Poised.lt_max {n M : Nat} (hw : g.Poised r y (some n) M) (hg : g.Grown r y) {i : Nat}
    (hi : i < g.n.toNat) : g.wt i + 1 < 2 ^ 64 := by
  have htop := hw.top
  have hle := hw.le_root hg hi
  have hbound := hw.bound
  rw [if_neg (by rintro ⟨⟩)] at htop
  omega

end

end Sys2Proof.Machine
end

section

namespace Sys2Proof.Machine

/-! ### One round of the update: the exchange with the leader -/

/-- What makes the exchange of `a` and `b` harmless to the shape: it moves neither the root nor the `NYT` node nor its
parent, and puts no node below one of its own descendants. -/
structure FgkMem.Places (g : FgkMem) (r y a b : Nat) : Prop where
  lt : a < g.n.toNat
  other_lt : b < g.n.toNat
  le : g.rk a ≤ g.rk b
  below : ∀ c < g.n.toNat, (g.node c).parent = some b → g.rk c < g.rk a
  root : Equiv.swap a b r = r
  nyt : Equiv.swap a b y = y
  nyt_parent : ∀ p, (g.node y).parent = some p → Equiv.swap a b p = p

/-- `b`, the leader of `a`, can change places with it; the next update is not that of the `NYT` node's parent. -/
structure FgkMem.Leads (g : FgkMem) (r y a b : Nat) : Prop extends g.Places r y a b where
  wt : g.wt b = g.wt a
  max : ∀ i < g.n.toNat, g.wt i = g.wt a → g.rk i ≤ g.rk b
  next : ∀ p, (g.node b).parent = some p → (g.node y).parent ≠ some p

section
variable {g : FgkMem} {r y a M : Nat}

theorem FgkMem.Grown.rank_gt_nyt (hg : g.Grown r y) {i : Nat} (hi : i < g.n.toNat) (hne : i ≠ y) : g.rk y < g.rk i := by
  have hlow := hg.low i hi
  have hy := hg.nyt_rank
  exact lt_of_le_of_ne (by omega) fun he => hne (hg.inj i hi y hg.nyt_lt he.symm)

/-- A child of the leader is ranked below the node: else the other child's weight were 0, it were the `NYT` node, and
nothing ranked between it and the child. -/
theorem FgkMem.Poised.below (hw : g.Poised r y (some a) M) (hg : g.Grown r y) (hpos : g.Positive y)
    (hne : (g.node a).parent ≠ some (fgkLeader g a)) {c : Nat} (hc : c < g.n.toNat)
    (h : (g.node c).parent = some (fgkLeader g a)) : g.rk c < g.rk a := by
  obtain ⟨ha, hay, _⟩ := hw.pending a rfl
  obtain ⟨hwt, hle, _⟩ := fgkLeader_spec g a
  have hblt := fgkLeader_lt ha le_rfl
  generalize fgkLeader g a = b at *
  obtain ⟨x, z, hx, hz, hkind, hx', hz', hpx, hpz, hxz, hzb, hor⟩ := hg.siblings hblt hc h
  by_contra hge
  have hac : g.rk a < g.rk c := lt_of_le_of_ne (not_lt.1 hge) fun he => hne (hg.inj a ha c hc he ▸ h)
  have hsum := hw.sums b hblt hkind x z hx hz
  have hsorted := hw.sorted a ha c hc hac
  have hlt := (hg.rank_lt hc h).2.2
  have hab : missing (some a) b = 0 := if_neg fun he => by cases he; omega
  have hother : ∀ d < g.n.toNat, (g.node d).parent = some b → g.wt d = 0 → d ≠ c → False := by
    intro d hd hpd hzero hdc
    obtain rfl := hpos d hd hzero
    have := (hg.nyt_sibling hc hdc.symm hpd h).1
    have := hg.rank_gt_nyt ha hay
    omega
  rcases hor with rfl | rfl
  · exact hother z hz' hpz (by omega) (by rintro rfl; omega)
  · exact hother x hx' hpx (by omega) (by rintro rfl; omega)

/-- The leader, where it is not the node's parent, can change places with the node. -/
theorem FgkMem.Poised.leads (hw : g.Poised r y (some a) M) (hg : g.Grown r y) (hpos : g.Positive y)
    (hne : (g.node a).parent ≠ some (fgkLeader g a)) : g.Leads r y a (fgkLeader g a) := by
  have hbelow := fun c hc => hw.below hg hpos hne (c := c) hc
  obtain ⟨ha, hay, hpa⟩ := hw.pending a rfl
  obtain ⟨hwt, hle, hmax⟩ := fgkLeader_spec g a
  have hblt := fgkLeader_lt ha le_rfl
  generalize fgkLeader g a = b at *
  have hgt := hg.rank_gt_nyt ha hay
  have hby : b ≠ y := by rintro rfl; omega
  have hroot : Equiv.swap a b r = r := by
    by_cases har : a = r
    · have hbr : b = a := hg.inj b hblt a ha (le_antisymm (by rw [har, hg.root_rank]; exact hg.high b hblt) hle)
      rw [hbr, Equiv.swap_self]
      rfl
    · refine Equiv.swap_apply_of_ne_of_ne (Ne.symm har) fun hbr => ?_
      obtain ⟨c, hc, hcr, hac⟩ := hg.climb 512 a ha har (by omega)
      exact absurd (hbelow c hc (hbr ▸ hcr)) (not_lt.2 hac)
  have hparent : ∀ p, (g.node y).parent = some p → p ≠ b := by
    rintro p hp rfl
    have hrank := hg.nyt_parent p hp
    obtain ⟨hplt, hkind, _⟩ := hg.rank_lt hg.nyt_lt hp
    obtain ⟨x, z, hx, hz, _, hx', hz', hpx, hpz, hxz, _, hor⟩ := hg.siblings hplt hg.nyt_lt hp
    have hlow := hg.rank_gt_nyt hz'
    have hz1 := hbelow z hz' hpz
    have hx1 := hg.low x hx'
    have hy1 := hg.nyt_rank
    obtain rfl : a = p := hg.inj a ha p hplt (by omega)
    exact hpa hp
  refine ⟨⟨ha, hblt, hle, hbelow, hroot, Equiv.swap_apply_of_ne_of_ne (Ne.symm hay) (Ne.symm hby), fun p hp =>
    Equiv.swap_apply_of_ne_of_ne ?_ (hparent p hp)⟩, hwt, hmax, fun p hp hyp => ?_⟩
  · rintro rfl
    exact hpa hp
  · obtain ⟨hplt, hkind, hlt⟩ := hg.rank_lt hblt hp
    obtain ⟨hrank, hl, hr⟩ := hg.nyt_sibling hblt hby hyp hp
    obtain rfl : a = b := hg.inj a ha b hblt (by omega)
    have hsum := hw.sums p hplt hkind y a hl hr
    have hmiss : missing (some a) p = 0 := if_neg fun he => by cases he; omega
    have := hmax p hplt (by have := hw.nyt; omega)
    omega

end

/-! ### The node after the round -/

/-- Slot `i` after `a` has changed places with `b` and has been counted. -/
def FgkMem.raised (g : FgkMem) (a b i : Nat) : FgkNode :=
  { weight := if i = a then (g.node i).weight + 1 else (g.node i).weight
    rank := (g.node (Equiv.swap a b i)).rank
    kind := (g.node i).kind
    sym := (g.node i).sym
    parent := (g.node (Equiv.swap a b i)).parent
    left := (g.node i).left.map (Equiv.swap a b)
    right := (g.node i).right.map (Equiv.swap a b) }

/-- `h` is `g` after `a` has changed places with `b` and has been counted. -/
structure FgkMem.Raised (g h : FgkMem) (a b : Nat) : Prop where
  heads : g.SameHeads h
  node : ∀ i < g.n.toNat, h.node i = g.raised a b i

section
variable {g h : FgkMem} {r y a b M : Nat}

/-- A node in use can stay where it is. -/
theorem FgkMem.Grown.stays (hg : g.Grown r y) (ha : a < g.n.toNat) : g.Places r y a a where
  lt := ha
  other_lt := ha
  le := le_rfl
  below c hc hp := (hg.rank_lt hc hp).2.2
  root := by rw [Equiv.swap_self]; rfl
  nyt := by rw [Equiv.swap_self]; rfl
  nyt_parent p _ := by rw [Equiv.swap_self]; rfl

theorem FgkMem.Places.swap_lt (hl : g.Places r y a b) {i : Nat} (hi : i < g.n.toNat) :
    Equiv.swap a b i < g.n.toNat := by
  rw [Equiv.swap_apply_def]
  split
  · exact hl.other_lt
  · split
    · exact hl.lt
    · exact hi

theorem FgkMem.Leads.wt_swap (hl : g.Leads r y a b) (i : Nat) : g.wt (Equiv.swap a b i) = g.wt i := by
  rw [Equiv.swap_apply_def]
  split
  case isTrue h => rw [h, hl.wt]
  case isFalse =>
    split
    case isTrue h => rw [h, hl.wt]
    case isFalse => rfl

/-- A node stays ranked below its parent when that changes places. -/
theorem FgkMem.Places.rk_lt_swap (hl : g.Places r y a b) {i p : Nat} (hi : i < g.n.toNat)
    (hp : (g.node i).parent = some p) (hlt : g.rk i < g.rk p) : g.rk i < g.rk (Equiv.swap a b p) := by
  rw [Equiv.swap_apply_def]
  split
  case isTrue h => exact hlt.trans_le (h ▸ hl.le)
  case isFalse =>
    split
    case isTrue h => exact hl.below i hi (h ▸ hp)
    case isFalse => exact hlt

theorem FgkMem.Raised.rk (hr : g.Raised h a b) {i : Nat} (hi : i < g.n.toNat) : h.rk i = g.rk (Equiv.swap a b i) :=
  (congrArg (fun e : FgkNode => e.rank.toNat) (hr.node i hi) :)

theorem FgkMem.Raised.parent (hr : g.Raised h a b) {i : Nat} (hi : i < g.n.toNat) :
    (h.node i).parent = (g.node (Equiv.swap a b i)).parent := (congrArg FgkNode.parent (hr.node i hi) :)

theorem FgkMem.Raised.kind (hr : g.Raised h a b) {i : Nat} (hi : i < g.n.toNat) : (h.node i).kind = (g.node i).kind :=
  (congrArg FgkNode.kind (hr.node i hi) :)

theorem FgkMem.Raised.sym (hr : g.Raised h a b) {i : Nat} (hi : i < g.n.toNat) : (h.node i).sym = (g.node i).sym :=
  (congrArg FgkNode.sym (hr.node i hi) :)

theorem FgkMem.Raised.left (hr : g.Raised h a b) {i : Nat} (hi : i < g.n.toNat) :
    (h.node i).left = (g.node i).left.map (Equiv.swap a b) := (congrArg FgkNode.left (hr.node i hi) :)

theorem FgkMem.Raised.right (hr : g.Raised h a b) {i : Nat} (hi : i < g.n.toNat) :
    (h.node i).right = (g.node i).right.map (Equiv.swap a b) := (congrArg FgkNode.right (hr.node i hi) :)

theorem FgkMem.Raised.wt (hr : g.Raised h a b) (ha : g.wt a + 1 < 2 ^ 64) {i : Nat} (hi : i < g.n.toNat) :
    h.wt i = g.wt i + if i = a then 1 else 0 := by
  rw [FgkMem.wt, hr.node i hi, raised, FgkMem.wt]
  split
  case isTrue he =>
    rw [he, BitVec.toNat_add]
    exact Nat.mod_eq_of_lt ha
  case isFalse => rfl

/-- The round keeps the shape. -/
theorem FgkMem.Grown.raised (hg : g.Grown r y) (hl : g.Places r y a b) (hr : g.Raised h a b) : h.Grown r y := by
  have hn : h.n = g.n := hr.heads.count
  have hlt : ∀ {i}, i < g.n.toNat → Equiv.swap a b i < g.n.toNat := fun hi => hl.swap_lt hi
  constructor
  case small => rw [hn]; exact hg.small
  case root => rw [hr.heads.root]; exact hg.root
  case root_lt => rw [hn]; exact hg.root_lt
  case root_parent => rw [hr.parent hg.root_lt, hl.root]; exact hg.root_parent
  case root_rank => rw [hr.rk hg.root_lt, hl.root]; exact hg.root_rank
  case low => rw [hn]; intro i hi; rw [hr.rk hi]; exact hg.low _ (hlt hi)
  case high => rw [hn]; intro i hi; rw [hr.rk hi]; exact hg.high _ (hlt hi)
  case inj =>
    rw [hn]
    intro i hi j hj hij
    rw [hr.rk hi, hr.rk hj] at hij
    exact (Equiv.swap a b).injective (hg.inj _ (hlt hi) _ (hlt hj) hij)
  case inner =>
    rw [hn]
    intro i hi hkind
    rw [hr.kind hi] at hkind
    obtain ⟨x, z, hx, hz, hx', hz', hpx, hpz, hxz⟩ := hg.inner i hi hkind
    refine ⟨Equiv.swap a b x, Equiv.swap a b z, by rw [hr.left hi, hx]; rfl, by rw [hr.right hi, hz]; rfl, hlt hx',
      hlt hz', ?_, ?_, ?_⟩
    · rw [hr.parent (hlt hx'), Equiv.swap_apply_self, hpx]
    · rw [hr.parent (hlt hz'), Equiv.swap_apply_self, hpz]
    · rw [hr.rk (hlt hx'), hr.rk (hlt hz'), Equiv.swap_apply_self, Equiv.swap_apply_self, hxz]
  case outer =>
    rw [hn]
    intro i hi hkind
    rw [hr.kind hi] at hkind
    obtain ⟨h1, h2⟩ := hg.outer i hi hkind
    rw [hr.left hi, hr.right hi, h1, h2]
    exact ⟨rfl, rfl⟩
  case parent =>
    rw [hn]
    intro i hi hir
    have hir' : Equiv.swap a b i ≠ r := fun he => hir (by rw [← hl.root, ← he, Equiv.swap_apply_self])
    obtain ⟨p, hp, hplt, hkind, hlink, hrk⟩ := hg.parent _ (hlt hi) hir'
    refine ⟨p, by rw [hr.parent hi, hp], hplt, by rw [hr.kind hplt, hkind], ?_, ?_⟩
    · rw [hr.left hplt, hr.right hplt]
      exact hlink.imp (fun he => by rw [he, Option.map_some, Equiv.swap_apply_self])
        fun he => by rw [he, Option.map_some, Equiv.swap_apply_self]
    · rw [hr.rk hi, hr.rk hplt]
      exact hl.rk_lt_swap (hlt hi) hp hrk
  case nyt => rw [hr.heads.nyt]; exact hg.nyt
  case nyt_lt => rw [hn]; exact hg.nyt_lt
  case nyt_kind => rw [hr.kind hg.nyt_lt]; exact hg.nyt_kind
  case nyt_rank => rw [hn, hr.rk hg.nyt_lt, hl.nyt]; exact hg.nyt_rank
  case nyt_only =>
    rw [hn]
    intro i hi hkind
    exact hg.nyt_only i hi (by rw [← hr.kind hi, hkind])
  case nyt_parent =>
    intro p hp
    rw [hr.parent hg.nyt_lt, hl.nyt] at hp
    rw [hr.rk (hg.rank_lt hg.nyt_lt hp).1, hr.rk hg.nyt_lt, hl.nyt, hl.nyt_parent p hp]
    exact hg.nyt_parent p hp
  case leaf =>
    intro c i
    rw [hr.heads.leaf, hn, hg.leaf c i]
    exact and_congr_right fun hi => by rw [hr.kind hi, hr.sym hi]

/-- What a parent misses after the round: the count of a child that is now the raised node. -/
theorem missing_parent {i x z : Nat} (hg : g.Grown r y) (hi : i < g.n.toNat) (hb : b < g.n.toNat) (hxz : x ≠ z)
    (hx : (g.node i).left = some x) (hz : (g.node i).right = some z) (hpx : (g.node x).parent = some i)
    (hpz : (g.node z).parent = some i) :
    missing (g.node b).parent i = (if x = b then 1 else 0) + if z = b then 1 else 0 := by
  by_cases h : (g.node b).parent = some i
  · obtain ⟨x', z', hx', hz', _, _, _, _, _, _, _, hor⟩ := hg.siblings hi hb h
    obtain rfl : x = x' := Option.some.inj (hx.symm.trans hx')
    obtain rfl : z = z' := Option.some.inj (hz.symm.trans hz')
    rw [missing, if_pos h]
    rcases hor with rfl | rfl
    · rw [if_pos rfl, if_neg hxz.symm]
    · rw [if_pos rfl, if_neg hxz]
  · have hxb : x ≠ b := by rintro rfl; exact h hpx
    have hzb : z ≠ b := by rintro rfl; exact h hpz
    rw [missing, if_neg h, if_neg hxb, if_neg hzb]

/-- The round leaves the weights with the update of the leader's parent pending. -/
theorem FgkMem.Poised.raised (hw : g.Poised r y (some a) M) (hg : g.Grown r y) (hl : g.Leads r y a b)
    (hr : g.Raised h a b) : h.Poised r y (h.node a).parent M := by
  have hn : h.n = g.n := hr.heads.count
  have hwt : ∀ {i}, i < g.n.toNat → h.wt i = g.wt i + if i = a then 1 else 0 := fun hi =>
    hr.wt (hw.lt_max hg hl.lt) hi
  have hpar : (h.node a).parent = (g.node b).parent := by rw [hr.parent hl.lt, Equiv.swap_apply_left]
  have hay : y ≠ a := fun he => (hw.pending a rfl).2.1 he.symm
  rw [hpar]
  constructor
  case sorted =>
    rw [hn]
    intro i hi j hj hij
    rw [hr.rk hi, hr.rk hj] at hij
    have hle := hw.sorted _ (hl.swap_lt hi) _ (hl.swap_lt hj) hij
    rw [hl.wt_swap, hl.wt_swap] at hle
    rw [hwt hi, hwt hj]
    split
    case isTrue he =>
      subst he
      rw [Equiv.swap_apply_left] at hij
      have hne : g.wt j ≠ g.wt i := fun he =>
        absurd (hl.max _ (hl.swap_lt hj) ((hl.wt_swap j).trans he)) (not_le.2 hij)
      omega
    case isFalse => omega
  case sums =>
    rw [hn]
    intro i hi hkind x' z' hx' hz'
    rw [hr.kind hi] at hkind
    obtain ⟨x, z, hx, hz, hxlt, hzlt, hpx, hpz, hxz⟩ := hg.inner i hi hkind
    rw [hr.left hi, hx] at hx'
    rw [hr.right hi, hz] at hz'
    cases hx'
    cases hz'
    have hsum := hw.sums i hi hkind x z hx hz
    have hcount := missing_parent hg hi hl.other_lt (by rintro rfl; omega) hx hz hpx hpz
    have hswap : ∀ j, (Equiv.swap a b j = a) = (j = b) := fun j => by
      rw [← Equiv.eq_symm_apply, Equiv.symm_swap, Equiv.swap_apply_left]
    rw [hwt hi, hwt (hl.swap_lt hxlt), hwt (hl.swap_lt hzlt), hl.wt_swap, hl.wt_swap, hcount]
    simp only [hswap]
    have hmiss : missing (some a) i = if i = a then 1 else 0 := by
      simp only [missing, Option.some.injEq, eq_comm]
    omega
  case nyt => rw [hwt hg.nyt_lt, if_neg hay, hw.nyt]
  case top =>
    have htop := hw.top
    rw [if_neg (by rintro ⟨⟩)] at htop
    rw [hwt hg.root_lt, ← htop]
    by_cases hra : r = a
    · have hbr : b = r := by rw [← hl.root, hra, Equiv.swap_apply_left]
      rw [if_pos hra, hbr, hg.root_parent, if_pos rfl]
    · have hrb : b ≠ r := fun he => hra (by rw [← hl.root, ← he, Equiv.swap_apply_right])
      obtain ⟨p, hp, _⟩ := hg.parent b hl.other_lt hrb
      rw [if_neg hra, hp, if_neg (by rintro ⟨⟩)]
  case bound => exact hw.bound
  case pending =>
    intro p hp
    obtain ⟨hplt, hkind, _⟩ := hg.rank_lt hl.other_lt hp
    refine ⟨by rwa [hn], ?_, ?_⟩
    · rintro rfl
      rw [hg.nyt_kind] at hkind
      cases hkind
    · rw [hr.parent hg.nyt_lt, hl.nyt]
      exact hl.next p hp

theorem FgkMem.Positive.raised (hpos : g.Positive y) (hw : g.Poised r y (some a) M) (hg : g.Grown r y) 
    (ha : a < g.n.toNat) (hr : g.Raised h a b) : h.Positive y := by
  intro i hi hzero
  rw [hr.heads.count] at hi
  rw [hr.wt (hw.lt_max hg ha) hi] at hzero
  exact hpos i hi (Nat.eq_zero_of_add_eq_zero_right hzero)

end

end Sys2Proof.Machine
end

section

namespace Sys2Proof.Machine

/-! ### What `FgkSwap` and a round of `FgkUpdate` compute -/

/-- `a`, a child of `pa`, and `b`, a child of `pb`, have changed places; the ranks not yet. -/
def FgkMem.replaced (g : FgkMem) (a b pa pb : Nat) : FgkMem :=
  (((g.relink pa (decide ((g.node pa).left = some a)) b).relink pb (decide ((g.node pb).left = some b)) a).modNode a
    (fun e => { e with parent := some pb })).modNode b (fun e => { e with parent := some pa })

/-- The ranks of `a` and `b` have been exchanged. -/
def FgkMem.reranked (g : FgkMem) (a b : Nat) : FgkMem :=
  (g.modNode a (fun e => { e with rank := (g.node b).rank })).modNode b (fun e => { e with rank := (g.node a).rank })

/-- The node has been counted. -/
def FgkMem.counted (g : FgkMem) (a : Nat) : FgkMem := g.modNode a (fun e => { e with weight := e.weight + 1 })

section
variable {g h : FgkMem} {r y a b pa pb M : Nat}

theorem fgkSwap_eq (ha : (g.node a).parent = some pa) (hb : (g.node b).parent = some pb) :
    fgkSwap a b g = .ok () ((g.replaced a b pa pb).reranked a b) := by
  simp only [fgkSwap, Run.read_bind, ha, hb]
  rfl

theorem FgkMem.node_counted (g : FgkMem) (a i : Nat) : (g.counted a).node i =
    { g.node i with weight := if i = a then (g.node i).weight + 1 else (g.node i).weight } := by
  rw [counted, node_modNode]
  split <;> rfl

theorem fgkUpdate_stay (k : Nat) (h : fgkLeader g a = a ∨ (g.node a).parent = some (fgkLeader g a)) :
    fgkUpdate (k + 1) (some a) g = fgkUpdate k (g.node a).parent (g.counted a) := by
  have hcond : ¬(fgkLeader g a ≠ a ∧ some (fgkLeader g a) ≠ (g.node a).parent) := fun hc =>
    h.elim hc.1 fun he => hc.2 he.symm
  rw [fgkUpdate]
  simp only [Run.read_bind, if_neg hcond, Run.update_bind]
  exact congrArg (fun o => fgkUpdate k o (g.counted a)) (congrArg FgkNode.parent (g.node_counted a a) :)

theorem fgkUpdate_swap (k : Nat) (hne : fgkLeader g a ≠ a) (hpar : (g.node a).parent ≠ some (fgkLeader g a))
    {h : FgkMem} (hs : fgkSwap a (fgkLeader g a) g = .ok () h) :
    fgkUpdate (k + 1) (some a) g = fgkUpdate k (h.node a).parent (h.counted a) := by
  rw [fgkUpdate]
  simp only [Run.read_bind, if_pos (And.intro hne hpar.symm)]
  rw [Run.bind_ok hs]
  simp only [Run.update_bind, Run.read_bind]
  exact congrArg (fun o => fgkUpdate k o (h.counted a)) (congrArg FgkNode.parent (h.node_counted a a) :)

theorem FgkMem.node_reranked (g : FgkMem) (hab : a ≠ b) (i : Nat) : (g.reranked a b).node i =
    { g.node i with rank := (g.node (Equiv.swap a b i)).rank } := by
  rw [reranked, node_modNode, node_modNode, Equiv.swap_apply_def]
  by_cases ha : i = a
  · rw [if_neg (ha ▸ hab), if_pos ha, if_pos ha]
  · rw [if_neg ha, if_neg ha]
    split <;> rfl

theorem FgkMem.node_relink_relink (g : FgkMem) (pa pb : Nat) (x z : Bool) (i : Nat) :
    ((g.relink pa x b).relink pb z a).node i = { g.node i with
      left := if i = pb ∧ z = true then some a else if i = pa ∧ x = true then some b else (g.node i).left
      right := if i = pb ∧ z = false then some a else if i = pa ∧ x = false then some b else (g.node i).right } := by
  have hone : ∀ (g : FgkMem) p (x : Bool) c i, (g.relink p x c).node i = { g.node i with
      left := if i = p ∧ x = true then some c else (g.node i).left
      right := if i = p ∧ x = false then some c else (g.node i).right } := by
    intro g p x c i
    rw [node_relink]
    by_cases h : i = p
    · cases x <;> simp [h]
    · simp [h]
  rw [hone, hone]

theorem map_swap_eq_ite (o : Option Nat) (a b : Nat) : o.map (Equiv.swap a b) =
    if o = some b then some a else if o = some a then some b else o := by
  cases o with
  | none => rfl
  | some x =>
    simp only [Option.map_some, Equiv.swap_apply_def, Option.some.injEq]
    by_cases ha : x = a
    · by_cases hb : x = b
      · rw [if_pos ha, if_pos hb, ← ha, hb]
      · rw [if_pos ha, if_neg hb, if_pos ha]
    · by_cases hb : x = b
      · rw [if_neg ha, if_pos hb, if_pos hb]
      · rw [if_neg ha, if_neg hb, if_neg hb, if_neg ha]

/-- Which child link of which node names `c`, whose parent is `p`. -/
theorem FgkMem.Grown.link_iff (hg : g.Grown r y) {c p i : Nat} (hc : c < g.n.toNat) (hp : (g.node c).parent = some p)
    (hi : i < g.n.toNat) :
    (i = p ∧ decide ((g.node p).left = some c) = true ↔ (g.node i).left = some c) ∧
    (i = p ∧ decide ((g.node p).left = some c) = false ↔ (g.node i).right = some c) := by
  obtain ⟨hplt, _, _⟩ := hg.rank_lt hc hp
  obtain ⟨x, z, hx, hz, _, _, _, _, _, hxz, _, hor⟩ := hg.siblings hplt hc hp
  have hup : (g.node i).left = some c ∨ (g.node i).right = some c → i = p := by
    intro hlink
    have hkind : (g.node i).kind = .internal := by
      by_contra hk
      obtain ⟨h1, h2⟩ := hg.outer i hi hk
      rw [h1, h2] at hlink
      rcases hlink with h | h <;> cases h
    obtain ⟨x', z', hx', hz', _, _, hpx, hpz, _⟩ := hg.inner i hi hkind
    rw [hx', hz'] at hlink
    rcases hlink with h | h
    · cases h; exact Option.some.inj (hpx.symm.trans hp)
    · cases h; exact Option.some.inj (hpz.symm.trans hp)
  have hside : ¬(g.node p).left = some c ↔ (g.node p).right = some c := by
    rw [hx, hz, Option.some.injEq, Option.some.injEq]
    constructor
    · exact fun h => (hor.resolve_left (Ne.symm h)).symm
    · rintro rfl rfl
      omega
  rw [decide_eq_true_iff, decide_eq_false_iff_not, hside]
  constructor
  · exact ⟨fun h => h.1 ▸ h.2, fun h => ⟨hup (.inl h), hup (.inl h) ▸ h⟩⟩
  · exact ⟨fun h => h.1 ▸ h.2, fun h => ⟨hup (.inr h), hup (.inr h) ▸ h⟩⟩

/-- The links of the nodes after `a` and `b` have changed places. -/
theorem FgkMem.Places.node_replaced (hl : g.Places r y a b) (hg : g.Grown r y) (hab : a ≠ b)
    (ha : (g.node a).parent = some pa) (hb : (g.node b).parent = some pb) {i : Nat} (hi : i < g.n.toNat) :
    (g.replaced a b pa pb).node i = { g.node i with
      parent := (g.node (Equiv.swap a b i)).parent, left := (g.node i).left.map (Equiv.swap a b),
      right := (g.node i).right.map (Equiv.swap a b) } := by
  obtain ⟨hal, har⟩ := hg.link_iff hl.lt ha hi
  obtain ⟨hbl, hbr⟩ := hg.link_iff hl.other_lt hb hi
  rw [replaced, node_modNode, node_modNode, node_relink_relink, map_swap_eq_ite, map_swap_eq_ite]
  simp only [hal, har, hbl, hbr, Equiv.swap_apply_def]
  by_cases h : i = a
  · rw [if_neg (h ▸ hab), if_pos h, if_pos h, hb]
  · rw [if_neg h, if_neg h]
    split
    · rw [ha]
    · rfl

end

end Sys2Proof.Machine
end

section

namespace Sys2Proof.Machine

/-! ### A round, on every memory alike -/

/-- Running `m` on `g` leaves `g'`, and on a memory that is alike leaves one alike. -/
structure FgkMem.Locked (m : Run FgkMem Unit) (g g' : FgkMem) : Prop where
  run : m g = .ok () g'
  alike : ∀ h, g.Alike h → ∃ h', m h = .ok () h' ∧ g'.Alike h'

section
variable {g h : FgkMem}

theorem FgkMem.sameHeads_modNode (g : FgkMem) (n : Nat) (f : FgkNode → FgkNode) : g.SameHeads (g.modNode n f) :=
  ⟨rfl, rfl, rfl, rfl⟩

theorem FgkMem.sameHeads_reranked (g : FgkMem) (a b : Nat) : g.SameHeads (g.reranked a b) :=
  (g.sameHeads_modNode _ _).trans (FgkMem.sameHeads_modNode _ _ _)

theorem FgkMem.sameHeads_replaced (g : FgkMem) (a b pa pb : Nat) : g.SameHeads (g.replaced a b pa pb) :=
  (((g.sameHeads_modNode _ _).trans (FgkMem.sameHeads_modNode _ _ _)).trans (FgkMem.sameHeads_modNode _ _ _)).trans
    (FgkMem.sameHeads_modNode _ _ _)

theorem FgkMem.sameHeads_counted (g : FgkMem) (a : Nat) : g.SameHeads (g.counted a) := g.sameHeads_modNode _ _

theorem FgkMem.Alike.modNode (hgh : g.Alike h) (n : Nat) (f : FgkNode → FgkNode) :
    (g.modNode n f).Alike (h.modNode n f) :=
  ⟨⟨hgh.heads.count, hgh.heads.root, hgh.heads.nyt, hgh.heads.leaf⟩, fun i hi => by
    rw [node_modNode, node_modNode, hgh.node i hi]⟩

theorem FgkMem.Alike.replaced (hgh : g.Alike h) {pa pb : Nat} (ha : pa < g.n.toNat) (hb : pb < g.n.toNat) (a b : Nat) :
    (g.replaced a b pa pb).Alike (h.replaced a b pa pb) := by
  rw [FgkMem.replaced, FgkMem.replaced, hgh.node pa ha, hgh.node pb hb]
  exact (((hgh.modNode _ _).modNode _ _).modNode _ _).modNode _ _

theorem FgkMem.Alike.reranked (hgh : g.Alike h) {a b : Nat} (ha : a < g.n.toNat) (hb : b < g.n.toNat) :
    (g.reranked a b).Alike (h.reranked a b) := by
  rw [FgkMem.reranked, FgkMem.reranked, hgh.node a ha, hgh.node b hb]
  exact (hgh.modNode _ _).modNode _ _

theorem FgkMem.Alike.counted (hgh : g.Alike h) (a : Nat) : (g.counted a).Alike (h.counted a) := hgh.modNode _ _

end

section
variable {g : FgkMem} {r y a b M : Nat}

/-- Where no place changes, a round of the update counts the node and goes to its parent. -/
theorem fgkUpdate_locked_stay (ha : a < g.n.toNat) (hb : fgkLeader g a = a ∨ (g.node a).parent = some (fgkLeader g a))
    {k : Nat} {g' : FgkMem} (h : FgkMem.Locked (fgkUpdate k (g.node a).parent) (g.counted a) g') :
    FgkMem.Locked (fgkUpdate (k + 1) (some a)) g g' := by
  refine ⟨(fgkUpdate_stay k hb).trans h.run, fun h' hgh => ?_⟩
  obtain ⟨h₂, hrun, hal⟩ := h.alike _ (hgh.counted a)
  rw [← hgh.leader ha, ← hgh.node a ha] at hb
  rw [← hgh.node a ha] at hrun
  exact ⟨h₂, (fgkUpdate_stay k hb).trans hrun, hal⟩

/-- Where the leader is neither the node nor its parent, a round changes places first. -/
theorem fgkUpdate_locked_swap (hl : g.Places r y a (fgkLeader g a)) (hne : fgkLeader g a ≠ a)
    (hpar : (g.node a).parent ≠ some (fgkLeader g a)) {pa pb k : Nat} (hpa : (g.node a).parent = some pa)
    (hpb : (g.node (fgkLeader g a)).parent = some pb) (ha : pa < g.n.toNat) (hb : pb < g.n.toNat) {g₁ g' : FgkMem}
    (hg₁ : g₁ = (g.replaced a (fgkLeader g a) pa pb).reranked a (fgkLeader g a))
    (h : FgkMem.Locked (fgkUpdate k (g₁.node a).parent) (g₁.counted a) g') :
    FgkMem.Locked (fgkUpdate (k + 1) (some a)) g g' := by
  have hn : (g.replaced a (fgkLeader g a) pa pb).n = g.n := (g.sameHeads_replaced _ _ _ _).count
  have hn₁ : g₁.n = g.n := hg₁ ▸ (FgkMem.sameHeads_reranked _ _ _).count.trans hn
  refine ⟨(fgkUpdate_swap k hne hpar (hg₁ ▸ fgkSwap_eq hpa hpb)).trans h.run, fun h' hgh => ?_⟩
  have hal : g₁.Alike ((h'.replaced a (fgkLeader g a) pa pb).reranked a (fgkLeader g a)) := by
    rw [hg₁]
    exact (hgh.replaced ha hb a (fgkLeader g a)).reranked (by rw [hn]; exact hl.lt) (by rw [hn]; exact hl.other_lt)
  generalize hh₁ : (h'.replaced a (fgkLeader g a) pa pb).reranked a (fgkLeader g a) = h₁ at hal
  obtain ⟨h₂, hrun, hal₂⟩ := h.alike _ (hal.counted a)
  rw [← hal.node a (by rw [hn₁]; exact hl.lt)] at hrun
  have hpa' : (h'.node a).parent = some pa := by rw [hgh.node a hl.lt, hpa]
  have hpb' : (h'.node (fgkLeader g a)).parent = some pb := by rw [hgh.node _ hl.other_lt, hpb]
  refine ⟨h₂, Eq.trans ?_ hrun, hal₂⟩
  rw [← hgh.leader hl.lt] at hne hpar hpb' hh₁
  rw [← hgh.node a hl.lt] at hpar
  exact fgkUpdate_swap k hne hpar (hh₁ ▸ fgkSwap_eq hpa' hpb')

theorem FgkMem.raised_counted (g : FgkMem) (a : Nat) : g.Raised (g.counted a) a a := by
  refine ⟨⟨rfl, rfl, rfl, rfl⟩, fun i _ => ?_⟩
  rw [node_counted, raised, Equiv.swap_self]
  simp

theorem FgkMem.Places.raised_swapped (hl : g.Places r y a b) (hg : g.Grown r y) (hab : a ≠ b) {pa pb : Nat}
    (ha : (g.node a).parent = some pa) (hb : (g.node b).parent = some pb) :
    g.Raised (((g.replaced a b pa pb).reranked a b).counted a) a b := by
  refine ⟨((g.sameHeads_replaced _ _ _ _).trans (sameHeads_reranked _ _ _)).trans (sameHeads_counted _ _),
    fun i hi => ?_⟩
  rw [node_counted, node_reranked _ hab, hl.node_replaced hg hab ha hb hi,
    hl.node_replaced hg hab ha hb (hl.swap_lt hi)]
  rfl

/-- A round that is not the one of the `NYT` node's sibling: the node changes places with its leader and is counted. -/
theorem FgkMem.Leads.round (hl : g.Leads r y a (fgkLeader g a)) (hg : g.Grown r y)
    (hpar : (g.node a).parent ≠ some (fgkLeader g a)) : ∃ g₁, g.Raised g₁ a (fgkLeader g a) ∧
      ∀ k g', FgkMem.Locked (fgkUpdate k (g₁.node a).parent) g₁ g' →
        FgkMem.Locked (fgkUpdate (k + 1) (some a)) g g' := by
  by_cases hab : a = fgkLeader g a
  · refine ⟨g.counted a, by rw [← hab]; exact g.raised_counted a, fun k g' h => ?_⟩
    rw [FgkMem.node_counted] at h
    exact fgkUpdate_locked_stay hl.lt (.inl hab.symm) h
  · have hroot := hl.root
    have har : a ≠ r := fun he => hab (by rwa [← he, Equiv.swap_apply_left, eq_comm] at hroot)
    have hbr : fgkLeader g a ≠ r := fun he => hab (by
      generalize fgkLeader g a = b at *
      rwa [← he, Equiv.swap_apply_right] at hroot)
    obtain ⟨pa, hpa, hpalt, _⟩ := hg.parent a hl.lt har
    obtain ⟨pb, hpb, hpblt, _⟩ := hg.parent _ hl.other_lt hbr
    obtain ⟨g₁, hg₁⟩ : ∃ g₁, g₁ = (g.replaced a (fgkLeader g a) pa pb).reranked a (fgkLeader g a) := ⟨_, rfl⟩
    refine ⟨g₁.counted a, hg₁ ▸ hl.raised_swapped hg hab hpa hpb, fun k g' h => ?_⟩
    rw [FgkMem.node_counted] at h
    exact fgkUpdate_locked_swap hl.toPlaces (Ne.symm hab) hpar hpa hpb hpalt hpblt hg₁ h

end

end Sys2Proof.Machine
end

section

namespace Sys2Proof.Machine

/-! ### The two rounds at the sibling of the `NYT` node -/

section
variable {g : FgkMem} {r y a p M : Nat}

/-- The pending node is the sibling of the `NYT` node, and their parent `p` is its leader: counting the node puts it
out of order with its parent until that is counted too. -/
structure FgkMem.Paired (g : FgkMem) (y a p : Nat) : Prop where
  parent : (g.node a).parent = some p
  nyt_parent : (g.node y).parent = some p
  max : ∀ i < g.n.toNat, g.wt i = g.wt a → g.rk i ≤ g.rk p

theorem FgkMem.wt_counted (hmax : g.wt a + 1 < 2 ^ 64) (i : Nat) :
    (g.counted a).wt i = g.wt i + if i = a then 1 else 0 := by
  rw [wt, node_counted, wt]
  split
  case isTrue he =>
    rw [he, BitVec.toNat_add]
    exact Nat.mod_eq_of_lt hmax
  case isFalse => rfl

@[simp] theorem FgkMem.counted_n (g : FgkMem) (a : Nat) : (g.counted a).n = g.n := (g.sameHeads_counted a).count

theorem FgkMem.rk_counted (g : FgkMem) (a i : Nat) : (g.counted a).rk i = g.rk i := by rw [rk, node_counted, rk]

theorem FgkMem.Grown.counted (hg : g.Grown r y) (ha : a < g.n.toNat) : (g.counted a).Grown r y :=
  hg.raised (hg.stays ha) (g.raised_counted a)

/-- The weights after both rounds. -/
theorem FgkMem.Paired.wt (hp : g.Paired y a p) (hg : g.Grown r y) (hw : g.Poised r y (some a) M) (i : Nat) :
    ((g.counted a).counted p).wt i = g.wt i + (if i = a then 1 else 0) + if i = p then 1 else 0 := by
  obtain ⟨ha, _, _⟩ := hw.pending a rfl
  obtain ⟨hplt, _, hlt⟩ := hg.rank_lt ha hp.parent
  have hpa : p ≠ a := by rintro rfl; exact lt_irrefl _ hlt
  have hwa := g.wt_counted (hw.lt_max hg ha)
  rw [FgkMem.wt_counted (by rw [hwa, if_neg hpa]; exact hw.lt_max hg hplt), hwa]

/-- The parent is still its own leader when the node has been counted. -/
theorem FgkMem.Paired.leader (hp : g.Paired y a p) (hg : g.Grown r y) (hw : g.Poised r y (some a) M)
    (heq : g.wt p = g.wt a) : fgkLeader (g.counted a) p = p := by
  obtain ⟨ha, _, _⟩ := hw.pending a rfl
  obtain ⟨hplt, _, hlt⟩ := hg.rank_lt ha hp.parent
  have hpa : p ≠ a := by rintro rfl; exact lt_irrefl _ hlt
  obtain ⟨hwt, hle, _⟩ := fgkLeader_spec (g.counted a) p
  have hblt : fgkLeader (g.counted a) p < g.n.toNat := fgkLeader_lt hplt (by rw [counted_n])
  generalize fgkLeader (g.counted a) p = b at *
  rw [FgkMem.wt_counted (hw.lt_max hg ha), FgkMem.wt_counted (hw.lt_max hg ha), if_neg hpa] at hwt
  rw [FgkMem.rk_counted, FgkMem.rk_counted] at hle
  have hba : b ≠ a := by rintro rfl; rw [if_pos rfl] at hwt; omega
  rw [if_neg hba] at hwt
  exact hg.inj b hblt p hplt (le_antisymm (hp.max b hblt (by omega)) hle)

theorem FgkMem.Paired.wt_eq (hp : g.Paired y a p) (hg : g.Grown r y) (hw : g.Poised r y (some a) M) :
    g.wt p = g.wt a ∧ (g.node p).left = some y ∧ (g.node p).right = some a ∧ g.rk a = g.rk y + 1 := by
  obtain ⟨ha, hay, _⟩ := hw.pending a rfl
  obtain ⟨hplt, hkind, hlt⟩ := hg.rank_lt ha hp.parent
  obtain ⟨hrank, hl, hr⟩ := hg.nyt_sibling ha hay hp.nyt_parent hp.parent
  have hsum := hw.sums p hplt hkind y a hl hr
  have hmiss : missing (some a) p = 0 := if_neg fun he => by cases he; omega
  have hy := hw.nyt
  exact ⟨by omega, hl, hr, hrank⟩

/-- The two rounds leave the weights with the update of the grandparent pending. -/
theorem FgkMem.Paired.poised (hp : g.Paired y a p) (hg : g.Grown r y) (hw : g.Poised r y (some a) M) :
    ((g.counted a).counted p).Poised r y (g.node p).parent M := by
  obtain ⟨ha, hay, _⟩ := hw.pending a rfl
  obtain ⟨hplt, hpkind, hlt⟩ := hg.rank_lt ha hp.parent
  obtain ⟨heq, hpl, hpr, hrank⟩ := hp.wt_eq hg hw
  have hprank := hg.nyt_parent p hp.nyt_parent
  have hwt := hp.wt hg hw
  have hnode : ∀ i, ((g.counted a).counted p).node i = { g.node i with
      weight := (((g.counted a).counted p).node i).weight } := fun i => by
    rw [node_counted, node_counted]
  have hn : ((g.counted a).counted p).n = g.n := by rw [counted_n, counted_n]
  have hrk : ∀ i, ((g.counted a).counted p).rk i = g.rk i := fun i => by rw [rk_counted, rk_counted]
  have hya : y ≠ a := Ne.symm hay
  have hyp : y ≠ p := by rintro rfl; omega
  have hap : a ≠ p := by rintro rfl; omega
  constructor
  case sorted =>
    rw [hn]
    intro i hi j hj hij
    rw [hrk, hrk] at hij
    rw [hwt, hwt]
    have hle := hw.sorted i hi j hj hij
    have hup : g.rk p < g.rk j → g.wt a < g.wt j := fun h =>
      lt_of_le_of_ne (heq ▸ hw.sorted p hplt j hj h) fun he => absurd (hp.max j hj he.symm) (not_le.2 h)
    by_cases hia : i = a
    · subst hia
      rw [if_pos rfl, if_neg hap]
      by_cases hjp : j = p
      · rw [if_pos hjp]; omega
      · have := hup (lt_of_le_of_ne (by omega) fun he => hjp (hg.inj p hplt j hj he).symm)
        omega
    · rw [if_neg hia]
      by_cases hip : i = p
      · subst hip
        have := hup hij
        rw [if_pos rfl]
        omega
      · rw [if_neg hip]
        omega
  case sums =>
    rw [hn]
    intro i hi hkind x z hx hz
    rw [hnode] at hkind hx hz
    obtain ⟨x', z', hx', hz', hxlt, hzlt, hpx, hpz, hxz⟩ := hg.inner i hi hkind
    obtain rfl : x = x' := Option.some.inj (hx.symm.trans hx')
    obtain rfl : z = z' := Option.some.inj (hz.symm.trans hz')
    have hne : x ≠ z := by rintro rfl; omega
    have hsum := hw.sums i hi hkind x z hx hz
    have hca := missing_parent hg hi ha hne hx hz hpx hpz
    have hcp := missing_parent hg hi hplt hne hx hz hpx hpz
    have hm : ∀ c, missing (some c) i = if i = c then 1 else 0 := fun c => by
      simp only [missing, Option.some.injEq, eq_comm]
    rw [hp.parent, hm] at hca
    rw [hm] at hsum
    rw [hwt, hwt, hwt, hcp]
    omega
  case nyt => rw [hwt, if_neg hya, if_neg hyp, hw.nyt]
  case top =>
    have htop := hw.top
    rw [if_neg (by rintro ⟨⟩)] at htop
    have har : r ≠ a := (hg.ne_root hp.parent).symm
    rw [hwt, if_neg har, ← htop]
    by_cases hrp : r = p
    · rw [if_pos hrp, if_pos (hrp ▸ hg.root_parent)]
    · obtain ⟨q, hq, _⟩ := hg.parent p hplt (Ne.symm hrp)
      rw [if_neg hrp, if_neg (by rw [hq]; rintro ⟨⟩)]
  case bound => exact hw.bound
  case pending =>
    intro q hq
    obtain ⟨hqlt, hqkind, hpq⟩ := hg.rank_lt hplt hq
    refine ⟨by rw [hn]; exact hqlt, ?_, ?_⟩
    · rintro rfl
      rw [hg.nyt_kind] at hqkind
      cases hqkind
    · rw [hnode, hp.nyt_parent]
      rintro ⟨⟩
      exact lt_irrefl _ hpq

/-- Two rounds at the `NYT` node's sibling count it and its parent. -/
theorem FgkMem.Paired.rounds (hp : g.Paired y a p) (hg : g.Grown r y) (hw : g.Poised r y (some a) M)
    (hlead : fgkLeader g a = p) {k : Nat} {g' : FgkMem}
    (h : FgkMem.Locked (fgkUpdate k (g.node p).parent) ((g.counted a).counted p) g') :
    FgkMem.Locked (fgkUpdate (k + 2) (some a)) g g' := by
  obtain ⟨ha, _, _⟩ := hw.pending a rfl
  obtain ⟨hplt, _, _⟩ := hg.rank_lt ha hp.parent
  refine fgkUpdate_locked_stay ha (.inr (by rw [hlead, hp.parent])) ?_
  rw [hp.parent]
  refine fgkUpdate_locked_stay (g := g.counted a) (by rw [FgkMem.counted_n]; exact hplt)
    (.inl (hp.leader hg hw (hp.wt_eq hg hw).1)) ?_
  rwa [FgkMem.node_counted]

theorem FgkMem.Paired.positive (hp : g.Paired y a p) (hg : g.Grown r y) (hw : g.Poised r y (some a) M)
    (h : ∀ i < g.n.toNat, g.wt i = 0 → i = y ∨ i = a ∨ i = p) : ((g.counted a).counted p).Positive y := by
  intro i hi hzero
  rw [counted_n, counted_n] at hi
  rw [hp.wt hg hw] at hzero
  rcases h i hi (by omega) with h | h | h
  · exact h
  · rw [if_pos h] at hzero; omega
  · rw [if_pos h] at hzero; omega

/-! ### The whole update -/

/-- The tree between symbols, `M` of them counted (R250, R252). -/
structure FgkMem.Resting (g : FgkMem) (r y M : Nat) : Prop where
  grown : g.Grown r y
  poised : g.Poised r y none M
  positive : g.Positive y

/-- Where the leader is the parent, the node's sibling is the `NYT` node. -/
theorem FgkMem.Poised.paired (hw : g.Poised r y (some a) M) (hg : g.Grown r y) (hpos : g.Positive y)
    (hpar : (g.node a).parent = some (fgkLeader g a)) : g.Paired y a (fgkLeader g a) := by
  obtain ⟨ha, hay, _⟩ := hw.pending a rfl
  obtain ⟨hwt, _, hmax⟩ := fgkLeader_spec g a
  obtain ⟨hplt, hkind, hlt⟩ := hg.rank_lt ha hpar
  generalize fgkLeader g a = p at *
  refine ⟨hpar, ?_, hmax⟩
  obtain ⟨x, z, hx, hz, _, hxlt, hzlt, hpx, hpz, hxz, _, hor⟩ := hg.siblings hplt ha hpar
  have hsum := hw.sums p hplt hkind x z hx hz
  have hmiss : missing (some a) p = 0 := if_neg fun he => by cases he; omega
  rcases hor with rfl | rfl
  · rwa [← hpos z hzlt (by omega)]
  · rwa [← hpos x hxlt (by omega)]

/-- The update ends with every node on the way to the root counted (R257). -/
theorem fgkUpdate_settles (k : Nat) : ∀ (o : Option Nat) (g : FgkMem), g.Grown r y → g.Poised r y o M → g.Positive y →
    (∀ n, o = some n → 513 ≤ g.rk n + k) →
    ∃ g', FgkMem.Locked (fgkUpdate k o) g g' ∧ g'.Resting r y M ∧ g.SameHeads g' := by
  induction k using Nat.strong_induction_on with
  | h k ih =>
  intro o g hg hw hpos hk
  cases o with
  | none => exact ⟨g, ⟨by rw [fgkUpdate]; rfl, fun h hgh => ⟨h, by rw [fgkUpdate]; rfl, hgh⟩⟩, ⟨hg, hw, hpos⟩,
      (FgkMem.Alike.refl g).heads⟩
  | some a =>
    obtain ⟨ha, _, _⟩ := hw.pending a rfl
    have hka := hk a rfl
    have hhigh := hg.high a ha
    by_cases hpar : (g.node a).parent = some (fgkLeader g a)
    · have hp := hw.paired hg hpos hpar
      obtain ⟨hplt, _, hlt⟩ := hg.rank_lt ha hpar
      have hphigh := hg.high _ hplt
      obtain ⟨k, rfl⟩ : ∃ m, k = m + 2 := ⟨k - 2, by omega⟩
      obtain ⟨g', hrun, hrest, hheads⟩ := ih k (by omega) (g.node (fgkLeader g a)).parent
        ((g.counted a).counted (fgkLeader g a)) ((hg.counted ha).counted (by rwa [FgkMem.counted_n])) (hp.poised hg hw)
        (hp.positive hg hw fun i hi hz => .inl (hpos i hi hz)) fun n hn => by
          rw [FgkMem.rk_counted, FgkMem.rk_counted]
          have := (hg.rank_lt hplt hn).2.2
          omega
      exact ⟨g', hp.rounds hg hw rfl hrun, hrest,
        ((g.sameHeads_counted _).trans (FgkMem.sameHeads_counted _ _)).trans hheads⟩
    · have hl := hw.leads hg hpos hpar
      obtain ⟨k, rfl⟩ : ∃ m, k = m + 1 := ⟨k - 1, by omega⟩
      obtain ⟨g₁, hr, hround⟩ := hl.round hg hpar
      have hg₁ := hg.raised hl.toPlaces hr
      obtain ⟨g', hrun, hrest, hheads⟩ := ih k (by omega) (g₁.node a).parent g₁ hg₁ (hw.raised hg hl hr)
        (hpos.raised hw hg ha hr) fun n hn => by
          have hlt := (hg₁.rank_lt (by rw [hr.heads.count]; exact ha) hn).2.2
          rw [hr.rk ha, Equiv.swap_apply_left] at hlt
          have := hl.le
          omega
      exact ⟨g', hround k g' hrun, hrest, hr.heads.trans hheads⟩

end

end Sys2Proof.Machine
end

section

namespace Sys2Proof.Machine

/-! ### The split of the `NYT` node -/

/-- The memory after `FgkSplit(b)`, the `NYT` node being `y`. -/
def FgkMem.parted (g : FgkMem) (y : Nat) (b : Byte) : FgkMem :=
  let used := g.n.toNat
  let k : FgkMem := (({ g with n := g.n + 2 }.setNode used
    ⟨0, (g.node y).rank - 1, .leaf, b, some y, none, none⟩).setNode (used + 1)
    ⟨0, (g.node y).rank - 2, .nyt, 0, some y, none, none⟩).modNode y
    (fun e => { e with kind := .internal, left := some (used + 1), right := some used })
  { k with nyt := some (used + 1), leaf := leafSet k.leaf b.toNat (some used) }

section
variable {g h : FgkMem} {r y M : Nat} {b : Byte}

theorem fgkSplit_eq (b : Byte) (hy : g.nyt = some y) (hn : g.n.toNat + 2 ≤ 513) :
    fgkSplit b g = .ok g.n.toNat (g.parted y b) := by
  have hreq : decide (g.n.toNat + 2 ≤ Config.fgkCap) = true := decide_eq_true hn
  simp only [fgkSplit, Run.read_bind, hreq, Run.require_true_bind, hy]
  rfl

theorem FgkMem.parted_n (g : FgkMem) (y : Nat) (b : Byte) : (g.parted y b).n = g.n + 2 := rfl

theorem FgkMem.parted_count (hn : g.n.toNat + 2 ≤ 513) (y : Nat) (b : Byte) :
    (g.parted y b).n.toNat = g.n.toNat + 2 := by
  rw [parted_n, BitVec.toNat_add]
  exact Nat.mod_eq_of_lt (lt_of_le_of_lt hn (by decide))

theorem FgkMem.leaf_parted (g : FgkMem) (y : Nat) (b : Byte) :
    (g.parted y b).leaf = leafSet g.leaf b.toNat (some g.n.toNat) := rfl

theorem FgkMem.leafGet_parted (g : FgkMem) (y : Nat) (b : Byte) (c : Nat) : leafGet (g.parted y b).leaf c =
    if c = b.toNat then some g.n.toNat else leafGet g.leaf c := by
  rw [leaf_parted, leafGet_leafSet]

theorem FgkMem.node_parted (g : FgkMem) (y : Nat) (b : Byte) (i : Nat) : (g.parted y b).node i =
    let e := if i = g.n.toNat + 1 then ⟨0, (g.node y).rank - 2, .nyt, 0, some y, none, none⟩
      else if i = g.n.toNat then ⟨0, (g.node y).rank - 1, .leaf, b, some y, none, none⟩ else g.node i
    if i = y then { e with kind := .internal, left := some (g.n.toNat + 1), right := some g.n.toNat } else e := by
  have h := FgkMem.node_modNode ((({ g with n := g.n + 2 } : FgkMem).setNode g.n.toNat
    ⟨0, (g.node y).rank - 1, .leaf, b, some y, none, none⟩).setNode
    (g.n.toNat + 1) ⟨0, (g.node y).rank - 2, .nyt, 0, some y, none, none⟩) y
    (fun e => { e with kind := .internal, left := some (g.n.toNat + 1), right := some g.n.toNat }) i
  rw [node_setNode, node_setNode] at h
  exact h

theorem FgkMem.Alike.parted (hgh : g.Alike h) (hn : g.n.toNat + 2 ≤ 513) (hy : y < g.n.toNat) (b : Byte) :
    (g.parted y b).Alike (h.parted y b) := by
  have hcount := hgh.heads.count
  refine ⟨⟨by rw [parted_n, parted_n, hcount], hgh.heads.root, ?_, ?_⟩, fun i hi => ?_⟩
  · show some (h.n.toNat + 1) = some (g.n.toNat + 1)
    rw [hcount]
  · show leafSet h.leaf b.toNat (some h.n.toNat) = leafSet g.leaf b.toNat (some g.n.toNat)
    rw [hcount, hgh.heads.leaf]
  · rw [parted_count hn] at hi
    rw [node_parted, node_parted, hcount, hgh.node y hy]
    by_cases h1 : i = g.n.toNat + 1
    · simp only [if_pos h1]
    · by_cases h2 : i = g.n.toNat
      · simp only [if_neg h1, if_pos h2]
      · rw [hgh.node i (by omega)]

/-- What the split does to a slot in use: only the old `NYT` node changes. -/
theorem FgkMem.node_parted_old (y : Nat) (b : Byte) {i : Nat} (hi : i < g.n.toNat) (hne : i ≠ y) :
    (g.parted y b).node i = g.node i := by
  rw [node_parted, if_neg hne, if_neg (by omega), if_neg (by omega)]

theorem FgkMem.node_parted_nyt (b : Byte) (hy : y < g.n.toNat) : (g.parted y b).node y =
    { g.node y with kind := .internal, left := some (g.n.toNat + 1), right := some g.n.toNat } := by
  rw [node_parted, if_pos rfl, if_neg (by omega), if_neg (by omega)]

theorem FgkMem.node_parted_leaf (b : Byte) (hy : y < g.n.toNat) : (g.parted y b).node g.n.toNat =
    ⟨0, (g.node y).rank - 1, .leaf, b, some y, none, none⟩ := by
  rw [node_parted, if_neg (by omega), if_neg (by omega), if_pos rfl]

theorem FgkMem.node_parted_new (b : Byte) (hy : y < g.n.toNat) : (g.parted y b).node (g.n.toNat + 1) =
    ⟨0, (g.node y).rank - 2, .nyt, 0, some y, none, none⟩ := by
  rw [node_parted, if_neg (by omega), if_pos rfl]

theorem FgkMem.parent_parted (b : Byte) (hy : y < g.n.toNat) {i : Nat} (hi : i < g.n.toNat) :
    ((g.parted y b).node i).parent = (g.node i).parent := by
  by_cases hiy : i = y
  · rw [hiy, node_parted_nyt b hy]
  · rw [node_parted_old y b hi hiy]

theorem FgkMem.wt_parted (b : Byte) (hy : y < g.n.toNat) {i : Nat} (hi : i < g.n.toNat + 2) :
    (g.parted y b).wt i = if i < g.n.toNat then g.wt i else 0 := by
  rw [wt, wt]
  by_cases hold : i < g.n.toNat
  · rw [if_pos hold]
    by_cases hiy : i = y
    · rw [hiy, node_parted_nyt b hy]
    · rw [node_parted_old y b hold hiy]
  · rw [if_neg hold]
    rcases (show i = g.n.toNat ∨ i = g.n.toNat + 1 by omega) with rfl | rfl
    · rw [node_parted_leaf b hy]; rfl
    · rw [node_parted_new b hy]; rfl

theorem FgkMem.Grown.rk_parted (hg : g.Grown r y) (b : Byte) (hn : g.n.toNat + 2 ≤ 513) {i : Nat}
    (hi : i < g.n.toNat + 2) : (g.parted y b).rk i = if i < g.n.toNat then g.rk i else 512 - i := by
  have hy := hg.nyt_lt
  have hrank := hg.nyt_rank
  rw [rk] at hrank
  rw [rk, rk]
  by_cases hold : i < g.n.toNat
  · rw [if_pos hold]
    by_cases hiy : i = y
    · rw [hiy, node_parted_nyt b hy]
    · rw [node_parted_old y b hold hiy]
  · rw [if_neg hold]
    rcases (show i = g.n.toNat ∨ i = g.n.toNat + 1 by omega) with rfl | rfl
    · rw [node_parted_leaf b hy]
      bv_omega
    · rw [node_parted_new b hy]
      bv_omega

/-- A slot of the tree after the split: one in use before that is not the old `NYT` node, or one of three. -/
theorem FgkMem.parted_cases (hn : g.n.toNat + 2 ≤ 513) {i : Nat} (hi : i < (g.parted y b).n.toNat) :
    (i < g.n.toNat ∧ i ≠ y) ∨ i = y ∨ i = g.n.toNat ∨ i = g.n.toNat + 1 := by
  rw [parted_count hn] at hi
  omega

/-- The split keeps the shape, the new `NYT` node being the second new slot. -/
theorem FgkMem.Grown.parted (hg : g.Grown r y) (hn : g.n.toNat + 2 ≤ 513) (hb : leafGet g.leaf b.toNat = none) :
    (g.parted y b).Grown r (g.n.toNat + 1) := by
  have hy := hg.nyt_lt
  have hyrank := hg.nyt_rank
  have hcount := parted_count hn y b
  have hkindy : ∀ i, (g.node i).kind = .internal → i ≠ y := by
    rintro i hi rfl
    rw [hg.nyt_kind] at hi
    cases hi
  have hrk : ∀ {i}, i < (g.parted y b).n.toNat → (g.parted y b).rk i = if i < g.n.toNat then g.rk i else 512 - i :=
    fun hi => hg.rk_parted b hn (hcount ▸ hi)
  have hrk_old : ∀ {i}, i < g.n.toNat → (g.parted y b).rk i = g.rk i := fun hi => by
    rw [hrk (by omega), if_pos hi]
  have hrk_leaf : (g.parted y b).rk g.n.toNat = 512 - g.n.toNat := by
    rw [hrk (by omega), if_neg (by omega)]
  have hrk_new : (g.parted y b).rk (g.n.toNat + 1) = 511 - g.n.toNat := by
    rw [hrk (by omega), if_neg (by omega)]
    omega
  constructor
  case small => omega
  case root => exact hg.root
  case root_lt => have := hg.root_lt; omega
  case root_parent => rw [parent_parted b hy hg.root_lt]; exact hg.root_parent
  case root_rank => rw [hrk_old hg.root_lt]; exact hg.root_rank
  case low =>
    intro i hi
    have hlow := hg.low i
    rw [hrk hi]
    split
    · have := hlow ‹_›; omega
    · omega
  case high =>
    intro i hi
    have hhigh := hg.high i
    rw [hrk hi]
    split
    · exact hhigh ‹_›
    · omega
  case inj =>
    intro i hi j hj hij
    rw [hrk hi, hrk hj] at hij
    by_cases hi' : i < g.n.toNat <;> by_cases hj' : j < g.n.toNat
    · rw [if_pos hi', if_pos hj'] at hij
      exact hg.inj i hi' j hj' hij
    · have := hg.low i hi'
      rw [if_pos hi', if_neg hj'] at hij
      omega
    · have := hg.low j hj'
      rw [if_neg hi', if_pos hj'] at hij
      omega
    · rw [if_neg hi', if_neg hj'] at hij
      omega
  case inner =>
    intro i hi hkind
    rcases parted_cases hn hi with ⟨hi, hiy⟩ | rfl | rfl | rfl
    · rw [node_parted_old y b hi hiy] at hkind ⊢
      obtain ⟨x, z, hx, hz, hxlt, hzlt, hpx, hpz, hxz⟩ := hg.inner i hi hkind
      exact ⟨x, z, hx, hz, by omega, by omega, by rw [parent_parted b hy hxlt, hpx],
        by rw [parent_parted b hy hzlt, hpz], by rw [hrk_old hxlt, hrk_old hzlt, hxz]⟩
    · refine ⟨g.n.toNat + 1, g.n.toNat, by rw [node_parted_nyt b hy], by rw [node_parted_nyt b hy], by omega, by omega,
        by rw [node_parted_new b hy], by rw [node_parted_leaf b hy], ?_⟩
      rw [hrk_new, hrk_leaf]
      omega
    · rw [node_parted_leaf b hy] at hkind; cases hkind
    · rw [node_parted_new b hy] at hkind; cases hkind
  case outer =>
    intro i hi hkind
    rcases parted_cases hn hi with ⟨hi, hiy⟩ | rfl | rfl | rfl
    · rw [node_parted_old y b hi hiy] at hkind ⊢
      exact hg.outer i hi hkind
    · rw [node_parted_nyt b hy] at hkind
      exact absurd rfl hkind
    · rw [node_parted_leaf b hy]
      exact ⟨rfl, rfl⟩
    · rw [node_parted_new b hy]
      exact ⟨rfl, rfl⟩
  case parent =>
    intro i hi hir
    by_cases hi' : i < g.n.toNat
    · obtain ⟨p, hp, hplt, hkind, hlink, hlt⟩ := hg.parent i hi' hir
      refine ⟨p, by rw [parent_parted b hy hi', hp], by omega, ?_⟩
      rw [node_parted_old y b hplt (hkindy p hkind), hrk_old hi', hrk_old hplt]
      exact ⟨hkind, hlink, hlt⟩
    · rcases (show i = g.n.toNat ∨ i = g.n.toNat + 1 by omega) with rfl | rfl
      · refine ⟨y, by rw [node_parted_leaf b hy], by omega, ?_⟩
        rw [node_parted_nyt b hy, hrk_leaf, hrk_old hy]
        exact ⟨rfl, .inr rfl, by omega⟩
      · refine ⟨y, by rw [node_parted_new b hy], by omega, ?_⟩
        rw [node_parted_nyt b hy, hrk_new, hrk_old hy]
        exact ⟨rfl, .inl rfl, by omega⟩
  case nyt => rfl
  case nyt_lt => omega
  case nyt_kind => rw [node_parted_new b hy]
  case nyt_rank => rw [hrk_new]; omega
  case nyt_only =>
    intro i hi hkind
    rcases parted_cases hn hi with ⟨hi, hiy⟩ | rfl | rfl | rfl
    · rw [node_parted_old y b hi hiy] at hkind
      exact absurd (hg.nyt_only i hi hkind) hiy
    · rw [node_parted_nyt b hy] at hkind; cases hkind
    · rw [node_parted_leaf b hy] at hkind; cases hkind
    · rfl
  case nyt_parent =>
    intro p hp
    rw [node_parted_new b hy] at hp
    cases hp
    rw [hrk_new, hrk_old hy]
    omega
  case leaf =>
    intro c i
    rw [leafGet_parted]
    by_cases hc : c = b
    · subst hc
      rw [if_pos rfl, Option.some.injEq]
      constructor
      · rintro rfl
        rw [node_parted_leaf c hy]
        exact ⟨by omega, rfl, rfl⟩
      · rintro ⟨hi, hkind, hsym⟩
        rcases parted_cases hn hi with ⟨hi, hiy⟩ | rfl | rfl | rfl
        · rw [node_parted_old y c hi hiy] at hkind hsym
          rw [(hg.leaf c i).2 ⟨hi, hkind, hsym⟩] at hb
          cases hb
        · rw [node_parted_nyt c hy] at hkind; cases hkind
        · rfl
        · rw [node_parted_new c hy] at hkind; cases hkind
    · rw [if_neg fun he => hc (BitVec.eq_of_toNat_eq he), hg.leaf c i]
      constructor
      · rintro ⟨hi, hkind, hsym⟩
        have hiy : i ≠ y := by
          rintro rfl
          rw [hg.nyt_kind] at hkind
          cases hkind
        rw [node_parted_old y b hi hiy]
        exact ⟨by omega, hkind, hsym⟩
      · rintro ⟨hi, hkind, hsym⟩
        rcases parted_cases hn hi with ⟨hi, hiy⟩ | rfl | rfl | rfl
        · rw [node_parted_old y b hi hiy] at hkind hsym
          exact ⟨hi, hkind, hsym⟩
        · rw [node_parted_nyt b hy] at hkind; cases hkind
        · rw [node_parted_leaf b hy] at hsym; exact absurd hsym.symm hc
        · rw [node_parted_new b hy] at hkind; cases hkind

end

end Sys2Proof.Machine
end

section

namespace Sys2Proof.Machine

/-! ### The tree after a byte -/

section
variable {g h : FgkMem} {r y M : Nat} {b : Byte}

/-- After the split the update of the new leaf is pending. -/
theorem FgkMem.Resting.poised_parted (hg : g.Resting r y M) (hM : M + 1 < 2 ^ 64) (hn : g.n.toNat + 2 ≤ 513)
    (b : Byte) : (g.parted y b).Poised r (g.n.toNat + 1) (some g.n.toNat) (M + 1) := by
  obtain ⟨hg, hw, _⟩ := hg
  have hy := hg.nyt_lt
  have hcount := parted_count hn y b
  have hwt : ∀ {i}, i < (g.parted y b).n.toNat → (g.parted y b).wt i = if i < g.n.toNat then g.wt i else 0 :=
    fun hi => wt_parted b hy (hcount ▸ hi)
  have hold : ∀ {i}, i < g.n.toNat → (g.parted y b).wt i = g.wt i := fun hi => by rw [hwt (by omega), if_pos hi]
  have hmiss : ∀ {i}, i < g.n.toNat → missing (some g.n.toNat) i = 0 := fun hi => if_neg fun he => by cases he; omega
  constructor
  case sorted =>
    intro i hi j hj hij
    rw [hg.rk_parted b hn (hcount ▸ hi), hg.rk_parted b hn (hcount ▸ hj)] at hij
    rw [hwt hi, hwt hj]
    by_cases hi' : i < g.n.toNat
    · have hlow := hg.low i hi'
      rw [if_pos hi'] at hij ⊢
      split at hij
      · rw [if_pos ‹_›]
        exact hw.sorted i hi' j ‹_› hij
      · omega
    · rw [if_neg hi']
      exact Nat.zero_le _
  case sums =>
    intro i hi hkind x z hx hz
    rcases parted_cases hn hi with ⟨hi, hiy⟩ | rfl | rfl | rfl
    · rw [node_parted_old y b hi hiy] at hkind hx hz
      obtain ⟨x', z', hx', hz', hxlt, hzlt, _⟩ := hg.inner i hi hkind
      obtain rfl : x = x' := Option.some.inj (hx.symm.trans hx')
      obtain rfl : z = z' := Option.some.inj (hz.symm.trans hz')
      rw [hold hi, hold hxlt, hold hzlt, hmiss hi]
      exact hw.sums i hi hkind x z hx hz
    · rw [node_parted_nyt b hy] at hx hz
      cases hx
      cases hz
      rw [hold hy, hw.nyt, hmiss hy, hwt (by omega), hwt (by omega), if_neg (by omega), if_neg (by omega)]
    · rw [node_parted_leaf b hy] at hkind; cases hkind
    · rw [node_parted_new b hy] at hkind; cases hkind
  case nyt => rw [hwt (by omega), if_neg (by omega)]
  case top =>
    have htop := hw.top
    rw [if_pos rfl] at htop
    rw [hold hg.root_lt, if_neg (by rintro ⟨⟩), ← htop]
  case bound => exact hM
  case pending =>
    rintro _ ⟨rfl⟩
    refine ⟨by omega, by omega, ?_⟩
    rw [node_parted_new b hy]
    rintro ⟨⟩
    exact lt_irrefl _ hy

theorem FgkMem.Resting.paired_parted (hg : g.Resting r y M) (hn : g.n.toNat + 2 ≤ 513) (b : Byte) :
    (g.parted y b).Paired (g.n.toNat + 1) g.n.toNat y := by
  obtain ⟨hg, _, hpos⟩ := hg
  have hy := hg.nyt_lt
  have hyrank := hg.nyt_rank
  have hcount := parted_count hn y b
  refine ⟨by rw [node_parted_leaf b hy], by rw [node_parted_new b hy], fun i hi hwt => ?_⟩
  rw [wt_parted b hy (hcount ▸ hi), wt_parted b hy (by omega), if_neg (lt_irrefl _)] at hwt
  rw [hg.rk_parted b hn (hcount ▸ hi), hg.rk_parted b hn (by omega), if_pos hy]
  by_cases hi' : i < g.n.toNat
  · rw [if_pos hi'] at hwt ⊢
    rw [hpos i hi' hwt]
  · rw [if_neg hi']
    omega

/-- The old `NYT` node leads the new leaf. -/
theorem FgkMem.Resting.leader_parted (hg : g.Resting r y M) (hn : g.n.toNat + 2 ≤ 513) (b : Byte)
    (hb : leafGet g.leaf b.toNat = none) : fgkLeader (g.parted y b) g.n.toNat = y := by
  have hy := hg.grown.nyt_lt
  have hcount := parted_count hn y b
  obtain ⟨hwt, _, hmax⟩ := fgkLeader_spec (g.parted y b) g.n.toNat
  have hlt := fgkLeader_lt (g := g.parted y b) (n := g.n.toNat) (c := (g.parted y b).n.toNat) (by omega) le_rfl
  have hup := (hg.paired_parted hn b).max _ hlt hwt
  refine (hg.grown.parted hn hb).inj _ hlt y (by omega) (le_antisymm hup (hmax y (by omega) ?_))
  rw [wt_parted b hy (by omega), wt_parted b hy (by omega), if_pos hy, if_neg (lt_irrefl _), hg.poised.nyt]

/-- The update of the leaf of a byte that has been seen. -/
theorem FgkMem.Resting.update_leaf (hg : g.Resting r y M) (hM : M + 1 < 2 ^ 64) {n : Nat}
    (hleaf : leafGet g.leaf b.toNat = some n) :
    ∃ g', FgkMem.Locked (fgkUpdate fgkBound (some n)) g g' ∧ g'.Resting r y (M + 1) ∧ g.SameHeads g' := by
  obtain ⟨hg, hw, hpos⟩ := hg
  obtain ⟨hn, hkind, _⟩ := (hg.leaf b n).1 hleaf
  have hmiss : ∀ i, (g.node i).kind = .internal → missing (some n) i = missing none i := fun i hi =>
    (if_neg (by rintro ⟨⟩; rw [hkind] at hi; cases hi)).trans (if_neg (by rintro ⟨⟩)).symm
  have htop := hw.top
  rw [if_pos rfl] at htop
  refine fgkUpdate_settles fgkBound (some n) g hg
    { sorted := hw.sorted, nyt := hw.nyt, bound := hM
      sums := fun i hi hk x z hx hz => by rw [hmiss i hk]; exact hw.sums i hi hk x z hx hz
      top := by rw [if_neg (by rintro ⟨⟩), ← htop]
      pending := ?_ } hpos fun m hm => ?_
  · rintro _ ⟨rfl⟩
    refine ⟨hn, ?_, fun he => ?_⟩
    · rintro rfl
      rw [hg.nyt_kind] at hkind
      cases hkind
    · rw [(hg.rank_lt hg.nyt_lt he).2.1] at hkind
      cases hkind
  · show 513 ≤ g.rk m + 514
    omega

/-- The split for a byte that has not been seen, and the update of its leaf. -/
theorem FgkMem.Resting.update_parted (hg : g.Resting r y M) (hM : M + 1 < 2 ^ 64) (hn : g.n.toNat + 2 ≤ 513)
    (hb : leafGet g.leaf b.toNat = none) :
    ∃ g', FgkMem.Locked (fgkUpdate fgkBound (some g.n.toNat)) (g.parted y b) g' ∧
      g'.Resting r (g.n.toNat + 1) (M + 1) ∧ (g.parted y b).SameHeads g' := by
  have hw := hg.poised_parted hM hn b
  have hp := hg.paired_parted hn b
  have hgrown := hg.grown.parted hn hb
  have hy := hg.grown.nyt_lt
  have hcount := parted_count hn y b
  have hpos : (((g.parted y b).counted g.n.toNat).counted y).Positive (g.n.toNat + 1) :=
    hp.positive hgrown hw fun i hi hz => by
      rw [wt_parted b hy (hcount ▸ hi)] at hz
      by_cases hi' : i < g.n.toNat
      · rw [if_pos hi'] at hz
        exact .inr (.inr (hg.positive i hi' hz))
      · omega
  obtain ⟨g', hrun, hrest, hheads⟩ := fgkUpdate_settles 512 ((g.parted y b).node y).parent
    (((g.parted y b).counted g.n.toNat).counted y)
    ((hgrown.counted (by omega)).counted (by rw [counted_n]; omega)) (hp.poised hgrown hw) hpos
    fun n hn => by
      have := (hgrown.rank_lt (by omega) hn).2.2
      rw [rk_counted, rk_counted]
      omega
  exact ⟨g', hp.rounds hgrown hw (hg.leader_parted hn b hb) hrun, hrest,
    ((sameHeads_counted _ _).trans (sameHeads_counted _ _)).trans hheads⟩

end

/-! ### The invariant over the symbols -/

/-- The tree after the bytes `S` (R250, R252): a leaf and an inner node for every byte seen. -/
structure FgkMem.Codes (g : FgkMem) (S : List Byte) : Prop where
  rest : ∃ r y, g.Resting r y S.length
  seen : ∀ b : Byte, (leafGet g.leaf b.toNat).isSome ↔ b ∈ S
  size : g.n.toNat = 1 + 2 * S.toFinset.card

/-- There are at most 256 bytes. -/
theorem card_bytes (A : Finset Byte) : A.card ≤ 256 := by
  have h := Finset.card_le_card_of_injOn (s := A) (t := Finset.range 256) BitVec.toNat
    (fun b _ => Finset.mem_coe.2 (Finset.mem_range.2 b.isLt)) fun _ _ _ _ h => BitVec.eq_of_toNat_eq h
  rwa [Finset.card_range] at h

section
variable {g h : FgkMem} {S : List Byte} {b : Byte}

theorem FgkMem.Codes.some_of_mem (hg : g.Codes S) (hb : b ∈ S) : ∃ n, leafGet g.leaf b.toNat = some n :=
  Option.isSome_iff_exists.1 ((hg.seen b).2 hb)

theorem FgkMem.Codes.none_iff (hg : g.Codes S) : leafGet g.leaf b.toNat = none ↔ b ∉ S := by
  rw [← hg.seen b, ← Option.not_isSome_iff_eq_none]

/-- A byte not seen has room for its leaf. -/
theorem FgkMem.Codes.room (hg : g.Codes S) (hb : b ∉ S) : g.n.toNat + 2 ≤ 513 := by
  have hcard := card_bytes (insert b S.toFinset)
  rw [Finset.card_insert_of_notMem fun h => hb (List.mem_toFinset.1 h)] at hcard
  have := hg.size
  omega

theorem FgkMem.after_ok {α : Type} {m : Run FgkMem α} {g' : FgkMem} {x : α} (h : m g = .ok x g') :
    FgkMem.after m g = g' := by rw [FgkMem.after, h]

theorem fgkAfter_seen {n : Nat} (hleaf : leafGet g.leaf b.toNat = some n) {g' : FgkMem}
    (h : fgkUpdate fgkBound (some n) g = .ok () g') : fgkAfter g b = g' := by
  rw [fgkAfter, hleaf]
  exact FgkMem.after_ok h

theorem fgkAfter_unseen (hleaf : leafGet g.leaf b.toNat = none) {n : Nat} {g₁ g' : FgkMem}
    (hsplit : fgkSplit b g = .ok n g₁) (h : fgkUpdate fgkBound (some n) g₁ = .ok () g') : fgkAfter g b = g' := by
  rw [fgkAfter, hleaf]
  exact FgkMem.after_ok ((Run.bind_ok hsplit).trans h)

/-- The update for a byte that has been seen succeeds. -/
theorem FgkMem.Codes.seen_step (hg : g.Codes S) (hlen : S.length + 1 < 2 ^ 64) {n : Nat}
    (hleaf : leafGet g.leaf b.toNat = some n) :
    fgkUpdate fgkBound (some n) g = .ok () (fgkAfter g b) ∧ (fgkAfter g b).Codes (S ++ [b]) ∧
      ∀ h, g.Alike h → (fgkAfter g b).Alike (fgkAfter h b) := by
  obtain ⟨r, y, hrest⟩ := hg.rest
  obtain ⟨g', hrun, hrest', hheads⟩ := hrest.update_leaf hlen hleaf
  have hmem : b ∈ S := (hg.seen b).1 (by rw [hleaf]; rfl)
  rw [fgkAfter_seen hleaf hrun.run]
  refine ⟨hrun.run, ⟨⟨r, y, by rw [List.length_append]; exact hrest'⟩, fun c => ?_, ?_⟩, fun h hgh => ?_⟩
  · rw [hheads.leaf, hg.seen c, List.mem_append, List.mem_singleton]
    exact ⟨.inl, fun h => h.elim id (by rintro rfl; exact hmem)⟩
  · rw [hheads.count, hg.size]
    congr 2
    refine congrArg Finset.card (Finset.ext fun c => ?_)
    rw [List.mem_toFinset, List.mem_toFinset, List.mem_append, List.mem_singleton]
    exact ⟨.inl, fun h => h.elim id (by rintro rfl; exact hmem)⟩
  · obtain ⟨h', hrun', hal⟩ := hrun.alike h hgh
    rwa [fgkAfter_seen (by rw [hgh.heads.leaf, hleaf]) hrun']

/-- The split for a byte that has not been seen and the update of its leaf succeed. -/
theorem FgkMem.Codes.unseen_step (hg : g.Codes S) (hlen : S.length + 1 < 2 ^ 64)
    (hleaf : leafGet g.leaf b.toNat = none) :
    (∃ n g₁, fgkSplit b g = .ok n g₁ ∧ fgkUpdate fgkBound (some n) g₁ = .ok () (fgkAfter g b)) ∧
      (fgkAfter g b).Codes (S ++ [b]) ∧ ∀ h, g.Alike h → (fgkAfter g b).Alike (fgkAfter h b) := by
  obtain ⟨r, y, hrest⟩ := hg.rest
  have hmem : b ∉ S := hg.none_iff.1 hleaf
  have hroom := hg.room hmem
  have hsplit := fgkSplit_eq b hrest.grown.nyt hroom
  obtain ⟨g', hrun, hrest', hheads⟩ := hrest.update_parted hlen hroom hleaf
  rw [fgkAfter_unseen hleaf hsplit hrun.run]
  refine ⟨⟨_, _, hsplit, hrun.run⟩, ⟨⟨r, _, by rw [List.length_append]; exact hrest'⟩, fun c => ?_, ?_⟩,
    fun h hgh => ?_⟩
  · rw [hheads.leaf, FgkMem.leafGet_parted, List.mem_append, List.mem_singleton]
    by_cases hc : c = b
    · rw [if_pos (congrArg BitVec.toNat hc)]
      exact ⟨fun _ => .inr hc, fun _ => rfl⟩
    · rw [if_neg fun he => hc (BitVec.eq_of_toNat_eq he), hg.seen c]
      exact ⟨.inl, fun h => h.resolve_right hc⟩
  · have hcard : (S ++ [b]).toFinset = insert b S.toFinset := Finset.ext fun c => by
      rw [List.mem_toFinset, Finset.mem_insert, List.mem_toFinset, List.mem_append, List.mem_singleton, or_comm]
    rw [hheads.count, FgkMem.parted_count hroom, hg.size, hcard,
      Finset.card_insert_of_notMem fun h => hmem (List.mem_toFinset.1 h)]
    omega
  · obtain ⟨h', hrun', hal⟩ := hrun.alike _ (hgh.parted hroom hrest.grown.nyt_lt b)
    have hcount := hgh.heads.count
    rw [← hcount] at hrun'
    rwa [fgkAfter_unseen (by rw [hgh.heads.leaf, hleaf])
      (fgkSplit_eq b (by rw [hgh.heads.nyt, hrest.grown.nyt]) (by rw [hcount]; exact hroom)) hrun']

/-- The tree after one more byte. -/
theorem FgkMem.Codes.after (hg : g.Codes S) (hlen : S.length + 1 < 2 ^ 64) (b : Byte) :
    (fgkAfter g b).Codes (S ++ [b]) ∧ ∀ h, g.Alike h → (fgkAfter g b).Alike (fgkAfter h b) := by
  cases hleaf : leafGet g.leaf b.toNat with
  | some n => exact (hg.seen_step hlen hleaf).2
  | none => exact (hg.unseen_step hlen hleaf).2

end

end Sys2Proof.Machine
end

section

namespace Sys2Proof.Machine

/-! ### The tree at the start and after a byte sequence -/

section
variable {g h : FgkMem} {S T : List Byte} {b : Byte}

theorem fgkStart_node (g : FgkMem) {i : Nat} (hi : i < (fgkStart g).n.toNat) : i = 0 ∧
    (fgkStart g).node 0 = ⟨0, BitVec.ofNat 10 Config.rankMax, .nyt, 0, none, none, none⟩ :=
  ⟨Nat.lt_one_iff.1 hi, (g.node_setNode 0 ⟨0, BitVec.ofNat 10 Config.rankMax, .nyt, 0, none, none, none⟩ 0 :)⟩

theorem fgkStart_resting (g : FgkMem) : (fgkStart g).Resting 0 0 0 := by
  have hn : (fgkStart g).n.toNat = 1 := rfl
  have hnode := (fgkStart_node g (i := 0) (by rw [hn]; exact Nat.one_pos)).2
  have hzero : ∀ i, i < (fgkStart g).n.toNat → i = 0 := fun i hi => (fgkStart_node g hi).1
  have hrk : (fgkStart g).rk 0 = 512 := by rw [FgkMem.rk, hnode]; rfl
  have hwt : (fgkStart g).wt 0 = 0 := by rw [FgkMem.wt, hnode]; rfl
  have hkind : ((fgkStart g).node 0).kind = .nyt := by rw [hnode]
  have hparent : ((fgkStart g).node 0).parent = none := by rw [hnode]
  refine ⟨?_, ?_, fun i hi _ => hzero i hi⟩
  · constructor
    case small => rw [hn]; decide
    case root => rfl
    case root_lt => rw [hn]; exact Nat.one_pos
    case root_parent => exact hparent
    case root_rank => exact hrk
    case low => intro i hi; rw [hzero i hi, hrk, hn]
    case high => intro i hi; rw [hzero i hi, hrk]
    case inj => intro i hi j hj _; rw [hzero i hi, hzero j hj]
    case inner => intro i hi hk; rw [hzero i hi, hkind] at hk; cases hk
    case outer => intro i hi _; rw [hzero i hi, hnode]; exact ⟨rfl, rfl⟩
    case parent => intro i hi hne; exact absurd (hzero i hi) hne
    case nyt => rfl
    case nyt_lt => rw [hn]; exact Nat.one_pos
    case nyt_kind => exact hkind
    case nyt_rank => rw [hrk, hn]
    case nyt_only => intro i hi _; exact hzero i hi
    case nyt_parent => intro p hp; rw [hparent] at hp; cases hp
    case leaf =>
      intro b i
      refine ⟨fun he => (by cases he), fun hi => ?_⟩
      obtain ⟨hi, hk, _⟩ := hi
      rw [hzero i hi, hkind] at hk
      cases hk
  · constructor
    case sorted => intro i hi j hj _; rw [hzero i hi, hzero j hj]
    case sums => intro i hi hk; rw [hzero i hi, hkind] at hk; cases hk
    case nyt => exact hwt
    case top => rw [hwt, if_pos rfl]
    case bound => decide
    case pending => rintro n ⟨⟩

theorem fgkStart_codes (g : FgkMem) : (fgkStart g).Codes [] :=
  ⟨⟨0, 0, fgkStart_resting g⟩, fun _ => ⟨fun h => (by cases h), fun h => (by cases h)⟩, rfl⟩

theorem fgkStart_alike (g h : FgkMem) : (fgkStart g).Alike (fgkStart h) :=
  ⟨⟨rfl, rfl, rfl, rfl⟩, fun i hi => by
    obtain ⟨rfl, hg⟩ := fgkStart_node g hi
    rw [hg, (fgkStart_node h hi).2]⟩

theorem FgkMem.Codes.foldl : ∀ (S : List Byte) {T : List Byte} {g : FgkMem}, g.Codes T →
    T.length + S.length < 2 ^ 64 → (S.foldl fgkAfter g).Codes (T ++ S) ∧
      ∀ h, g.Alike h → (S.foldl fgkAfter g).Alike (S.foldl fgkAfter h)
  | [], T, g, hg, _ => ⟨by rwa [List.append_nil], fun _ h => h⟩
  | b :: S, T, g, hg, hlen => by
    rw [List.length_cons] at hlen
    obtain ⟨hb, hal⟩ := hg.after (by omega) b
    obtain ⟨hc, hals⟩ := FgkMem.Codes.foldl S hb (by rw [List.length_append, List.length_singleton]; omega)
    rw [List.append_assoc] at hc
    exact ⟨hc, fun h hgh => hals _ (hal h hgh)⟩

/-- The tree after `S`. -/
theorem foldl_fgkStart_codes (g : FgkMem) (hlen : S.length < 2 ^ 64) : (S.foldl fgkAfter (fgkStart g)).Codes S :=
  ((fgkStart_codes g).foldl S (by rw [List.length_nil, Nat.zero_add]; exact hlen)).1

/-! ### Paths -/

/-- The bits `p` lead from node `i` down to node `j`. -/
def FgkMem.Goes (g : FgkMem) : Nat → Bits → Nat → Prop
  | i, [], j => i = j
  | i, x :: p, j => (g.node i).kind = .internal ∧
    ∃ c, (if x then (g.node i).right else (g.node i).left) = some c ∧ g.Goes c p j

theorem FgkMem.Goes.append : ∀ {p : Bits} {i j k : Nat} {q : Bits}, g.Goes i p j → g.Goes j q k → g.Goes i (p ++ q) k
  | [], _, _, _, _, h, hq => by cases h; exact hq
  | _ :: _, _, _, _, _, ⟨hk, c, hc, h⟩, hq => ⟨hk, c, hc, h.append hq⟩

/-- The climb of `FgkPath` finds the bits that lead down again. -/
theorem FgkMem.Grown.path {r y : Nat} (hg : g.Grown r y) (k : Nat) : ∀ (n : Nat) (p : Bits), n < g.n.toNat →
    513 ≤ g.rk n + k → ∃ d, fgkPathFrom g k n p = some (d ++ p) ∧ g.Goes r d n := by
  induction k with
  | zero =>
    intro n p hn hk
    have := hg.high n hn
    omega
  | succ k ih =>
    intro n p hn hk
    by_cases hnr : n = r
    · refine ⟨[], ?_, hnr.symm⟩
      rw [fgkPathFrom, hnr, hg.root_parent, List.nil_append]
    · obtain ⟨q, hq, hqlt, hkind, hlink, hlt⟩ := hg.parent n hn hnr
      obtain ⟨d, hd, hgo⟩ := ih q ((if (g.node q).left = some n then false else true) :: p) hqlt (by omega)
      refine ⟨d ++ [if (g.node q).left = some n then false else true], ?_, hgo.append ⟨hkind, n, ?_, rfl⟩⟩
      · rw [fgkPathFrom, hq, List.append_assoc]
        exact hd
      · by_cases hleft : (g.node q).left = some n
        · rw [if_pos hleft, if_neg Bool.false_ne_true, hleft]
        · rw [if_neg hleft, if_pos rfl, hlink.resolve_left hleft]

theorem FgkMem.Grown.fgkPath {r y n : Nat} (hg : g.Grown r y) (hn : n < g.n.toNat) :
    ∃ d, fgkPath g n = some d ∧ g.Goes r d n := by
  obtain ⟨d, hd, hgo⟩ := hg.path fgkBound n [] hn (by rw [show fgkBound = 514 from rfl]; omega)
  rw [List.append_nil] at hd
  exact ⟨d, hd, hgo⟩

theorem FgkMem.Alike.pathFrom {r y : Nat} (hgh : g.Alike h) (hg : g.Grown r y) : ∀ (k n : Nat) (p : Bits),
    n < g.n.toNat → fgkPathFrom h k n p = fgkPathFrom g k n p
  | 0, _, _, _ => rfl
  | k + 1, n, p, hn => by
    rw [fgkPathFrom, fgkPathFrom, hgh.node n hn]
    cases hq : (g.node n).parent with
    | none => rfl
    | some q =>
      have hqlt := (hg.rank_lt hn hq).1
      simp only [hgh.node q hqlt]
      exact hgh.pathFrom hg k q _ hqlt

theorem FgkMem.Alike.nytPath {r y : Nat} (hgh : g.Alike h) (hg : g.Grown r y) : nytPath h = nytPath g := by
  rw [Machine.nytPath, Machine.nytPath, hgh.heads.nyt, hg.nyt, Option.bind_some, Option.bind_some,
    Machine.fgkPath, Machine.fgkPath, hgh.pathFrom hg _ _ _ hg.nyt_lt]

theorem FgkMem.Alike.fgkBits {r y : Nat} (hgh : g.Alike h) (hg : g.Grown r y) (b : Byte) :
    fgkBits h b = fgkBits g b := by
  rw [Machine.fgkBits, Machine.fgkBits, hgh.heads.leaf, hgh.nytPath hg]
  cases hleaf : leafGet g.leaf b.toNat with
  | none => rfl
  | some n => simp only [Machine.fgkPath, hgh.pathFrom hg _ _ _ ((hg.leaf b n).1 hleaf).1]

/-- The bits of a byte sequence do not depend on the slots not in use. -/
theorem FgkMem.Codes.adaptiveBits_alike : ∀ (S : List Byte) {T : List Byte} {g h : FgkMem}, g.Codes T →
    T.length + S.length < 2 ^ 64 → g.Alike h → adaptiveBits h S = adaptiveBits g S
  | [], _, _, _, _, _, _ => rfl
  | b :: S, T, g, h, hg, hlen, hgh => by
    rw [List.length_cons] at hlen
    obtain ⟨r, y, hrest⟩ := hg.rest
    obtain ⟨hb, hal⟩ := hg.after (by omega) b
    rw [adaptiveBits, adaptiveBits, hgh.fgkBits hrest.grown b, hb.adaptiveBits_alike S
      (by rw [List.length_append, List.length_singleton]; omega) (hal h hgh)]

/-- What the trees hold before a command does not change the bits of a sequence, nor those of the byte after. -/
theorem adaptiveBits_fgkStart (g h : FgkMem) (hlen : S.length < 2 ^ 64) :
    adaptiveBits (fgkStart h) S = adaptiveBits (fgkStart g) S ∧
    nytPath (S.foldl fgkAfter (fgkStart h)) = nytPath (S.foldl fgkAfter (fgkStart g)) ∧
    ∀ b, fgkBits (S.foldl fgkAfter (fgkStart h)) b = fgkBits (S.foldl fgkAfter (fgkStart g)) b := by
  have hlen' : ([] : List Byte).length + S.length < 2 ^ 64 := by rw [List.length_nil, Nat.zero_add]; exact hlen
  obtain ⟨hcodes, hal⟩ := (fgkStart_codes g).foldl S hlen'
  obtain ⟨r, y, hrest⟩ := hcodes.rest
  have hal := hal _ (fgkStart_alike g h)
  exact ⟨(fgkStart_codes g).adaptiveBits_alike S hlen' (fgkStart_alike g h), hal.nytPath hrest.grown,
    hal.fgkBits hrest.grown⟩

/-- What the bits of a byte are (R105): the path to its leaf, or to the `NYT` node and then the byte. -/
theorem FgkMem.Codes.bits (hg : g.Codes S) : ∃ r y, g.Grown r y ∧ g.Goes r (nytPath g) y ∧
    ∀ b, (∃ n, leafGet g.leaf b.toNat = some n ∧ g.Goes r (fgkBits g b) n ∧ fgkBits g b ≠ []) ∨
      leafGet g.leaf b.toNat = none ∧ fgkBits g b = nytPath g ++ byteBits b := by
  obtain ⟨r, y, hgrown, _, _⟩ := hg.rest
  obtain ⟨d, hd, hgo⟩ := hgrown.fgkPath hgrown.nyt_lt
  have hnyt : nytPath g = d := by rw [nytPath, hgrown.nyt, Option.bind_some, hd, Option.getD_some]
  refine ⟨r, y, hgrown, hnyt ▸ hgo, fun b => ?_⟩
  cases hleaf : leafGet g.leaf b.toNat with
  | none => exact .inr ⟨rfl, by rw [fgkBits, hleaf]⟩
  | some n =>
    obtain ⟨hn, hkind, _⟩ := (hgrown.leaf b n).1 hleaf
    obtain ⟨d, hd, hgo⟩ := hgrown.fgkPath hn
    have hbits : fgkBits g b = d := by rw [fgkBits, hleaf]; exact congrArg (Option.getD · []) hd
    refine .inl ⟨n, rfl, hbits ▸ hgo, ?_⟩
    rw [hbits]
    rintro rfl
    obtain rfl : r = n := hgo
    have hyr : y ≠ r := by
      rintro rfl
      rw [hgrown.nyt_kind] at hkind
      cases hkind
    obtain ⟨c, hc, hcr, _⟩ := hgrown.climb 512 y hgrown.nyt_lt hyr (Nat.le_add_left _ _)
    rw [(hgrown.rank_lt hc hcr).2.1] at hkind
    cases hkind

end

end Sys2Proof.Machine
end

section

namespace Sys2Proof.Machine

/-! ### The descent and the literal -/

section
variable {g : FgkMem} {s : State} {S : List Byte} {b : Byte} {r : Bits}

/-- A step of the descent: the bit, and `CUR` on the child. -/
theorem fgkDescend_step (hs : s.Parses) {i c : Nat} {x : Bool} (hk : (s.fgk.node i).kind = .internal)
    (hc : (if x then (s.fgk.node i).right else (s.fgk.node i).left) = some c) (hu : s.unread = x :: r) (n : Nat) :
    ∃ t, fgkDescend (n + 1) i s = fgkDescend n c t ∧ t.unread = r ∧ t.Parses ∧ t.unwalked = s.unwalked := by
  obtain ⟨t, h1, h2, h3, h4⟩ := getBitOpt_cons hs hu
  refine ⟨t.setW { t.w with cur := some c }, ?_, h2, ⟨h3.honest, h3.sound, h3.held⟩,
    (State.unwalked_of_unparsed h4 : t.unwalked = _)⟩
  rw [fgkDescend, Run.read_bind, if_pos hk, Run.bind_ok h1]
  simp only [hc]
  rfl

theorem fgkDescend_arrived {i : Nat} (hk : (s.fgk.node i).kind ≠ .internal) (n : Nat) :
    fgkDescend (n + 1) i s = .ok (some i) s := by
  rw [fgkDescend, Run.read_bind, if_neg hk]
  rfl

theorem fgk_of_unwalked {t : State} (h : t.unwalked = s.unwalked) : t.fgk = s.fgk := (congrArg State.fgk h :)

/-- The bits of a path lead to its node (R267). -/
theorem fgkDescend_goes : ∀ (d : Bits) {s : State} {i j : Nat}, s.fgk.Goes i d j → (s.fgk.node j).kind ≠ .internal →
    s.Parses → s.unread = d ++ r → ∀ n, ∃ t, fgkDescend (d.length + 1 + n) i s = .ok (some j) t ∧ t.unread = r ∧
      t.Parses ∧ t.unwalked = s.unwalked
  | [], s, i, j, hgo, hk, hs, hu, n => by
    cases hgo
    refine ⟨s, ?_, hu, hs, rfl⟩
    rw [List.length_nil, show 0 + 1 + n = n + 1 by omega]
    exact fgkDescend_arrived hk n
  | x :: d, s, i, j, ⟨hki, c, hc, hgo⟩, hk, hs, hu, n => by
    obtain ⟨t, h1, h2, h3, h4⟩ := fgkDescend_step hs hki hc hu (d.length + 1 + n)
    rw [← fgk_of_unwalked h4] at hgo hk
    obtain ⟨u, h5, h6, h7, h8⟩ := fgkDescend_goes d hgo hk h3 h2 n
    refine ⟨u, ?_, h6, h7, h8.trans h4⟩
    rw [List.length_cons, show d.length + 1 + 1 + n = d.length + 1 + n + 1 by omega, h1, h5]

/-- The descent where the input ends on the way. -/
theorem fgkDescend_cut {d : Bits} (hd : d ≠ []) : ∀ (r : Bits) {s : State} {i j : Nat}, s.fgk.Goes i (r ++ d) j →
    s.Parses → s.unread = r → ∀ n, ∃ t, fgkDescend (r.length + 1 + n) i s = .ok none t ∧ t.unwalked = s.unwalked ∧
      t.io.rest = [] ∧ t.io.Sound
  | [], s, i, j, hgo, hs, hu, n => by
    obtain ⟨x, d, rfl⟩ := List.exists_cons_of_ne_nil hd
    obtain ⟨hki, _⟩ := hgo
    obtain ⟨h1, _, h2⟩ := getBitOpt_nil hs hu
    refine ⟨s.touched, ?_, rfl, h2, hs.sound⟩
    rw [List.length_nil, show 0 + 1 + n = n + 1 by omega, fgkDescend, Run.read_bind, if_pos hki, Run.bind_ok h1]
    rfl
  | x :: r, s, i, j, hgo, hs, hu, n => by
    obtain ⟨hki, c, hc, hgo⟩ := hgo
    obtain ⟨t, h1, h2, h3, h4⟩ := fgkDescend_step hs hki hc hu (r.length + 1 + n)
    obtain ⟨u, h5, h6, h7, h8⟩ := fgkDescend_cut hd r (by rw [fgk_of_unwalked h4]; exact hgo) h3 h2 n
    refine ⟨u, ?_, h6.trans h4, h7, h8⟩
    rw [List.length_cons, show r.length + 1 + 1 + n = r.length + 1 + n + 1 by omega, h1, h5]

/-- The literal read from the last `n` bits of a byte. -/
theorem readLiteral_lowBits (b : Byte) : ∀ (n v : Nat) {s : State}, s.Parses → s.unread = lowBits b n ++ r →
    ∃ t, readLiteral n v s = .ok (some (2 ^ n * v + b.toNat % 2 ^ n)) t ∧ t.unread = r ∧ t.Parses ∧
      t.unwalked = s.unwalked
  | 0, v, s, hs, hu => ⟨s, by rw [readLiteral, pow_zero, one_mul, Nat.mod_one]; rfl, hu, hs, rfl⟩
  | n + 1, v, s, hs, hu => by
    obtain ⟨t, h1, h2, h3, h4⟩ := getBitOpt_cons hs hu
    obtain ⟨u, h5, h6, h7, h8⟩ := readLiteral_lowBits b n (2 * v + if b.getLsbD n then 1 else 0) h3 h2
    refine ⟨u, ?_, h6, h7, h8.trans (State.unwalked_of_unparsed h4)⟩
    have hval : 2 ^ n * (2 * v + if b.getLsbD n then 1 else 0) + b.toNat % 2 ^ n =
        2 ^ (n + 1) * v + b.toNat % 2 ^ (n + 1) := by
      have hbit : (if b.getLsbD n then 1 else 0) = b.toNat / 2 ^ n % 2 := by
        rw [BitVec.getLsbD, Nat.testBit_eq_decide_div_mod_eq]
        rcases Nat.mod_two_eq_zero_or_one (b.toNat / 2 ^ n) with h | h <;> rw [h] <;> rfl
      rw [hbit, Nat.mod_pow_succ, pow_succ]
      ring
    rw [readLiteral, Run.bind_ok h1, ← hval]
    exact h5

/-- A literal cut short. -/
theorem readLiteral_cut : ∀ (n v : Nat) (r : Bits) {s : State}, r.length < n → s.Parses → s.unread = r →
    ∃ t, readLiteral n v s = .ok none t ∧ t.unwalked = s.unwalked ∧ t.io.rest = [] ∧ t.io.Sound
  | 0, _, _, _, hlt, _, _ => absurd hlt (Nat.not_lt_zero _)
  | n + 1, v, [], s, _, hs, hu => by
    obtain ⟨h1, _, h2⟩ := getBitOpt_nil hs hu
    exact ⟨s.touched, by rw [readLiteral, Run.bind_ok h1]; rfl, rfl, h2, hs.sound⟩
  | n + 1, v, x :: r, s, hlt, hs, hu => by
    obtain ⟨t, h1, h2, h3, h4⟩ := getBitOpt_cons hs hu
    obtain ⟨u, h5, h6, h7, h8⟩ := readLiteral_cut n (2 * v + if x then 1 else 0) r (Nat.lt_of_succ_lt_succ hlt) h3 h2
    exact ⟨u, by rw [readLiteral, Run.bind_ok h1]; exact h5, h6.trans (State.unwalked_of_unparsed h4), h7, h8⟩

/-! ### A symbol -/

/-- What decoding a symbol does not touch. -/
def State.unadapted (s : State) : State := s.unwalked.setFgk FgkMem.empty

/-- What `FgkDecodeSymbol` does with the node the descent ends on. -/
def fgkArrived (n : Nat) : Eng (Option Byte) := do
  let nd ← Run.read (fun s => s.fgk.node n)
  if nd.kind = .nyt then do
    let lit ← readLiteral 8 0
    match lit with
    | none => pure none
    | some v => do
      let seen ← Run.read (fun s => leafGet s.fgk.leaf v)
      Run.require seen.isNone .malformedLiteral
      let m ← onFgk (fgkSplit (BitVec.ofNat 8 v))
      onFgk (fgkUpdate fgkBound (some m))
      pure (some (BitVec.ofNat 8 v))
  else do
    onFgk (fgkUpdate fgkBound (some n))
    pure (some nd.sym)

theorem fgkDecodeSymbol_eq {i : Nat} (hi : s.fgk.root = some i) : fgkDecodeSymbol s =
    (fgkDescend (s.unread.length + 2) i >>= fun found => match found with
      | none => pure none
      | some n => fgkArrived n) (s.setW { s.w with cur := some i }) := by
  rw [State.unread_length, fgkDecodeSymbol, Run.read_bind, hi]
  rfl

/-- The descent over the path of a node, then what that node means. -/
theorem fgkDecodeSymbol_goes {i j : Nat} {d : Bits} (hi : s.fgk.root = some i) (hgo : s.fgk.Goes i d j)
    (hk : (s.fgk.node j).kind ≠ .internal) (hs : s.Parses) (hu : s.unread = d ++ r) :
    ∃ t, fgkDecodeSymbol s = fgkArrived j t ∧ t.unread = r ∧ t.Parses ∧ t.unwalked = s.unwalked := by
  obtain ⟨t, h1, h2, h3, h4⟩ := fgkDescend_goes d (s := s.setW { s.w with cur := some i }) hgo hk
    ⟨hs.honest, hs.sound, hs.held⟩ hu (r.length + 1)
  refine ⟨t, ?_, h2, h3, h4⟩
  rw [fgkDecodeSymbol_eq hi, hu, List.length_append,
    show d.length + r.length + 2 = d.length + 1 + (r.length + 1) by omega, Run.bind_ok h1]

theorem onFgk_ok {α : Type} {m : Run FgkMem α} {a : α} {g : FgkMem} (h : m s.fgk = .ok a g) :
    onFgk m s = .ok a (s.setFgk g) := by rw [onFgk, h]

theorem fgkArrived_leaf {n : Nat} {g : FgkMem} (hk : (s.fgk.node n).kind ≠ .nyt)
    (h : fgkUpdate fgkBound (some n) s.fgk = .ok () g) :
    fgkArrived n s = .ok (some (s.fgk.node n).sym) (s.setFgk g) := by
  rw [fgkArrived, Run.read_bind, if_neg hk, Run.bind_ok (onFgk_ok h)]
  rfl

theorem fgkArrived_nyt {n : Nat} (hk : (s.fgk.node n).kind = .nyt) (hs : s.Parses) (hu : s.unread = byteBits b ++ r) :
    ∃ t, fgkArrived n s = (do
      Run.require (leafGet s.fgk.leaf b.toNat).isNone .malformedLiteral
      let m ← onFgk (fgkSplit b)
      onFgk (fgkUpdate fgkBound (some m))
      pure (some b) : Eng (Option Byte)) t ∧ t.unread = r ∧ t.Parses ∧ t.unwalked = s.unwalked := by
  obtain ⟨t, h1, h2, h3, h4⟩ := readLiteral_lowBits b 8 0 hs hu
  have hval : 2 ^ 8 * 0 + b.toNat % 2 ^ 8 = b.toNat := by have := b.isLt; omega
  rw [hval] at h1
  refine ⟨t, ?_, h2, h3, h4⟩
  rw [fgkArrived, Run.read_bind, if_pos hk, Run.bind_ok h1]
  simp only [Run.read_bind, fgk_of_unwalked h4, BitVec.ofNat_toNat, BitVec.setWidth_eq]

/-- The bits of a byte decode to it and leave the tree after it (R267). -/
theorem fgkDecodeSymbol_bits (hg : s.fgk.Codes S) (hlen : S.length + 1 < 2 ^ 64) (b : Byte) (hs : s.Parses)
    (hu : s.unread = fgkBits s.fgk b ++ r) : ∃ t, fgkDecodeSymbol s = .ok (some b) t ∧ t.unread = r ∧ t.Parses ∧
      t.fgk = fgkAfter s.fgk b ∧ t.unadapted = s.unadapted := by
  obtain ⟨i, y, hgrown, hgoy, hbits⟩ := hg.bits
  rcases hbits b with ⟨n, hleaf, hgo, _⟩ | ⟨hleaf, hb⟩
  · obtain ⟨hn, hkind, hsym⟩ := (hgrown.leaf b n).1 hleaf
    obtain ⟨t, h1, h2, h3, h4⟩ := fgkDecodeSymbol_goes hgrown.root hgo (by rw [hkind]; rintro ⟨⟩) hs hu
    have hfgk := fgk_of_unwalked h4
    have hrun := (hg.seen_step hlen hleaf).1
    rw [← hfgk] at hrun hkind hsym
    refine ⟨t.setFgk (fgkAfter s.fgk b), ?_, h2, ⟨h3.honest, h3.sound, h3.held⟩, rfl,
      (congrArg (State.setFgk · FgkMem.empty) h4 :)⟩
    rw [h1, fgkArrived_leaf (by rw [hkind]; rintro ⟨⟩) hrun, hsym, hfgk]
  · rw [hb, List.append_assoc] at hu
    have hk := hgrown.nyt_kind
    obtain ⟨t, h1, h2, h3, h4⟩ := fgkDecodeSymbol_goes hgrown.root hgoy (by rw [hk]; rintro ⟨⟩) hs hu
    rw [← fgk_of_unwalked h4] at hk
    obtain ⟨u, h5, h6, h7, h8⟩ := fgkArrived_nyt hk h3 h2
    have hfgk := (fgk_of_unwalked h8).trans (fgk_of_unwalked h4)
    obtain ⟨⟨m, g₁, hsplit, hrun⟩, _, _⟩ := hg.unseen_step hlen hleaf
    rw [← hfgk] at hsplit
    refine ⟨u.setFgk (fgkAfter s.fgk b), ?_, h6, ⟨h7.honest, h7.sound, h7.held⟩, rfl,
      (congrArg (State.setFgk · FgkMem.empty) (h8.trans h4) :)⟩
    rw [h1, h5, fgk_of_unwalked h4, hleaf, Option.isNone_none, Run.require_true_bind, Run.bind_ok (onFgk_ok hsplit)]
    exact Run.bind_ok (onFgk_ok (s := u.setFgk g₁) hrun)

/-- Fewer bits than a byte's, and the input ends: no symbol (R266). -/
theorem fgkDecodeSymbol_cut (hg : s.fgk.Codes S) (b : Byte) (hs : s.Parses) (hu : s.unread = r)
    (hpre : r <+: fgkBits s.fgk b) (hlt : r.length < (fgkBits s.fgk b).length) :
    ∃ t, fgkDecodeSymbol s = .ok none t ∧ t.unwalked = s.unwalked ∧ t.io.rest = [] ∧ t.io.Sound := by
  obtain ⟨i, y, hgrown, hgoy, hbits⟩ := hg.bits
  have hcut : ∀ {p : Bits} {j : Nat}, s.fgk.Goes i p j → r <+: p → r.length < p.length →
      ∃ t, fgkDecodeSymbol s = .ok none t ∧ t.unwalked = s.unwalked ∧ t.io.rest = [] ∧ t.io.Sound := by
    rintro p j hgo ⟨d, rfl⟩ hlt
    have hd : d ≠ [] := by rintro rfl; rw [List.append_nil] at hlt; exact lt_irrefl _ hlt
    obtain ⟨t, h1, h2, h3, h4⟩ := fgkDescend_cut hd r (s := s.setW { s.w with cur := some i }) hgo
      ⟨hs.honest, hs.sound, hs.held⟩ hu 1
    refine ⟨t, ?_, h2, h3, h4⟩
    rw [fgkDecodeSymbol_eq hgrown.root, hu, Run.bind_ok h1]
    rfl
  rcases hbits b with ⟨n, hleaf, hgo, _⟩ | ⟨hleaf, hb⟩
  · exact hcut hgo hpre hlt
  · rw [hb] at hpre hlt
    by_cases hshort : r.length < (nytPath s.fgk).length
    · exact hcut hgoy (List.prefix_of_prefix_length_le hpre (List.prefix_append _ _) hshort.le) hshort
    · obtain ⟨q, rfl⟩ := List.prefix_of_prefix_length_le (List.prefix_append _ _) hpre (not_lt.1 hshort)
      have hk := hgrown.nyt_kind
      obtain ⟨t, h1, h2, h3, h4⟩ := fgkDecodeSymbol_goes hgrown.root hgoy (by rw [hk]; rintro ⟨⟩) hs hu
      rw [← fgk_of_unwalked h4] at hk
      have hq : q.length < 8 := by
        rw [List.length_append, List.length_append] at hlt
        exact Nat.lt_of_add_lt_add_left hlt
      obtain ⟨u, h5, h6, h7, h8⟩ := readLiteral_cut 8 0 q hq h3 h2
      refine ⟨u, ?_, h6.trans h4, h7, h8⟩
      rw [h1, fgkArrived, Run.read_bind, if_pos hk, Run.bind_ok h5]
      rfl

/-- The literal of a symbol that has been seen (R268). -/
theorem fgkDecodeSymbol_literal (hg : s.fgk.Codes S) (hb : b ∈ S) (hs : s.Parses)
    (hu : s.unread = nytPath s.fgk ++ byteBits b ++ r) :
    ∃ t, fgkDecodeSymbol s = .error (.raise .malformedLiteral) t ∧ t.unwalked = s.unwalked := by
  obtain ⟨i, y, hgrown, hgoy, _⟩ := hg.bits
  obtain ⟨n, hleaf⟩ := hg.some_of_mem hb
  rw [List.append_assoc] at hu
  have hk := hgrown.nyt_kind
  obtain ⟨t, h1, h2, h3, h4⟩ := fgkDecodeSymbol_goes hgrown.root hgoy (by rw [hk]; rintro ⟨⟩) hs hu
  rw [← fgk_of_unwalked h4] at hk
  obtain ⟨u, h5, _, _, h8⟩ := fgkArrived_nyt hk h3 h2
  refine ⟨u, ?_, h8.trans h4⟩
  rw [h1, h5, fgk_of_unwalked h4, hleaf]
  rfl

end

end Sys2Proof.Machine
end

section

namespace Sys2Proof.Machine

/-! ### The loop of `DEC.ADAPTIVE` -/

/-- Since `s₀` the symbols `L` have been decoded, counted in the tree and written; the bits `r` are left. -/
structure State.Adapting (s₀ s : State) (L : List Byte) (r : Bits) : Prop where
  parses : s.Parses
  unread : s.unread = r
  out : s₀.Appended s L
  fgk : s.fgk = L.foldl fgkAfter (fgkStart s₀.fgk)
  phase : s.phase = .dec
  failOut : s.io.failOut = []

section
variable {s₀ s : State} {L : List Byte} {r : Bits}

theorem State.Adapting.codes (h : s₀.Adapting s L r) (hlen : L.length < 2 ^ 64) : s.fgk.Codes L := by
  rw [h.fgk]
  exact foldl_fgkStart_codes s₀.fgk hlen

/-- `NSYM` is counted up, or takes a free value and spends one (log entry 7). -/
theorem bumpNsym_ok (s : State) : ∃ n k, bumpNsym s = .ok () ((s.setW { s.w with nsym := n }).setFresh k) := by
  by_cases h : s.w.nsym.toNat + 1 < 2 ^ 40
  · exact ⟨s.w.nsym + 1, s.fresh, by rw [bumpNsym, Run.update_apply, if_pos h]; rfl⟩
  · exact ⟨Config.freeNsym s.fresh, s.fresh + 1, by rw [bumpNsym, Run.update_apply, if_neg h]⟩

/-- A round over the bits of a byte. -/
theorem State.Adapting.step (b : Byte) (h : s₀.Adapting s L (fgkBits s.fgk b ++ r)) (hlen : L.length + 1 < 2 ^ 64)
    (n : Nat) : ∃ t, adaptiveDecodeLoop (n + 1) s = adaptiveDecodeLoop n t ∧ s₀.Adapting t (L ++ [b]) r := by
  obtain ⟨t, h1, h2, h3, h4, h5⟩ := fgkDecodeSymbol_bits (h.codes (by omega)) hlen b h.parses h.unread
  have hfail : t.io.failOut = [] := (congrArg (fun x : State => x.io.failOut) h5 :).trans h.failOut
  have hrev : t.io.outRev = s.io.outRev := (congrArg (fun x : State => x.io.outRev) h5 :)
  have hlen : t.io.outLen = s.io.outLen := (congrArg (fun x : State => x.io.outLen) h5 :)
  have hphase : t.phase = .dec := (congrArg State.phase h5 :).trans h.phase
  obtain ⟨m, k, hm⟩ := bumpNsym_ok (t.wrote b)
  obtain ⟨u, hu⟩ : ∃ u, u = ((t.wrote b).setW { (t.wrote b).w with nsym := m }).setFresh k := ⟨_, rfl⟩
  rw [← hu] at hm
  refine ⟨u, ?_, ?_⟩
  · rw [adaptiveDecodeLoop, Run.bind_ok h1]
    exact (Run.bind_ok (outWrite_ok hfail b)).trans (Run.bind_ok hm)
  rw [hu]
  refine ⟨⟨h3.honest, h3.sound, h3.held⟩, h2, ?_, ?_, hphase, hfail⟩
  · exact ((h.out.congr (t' := t) ⟨rfl, rfl⟩ ⟨hrev, hlen⟩).trans (t.wroteAll_appended [b])).congr ⟨rfl, rfl⟩ ⟨rfl, rfl⟩
  · rw [List.foldl_append, ← h.fgk]
    exact h4

/-- The loop over the bits of `S`. -/
theorem State.Adapting.run (n : Nat) : ∀ (S : List Byte) {L : List Byte} {s : State},
    s₀.Adapting s L (adaptiveBits s.fgk S ++ r) → L.length + S.length < 2 ^ 64 →
    ∃ t, adaptiveDecodeLoop (S.length + n) s = adaptiveDecodeLoop n t ∧ s₀.Adapting t (L ++ S) r
  | [], L, s, h, _ => ⟨s, by rw [List.length_nil, Nat.zero_add], by rwa [List.append_nil]⟩
  | b :: S, L, s, h, hlen => by
    rw [List.length_cons] at hlen
    rw [adaptiveBits, List.append_assoc] at h
    obtain ⟨t, h1, h2⟩ := h.step b (by omega) (S.length + n)
    have hfgk : t.fgk = fgkAfter s.fgk b := by rw [h2.fgk, h.fgk, List.foldl_append]; rfl
    rw [← hfgk] at h2
    obtain ⟨u, h3, h4⟩ := State.Adapting.run n S h2 (by rw [List.length_append, List.length_singleton]; omega)
    refine ⟨u, ?_, by rwa [List.append_assoc] at h4⟩
    rw [List.length_cons, show S.length + 1 + n = S.length + n + 1 by omega, h1, h3]

/-- Every byte has a bit at least. -/
theorem FgkMem.Codes.length_le : ∀ (S : List Byte) {T : List Byte} {g : FgkMem}, g.Codes T →
    T.length + S.length < 2 ^ 64 → S.length ≤ (adaptiveBits g S).length
  | [], _, _, _, _ => Nat.zero_le _
  | b :: S, T, g, hg, hlen => by
    rw [List.length_cons] at hlen
    have hrest := FgkMem.Codes.length_le S (hg.after (by omega) b).1
      (by rw [List.length_append, List.length_singleton]; omega)
    obtain ⟨_, _, _, _, hbits⟩ := hg.bits
    have hpos : 1 ≤ (fgkBits g b).length := by
      rcases hbits b with ⟨_, _, _, hne⟩ | ⟨_, hb⟩
      · exact List.length_pos_of_ne_nil hne
      · rw [hb, List.length_append]
        exact Nat.le_add_left_of_le (show 1 ≤ 8 by decide)
    rw [adaptiveBits, List.length_append, List.length_cons]
    omega

/-- `DEC.ADAPTIVE` over the bits of `S`: the loop is left with the rounds of the other bits, one at least. -/
theorem adaptiveDecompress_run {s : State} {g : FgkMem} {S : List Byte} {r : Bits} (hs : s.Served)
    (hlen : S.length < 2 ^ 64) (hbits : payloadBits s.io.rest = adaptiveBits (fgkStart g) S ++ r) :
    ∃ n t, adaptiveDecompress s.streamStart = adaptiveDecodeLoop (n + 1) t ∧ s.Adapting t S r := by
  obtain ⟨hready, ⟨hin, hout, _⟩, hsound⟩ := hs
  rw [← (adaptiveBits_fgkStart g s.fgk hlen).1] at hbits
  have hlen' : ([] : List Byte).length + S.length < 2 ^ 64 := by rw [List.length_nil, Nat.zero_add]; exact hlen
  obtain ⟨w, hw⟩ : ∃ w, w = ((s.streamStart.setFgk (fgkStart s.fgk)).setPhase .dec).setW
    { s.streamStart.w with nsym := 0, icnt := 0 } := ⟨_, rfl⟩
  have hunread : w.unread = payloadBits s.io.rest := by rw [hw]; rfl
  have hstart : s.Adapting w [] (adaptiveBits w.fgk S ++ r) := by
    constructor
    case parses => rw [hw]; exact ⟨hin, hsound, Nat.zero_le _⟩
    case unread => rw [hunread, hbits, hw]; rfl
    case out => rw [hw]; exact (State.Appended.refl s).congr ⟨rfl, rfl⟩ ⟨rfl, rfl⟩
    case fgk => rw [hw]; rfl
    case phase => rw [hw]; rfl
    case failOut => rw [hw]; exact hout
  have hle : S.length ≤ w.bitsLeft := by
    have hle := (fgkStart_codes s.fgk).length_le S hlen'
    rw [← State.unread_length, hunread, hbits, List.length_append]
    omega
  obtain ⟨n, hn⟩ : ∃ n, w.bitsLeft + 2 = S.length + (n + 1) := ⟨w.bitsLeft + 1 - S.length, by omega⟩
  obtain ⟨t, ht, hd⟩ := State.Adapting.run (n + 1) S hstart hlen'
  refine ⟨n, t, ?_, hd⟩
  rw [← ht, ← hn, hw]
  rfl

/-- The bits of `S` and fewer than those of one more byte: the command ends with `S` (R266). -/
theorem adaptiveDecompress_cut {s : State} {g : FgkMem} {S : List Byte} {b : Byte} {r : Bits} (hs : s.Served)
    (hlen : S.length < 2 ^ 64) (hbits : payloadBits s.io.rest = adaptiveBits (fgkStart g) S ++ r)
    (hpre : r <+: fgkBits (S.foldl fgkAfter (fgkStart g)) b)
    (hlt : r.length < (fgkBits (S.foldl fgkAfter (fgkStart g)) b).length) :
    ∃ t, exec .decAdaptive s = .next t ∧ s.Ended t ∧ s.Appended t S ∧ t.Drained := by
  obtain ⟨n, t, hrun, hd⟩ := adaptiveDecompress_run hs hlen hbits
  rw [← (adaptiveBits_fgkStart g s.fgk hlen).2.2 b, ← hd.fgk] at hpre hlt
  obtain ⟨u, h1, h2, h3, h4⟩ := fgkDecodeSymbol_cut (hd.codes hlen) b hd.parses hd.unread hpre hlt
  obtain ⟨ho, hl, _⟩ := State.unwalked_out h2
  rw [adaptiveDecodeLoop, Run.bind_ok h1] at hrun
  obtain ⟨hnext, hend⟩ := exec_stream_ok (i := .decAdaptive) rfl hs.1 hrun
  exact ⟨_, hnext, hend, hd.out.congr ⟨rfl, rfl⟩ ⟨ho, hl⟩, Streams.drained h4 h3⟩

/-- The bits of `S` and the literal of a symbol of `S` (R268). -/
theorem adaptiveDecompress_literal {s : State} {g : FgkMem} {S : List Byte} {b : Byte} {r : Bits} (hs : s.Served)
    (hlen : S.length < 2 ^ 64) (hb : b ∈ S) (hbits : payloadBits s.io.rest =
      adaptiveBits (fgkStart g) S ++ nytPath (S.foldl fgkAfter (fgkStart g)) ++ byteBits b ++ r) :
    ∃ t, exec .decAdaptive s = .next t ∧ t.Trapped .malformedLiteral .dec ∧ s.Appended t S := by
  rw [List.append_assoc, List.append_assoc] at hbits
  obtain ⟨n, t, hrun, hd⟩ := adaptiveDecompress_run hs hlen hbits
  have hunread := hd.unread
  rw [← (adaptiveBits_fgkStart g s.fgk hlen).2.1, ← hd.fgk, ← List.append_assoc] at hunread
  obtain ⟨u, h1, h2⟩ := fgkDecodeSymbol_literal (hd.codes hlen) hb hd.parses hunread
  obtain ⟨ho, hl, _⟩ := State.unwalked_out h2
  rw [adaptiveDecodeLoop, Run.bind_error h1] at hrun
  obtain ⟨hnext, htrap⟩ := exec_stream_raise (i := .decAdaptive) rfl hs.1 hrun
  rw [show u.phase = .dec from (congrArg State.phase h2 :).trans hd.phase] at htrap
  exact ⟨_, hnext, htrap, hd.out.congr ⟨rfl, rfl⟩ ⟨ho, hl⟩⟩

end

/-! ### The statement -/

/-- Settles O60: behind any header each decompressor is run over the given symbols (the static and context loops by
their models, the adaptive one by the invariant of its tree), and the bits that are left decide how it ends. -/
theorem malformedPayload : Obligations.MalformedPayload := by
  refine ⟨fun m s f p L r hs hp hr hL hbits => ?_, fun m s f e p k r hs hr hdist hbits hk =>
    staticDecompress_astray m hs hr hdist hbits hk, fun s f recs p L c r hs hn hr hL hbits =>
    ⟨contextDecompress_accepts hs hn hr hL hbits, contextDecompress_payload hs hn hr hL hbits⟩,
    fun s g S b r hs hlen hbits hpre hlt => adaptiveDecompress_cut hs hlen hbits hpre hlt,
    fun s g S b r hs hlen hb hbits => adaptiveDecompress_literal hs hlen hb hbits⟩
  obtain ⟨haccept, htrap⟩ := staticDecompress_payload m hs hp hr hL hbits
  refine ⟨haccept, fun hlt ⟨c, hc, hpre, hlen⟩ => ?_⟩
  obtain ⟨t, ht, htrapped, happ, hdrain⟩ := htrap hlt (c := .malformedTruncated) fun {t M} hp hu hM => by
    obtain ⟨u, hu, hun, hend⟩ := walkSymbol_cut hM hc hpre hlen hp hu
    exact ⟨u, hu, hun, fun _ => hend⟩
  exact ⟨t, ht, htrapped, happ, hdrain rfl⟩

end Sys2Proof.Machine
end

section

namespace Sys2Proof

/-! ### The decoder and the encoder -/

/-- What holds of the syntax of each command, for all of them. -/
theorem Laws.Coding.all (i : Instr) : Statement i :=
  i.rec (motive := Statement) nop reset count dist ranges treeFromScheme treeTrunc treeDerive bldShannon bldFano
    bldHuffman cmpShannon cmpFano cmpHuffman cmpContext cmpAdaptive cmpArith decShannon decFano decHuffman decContext
    decAdaptive decArith

/-- Every row of the opcode table compares the whole byte with the code of its command (R93). -/
theorem opTable_row : ∀ r ∈ opTable, r.mask = 0xFF ∧ r.code = encode r.instr := by decide

/-- A byte decodes to the command whose code it is. -/
theorem decode_eq_ok_iff {c : Byte} {i : Instr} : decode c = .ok i ↔ encode i = c := by
  constructor
  · intro h
    unfold decode at h
    split at h
    · next r hr =>
      cases h
      obtain ⟨hmask, hcode⟩ := opTable_row r (List.mem_of_find?_eq_some hr)
      have hmatch : c &&& r.mask = r.code := eq_of_beq (List.find?_some hr :)
      rw [← hcode, ← hmatch, hmask]
      exact BitVec.and_allOnes
    · cases h
  · rintro rfl
    obtain ⟨_, hdecode, _⟩ := Laws.Coding.all i
    exact hdecode

/-- A byte that is rejected is rejected as itself. -/
theorem decode_cases (c : Byte) : (∃ i, decode c = .ok i) ∨ decode c = .error (.illegal c) := by
  unfold decode
  split
  · exact .inl ⟨_, rfl⟩
  · exact .inr rfl

/-- Of the 256 bytes, 233 are no command's code (R93). -/
theorem illegal_count : ((List.range 256).filter (fun n =>
    decide (decode (BitVec.ofNat 8 n) = .error (.illegal (BitVec.ofNat 8 n))))).length = 233 := by decide +kernel

/-- Settles O4: each of the ten bytes is the code of its command. -/
theorem knownWords : Obligations.KnownWords := by
  unfold Obligations.KnownWords
  simp only [decode_eq_ok_iff]
  decide

/-- Settles O5: decoding to a command is being its code, and a byte decodes to a command or is rejected. -/
theorem decodeEncode : Obligations.DecodeEncode := by
  refine ⟨fun i _ => decode_eq_ok_iff.2 rfl, fun c i => decode_eq_ok_iff.1, fun c hc => ?_, illegal_count⟩
  obtain ⟨i, hi⟩ | hillegal := decode_cases c
  · exact absurd (decode_eq_ok_iff.1 hi) (hc i)
  · exact hillegal

end Sys2Proof
end

section

namespace Sys2Proof.Machine

/-! ### What the code-tree and builder commands leave alone -/

/-- The states that differ in what a code-tree or builder command may write, the code model as `G` says. -/
def treeWrites (G : Frame TreeMem) : Frame State where
  rel s t := t = { s with
      status := t.status, faultCode := t.faultCode, phase := t.phase, main := t.main
      io := { s.io with inBase := t.io.inBase, inAcc := t.io.inAcc, outAcc := t.io.outAcc } } ∧
    G.rel s.main t.main
  refl s := ⟨rfl, G.refl s.main⟩
  trans _ _ _ := fun ⟨h, hG⟩ ⟨h', hG'⟩ => ⟨h'.trans (by rw [h]), G.trans _ _ _ hG hG'⟩

/-- The frame of code models that keeps nothing. -/
def anyTree : Frame TreeMem := Frame.same fun _ => ()

theorem treeWrites_allowsMain : (treeWrites anyTree).AllowsMain := fun _ _ => ⟨rfl, rfl⟩

section
variable {G : Frame TreeMem}

theorem onMain_treeWrites {m : Run TreeMem Unit} (hm : Run.Keeps G m) : Run.Keeps (treeWrites G) (onMain m) := by
  intro s
  have hG := hm s.main
  unfold onMain
  cases hms : m s.main with
  | ok a t => rw [hms] at hG; exact ⟨rfl, hG⟩
  | error e t => rw [hms] at hG; exact ⟨rfl, hG⟩

theorem withDist_treeWrites {b : List DistEntry → Run TreeMem Unit} (hb : ∀ dl, Run.Keeps G (b dl)) :
    Run.Keeps (treeWrites G) (withDist b) := .bind (.read _) fun dl => onMain_treeWrites (hb dl)

/-- Accepting, ending and trapping a command write nothing that the frame keeps. -/
theorem exec_treeWrites {i : Instr} (hi : i.cmdClass = .primitive) (hb : Run.Keeps (treeWrites G) (Instr.block i))
    {s t : State} (h : exec i s = .next t) : (treeWrites G).rel s t := by
  rw [exec_eq, hi] at h
  exact runPrimitive_frame (F := treeWrites G) (fun s _ => ⟨rfl, G.refl s.main⟩) (fun s _ => ⟨rfl, G.refl s.main⟩)
    (fun s _ _ => ⟨rfl, G.refl s.main⟩) hb h

end

/-- `SCHEME`. -/
def keepsScheme : Frame TreeMem := Frame.same TreeMem.scheme
/-- `SCHEME`, `NNODES`. -/
def keepsSchemeCount : Frame TreeMem := Frame.same fun t => (t.scheme, t.nnodes)
/-- `TREE`, `NNODES`, `ROOT`: all but `SCHEME`. -/
def keepsTree : Frame TreeMem where
  rel t u := u = { t with scheme := u.scheme }
  refl _ := rfl
  trans _ _ _ h h' := h'.trans (by rw [h])

/-- Walking or making a path writes nodes and `NNODES` (R150). -/
theorem growPath_keepsScheme : ∀ (bs : Bits) (cur : Nat), Run.Keeps keepsScheme (growPath bs cur)
  | [], _ => .pure _
  | _ :: bs, _ => by
    refine .bind (.read _) fun c => ?_
    cases c with
    | some child => exact growPath_keepsScheme bs child
    | none =>
      exact .bind (.read _) fun n => .bind (.require _ _) fun _ => .bind (.update fun _ => rfl) fun _ =>
        .bind (.update fun _ => rfl) fun _ => growPath_keepsScheme bs n

theorem plantSymbol_keepsScheme (e : DistEntry) : Run.Keeps keepsScheme (plantSymbol e) := by
  refine .bind (.read _) fun c => ?_
  cases c with
  | none => exact .pure _
  | some bits => exact .bind (growPath_keepsScheme bits 0) fun _ => .update fun _ => rfl

theorem fromSchemeBlock_keepsScheme (dl : List DistEntry) : Run.Keeps keepsScheme (fromSchemeBlock dl) :=
  .bind (.update fun _ => rfl) fun _ => .each plantSymbol_keepsScheme dl

/-- Resolving a node writes children of nodes (R152). -/
theorem resolve_keepsSchemeCount : ∀ n i : Nat, Run.Keeps keepsSchemeCount (resolve n i)
  | 0, _ => .stuck
  | n + 1, i => by
    refine .bind (.read _) fun nd => ?_
    obtain ⟨sym, left, right⟩ := nd
    match sym, left, right with
    | some _, _, _ | none, none, none => exact .pure _
    | none, some l, none => exact resolve_keepsSchemeCount n l
    | none, none, some r => exact resolve_keepsSchemeCount n r
    | none, some l, some r =>
      exact .bind (resolve_keepsSchemeCount n l) fun _ => .bind (.update fun _ => rfl) fun _ =>
        .bind (resolve_keepsSchemeCount n r) fun _ => .bind (.update fun _ => rfl) fun _ => .pure _

theorem truncBlock_keepsSchemeCount : Run.Keeps keepsSchemeCount truncBlock := by
  refine .bind (.read _) fun root => ?_
  cases root with
  | none => exact .pure _
  | some r => exact .bind (resolve_keepsSchemeCount _ r) fun _ => .update fun _ => rfl

/-- Visiting a tree writes the codewords of its leaves (R154). -/
theorem visit_keepsTree : ∀ (n : Nat) (i : Option Nat) (p : Bits), Run.Keeps keepsTree (visit n i p)
  | 0, none, _ | _ + 1, none, _ => .pure _
  | 0, some _, _ => .stuck
  | n + 1, some _, _ => by
    refine .bind (.read _) fun nd => ?_
    obtain ⟨sym, left, right⟩ := nd
    cases sym with
    | some s => exact .update fun _ => rfl
    | none => exact .bind (visit_keepsTree n left _) fun _ => visit_keepsTree n right _

theorem deriveBlock_keepsTree : Run.Keeps keepsTree deriveBlock :=
  .bind (.update fun _ => rfl) fun _ => .bind (.read _) fun _ => visit_keepsTree _ _ _

/-- Settles O24: each command is its block on the engine's own code model, and each of the three tree blocks is
followed through its recursion. -/
theorem treeFrame : Obligations.TreeFrame := by
  refine ⟨fun i s t hi h => ?_, fun s t h => ?_, fun s t h => ?_, fun s t h => ?_⟩
  · obtain ⟨hprimitive, hkeeps⟩ : i.cmdClass = .primitive ∧ Run.Keeps (treeWrites anyTree) (Instr.block i) := by
      cases i with
      | treeFromScheme | bldShannon | bldFano | bldHuffman => exact ⟨rfl, withDist_keeps treeWrites_allowsMain _⟩
      | treeTrunc | treeDerive => exact ⟨rfl, onMain_keeps treeWrites_allowsMain _⟩
      | _ => simp at hi
    exact (exec_treeWrites hprimitive hkeeps h).1
  · exact (exec_treeWrites rfl (withDist_treeWrites fromSchemeBlock_keepsScheme) h).2
  · exact Prod.mk.inj (exec_treeWrites rfl (onMain_treeWrites truncBlock_keepsSchemeCount) h).2
  · exact (exec_treeWrites rfl (onMain_treeWrites deriveBlock_keepsTree) h).2

end Sys2Proof.Machine
end

section

namespace Sys2Proof.Machine

/-! ### How a primitive command gives a next state -/

/-- A primitive command whose block ends. -/
theorem exec_primitive_ok {i : Instr} (hi : i.cmdClass = .primitive) {s u : State} (h : s.Ready)
    (hb : Instr.block i (s.accept.setPhase .prim) = .ok () u) : exec i s = .next u.complete ∧ s.Ended u.complete := by
  rw [exec_eq, hi]
  exact ⟨runPrimitive_ok h hb,
    State.ended_of_control h (Run.Keeps.ok (s := s.accept.setPhase .prim) (control_allowsWork.block i) hb)⟩

/-- A primitive command is ignored, or its block runs in phase `PRIM` and ends or traps (R362). -/
theorem exec_primitive_next {i : Instr} (hi : i.cmdClass = .primitive) {s t : State} (h : exec i s = .next t) :
    t = s ∨ (∃ u, Instr.block i (s.accept.setPhase .prim) = .ok () u ∧ t = u.complete) ∨
      ∃ c u, Instr.block i (s.accept.setPhase .prim) = .error (.raise c) u ∧ t = u.takeFault c := by
  rw [exec_eq, hi] at h
  obtain ⟨_, ⟨_, hsame⟩ | ⟨_, ⟨u, hu, rfl⟩ | ⟨c, u, hu, rfl⟩⟩⟩ := runCommand_next h
  · exact .inl hsame
  · rw [setPhase_bind, Run.bind_apply] at hu
    cases hb : Instr.block i (s.accept.setPhase .prim) with
    | ok a v => rw [hb] at hu; cases hu; exact .inr (.inl ⟨v, rfl, rfl⟩)
    | error e v => rw [hb] at hu; cases hu
  · rw [setPhase_bind, Run.bind_apply] at hu
    cases hb : Instr.block i (s.accept.setPhase .prim) with
    | ok a v => rw [hb] at hu; cases hu
    | error e v => rw [hb] at hu; cases hu; exact .inr (.inr ⟨c, u, rfl, rfl⟩)

/-! ### What `COUNT` leaves alone -/

/-- The states that differ in what `COUNT` may write. -/
def countWrites : Frame State where
  rel s t := t = { s with
      status := t.status, faultCode := t.faultCode, phase := t.phase, freq := t.freq
      w := { s.w with total := t.w.total }
      io := { s.io with
        inPos := t.io.inPos, inBase := t.io.inBase, inAcc := t.io.inAcc, outAcc := t.io.outAcc } }
  refl _ := rfl
  trans _ _ _ h h' := h'.trans (by rw [h])

/-- Settles O22: accepting, reading, counting, ending and trapping each write only what the frame lets differ. -/
theorem countFrame : Obligations.CountFrame := by
  intro s t h
  rw [exec_eq] at h
  exact runPrimitive_frame (F := countWrites) (fun _ _ => rfl) (fun _ _ => rfl) (fun _ _ _ => rfl)
    (countBlock_keeps (fun _ _ _ => rfl) (fun _ _ => rfl) fun _ _ => rfl) h

/-! ### What `DIST` and `RANGES` write -/

/-- `DIST`'s block (R132): the distribution, and behind it what the entries held (V7). -/
theorem distBlock_distributes (s : State) : ∃ x n, distBlock s = .ok () (s.distributed x n) ∧
    (s.distributed x n).distList = distribution s.freq ∧
    ∀ k, (distribution s.freq).length ≤ k → distGet x k = distGet s.dist k := by
  obtain ⟨v, hv, hlist⟩ := distBlock_distList s
  cases hv
  refine ⟨_, _, rfl, hlist, fun k hk => ?_⟩
  rw [distGet, Table.get_setList, if_neg (by omega)]
  rfl

/-- The loop of `RANGES` (R134), whatever the sums: it writes the entries from `i` on, one a symbol. -/
theorem rangeLoop_writes : ∀ (dl : List DistEntry) (i cum : Nat) (s : State), ∃ r n,
    rangeLoop dl i cum s = .ok (cum + cntSum dl) ((s.setRange r).setFresh n) ∧
      ∀ j, i + dl.length ≤ j → rangeGet r j = rangeGet s.range j
  | [], _, _, s => ⟨s.range, s.fresh, rfl, fun _ _ => rfl⟩
  | e :: es, i, cum, s => by
    obtain ⟨x, m, hw⟩ : ∃ x m, writeRange i (e.sym.setWidth 9) cum (cum + e.cnt.toNat) s =
        .ok () ((s.setRange (rangeSet s.range i x)).setFresh m) := ⟨_, _, rfl⟩
    obtain ⟨r, n, hr, hbehind⟩ := rangeLoop_writes es (i + 1) (cum + e.cnt.toNat)
      ((s.setRange (rangeSet s.range i x)).setFresh m)
    refine ⟨r, n, ?_, fun j hj => ?_⟩
    · rw [rangeLoop, Run.bind_ok hw, hr, cntSum_cons, Nat.add_assoc]
      rfl
    · rw [List.length_cons] at hj
      rw [hbehind j (by omega), State.setFresh_range, State.setRange_range, rangeGet_rangeSet, if_neg (by omega)]

/-- `RANGES` has written its distribution and its entries of `RANGE`, and `NRANGE`, `RT` not yet (R134). -/
structure State.Tabulated (s t : State) : Prop where
  same : t = (((s.setDist t.dist).setRange t.range).setFresh t.fresh).setW { s.w with ndist := t.w.ndist }
  listed : t.distList = distribution s.freq
  distBehind : ∀ k, (distribution s.freq).length ≤ k → distGet t.dist k = distGet s.dist k
  rangeBehind : ∀ k, (distribution s.freq).length ≤ k → rangeGet t.range (k + 1) = rangeGet s.range (k + 1)

/-- `RANGES`' block (R134, R136): its tables first, then `NRANGE` and `RT`, or the fault where the total is beyond its
bound. -/
theorem rangesBlock_tabulates (s : State) : ∃ t, s.Tabulated t ∧
    (rangeTotal (distribution s.freq) ≤ Config.arithTMax →
      ∃ n x, rangesBlock s = .ok () (t.setW { t.w with nrange := n, rt := x })) ∧
    (Config.arithTMax < rangeTotal (distribution s.freq) → rangesBlock s = .error (.raise .rangeTotal) t) := by
  obtain ⟨d, nd, hdist, hlist, hbehind⟩ := distBlock_distributes s
  unfold rangesBlock
  simp only [Run.bind_ok hdist, Run.read_bind, hlist]
  cases hlast : (distribution s.freq).getLast? with
  | none =>
    have hnil : distribution s.freq = [] := List.getLast?_eq_none_iff.1 hlast
    refine ⟨s.distributed d nd, ⟨rfl, hlist, hbehind, fun _ _ => rfl⟩, fun _ => ⟨0, 0, rfl⟩, fun h => ?_⟩
    rw [hnil] at h
    exact absurd h (by decide)
  | some last =>
    have htotal : rangeTotal (distribution s.freq) = cntSum (distribution s.freq) + last.cnt.toNat := by
      rw [rangeTotal, eosWeight, hlast]; rfl
    obtain ⟨r, n, hloop, hrange⟩ := rangeLoop_writes (distribution s.freq) 0 0 (s.distributed d nd)
    rw [Nat.zero_add] at hloop
    obtain ⟨x, m, hlastEntry⟩ : ∃ x m, writeRange (distribution s.freq).length (BitVec.ofNat 9 Config.eosSym)
        (cntSum (distribution s.freq)) (cntSum (distribution s.freq) + last.cnt.toNat)
        (((s.distributed d nd).setRange r).setFresh n) =
        .ok () (((s.distributed d nd).setRange (rangeSet r (distribution s.freq).length x)).setFresh m) := ⟨_, _, rfl⟩
    simp only [Run.bind_ok hloop, Run.bind_ok hlastEntry, htotal]
    refine ⟨((s.distributed d nd).setRange (rangeSet r (distribution s.freq).length x)).setFresh m,
      ⟨rfl, hlist, hbehind, fun k hk => ?_⟩, fun hle => ?_, fun hgt => ?_⟩
    · show rangeGet (rangeSet r _ x) (k + 1) = _
      rw [rangeGet_rangeSet, if_neg (by omega), hrange _ (by omega)]
      rfl
    · rw [decide_eq_true hle]
      exact ⟨_, _, rfl⟩
    · rw [decide_eq_false (Nat.not_le.2 hgt)]
      rfl

/-- Settles O23: each block's end state is known, so nothing but its results differs, and of these the entries behind
the table are kept. -/
theorem distRangesFrame : Obligations.DistRangesFrame := by
  refine ⟨fun s t h => ?_, fun s t h => ?_⟩
  · obtain ⟨x, n, hdist, _, hbehind⟩ := distBlock_distributes (s.accept.setPhase .prim)
    obtain rfl | ⟨u, hu, rfl⟩ | ⟨c, u, hu, _⟩ := exec_primitive_next rfl h
    · exact ⟨rfl, fun _ _ => rfl⟩
    · cases hdist.symm.trans hu
      exact ⟨rfl, hbehind⟩
    · cases hdist.symm.trans hu
  · obtain ⟨v, ⟨hsame, _, hdist, hrange⟩, hok, htrap⟩ := rangesBlock_tabulates (s.accept.setPhase .prim)
    have hbehind := fun k hk => And.intro (hdist k hk) (hrange k hk)
    obtain ⟨d, r, m, n, rfl⟩ : ∃ d r m n, v = ((((s.accept.setPhase .prim).setDist d).setRange r).setFresh m).setW
        { s.w with ndist := n } := ⟨_, _, _, _, hsame⟩
    obtain rfl | hrun := exec_primitive_next rfl h
    · exact ⟨rfl, fun _ _ => ⟨rfl, rfl⟩⟩
    · rcases Nat.lt_or_ge Config.arithTMax (rangeTotal (distribution s.freq)) with hgt | hle
      · obtain ⟨u, hu, _⟩ | ⟨c, u, hu, rfl⟩ := hrun
        · cases (htrap hgt).symm.trans hu
        · cases (htrap hgt).symm.trans hu
          exact ⟨rfl, hbehind⟩
      · obtain ⟨nr, x, hblock⟩ := hok hle
        obtain ⟨u, hu, rfl⟩ | ⟨c, u, hu, _⟩ := hrun
        · cases hblock.symm.trans hu
          exact ⟨rfl, hbehind⟩
        · cases hblock.symm.trans hu

end Sys2Proof.Machine
end

section

namespace Sys2Proof.Machine

/-! ### `COUNT` to the end of the input -/

/-- Settles O29: the block ends behind the last byte with the table of the bytes, whose sum is their number. -/
theorem countCompletes : Obligations.CountCompletes := by
  intro s ⟨hready, ⟨hin, _, _⟩, hsound⟩ hlen
  have hmax : Config.inLenMax = 2 ^ 32 - 1 := rfl
  obtain ⟨hblock, hrest⟩ := countBlock_ok (s := s.accept.setPhase .prim) hin hsound hlen
  obtain ⟨hnext, hended⟩ := exec_primitive_ok (i := .count) rfl hready hblock
  have htotal : ((0 : BitVec 40) + BitVec.ofNat 40 s.io.rest.length).toNat = s.io.rest.length := by
    rw [show (0 : BitVec 40) + BitVec.ofNat 40 s.io.rest.length = BitVec.ofNat 40 s.io.rest.length from
      BitVec.zero_add _, toNat_total hlen]
  refine ⟨_, hnext, hended, Streams.drained ⟨hsound.1, ?_⟩ hrest, countTable_get (S := s.io.rest) (by omega),
    htotal, htotal.trans (countTable_sum (by omega)).symm⟩
  show (s.io.inPos + BitVec.ofNat 64 s.io.rest.length).toNat ≤ s.io.input.length
  have hlen' : s.io.rest.length = s.io.input.length - s.io.inPos.toNat := List.length_drop
  rw [BitVec.toNat_add, BitVec.toNat_ofNat]
  obtain ⟨h1, h2⟩ := hsound
  omega

/-! ### The 2^32-th byte -/

/-- A counting pass from `s` stopped on the 2^32-th byte: read and not counted, nothing appended (R131). -/
structure State.Overran (s t : State) : Prop where
  phase : t.phase = s.phase
  io : ∃ n, t.io = { s.io with inPos := s.io.inPos + BitVec.ofNat 64 (2 ^ 32), inAcc := n }
  total : t.w.total.toNat = 2 ^ 32 - 1

/-- `COUNT`'s loop where the bytes `A` bring `TOTAL` to its bound and another one follows (R131). -/
theorem countLoop_overflows {s : State} {A l : List Byte} {b : Byte} (n : Nat) (hf : s.io.failIn = [])
    (hs : s.io.Sound) (hr : s.io.rest = A ++ b :: l) (ht : s.w.total.toNat + A.length = Config.inLenMax) :
    countLoop (A.length + (n + 1)) s = .error (.raise .countOverflow) (s.counted A).advanced ∧
      (s.counted A).w.total.toNat = Config.inLenMax := by
  have hmax : Config.inLenMax = 2 ^ 32 - 1 := rfl
  obtain ⟨hrun, hrest, _⟩ := countLoop_run A (n + 1) (fun _ _ _ => by rw [hf]; rfl) hs hr ht.le
  have htotal : (s.counted A).w.total.toNat = Config.inLenMax := by
    rw [State.setW_w, BitVec.toNat_add, BitVec.toNat_ofNat]
    omega
  refine ⟨?_, htotal⟩
  rw [hrun, countLoop, Run.bind_ok (inRead_some (s := s.counted A) hf hrest)]
  show (Run.require (decide ((s.counted A).w.total.toNat < Config.inLenMax)) .countOverflow >>= _) _ = _
  rw [htotal, decide_eq_false (Nat.lt_irrefl _)]
  rfl

/-- `COUNT`'s block on more than 2^32 - 1 bytes. -/
theorem countBlock_overflows {s : State} (hf : s.io.failIn = []) (hs : s.io.Sound)
    (hl : Config.inLenMax < s.io.rest.length) : ∃ t, countBlock s = .error (.raise .countOverflow) t ∧
      s.Overran t ∧ t.freq = countTable (s.io.rest.take (2 ^ 32 - 1)) := by
  have hmax : Config.inLenMax = 2 ^ 32 - 1 := rfl
  obtain ⟨A, hA⟩ : ∃ A, A = s.io.rest.take (2 ^ 32 - 1) := ⟨_, rfl⟩
  have hlen : A.length = 2 ^ 32 - 1 := by rw [hA]; exact List.length_take_of_le (by omega)
  obtain ⟨b, l, hdrop⟩ : ∃ b l, s.io.rest.drop (2 ^ 32 - 1) = b :: l :=
    List.exists_cons_of_ne_nil fun h => absurd (List.drop_eq_nil_iff.1 h) (by omega)
  have hrest : s.io.rest = A ++ b :: l := by rw [hA, ← hdrop, List.take_append_drop]
  obtain ⟨hloop, htotal⟩ := countLoop_overflows (s := (s.setFreq []).setW { s.w with total := 0 })
    (s.io.rest.length - A.length) hf hs hrest ((Nat.zero_add _).trans hlen)
  rw [show A.length + (s.io.rest.length - A.length + 1) = s.io.rest.length + 1 by omega] at hloop
  refine ⟨_, hloop, ⟨rfl, ⟨s.io.inAcc + A.length + 1, ?_⟩, htotal⟩, by rw [← hA]; rfl⟩
  show { s.io with inPos := s.io.inPos + BitVec.ofNat 64 A.length + 1, inAcc := s.io.inAcc + A.length + 1 } = _
  rw [hlen, BitVec.add_assoc]
  rfl

/-- The state after `CountPairs()` has counted the byte it read (R231). -/
abbrev State.pairCounted (s : State) (b : Byte) : State :=
  ((s.advanced.setFreq (freqBump s.freq b.toNat)).setCtx (countSuccessor s.ctx s.w.prev.toNat b)).setW
    { s.w with total := s.w.total + 1, prev := b.setWidth 9 }

theorem State.pairCounted_unpaired (s : State) (b : Byte) : (s.pairCounted b).unpaired = s.unpaired := by
  simp only [State.unpaired, State.setIo, State.setFreq, State.setCtx, State.setW]

/-- The loop of `CountPairs()` where `n` more bytes can be counted and another one follows (R231, R131). -/
theorem countPairsLoop_overflows (k : Nat) : ∀ (n : Nat) {s : State}, s.io.failIn = [] → s.io.Sound →
    n < s.io.rest.length → s.w.total.toNat + n = Config.inLenMax →
    ∃ t, countPairsLoop (k + n + 1) s = .error (.raise .countOverflow) t ∧ t.unpaired = s.unpaired ∧
      t.io.inPos = s.io.inPos + BitVec.ofNat 64 (n + 1) ∧ t.w.total.toNat = Config.inLenMax
  | 0, s, hf, _, hl, ht => by
    obtain ⟨b, l, hr⟩ := List.exists_cons_of_length_pos hl
    rw [Nat.add_zero] at ht
    refine ⟨s.advanced, ?_, rfl, rfl, ht⟩
    rw [countPairsLoop, Run.bind_ok (inRead_some hf hr)]
    show (Run.require (decide (s.w.total.toNat < Config.inLenMax)) .countOverflow >>= _) s.advanced = _
    rw [decide_eq_false (by omega)]
    rfl
  | n + 1, s, hf, hs, hl, ht => by
    have hmax : Config.inLenMax = 2 ^ 32 - 1 := rfl
    obtain ⟨b, l, hr⟩ := List.exists_cons_of_length_pos (Nat.zero_lt_of_lt hl)
    have hrest := State.advanced_rest hs hr
    obtain ⟨t, hloop, hsame, hpos, htotal⟩ := countPairsLoop_overflows k n
      (s := s.pairCounted b) hf (State.advanced_sound hs hr)
      (by
        show n < s.advanced.io.rest.length
        rw [hr, List.length_cons] at hl
        rw [hrest]
        omega)
      (by
        show (s.w.total + 1).toNat + n = _
        rw [BitVec.toNat_add, show (1 : BitVec 40).toNat = 1 from rfl]
        omega)
    refine ⟨t, ?_, hsame.trans (s.pairCounted_unpaired b), hpos.trans ?_, htotal⟩
    · rw [← Nat.add_assoc, countPairsLoop_step hf hr (by omega), hloop]
    · show s.io.inPos + 1 + BitVec.ofNat 64 (n + 1) = _
      rw [BitVec.add_assoc, BitVec.add_comm 1, BitVec.ofNat_add (x := n + 1) (y := 1)]
      rfl

/-- `CountPairs()` (R231) on more than 2^32 - 1 bytes. -/
theorem countPairs_overflows {s : State} (hf : s.io.failIn = []) (hs : s.io.Sound)
    (hl : Config.inLenMax < s.io.rest.length) : ∃ t, countPairs s = .error (.raise .countOverflow) t ∧
      s.Overran t := by
  obtain ⟨x, hx, _, _⟩ := eachCtx_ok (fun e => { e with present := false, freq := [] }) (List.range 256)
    (s.setFreq []) List.nodup_range
  obtain ⟨t, hloop, hsame, hpos, htotal⟩ := countPairsLoop_overflows (s.io.rest.length - Config.inLenMax)
    Config.inLenMax (s := ((s.setFreq []).setCtx x).setW { s.w with total := 0, prev := 256 }) hf hs hl
    (Nat.zero_add _)
  obtain ⟨p, n, hio⟩ := State.unpaired_io hsame
  have hphase : t.phase = s.phase := by simpa [State.unpaired] using congrArg State.phase hsame
  refine ⟨t, ?_, hphase, ⟨n, ?_⟩, htotal⟩
  · rw [Nat.sub_add_cancel hl.le] at hloop
    rw [countPairs, Run.update_bind, Run.bind_ok hx, setW_bind, Run.read_bind]
    exact Run.bind_error hloop
  · rw [hio] at hpos ⊢
    rw [← show p = s.io.inPos + BitVec.ofNat 64 (2 ^ 32) from hpos]
    rfl

/-- A stream command whose counting pass stops on the 2^32-th byte traps there, before a byte is written. -/
theorem exec_scan_overflows {i : Instr} (hi : i.cmdClass = .stream) {scan : Eng Unit} {rest : Unit → Eng Unit}
    (hb : Instr.block i = (setPhase .scan1 >>= fun _ => scan >>= rest)) {s u : State} (hready : s.Ready)
    (hscan : scan (s.streamStart.setPhase .scan1) = .error (.raise .countOverflow) u)
    (hu : (s.streamStart.setPhase .scan1).Overran u) :
    ∃ t, exec i s = .next t ∧ t.Trapped .countOverflow .scan1 ∧ s.Appended t [] ∧
      t.io.inPos = s.io.inPos + BitVec.ofNat 64 (2 ^ 32) ∧ t.w.total.toNat = 2 ^ 32 - 1 := by
  obtain ⟨hphase, ⟨n, hio⟩, htotal⟩ := hu
  obtain ⟨hnext, htrap⟩ := exec_stream_raise hi hready (u := u) (c := .countOverflow)
    (by rw [hb, setPhase_bind, Run.bind_error hscan])
  rw [hphase] at htrap
  rw [← State.takeFault_io u .countOverflow] at hio
  exact ⟨_, hnext, htrap, (State.Appended.refl s).congr ⟨rfl, rfl⟩ (by rw [hio]; exact ⟨rfl, rfl⟩),
    by rw [hio]; rfl, htotal⟩

/-- Settles O30: the counting loop reads the 2^32-th byte with `TOTAL` at its bound. -/
theorem countOverflows : Obligations.CountOverflows := by
  intro s ⟨hready, ⟨hin, _, _⟩, hsound⟩ hlen
  obtain ⟨u, hcount, hover, _⟩ := countBlock_overflows (s := s.streamStart.setPhase .scan1) hin hsound hlen
  refine ⟨?_, fun i hi => ?_⟩
  · obtain ⟨v, hblock, ⟨hphase, ⟨n, hio⟩, htotal⟩, hfreq⟩ :=
      countBlock_overflows (s := s.accept.setPhase .prim) hin hsound hlen
    obtain ⟨hnext, htrap⟩ := exec_primitive_raise (i := .count) rfl hready hblock
    rw [hphase] at htrap
    refine ⟨_, hnext, htrap, by rw [State.takeFault_io, hio]; rfl, htotal, fun b => ?_⟩
    rw [State.takeFault_freq, hfreq]
    exact countTable_get (lt_of_le_of_lt (List.length_take_le _ _) (by decide)) b
  · cases i with
    | cmpShannon | cmpFano | cmpHuffman | cmpArith => exact exec_scan_overflows rfl rfl hready hcount hover
    | cmpContext =>
      obtain ⟨v, hpairs, hover⟩ := countPairs_overflows (s := s.streamStart.setPhase .scan1) hin hsound hlen
      exact exec_scan_overflows rfl rfl hready hpairs hover
    | _ => simp at hi

end Sys2Proof.Machine
end

section

namespace Sys2Proof.Machine

/-! ### The distribution and the range table of a ready engine -/

/-- Settles O32: `DIST`'s block lists the distribution, which is sorted and has the present symbols as its entries. -/
theorem distCompletes : Obligations.DistCompletes := by
  intro s hready
  obtain ⟨u, hblock, hlist⟩ := distBlock_distList (s.accept.setPhase .prim)
  obtain ⟨hnext, hended⟩ := exec_primitive_ok (i := .dist) rfl hready hblock
  have hlist : u.complete.distList = distribution s.freq := hlist
  refine ⟨_, hnext, hended, ?_, fun e => ?_⟩
  · rw [hlist]
    exact distribution_sorted s.freq
  · rw [hlist]
    exact mem_distribution

/-- The first entry starts at `cum`; behind the last symbol comes an entry that starts where the sums end. -/
theorem rangesFrom_head {x : RangeEntry} : ∀ {dl : List DistEntry} {cum : Nat},
    x.cumLo = BitVec.ofNat 30 (cum + cntSum dl) →
    ∀ e, (rangesFrom dl cum ++ [x]).head? = some e → e.cumLo = BitVec.ofNat 30 cum
  | [], _, hx, _, he => by cases he; exact hx
  | _ :: _, _, _, _, he => by cases he; rfl

/-- Neighbours share their end (R29). -/
theorem rangesFrom_chain {x : RangeEntry} : ∀ {dl : List DistEntry} {cum : Nat},
    x.cumLo = BitVec.ofNat 30 (cum + cntSum dl) →
    (rangesFrom dl cum ++ [x]).IsChain (fun a b => a.cumHi = b.cumLo)
  | [], _, _ => List.isChain_singleton x
  | d :: dl, cum, hx => by
    rw [cntSum_cons, ← Nat.add_assoc] at hx
    rw [rangesFrom, List.cons_append, List.isChain_cons]
    exact ⟨fun e he => (rangesFrom_head hx e he).symm, rangesFrom_chain hx⟩

theorem rangeTable_eq {dl : List DistEntry} (h : dl ≠ []) : rangeTable dl = rangesFrom dl 0 ++
    [⟨BitVec.ofNat 9 Config.eosSym, BitVec.ofNat 30 (cntSum dl), BitVec.ofNat 30 (rangeTotal dl)⟩] := by
  cases dl with
  | nil => exact absurd rfl h
  | cons => rfl

/-- Settles O33: the block leaves the table of the distribution, whose ends meet by construction. -/
theorem rangesCompletes : Obligations.RangesCompletes := by
  intro s hready hle
  have hmax : Config.arithTMax = 2 ^ 29 := rfl
  obtain ⟨u, hblock, hlist, htable, hrt, hnrange, _⟩ := rangesBlock_ok (s.accept.setPhase .prim) hle
  obtain ⟨hnext, hended⟩ := exec_primitive_ok (i := .ranges) rfl hready hblock
  have hrt : u.w.rt.toNat = rangeTotal (distribution s.freq) := hrt
  have htable : u.complete.rangeList = rangeTable (distribution s.freq) := htable
  have hnrange : u.w.nrange.toNat = (rangeTable (distribution s.freq)).length := hnrange
  refine ⟨_, hnext, hended, hlist, htable, hrt, fun hnil => ?_, fun hne => ?_⟩
  · rw [hnil] at hnrange
    exact BitVec.eq_of_toNat_eq hnrange
  · have hspec := (rangeTable_spec (distribution_isDist s.freq).2 (by omega)).1
    have hstart : (BitVec.ofNat 30 (cntSum (distribution s.freq)) : BitVec 30) =
        BitVec.ofNat 30 (0 + cntSum (distribution s.freq)) := by rw [Nat.zero_add]
    rw [htable]
    refine ⟨hnrange.trans (rangeTable_length hne), fun e he => ?_, fun e he => ?_, ?_, fun e he => (hspec e he).1⟩
    · rw [rangeTable_eq hne] at he
      exact rangesFrom_head hstart e he
    · rw [rangeTable_eq hne, List.getLast?_concat] at he
      cases he
      refine ⟨rfl, ?_⟩
      show BitVec.ofNat 30 (rangeTotal (distribution s.freq)) = u.w.rt
      rw [← hrt, BitVec.ofNat_toNat, BitVec.setWidth_eq]
    · rw [rangeTable_eq hne]
      exact rangesFrom_chain hstart

/-! ### A total beyond 2^29 -/

/-- The bound of R136 on a byte sequence, as a bound on its range table. -/
theorem arithTMax_lt_of_not_fits {S : List Byte} (hlen : S.length ≤ Config.inLenMax) (h : ¬arithFits S) :
    Config.arithTMax < rangeTotal (distribution (countTable S)) := by
  have hmax : Config.inLenMax = 2 ^ 32 - 1 := rfl
  rw [rangeTotal, cntSum_distribution, countTable_sum (by omega)]
  exact Nat.not_le.1 h

theorem eosWeight_le_cntSum (dl : List DistEntry) : eosWeight dl ≤ cntSum dl := by
  rw [eosWeight, cntSum]
  cases hlast : dl.getLast? with
  | none => exact Nat.zero_le _
  | some e => exact List.single_le_sum (fun _ _ => Nat.zero_le _) _ (List.mem_map_of_mem (List.mem_of_getLast? hlast))

/-- A header whose range table is beyond its bound counts at least one symbol. -/
theorem freqSum_ne_zero {f : Table (BitVec 32)} (h : Config.arithTMax < rangeTotal (distribution f)) :
    BitVec.ofNat 40 (freqSum f) ≠ 0 := by
  have hle := eosWeight_le_cntSum (distribution f)
  have hlt := freqSum_lt f
  rw [rangeTotal] at h
  rw [cntSum_distribution] at h hle
  intro h0
  have := congrArg BitVec.toNat h0
  rw [BitVec.toNat_ofNat, Nat.mod_eq_of_lt hlt] at this
  have h0 : freqSum f = 0 := this
  omega

/-- A stream command whose `RANGES` (R134) comes in `BUILD`, after reads alone have counted, and is beyond its bound. -/
theorem exec_build_traps {i : Instr} (hi : i.cmdClass = .stream) {s u : State} (hready : s.Ready)
    (hphase : u.phase = .build) (hio : ∃ p n, u.io = { s.streamStart.io with inPos := p, inAcc := n })
    (hw : u.w.nrange = s.w.nrange ∧ u.w.rt = s.w.rt)
    (htotal : Config.arithTMax < rangeTotal (distribution u.freq))
    (hrun : ∀ e v, rangesBlock u = .error e v → Instr.block i s.streamStart = .error e v) :
    ∃ t, exec i s = .next t ∧ t.Trapped .rangeTotal .build ∧ s.Appended t [] ∧ t.w.nrange = s.w.nrange ∧
      t.w.rt = s.w.rt := by
  obtain ⟨v, ⟨hsame, _, _, _⟩, _, htrap⟩ := rangesBlock_tabulates u
  obtain ⟨d, r, m, n, rfl⟩ : ∃ d r m n, v = (((u.setDist d).setRange r).setFresh m).setW { u.w with ndist := n } :=
    ⟨_, _, _, _, hsame⟩
  obtain ⟨hnext, htrapped⟩ := exec_stream_raise hi hready (hrun _ _ (htrap htotal))
  obtain ⟨p, k, hio⟩ := hio
  refine ⟨_, hnext, hphase ▸ htrapped, (State.Appended.refl s).congr ⟨rfl, rfl⟩ ?_, hw⟩
  show u.io.outRev = _ ∧ u.io.outLen = _
  rw [hio]
  exact ⟨rfl, rfl⟩

/-- Settles O34: in each command the block of `RANGES` runs on the counts and raises its fault behind the table. -/
theorem rangesTraps : Obligations.RangesTraps := by
  refine ⟨fun s hready hgt => ?_, fun s ⟨hready, ⟨hin, _, _⟩, hsound⟩ hlen hfits => ?_,
    fun s f p ⟨hready, ⟨hin, _, _⟩, hsound⟩ hrest hgt => ?_⟩
  · obtain ⟨v, ⟨hsame, hlist, _, _⟩, _, htrap⟩ := rangesBlock_tabulates (s.accept.setPhase .prim)
    obtain ⟨hnext, htrapped⟩ := exec_primitive_raise (i := .ranges) rfl hready (htrap hgt)
    obtain ⟨d, r, m, n, rfl⟩ : ∃ d r m n, v = ((((s.accept.setPhase .prim).setDist d).setRange r).setFresh m).setW
        { s.w with ndist := n } := ⟨_, _, _, _, hsame⟩
    exact ⟨_, hnext, htrapped, rfl, rfl, hlist⟩
  · obtain ⟨p, n, hcount⟩ := countBlock_tallied (s := s.streamStart.setPhase .scan1) hin hsound hlen
    refine exec_build_traps rfl hready rfl ⟨p, n, rfl⟩ ⟨rfl, rfl⟩ (arithTMax_lt_of_not_fits hlen hfits)
      (u := ((s.streamStart.setPhase .scan1).tallied s.io.rest p n).setPhase .build) fun e v hv => ?_
    show arithCompress s.streamStart = _
    rw [arithCompress, setPhase_bind, Run.bind_ok hcount, setPhase_bind]
    exact Run.bind_error hv
  · obtain ⟨t, hread, _, _, hget, htotal, hsame⟩ :=
      readHeader_ok f (s := s.streamStart.setPhase .hdrRd) hin hsound hrest
    have hdist := distribution_congr hget
    have hne : t.w.total ≠ 0 := by
      rw [htotal, freqSum_congr hget]
      exact freqSum_ne_zero hgt
    clear htotal
    obtain ⟨fr, n, rfl⟩ : ∃ fr n, t = (((s.streamStart.setPhase .hdrRd).advancedBy 1024).setFreq fr).setW
        { s.streamStart.w with total := n } := ⟨_, _, hsame⟩
    refine exec_build_traps (i := .decArith) rfl hready rfl ⟨_, _, rfl⟩ ⟨rfl, rfl⟩ (hdist ▸ hgt)
      (u := ((((s.streamStart.setPhase .hdrRd).advancedBy 1024).setFreq fr).setW
        { s.streamStart.w with total := n }).setPhase .build) fun e v hv => ?_
    show arithDecompress s.streamStart = _
    rw [arithDecompress, setPhase_bind, Run.bind_ok hread, Run.read_bind, if_neg hne, arithRebuild, setPhase_bind]
    exact Run.bind_error hv

end Sys2Proof.Machine
end

section

namespace Sys2Proof.Machine

/-! ### The code-tree commands on a ready engine -/

/-- A primitive command that is a block on `SCHEME`, `TREE`, `NNODES`, `ROOT` ends with what the block leaves there. -/
theorem exec_onMain_ok {i : Instr} (hi : i.cmdClass = .primitive) {m : Run TreeMem Unit} {s : State} {u : TreeMem}
    (hb : Instr.block i (s.accept.setPhase .prim) = onMain m (s.accept.setPhase .prim)) (hready : s.Ready)
    (hm : m s.main = .ok () u) : ∃ t, exec i s = .next t ∧ s.Ended t ∧ t.main = u := by
  obtain ⟨hnext, hended⟩ := exec_primitive_ok hi hready (hb.trans (onMain_ok (s := s.accept.setPhase .prim) hm))
  exact ⟨_, hnext, hended, rfl⟩

/-- Settles O35: the block leaves the trie of the codewords at slot 0, which has a node for the root and at most one
for each bit. -/
theorem fromSchemeCompletes : Obligations.FromSchemeCompletes := by
  intro s hready hsum
  obtain ⟨u, hblock, hroom, _, hroot, hnodes⟩ := fromSchemeBlock_ok (t := s.main) (dl := s.distList)
    (Trie.fits_of_sum (codes := s.codewords) (by omega))
  obtain ⟨t, hnext, hended, rfl⟩ := exec_onMain_ok (i := .treeFromScheme) rfl rfl hready hblock
  have hholds := hroom.holds.see.1
  rw [see_codes] at hholds
  have hsize : t.main.nnodes.toNat = (Trie.lone.graftAll s.codewords).size := hnodes
  have hlone : Trie.lone.size = 1 := rfl
  obtain ⟨hge, hle⟩ := Trie.size_graftAll (tr := .lone) (by simp) s.codewords
  exact ⟨t, hnext, hended, hroot, hholds, by omega, by omega⟩

theorem truncBlock_of_no_root {t : TreeMem} (h : t.root = none) : truncBlock t = .ok () t := by
  rw [truncBlock, Run.read_bind, h]
  rfl

theorem deriveBlock_of_no_root {t : TreeMem} (h : t.root = none) : deriveBlock t = .ok () t.clearScheme := by
  show visit depthBound t.root [] t.clearScheme = _
  rw [h]
  rfl

/-- The arena's bound on a depth is within the bound of the recursions (R153). -/
theorem depth_le_depthBound {sh : Shape} (h : sh.depth ≤ Config.treeCap) : sh.depth ≤ depthBound := Nat.le_succ_of_le h

/-- Settles O36: without a root the block does nothing; else `resolve` gives the truncated tree, the slots it writes
and those it reaches. -/
theorem truncCompletes : Obligations.TruncCompletes := by
  refine ⟨fun s hready hroot => ?_, fun s r sh hready hroot hholds hnodup hdepth => ?_⟩
  · exact exec_onMain_ok (i := .treeTrunc) rfl rfl hready (truncBlock_of_no_root hroot)
  · obtain ⟨u, hblock, _, _, hnodes, _, r', hroot', hholds', hkept, hreached⟩ :=
      truncBlock_ok hroot hholds hnodup (depth_le_depthBound hdepth)
    obtain ⟨t, hnext, hended, rfl⟩ := exec_onMain_ok (i := .treeTrunc) rfl rfl hready hblock
    exact ⟨t, r', hnext, hended, hroot', hholds', hnodes, hkept, hreached⟩

/-- Settles O37: the block empties `SCHEME` and, where there is a root, writes the paths to the leaves in order. -/
theorem deriveCompletes : Obligations.DeriveCompletes := by
  refine ⟨fun s hready hroot => ?_, fun s r sh hready hroot hholds hdepth => ?_⟩
  · obtain ⟨t, hnext, hended, hmain⟩ :=
      exec_onMain_ok (i := .treeDerive) rfl rfl hready (deriveBlock_of_no_root hroot)
    exact ⟨t, hnext, hended, fun b => by rw [hmain, TreeMem.clearScheme_code]⟩
  · obtain ⟨u, hblock, _, _, _, hcode⟩ := deriveBlock_ok ⟨r, hroot, hholds⟩ (depth_le_depthBound hdepth)
    obtain ⟨t, hnext, hended, rfl⟩ := exec_onMain_ok (i := .treeDerive) rfl rfl hready hblock
    exact ⟨t, hnext, hended, hcode⟩

end Sys2Proof.Machine
end

section

namespace Sys2Proof.Machine

/-! ### The builders on a ready engine -/

theorem StaticMethod.bld_primitive (m : StaticMethod) : m.bld.cmdClass = .primitive := by cases m <;> rfl
theorem StaticMethod.block_bld (m : StaticMethod) : Instr.block m.bld = withDist m.block := by cases m <;> rfl

/-- A builder command ends with what its block makes of the distribution (R170). -/
theorem exec_bld_ok (m : StaticMethod) {s : State} {u : TreeMem} (hready : s.Ready)
    (hb : m.block s.distList s.main = .ok () u) : ∃ t, exec m.bld s = .next t ∧ s.Ended t ∧ t.main = u :=
  exec_onMain_ok m.bld_primitive (by rw [m.block_bld]; rfl) hready hb

theorem StaticMethod.block_nil (m : StaticMethod) : m.block [] = emptyResult := by cases m <;> rfl
theorem StaticMethod.block_one (m : StaticMethod) (e : DistEntry) : m.block [e] = degenerateResult e.sym := by
  cases m <;> rfl

/-- What the degenerate result writes (R172). -/
theorem degenerateResult_ok (sym : Byte) (t : TreeMem) : ∃ u, degenerateResult sym t = .ok () u ∧ u.nnodes = 2 ∧
    u.root = some 0 ∧ u.node 0 = ⟨none, some 1, none⟩ ∧ u.node 1 = ⟨some sym, none, none⟩ ∧
    ∀ b : Byte, u.code b.toNat = if b = sym then some [false] else none := by
  have hnode : ∀ k, (((t.clearScheme.setCode sym.toNat [false]).setNode 0 ⟨none, some 1, none⟩).setNode 1
      ⟨some sym, none, none⟩).node k =
      if k = 1 then ⟨some sym, none, none⟩ else if k = 0 then ⟨none, some 1, none⟩ else t.node k := fun k => by
    rw [TreeMem.node_setNode, TreeMem.node_setNode]
    rfl
  refine ⟨_, rfl, rfl, rfl, hnode 0, hnode 1, fun b => ?_⟩
  show (t.clearScheme.setCode sym.toNat [false]).code b.toNat = _
  rw [TreeMem.code_setCode, TreeMem.clearScheme_code]
  simp only [BitVec.toNat_inj]

/-- Settles O38: on at most one entry each builder is the empty or the degenerate result. -/
theorem buildersSmall : Obligations.BuildersSmall := by
  intro m s hready
  refine ⟨fun hnil => ?_, fun e hone => ?_⟩
  · obtain ⟨t, hnext, hended, hmain⟩ := exec_bld_ok m hready
      (u := { s.main.clearScheme with nnodes := 0, root := none }) (by rw [hnil, m.block_nil]; rfl)
    exact ⟨t, hnext, hended, by rw [hmain], by rw [hmain], fun b => by rw [hmain]; rfl⟩
  · obtain ⟨u, hu, hwrites⟩ := degenerateResult_ok e.sym s.main
    obtain ⟨t, hnext, hended, rfl⟩ := exec_bld_ok m hready (by rw [hone, m.block_one]; exact hu)
    exact ⟨t, hnext, hended, hwrites⟩

/-! ### The raw Shannon codewords, one by one -/

theorem shannonShape_eq {dl : List DistEntry} (h : 2 ≤ dl.length) :
    shannonShape dl = (Shape.ofCodes (shannonWords (cntSum dl) dl 0)).trunc :=
  match dl, h with
  | _ :: _ :: _, _ => rfl

theorem IsDist.cntSum_le {dl : List DistEntry} (h : IsDist dl) : cntSum dl ≤ 2 ^ 40 := by
  have hsum := cntSum_lt dl
  have hlen : dl.length * (2 ^ 32 - 1) ≤ 256 * (2 ^ 32 - 1) := Nat.mul_le_mul_right _ h.length_le
  omega

theorem IsDist.cnt_pos {dl : List DistEntry} (h : IsDist dl) {e : DistEntry} (he : e ∈ dl) : 0 < e.cnt.toNat :=
  Nat.pos_of_ne_zero fun h0 => h.2 e he (BitVec.eq_of_toNat_eq h0)

/-- The codeword at a position: the length and the value of its entry (R174, R175). -/
theorem shannonWords_getElem? (S : Nat) : ∀ {dl : List DistEntry} {C i : Nat} {e : DistEntry}, dl[i]? = some e →
    (shannonWords S dl C)[i]? = some (e.sym, numeral ((shannonLen e.cnt.toNat S).getD 0)
      (shannonValue (C + cntSum (dl.take i)) S ((shannonLen e.cnt.toNat S).getD 0)))
  | x :: dl, C, 0, e, h => by
    obtain rfl : x = e := by simpa using h
    rfl
  | x :: dl, C, i + 1, e, h => by
    rw [List.getElem?_cons_succ] at h
    rw [shannonWords, List.getElem?_cons_succ, shannonWords_getElem? S h, List.take_succ_cons, cntSum_cons,
      Nat.add_assoc]

/-- The counts before an entry, its own and those after it make the sum. -/
theorem cntSum_split {dl : List DistEntry} {i : Nat} {e : DistEntry} (h : dl[i]? = some e) :
    cntSum dl = cntSum (dl.take i) + (e.cnt.toNat + cntSum (dl.drop (i + 1))) := by
  obtain ⟨hi, rfl⟩ := List.getElem?_eq_some_iff.1 h
  conv_lhs => rw [← List.take_append_drop i dl, List.drop_eq_getElem_cons hi]
  simp only [cntSum, List.map_append, List.map_cons, List.sum_append, List.sum_cons]

theorem cntSum_pos {dl l : List DistEntry} (h : IsDist dl) (hne : l ≠ []) (hl : ∀ e ∈ l, e ∈ dl) : 0 < cntSum l := by
  cases l with
  | nil => exact absurd rfl hne
  | cons e l =>
    have := h.cnt_pos (hl e List.mem_cons_self)
    rw [cntSum_cons]
    omega

/-- No entry of two or more has the whole sum (R175). -/
theorem IsDist.cnt_lt {dl : List DistEntry} (h : IsDist dl) (h2 : 2 ≤ dl.length) {i : Nat} {e : DistEntry}
    (he : dl[i]? = some e) : e.cnt.toNat < cntSum dl := by
  have hsplit := cntSum_split he
  cases i with
  | zero =>
    have : 0 < cntSum (dl.drop 1) := cntSum_pos h
      (fun h0 => by have := congrArg List.length h0; rw [List.length_drop, List.length_nil] at this; omega)
      fun _ => List.mem_of_mem_drop
    rw [Nat.zero_add] at hsplit
    omega
  | succ i =>
    have : 0 < cntSum (dl.take (i + 1)) := cntSum_pos h
      (fun h0 => by have := congrArg List.length h0; rw [List.length_take, List.length_nil] at this; omega)
      fun _ => List.mem_of_mem_take
    omega

/-- Settles O39: the block leaves the truncated tree, whose root has two children before where the distribution is in
order; a raw codeword is the numeral of `C * 2 ^ L / S` in the least length `L` that R175 allows. -/
theorem shannonCompletes : Obligations.ShannonCompletes := by
  refine ⟨fun s hready hdist h2 => ?_, fun dl i e hdist h2 he => ?_⟩
  · obtain ⟨u, hblock, hagrees, hroot⟩ := shannonBlock_ok hdist h2 s.main
    obtain ⟨t, hnext, hended, rfl⟩ := exec_bld_ok .shannon hready hblock
    refine ⟨t, hnext, hended, by rwa [shannonShape_eq h2], fun hsorted => ?_⟩
    obtain ⟨l, r, hboth⟩ := shannon_root hdist hsorted h2 hdist.cntSum_le
    exact hroot l r hboth
  · have hsplit := cntSum_split he
    have hpos := hdist.cnt_pos (List.mem_of_getElem? he)
    have hlt := hdist.cnt_lt h2 he
    obtain ⟨L, hL, -, henough, hleast⟩ := shannonLen_some hpos.ne' hdist.cntSum_le
    have hS : 0 < cntSum dl := by omega
    have hvalue : cntSum (dl.take i) * 2 ^ L / cntSum dl < 2 ^ L := by
      rw [Nat.div_lt_iff_lt_mul hS, Nat.mul_comm (2 ^ L)]
      exact Nat.mul_lt_mul_of_pos_right (by omega) (Nat.two_pow_pos L)
    refine ⟨numeral L (cntSum (dl.take i) * 2 ^ L / cntSum dl), ?_, ?_⟩
    · rw [shannonWords_getElem? _ he, hL, Nat.zero_add]
      rfl
    · rw [numeral_length, bitsValue_numeral hvalue]
      refine ⟨henough, hleast, Nat.pos_of_ne_zero fun h0 => ?_, hvalue, Nat.div_mul_le_self _ _, ?_⟩
      · rw [h0, Nat.pow_zero, Nat.mul_one] at henough
        omega
      · rw [Nat.mul_comm (_ + 1)]
        exact Nat.lt_mul_div_succ _ hS

/-! ### The split of `BLD.FANO` -/

theorem fanoShape_eq {dl : List DistEntry} (h : 2 ≤ dl.length) : fanoShape dl = fanoTree dl.length dl :=
  match dl, h with
  | _ :: _ :: _, _ => rfl

theorem cntSum_take_succ {seg rest : List DistEntry} {e : DistEntry} {k : Nat} (h : e :: rest = seg.drop k) :
    cntSum (seg.take (k + 1)) = cntSum (seg.take k) + e.cnt.toNat := by
  have he : seg[k]? = some e := by rw [← List.head?_drop, ← h]; rfl
  simp only [List.take_add_one, he, Option.toList_some, cntSum, List.map_append, List.sum_append, List.map_singleton,
    List.sum_singleton]

/-- The scan from split point `k` on stops at the first point where the difference stops falling (R179). -/
theorem fanoScan_spec (seg : List DistEntry) : ∀ (rest : List DistEntry) (k : Nat), rest ≠ [] →
    rest = seg.drop (k + 1) →
    let r := fanoScan (cntSum seg) rest k (cntSum (seg.take (k + 1))) (fanoGap seg k)
    (∀ j, k ≤ j → j < r → fanoGap seg (j + 1) < fanoGap seg j) ∧
      (r + 2 = seg.length ∨ fanoGap seg r ≤ fanoGap seg (r + 1))
  | [], _, h, _ => absurd rfl h
  | [e], k, _, hrest => by
    have hlen := congrArg List.length hrest
    rw [List.length_singleton, List.length_drop] at hlen
    refine ⟨fun j hk hj => ?_, .inl ?_⟩
    · have : j < k := hj
      omega
    · show k + 2 = seg.length
      omega
  | e :: e' :: rest, k, _, hrest => by
    have hgap : fanoDiff (cntSum (seg.take (k + 1)) + e.cnt.toNat) (cntSum seg) = fanoGap seg (k + 1) := by
      rw [← cntSum_take_succ hrest]
      rfl
    intro r
    have hr : r = if fanoGap seg (k + 1) < fanoGap seg k then fanoScan (cntSum seg) (e' :: rest) (k + 1)
        (cntSum (seg.take (k + 1 + 1))) (fanoGap seg (k + 1)) else k := by
      show fanoScan _ _ _ _ _ = _
      rw [fanoScan, hgap, cntSum_take_succ hrest]
    by_cases hfall : fanoGap seg (k + 1) < fanoGap seg k
    · rw [if_pos hfall] at hr
      obtain ⟨hfalls, hstop⟩ := fanoScan_spec seg (e' :: rest) (k + 1) (List.cons_ne_nil _ _)
        (by rw [← List.drop_drop, ← hrest]; rfl)
      rw [← hr] at hfalls hstop
      refine ⟨fun j hk hj => ?_, hstop⟩
      rcases hk.eq_or_lt with rfl | hlt
      · exact hfall
      · exact hfalls j hlt hj
    · rw [if_neg hfall] at hr
      rw [hr]
      exact ⟨fun j hk hj => by omega, .inr (Nat.le_of_not_lt hfall)⟩

/-- Settles O40: the block leaves the tree of the partition; the split is the scan from the first entry on. -/
theorem fanoCompletes : Obligations.FanoCompletes := by
  refine ⟨fun s hready hdist h2 => ?_, fun seg h2 => ⟨fanoSplit_lt h2, ?_⟩⟩
  · obtain ⟨u, hblock, hagrees, hroot, hnodes⟩ := fanoBlock_ok hdist h2 s.main
    obtain ⟨t, hnext, hended, rfl⟩ := exec_bld_ok .fano hready hblock
    exact ⟨t, hnext, hended, by rwa [fanoShape_eq h2], hroot, hnodes⟩
  · match seg, h2 with
    | e :: e' :: es, _ =>
      obtain ⟨hfalls, hstop⟩ := fanoScan_spec (e :: e' :: es) (e' :: es) 0 (List.cons_ne_nil _ _) rfl
      exact ⟨fun k hk => hfalls k k.zero_le hk, hstop⟩

/-! ### The merges of `BLD.HUFFMAN` -/

theorem huffmanShape_eq {dl : List DistEntry} (h : 2 ≤ dl.length) :
    huffmanShape dl = huffmanTree dl.length (dl.map fun e => (e.cnt.toNat, .leaf e.sym)) :=
  match dl, h with
  | _ :: _ :: _, _ => rfl

/-- Settles O41: the block plants the leaves, merges them and derives the scheme of the tree of the merges. -/
theorem huffmanCompletes : Obligations.HuffmanCompletes := by
  intro s hready hdist h2
  obtain ⟨u, hblock, hagrees, hnodes, hroot, hleaves⟩ := huffmanBlock_ok hdist h2 s.main
  obtain ⟨t, hnext, hended, rfl⟩ := exec_bld_ok .huffman hready hblock
  exact ⟨t, hnext, hended, by rwa [huffmanShape_eq h2], hnodes, hroot, hleaves⟩

/-! ### What the three builders share -/

/-- A codeword walked into a tree without dead ends, or into a lone node: truncation leaves a full tree (R153). -/
theorem Shape.graft_trunc_full (sym : Byte) : ∀ (c : Bits) (sh : Shape), (sh = .dead ∨ sh.trunc.full = true) →
    (sh.graft sym c).trunc.full = true
  | [], _, _ => rfl
  | x :: c, .dead, _ => by cases x <;> exact Shape.graft_trunc_full sym c .dead (.inl rfl)
  | _ :: _, .leaf _, _ => rfl
  | x :: c, .left l, h => by
    have hl : l.trunc.full = true := h.resolve_left Shape.noConfusion
    cases x
    · exact Shape.graft_trunc_full sym c l (.inr hl)
    · exact (Bool.and_eq_true _ _).mpr ⟨hl, Shape.graft_trunc_full sym c .dead (.inl rfl)⟩
  | x :: c, .right r, h => by
    have hr : r.trunc.full = true := h.resolve_left Shape.noConfusion
    cases x
    · exact (Bool.and_eq_true _ _).mpr ⟨Shape.graft_trunc_full sym c .dead (.inl rfl), hr⟩
    · exact Shape.graft_trunc_full sym c r (.inr hr)
  | x :: c, .both l r, h => by
    obtain ⟨hl, hr⟩ := (Bool.and_eq_true _ _).mp (h.resolve_left Shape.noConfusion)
    cases x
    · exact (Bool.and_eq_true _ _).mpr ⟨Shape.graft_trunc_full sym c l (.inr hl), hr⟩
    · exact (Bool.and_eq_true _ _).mpr ⟨hl, Shape.graft_trunc_full sym c r (.inr hr)⟩

theorem ofCodes_trunc_full {codes : List (Byte × Bits)} (h : codes ≠ []) :
    (Shape.ofCodes codes).trunc.full = true := by
  have key : ∀ (codes : List (Byte × Bits)) (sh : Shape), sh.trunc.full = true →
      (codes.foldl (fun sh c => sh.graft c.1 c.2) sh).trunc.full = true := by
    intro codes
    induction codes with
    | nil => exact fun _ h => h
    | cons c codes ih => exact fun sh hsh => ih _ (Shape.graft_trunc_full _ _ _ (.inr hsh))
  cases codes with
  | nil => exact absurd rfl h
  | cons c codes => exact key codes _ (Shape.graft_trunc_full _ _ _ (.inl rfl))

/-- The tree of two symbols or more has no one-child node and no symbol twice (R153, R178, R186). -/
theorem StaticMethod.shape_full (m : StaticMethod) {dl : List DistEntry} (h : IsDist dl) (h2 : 2 ≤ dl.length) :
    (m.shape dl).full = true ∧ (m.shape dl).symbols.Nodup := by
  have hne : dl ≠ [] := by rintro rfl; simp at h2
  cases m with
  | shannon =>
    have hfst := shannonWords_fst (cntSum dl) dl 0
    show (shannonShape dl).full = true ∧ (shannonShape dl).symbols.Nodup
    rw [shannonShape_eq h2, Shape.trunc_symbols]
    refine ⟨ofCodes_trunc_full fun h0 => hne ?_, ofCodes_nodup (by rw [hfst]; exact h.1)⟩
    rw [h0] at hfst
    exact List.map_eq_nil_iff.1 hfst.symm
  | fano =>
    obtain ⟨hsym, hfull⟩ := fanoTree_symbols dl.length dl hne le_rfl
    show (fanoShape dl).full = true ∧ (fanoShape dl).symbols.Nodup
    rw [fanoShape_eq h2, hsym]
    exact ⟨hfull, h.1⟩
  | huffman =>
    have hqne : leafTrees dl 0 ≠ [] := List.ne_nil_of_length_pos (by rw [leafTrees_length]; omega)
    obtain ⟨hperm, hfull⟩ := huffmanTree_symbols dl.length _ hqne (leafTrees_length dl 0).le
    rw [leafTrees_symbols] at hperm
    rw [leafTrees_shapes] at hperm hfull
    show (huffmanShape dl).full = true ∧ (huffmanShape dl).symbols.Nodup
    rw [huffmanShape_eq h2]
    exact ⟨hfull (leafTrees_full dl 0), hperm.nodup_iff.2 h.1⟩

/-- A codeword has fewer bits than there are entries (R186). -/
theorem StaticMethod.code_length (m : StaticMethod) {dl : List DistEntry} (h : IsDist dl) (hs : dl.Pairwise distBefore)
    (h2 : 2 ≤ dl.length) {b : Byte} {c : Bits} (hc : codeIn (m.shape dl).paths b = some c) :
    c.length ≤ dl.length - 1 := by
  obtain ⟨hfull, hnodup⟩ := m.shape_full h h2
  have hpath : c.length + 1 ≤ (m.shape dl).symbols.length :=
    Shape.full_path_length hfull (b, c) (Shape.mem_paths.2 (Shape.follow_codeIn hc))
  have hsyms := (hnodup.subperm fun b hb => (m.shape_symbols h hs h.cntSum_le b).1 hb).length_le
  rw [List.length_map] at hsyms
  omega

/-- Settles O42: `SCHEME` holds the leaf paths of the method's tree, which has the symbols of the distribution. -/
theorem builderContract : Obligations.BuilderContract := by
  intro m s hready hdist hsorted
  obtain ⟨u, hblock, hmodels⟩ := m.block_models hdist hsorted hdist.cntSum_le s.main
  obtain ⟨t, hnext, hended, rfl⟩ := exec_bld_ok m hready hblock
  have hagrees : s.distList ≠ [] → t.main.Agrees (m.shape s.distList) := fun hne =>
    ⟨hmodels.roots fun hdead => hne ((m.shape_dead hdist hsorted hdist.cntSum_le).1 hdead), hmodels.code⟩
  refine ⟨t, hnext, hended, fun b => ?_, fun a b c d hab hc hd hpre => ?_, fun hne => ⟨_, hagrees hne⟩, fun h2 =>
    ⟨⟨_, hagrees fun h0 => ?_, (m.shape_full hdist h2).1⟩, fun b c hc => ?_⟩⟩
  · rw [hmodels.code, codeIn_isSome, m.shape_symbols hdist hsorted hdist.cntSum_le]
  · rw [hmodels.code] at hc hd
    obtain ⟨rest, rfl⟩ := hpre
    exact hab (Shape.follow_prefix (Shape.follow_codeIn hc) (Shape.follow_codeIn hd)).2
  · rw [h0] at h2
    exact absurd h2 (by decide)
  · rw [hmodels.code] at hc
    exact m.code_length hdist hsorted h2 hc

end Sys2Proof.Machine
end

section

namespace Sys2Proof.Machine

/-! ### The second pass over the same bytes -/

/-- Header and rewind on a host that keeps its duties: the input holds what it held (R390). -/
theorem secondPass_start_served {i : Instr} {s u : State} {S header : List Byte} {payload tail : Eng Unit}
    (hs : s.Served) (hu : s.streamStart.Surveyed u S)
    (hrun : Instr.block i s.streamStart = (writeAll header >>= fun _ => secondPass payload tail) u) :
    ∃ w, Instr.block i s.streamStart = (payload >>= fun _ => tail) w ∧ s.Restarted u w header s.io.input := by
  obtain ⟨_, ⟨hin, hout, hagain⟩, hsound⟩ := hs
  obtain ⟨p, n, hio⟩ := hu.io
  have hinput : u.io.again.getD u.io.input = s.io.input := by
    rw [hio]
    show s.io.again.getD s.io.input = _
    rw [hagain]
    rfl
  have hbase : u.io.inBase = s.io.inPos := by rw [hio]; rfl
  have hfailIn : u.io.failIn = [] := by rw [hio]; exact hin
  have hfailOut : u.io.failOut = [] := by rw [hio]; exact hout
  have hrew := inRewind_eq ((u.wroteAll header).setPhase .enc)
  rw [if_neg (by rw [State.setPhase_io, State.setIo_io, hfailIn]; exact Bool.false_ne_true)] at hrew
  rw [Run.bind_ok (writeAll_ok header hfailOut), secondPass, setPhase_bind, Run.bind_ok hrew] at hrun
  refine ⟨_, hrun, rfl, hfailIn, hfailOut, ?_, ?_, ?_, hu.pack, rfl⟩
  · show (u.io.again.getD u.io.input).length < 2 ^ 64
    rw [hinput]
    exact hsound.1
  · show (u.io.again.getD u.io.input).drop u.io.inBase.toNat = _
    rw [hinput, hbase]
    rfl
  · exact (u.wroteAll_appended header).congr (by rw [hio]; exact ⟨rfl, rfl⟩) ⟨rfl, rfl⟩

/-- `PadAndFlush()` behind a bit string that has been put: its bytes have been appended (R72). -/
theorem padAndFlush_appended {s₀ s : State} {bits : Bits} (hf : s.io.failOut = []) (h : s₀.Packed s bits) :
    ∃ t, padAndFlush s = .ok () t ∧ s₀.Appended t (packBits bits) := by
  obtain ⟨t, ht, hout, hlen, _⟩ := padAndFlush_packed hf h
  refine ⟨t, ht, ?_, hlen⟩
  show t.io.outRev.reverse = s₀.io.outRev.reverse ++ _
  rw [hout, List.reverse_append, List.reverse_reverse]

/-! #### The static methods -/

/-- A static compressor on a host that keeps its duties appends the artifact (R102, R203). -/
theorem staticCompress_appends (m : StaticMethod) {s : State} (hs : s.Served)
    (hl : s.io.rest.length ≤ Config.inLenMax) :
    ∃ t, exec m.cmp s = .next t ∧ s.Ended t ∧ s.Appended t (staticArtifact m s.io.rest) := by
  have hmax : Config.inLenMax = 2 ^ 32 - 1 := rfl
  obtain ⟨u, hu, hmodel, hblock⟩ := staticCompress_survey m (s := s.streamStart) hs.2.1.1 hs.2.2 hl
  rw [← m.block_cmp] at hblock
  obtain ⟨w, hrun, hw⟩ := secondPass_start_served (payload := encodePayload)
    (tail := do setPhase .term; padAndFlush) hs hu hblock
  have hmain : w.main = u.main := by rw [hw.same]; rfl
  have htotal : w.w.total = u.w.total := by rw [hw.same]; rfl
  obtain ⟨v, n, hv, hcode⟩ := (encodePayload_run (s := w) (hmain ▸ hmodel)
    (m.codeIn_countTable (S := s.io.rest) (by omega)) (by rw [htotal]; exact hu.total) hw.pack hw.failIn hw.failOut
    hw.len hw.rest).1 ⟨rfl, fun _ h => h⟩
  exact payload_ends m.cmp_stream hs.1 hw hrun hv hcode

/-! #### The context method -/

/-- The tree of a byte that comes after `last` (R234): the global one at first, then that of the byte before. -/
def contextModel (S : List Byte) : Option Byte → Shape
  | none => huffmanOf (countTable S)
  | some a => huffmanOf (countTable (successors a.toNat S))

/-- The codewords of a byte sequence under trees chosen by the byte before, joined (R104). -/
def contextCodes (tree : Option Byte → Shape) : Option Byte → List Byte → Bits
  | _, [] => []
  | last, b :: T => (codeIn (tree last).paths b).getD [] ++ contextCodes tree (some b) T

theorem contextBits_eq (S : List Byte) : contextBits S = contextCodes (contextModel S) none S := by
  have hfrom : ∀ (T : List Byte) (a : Byte), contextBitsFrom (fun c => huffmanOf (countTable (successors c S))) a T =
      contextCodes (contextModel S) (some a) T := by
    intro T
    induction T with
    | nil => exact fun _ => rfl
    | cons b T ih => exact fun a => congrArg (_ ++ ·) (ih b)
  cases S with
  | nil => rfl
  | cons b T => exact congrArg (_ ++ ·) (hfrom T b)

theorem contextCodes_append (tree : Option Byte → Shape) (b : Byte) : ∀ (done : List Byte) (last : Option Byte),
    contextCodes tree last (done ++ [b]) =
      contextCodes tree last done ++ (codeIn (tree (done.getLast?.or last)).paths b).getD []
  | [], last => by simp [contextCodes]
  | a :: done, last => by
    have hlast : (a :: done).getLast?.or last = done.getLast?.or (some a) := by
      rw [List.getLast?_cons]
      cases done.getLast? <;> rfl
    rw [List.cons_append, contextCodes, contextCodes, contextCodes_append tree b done, hlast, List.append_assoc]

/-- The codeword of a byte that followed the one before it in the first pass (R234). -/
theorem contextCode_eq {s : State} {S : List Byte} (hm : s.ContextModels S) {last : Option Byte}
    (hp : s.w.prev.toNat = (last.map BitVec.toNat).getD Config.prevNone) {b : Byte} (hb : follows S last b) :
    s.contextCode b = codeIn (contextModel S last).paths b := by
  cases last with
  | none =>
    have hp' : s.w.prev.toNat = Config.prevNone := hp
    rw [State.contextCode, if_pos hp', hm.main.code]
    rfl
  | some a =>
    have hp' : s.w.prev.toNat = a.toNat := hp
    have hne : successors a.toNat S ≠ [] := List.ne_nil_of_mem hb
    rw [State.contextCode, hp', if_neg (toNat_ne_prevNone a), hm.present _ a.isLt, if_pos (decide_eq_true hne),
      (hm.model _ a.isLt hne).code]
    rfl

/-- The bytes `done` of the second pass of `CMP.CONTEXT` have been put, each in its tree. -/
structure State.ContextPut (s₀ s : State) (S done : List Byte) : Prop where
  coding : s₀.Coding s (contextCodes (contextModel S) none done) done.length
  prev : s.w.prev.toNat = (done.getLast?.map BitVec.toNat).getD Config.prevNone

section
variable {s₀ s : State} {S done : List Byte}

theorem State.ContextPut.contextCoding (h : s₀.ContextPut s S done) : s₀.ContextCoding s done := ⟨⟨_, h.coding⟩, h.prev⟩

theorem State.ContextPut.advanced (h : s₀.ContextPut s S done) : s₀.ContextPut s.advanced S done :=
  ⟨h.coding.advanced, h.prev⟩

theorem State.ContextPut.models (h : s₀.ContextPut s S done) (hm : s₀.ContextModels S) : s.ContextModels S :=
  ⟨by rw [h.coding.main]; exact hm.main, by rw [h.coding.ctx]; exact hm.present,
    by rw [h.coding.ctx]; exact hm.model⟩

/-- One more byte that followed the one before it. -/
theorem State.ContextPut.step (h : s₀.ContextPut s S done) (hm : s₀.ContextModels S) (hS : S.length < 2 ^ 32)
    (hf : s₀.io.failOut = []) {b : Byte} (hb : follows S done.getLast? b) (hn : done.length < s₀.w.total.toNat) :
    ∃ t, encodeContextByte b s = .ok () t ∧ s₀.ContextPut t S (done ++ [b]) ∧ t.io.source = s.io.source := by
  have hcode := contextCode_eq (h.models hm) h.prev hb
  obtain ⟨c, hc⟩ := Option.isSome_iff_exists.1 ((h.contextCoding.code hm hS b).2 hb)
  obtain ⟨t, ht, hput, hu⟩ := h.coding.putBits hf c
  obtain ⟨v, hv⟩ : ∃ v, v = t.setW { t.w with prev := b.setWidth 9 } := ⟨_, rfl⟩
  have hput' : s₀.Coding v (contextCodes (contextModel S) none done ++ c) done.length := by
    rw [hv]; exact ⟨hput.packed, hput.count, hput.same⟩
  obtain ⟨hbump, hcoding⟩ := hput'.bump hn
  refine ⟨v.setW { v.w with nsym := v.w.nsym + 1 }, ?_, ⟨?_, ?_⟩, ?_⟩
  · rw [encodeContextByte_eq, hc, h.coding.count, h.coding.total, decide_eq_true hn]
    show (putBits c >>= _) s = _
    rw [Run.bind_ok ht, setW_bind, ← hv, hbump]
  · rw [contextCodes_append, Option.or_none, ← hcode, hc, List.length_append]
    exact hcoding
  · rw [List.getLast?_concat, hv]
    show (b.setWidth 9).toNat = b.toNat
    have := b.isLt
    rw [BitVec.toNat_setWidth]
    omega
  · rw [hv]
    exact State.unpacked_source (t := t) hu

end

/-- `EncodeContextPayload()` (R234) over the bytes of the first pass. -/
theorem encodeContextPayload_puts {s : State} {S : List Byte} (hm : s.ContextModels S) (hS : S.length < 2 ^ 32)
    (ht : s.w.total.toNat = S.length) (hp : s.w.obits = 0 ∧ s.w.ocnt = 0) (hfi : s.io.failIn = [])
    (hfo : s.io.failOut = []) (hl : s.io.input.length < 2 ^ 64) (hr : s.io.rest = S) :
    ∃ t, encodeContextPayload s = .ok () t ∧ s.Coding t (contextBits S) S.length ∧
      t.w.prev.toNat = (S.getLast?.map BitVec.toNat).getD Config.prevNone := by
  obtain ⟨s₀, hs₀⟩ : ∃ s₀, s₀ = s.setW { s.w with nsym := 0, prev := 256 } := ⟨_, rfl⟩
  have htotal : s₀.w.total.toNat = S.length := by rw [hs₀]; exact ht
  have hm₀ : s₀.ContextModels S := by rw [hs₀]; exact ⟨hm.main, hm.present, hm.model⟩
  have hstart : s₀.ContextPut s₀ S [] :=
    ⟨.start (by rw [hs₀]; exact hp.1) (by rw [hs₀]; exact hp.2) (by rw [hs₀]; rfl), by rw [hs₀]; rfl⟩
  have hpay : encodeContextPayload s = payloadOf encodeContextLoop s₀ := by rw [hs₀]; rfl
  obtain ⟨_, hall⟩ := allGood_sameContexts.2 (⟨rfl, fun _ h => h, fun _ _ _ h => h⟩ : SameContexts S S)
  obtain ⟨t, ht, hput⟩ := (payloadOf_run (I := fun done t => s₀.ContextPut t S done) encodeContextLoop_feeds
    (fun done b t hI hg => hI.advanced.step hm₀ hS (by rw [hs₀]; exact hfo) hg.1 (by rw [htotal]; exact hg.2))
    (fun done b t hI hg => ⟨_, encodeContextByte_raises hI.advanced.contextCoding
      (by rw [hI.advanced.contextCoding.code hm₀ hS, htotal]; exact hg)⟩)
    (fun _ _ hI => ⟨hI.coding.count, by rw [hI.coding.total, htotal]⟩) (T := S) hstart (by rw [hs₀]; exact hfi)
    (by rw [hs₀]; exact hl) (by rw [hs₀]; exact hr)).1 rfl hall
  have hcoding := hput.coding.touched
  rw [hs₀, ← contextBits_eq] at hcoding
  exact ⟨_, hpay.trans ht, ⟨hcoding.packed, hcoding.count, hcoding.same⟩, hput.prev⟩

/-- `CMP.CONTEXT` on a host that keeps its duties appends the artifact (R103, R230). -/
theorem contextCompress_appends {s : State} (hs : s.Served) (hl : s.io.rest.length ≤ Config.inLenMax) :
    ∃ t, exec .cmpContext s = .next t ∧ s.Ended t ∧ s.Appended t (contextArtifact s.io.rest) := by
  have hmax : Config.inLenMax = 2 ^ 32 - 1 := rfl
  obtain ⟨u, hu, hmodels, hblock⟩ := contextCompress_survey (s := s.streamStart) hs.2.1.1 hs.2.2 hl
  obtain ⟨w, hrun, hw⟩ := secondPass_start_served (i := .cmpContext) (payload := encodeContextPayload)
    (tail := do setPhase .term; padAndFlush) hs hu hblock
  have htotal : w.w.total = u.w.total := by rw [hw.same]; rfl
  have hmodels' : w.ContextModels s.io.rest := by rw [hw.same]; exact ⟨hmodels.main, hmodels.present, hmodels.model⟩
  obtain ⟨v, hv, hcode, _⟩ := encodeContextPayload_puts hmodels' (by omega) (by rw [htotal]; exact hu.total) hw.pack
    hw.failIn hw.failOut hw.len hw.rest
  exact payload_ends (i := .cmpContext) rfl hs.1 hw hrun hv hcode

end Sys2Proof.Machine
end

section

namespace Sys2Proof.Machine

/-! #### The arithmetic method -/

theorem Interval.encodeAll_append (rt : Nat) (e : RangeEntry) : ∀ (es : List RangeEntry) (x : Interval),
    Interval.encodeAll rt (es ++ [e]) x =
      ((Interval.encodeAll rt es x).1 ++ ((Interval.encodeAll rt es x).2.encode rt e).1,
        ((Interval.encodeAll rt es x).2.encode rt e).2)
  | [], x => by simp [Interval.encodeAll]
  | e' :: es, x => by
    rw [List.cons_append, Interval.encodeAll, Interval.encodeAll_append rt e es, Interval.encodeAll, List.append_assoc]

/-- The entry of the end-of-stream symbol is the last of the table (R134, R292). -/
theorem entryOf_eosSym {dl : List DistEntry} (h : dl ≠ []) :
    (rangeTable dl).getLast? = some (entryOf (rangeTable dl) Config.eosSym) := by
  have hbytes : (rangesFrom dl 0).find? (fun e => e.sym.toNat == Config.eosSym) = none := by
    refine List.find?_eq_none.2 fun e he hsym => ?_
    have hmem : Config.eosSym ∈ dl.map fun e => e.sym.toNat := by
      rw [← rangesFrom_sym dl 0, ← beq_iff_eq.1 hsym]
      exact List.mem_map_of_mem he
    obtain ⟨d, _, hd⟩ := List.mem_map.1 hmem
    exact absurd d.sym.isLt (by rw [hd]; decide)
  rw [rangeTable_eq h, List.getLast?_concat, entryOf, List.find?_append, hbytes]
  rfl

/-- The entry `CMP.ARITH` encodes last is that of the end of the stream (R300). -/
theorem State.Ranged.last {s : State} {S : List Byte} (h : s.Ranged S) (hne : S ≠ []) (hfits : arithFits S) :
    rangeGet s.range (s.w.nrange.toNat - 1) = entryOf (rangeTable (distribution (countTable S))) Config.eosSym := by
  have hlen := arithFits_length hfits
  have hmax : Config.inLenMax = 2 ^ 32 - 1 := rfl
  obtain ⟨b, hb⟩ := List.exists_mem_of_ne_nil S hne
  have hmem := distribution_symbols.2 ((freqGet_countTable_ne (S := S) (by omega) b).2 hb)
  have hdist : distribution (countTable S) ≠ [] := List.ne_nil_of_mem (List.mem_map.1 hmem).choose_spec.1
  obtain ⟨n, hn⟩ : ∃ n, s.w.nrange.toNat = n + 1 := ⟨_, by rw [h.nrange, rangeTable_length hdist]⟩
  have hlast := entryOf_eosSym hdist
  rw [← h.table, State.rangeList, hn, List.range_succ, List.map_append, List.map_singleton, List.getLast?_concat,
    Option.some.injEq] at hlast
  rw [hn, Nat.add_sub_cancel, hlast, ← h.table, State.rangeList, hn, List.range_succ, List.map_append,
    List.map_singleton]

/-- Since `s₀` the coder has put the bits `r.1` and stands on the interval `r.2`, settled, after `k` entries, `n` of
them counted. -/
structure State.ArithPut (s₀ s : State) (r : Bits × Interval) (n k : Nat) : Prop where
  coding : s₀.Coding s r.1 n
  stands : s.At r.2
  settled : Settled r.2.low r.2.high
  pend : r.2.pend ≤ renormBound * k

section
variable {s₀ s : State} {r : Bits × Interval} {n k : Nat} {S : List Byte}

theorem State.ArithPut.arithCoding (h : s₀.ArithPut s r n n) : s₀.ArithCoding s n :=
  ⟨⟨_, h.coding⟩, _, h.stands, h.settled, h.pend⟩

theorem State.ArithPut.advanced (h : s₀.ArithPut s r n k) : s₀.ArithPut s.advanced r n k :=
  ⟨h.coding.advanced, ⟨h.stands.low, h.stands.high, h.stands.pend⟩, h.settled, h.pend⟩

theorem State.ArithPut.touched (h : s₀.ArithPut s r n k) : s₀.ArithPut s.touched r n k :=
  ⟨h.coding.touched, ⟨h.stands.low, h.stands.high, h.stands.pend⟩, h.settled, h.pend⟩

/-- The coder leaves the range table as it is. -/
theorem State.Coding.ranged {bits : Bits} (h : s₀.Coding s bits n) (hr : s₀.Ranged S) : s.Ranged S := by
  have hrt : s.w.rt = s₀.w.rt := (congrArg (fun x : State => x.w.rt) h.same :)
  have hnrange : s.w.nrange = s₀.w.nrange := (congrArg (fun x : State => x.w.nrange) h.same :)
  have hrange : s.range = s₀.range := (congrArg State.range h.same :)
  refine ⟨?_, by rw [hrt]; exact hr.rt, by rw [hnrange]; exact hr.nrange⟩
  rw [State.rangeList, hnrange, hrange]
  exact hr.table

/-- `ArithEncode(i)` (R302) on an entry of the table, while few are done. -/
theorem State.ArithPut.encode (h : s₀.ArithPut s r n k) (hr : s₀.Ranged S) (hne : S ≠ []) (hfits : arithFits S)
    (hf : s₀.io.failOut = []) {e : RangeEntry} (he : e ∈ s.rangeList) (hk : k ≤ 2 ^ 29) :
    ∃ t, arithEncode e s = .ok () t ∧ t.unranged = s.unranged ∧ s₀.ArithPut t
      (r.1 ++ (r.2.encode (rangeTotal (distribution (countTable S))) e).1,
        (r.2.encode (rangeTotal (distribution (countTable S))) e).2) n (k + 1) := by
  have hserve := (h.coding.ranged hr).serves hne hfits
  have h33 : renormBound = 33 := rfl
  have hpend := h.pend
  obtain ⟨t, ht, hp, hAt, hu, hsettled, hpend'⟩ := arithEncode_ok (h.coding.failOut.trans hf) h.coding.packed h.stands
    h.settled (hserve.entries e he) hserve.most (by rw [h33] at hpend ⊢; omega)
  have hnsym : t.w.nsym = s.w.nsym := (congrArg (fun x : State => x.w.nsym) hu :)
  rw [(h.coding.ranged hr).rt] at hp hAt hsettled hpend'
  exact ⟨t, ht, hu, ⟨hp, (congrArg BitVec.toNat hnsym).trans h.coding.count,
    (State.recoded_of_unranged hu).trans h.coding.same⟩, hAt, hsettled, by
      rw [Nat.mul_succ]; exact hpend'.trans (Nat.add_le_add_right h.pend _)⟩

end

/-- What the coder has put and where it stands after the bytes `done` of `S` (R300). -/
def arithAfter (S done : List Byte) : Bits × Interval :=
  Interval.encodeAll (rangeTotal (distribution (countTable S)))
    (done.map fun b => entryOf (rangeTable (distribution (countTable S))) b.toNat) Interval.whole

theorem arithAfter_append (S done : List Byte) (b : Byte) : arithAfter S (done ++ [b]) =
    ((arithAfter S done).1 ++ ((arithAfter S done).2.encode (rangeTotal (distribution (countTable S)))
        (entryOf (rangeTable (distribution (countTable S))) b.toNat)).1,
      ((arithAfter S done).2.encode (rangeTotal (distribution (countTable S)))
        (entryOf (rangeTable (distribution (countTable S))) b.toNat)).2) := by
  rw [arithAfter, List.map_append, List.map_singleton, Interval.encodeAll_append]
  rfl

/-- The run is that over the bytes, then the end-of-stream symbol. -/
theorem arithRun_eq (S : List Byte) : arithRun S =
    ((arithAfter S S).1 ++ ((arithAfter S S).2.encode (rangeTotal (distribution (countTable S)))
        (entryOf (rangeTable (distribution (countTable S))) Config.eosSym)).1,
      ((arithAfter S S).2.encode (rangeTotal (distribution (countTable S)))
        (entryOf (rangeTable (distribution (countTable S))) Config.eosSym)).2) := by
  rw [arithRun, arithEntries, List.map_append, List.map_map, List.map_singleton, Interval.encodeAll_append]
  rfl

/-- One more byte of the first pass. -/
theorem State.ArithPut.step {s₀ s : State} {S done : List Byte} {b : Byte}
    (h : s₀.ArithPut s (arithAfter S done) done.length done.length) (hr : s₀.Ranged S) (hfits : arithFits S)
    (hf : s₀.io.failOut = []) (hb : b ∈ S) (hfreq : freqGet s₀.freq b.toNat ≠ 0)
    (hn : done.length < s₀.w.total.toNat) (hsmall : done.length ≤ 2 ^ 29) :
    ∃ t, encodeArithByte b s = .ok () t ∧
      s₀.ArithPut t (arithAfter S (done ++ [b])) (done ++ [b]).length (done ++ [b]).length ∧
      t.io.source = s.io.source := by
  have hne : S ≠ [] := List.ne_nil_of_mem hb
  have hranged := h.coding.ranged hr
  obtain ⟨e, he, hfor⟩ := (hranged.serves hne hfits).symbol b hb
  have hentry : entryOf (rangeTable (distribution (countTable S))) b.toNat = e := by
    rw [entryOf, ← hranged.table]
    exact congrArg (Option.getD · RangeEntry.empty) hfor
  obtain ⟨t, ht, hu, hput⟩ := h.encode hr hne hfits hf he hsmall
  obtain ⟨hbump, hcoding⟩ := hput.coding.bump hn
  rw [arithAfter_append, hentry, List.length_append]
  refine ⟨t.setW { t.w with nsym := t.w.nsym + 1 }, ?_,
    ⟨hcoding, ⟨hput.stands.low, hput.stands.high, hput.stands.pend⟩, hput.settled, hput.pend⟩,
    (congrArg (fun x : State => x.io.source) hu :)⟩
  rw [encodeArithByte_eq, h.coding.freq, h.coding.count, h.coding.total, decide_eq_true hfreq, decide_eq_true hn]
  show (arithEncodeSym b.toNat >>= fun _ => bumpNsym) s = _
  rw [Run.bind_ok ((arithEncodeSym_eq hfor).trans ht), hbump]

/-- The payload of `CMP.ARITH` (R300) over the bytes of the first pass, `s₀` being where the coder has been reset. -/
theorem encodeArithPayload_puts {s : State} {S : List Byte} (hr : s.Ranged S) (hfits : arithFits S)
    (hfreq : s.freq = countTable S) (ht : s.w.total.toNat = S.length) (hp : s.w.obits = 0 ∧ s.w.ocnt = 0)
    (hfi : s.io.failIn = []) (hfo : s.io.failOut = []) (hl : s.io.input.length < 2 ^ 64) (hrest : s.io.rest = S) :
    ∃ s₀ t : State, s₀ = s.setW { s.w.setInterval 0 Config.scaleM with pend := 0, nsym := 0 } ∧
      encodeArithPayload s = .ok () t ∧ s₀.ArithPut t (arithAfter S S) S.length S.length := by
  have hmax : Config.inLenMax = 2 ^ 32 - 1 := rfl
  have hS := arithFits_length hfits
  have hS' : S.length ≤ 2 ^ 29 := (Nat.le_add_right _ _).trans hfits
  obtain ⟨s₀, hs₀⟩ : ∃ s₀, s₀ = s.setW { s.w.setInterval 0 Config.scaleM with pend := 0, nsym := 0 } := ⟨_, rfl⟩
  have htotal : s₀.w.total.toNat = S.length := by rw [hs₀]; exact ht
  have hmem : ∀ b : Byte, freqGet s₀.freq b.toNat ≠ 0 ↔ b ∈ S := fun b => by
    rw [hs₀, State.setW_freq, hfreq, freqGet_countTable_ne (by omega)]
  have hr₀ : s₀.Ranged S := by rw [hs₀]; exact ⟨hr.table, hr.rt, hr.nrange⟩
  have hstart : s₀.ArithPut s₀ (arithAfter S []) 0 0 := by
    refine ⟨.start (by rw [hs₀]; exact hp.1) (by rw [hs₀]; exact hp.2) (by rw [hs₀]; rfl), ?_, ?_, Nat.zero_le _⟩
    · rw [hs₀]; exact ⟨rfl, rfl, rfl⟩
    · exact (⟨le_rfl, by decide, by decide, by decide⟩ : Settled Interval.whole.low Interval.whole.high)
  have hpay : encodeArithPayload s = payloadOf arithEncodeLoop s₀ := by rw [hs₀]; rfl
  obtain ⟨_, hall⟩ := allGood_sameBytes.2 (⟨rfl, fun _ h => h⟩ : SameBytes S S)
  obtain ⟨t, ht, hput⟩ := (payloadOf_run (I := fun done t => s₀.ArithPut t (arithAfter S done) done.length done.length)
    arithEncodeLoop_feeds
    (fun done b t hI hg => hI.advanced.step hr₀ hfits (by rw [hs₀]; exact hfo) hg.1 ((hmem b).2 hg.1)
      (by rw [htotal]; exact hg.2) (hg.2.le.trans hS'))
    (fun done b t hI hg => ⟨_, encodeArithByte_raises hI.advanced.arithCoding (by rw [hmem, htotal]; exact hg)⟩)
    (fun _ _ hI => ⟨hI.coding.count, by rw [hI.coding.total, htotal]⟩) (T := S) hstart (by rw [hs₀]; exact hfi)
    (by rw [hs₀]; exact hl) (by rw [hs₀]; exact hrest)).1 rfl hall
  exact ⟨s₀, _, hs₀, hpay.trans ht, hput.touched⟩

/-- `ArithFlush()` (R306) puts the bits that name the interval. -/
theorem arithFlush_flushes {s₀ s : State} {bits : Bits} {x : Interval} (hf : s.io.failOut = []) (h : s₀.Packed s bits)
    (hx : s.At x) (hpend : x.pend + 1 < 2 ^ 64) :
    ∃ t, arithFlush s = .ok () t ∧ s₀.Packed t (bits ++ x.flush) ∧ t.io.failOut = [] ∧ t.w.pend = 0 ∧
      t.w.low = s.w.low ∧ t.w.high = s.w.high ∧ t.unranged = s.unranged := by
  obtain ⟨v, hv⟩ : ∃ v, v = s.setW { s.w with pend := s.w.pend + 1 } := ⟨_, rfl⟩
  have hvp : v.w.pend.toNat = x.pend + 1 := by
    rw [hv]
    show (s.w.pend + 1).toNat = _
    rw [BitVec.toNat_add, hx.pend, show (1 : BitVec 64).toNat = 1 from rfl]
    omega
  have hrun : arithFlush s = emitWithPending (decide (Config.quarter ≤ x.low)) v := by
    have hif : arithFlush s =
        (if v.w.low.toNat < Config.quarter then emitWithPending false else emitWithPending true) v := by rw [hv]; rfl
    have hlow : v.w.low.toNat = x.low := by rw [hv]; exact hx.low
    rw [hif, hlow]
    by_cases hq : x.low < Config.quarter
    · rw [if_pos hq, decide_eq_false (Nat.not_le.2 hq)]
    · rw [if_neg hq, decide_eq_true (Nat.not_lt.1 hq)]
  obtain ⟨t, ht, hp, hlow, hhigh, hzero, hu⟩ := emitWithPending_ok (s := v) (by rw [hv]; exact hf)
    (by rw [hv]; exact h) (decide (Config.quarter ≤ x.low))
  rw [hvp] at hp
  refine ⟨t, hrun.trans ht, hp, (State.unranged_failOut hu).trans (by rw [hv]; exact hf), hzero, ?_, ?_, ?_⟩
  · rw [hlow, hv]; rfl
  · rw [hhigh, hv]; rfl
  · rw [hu, hv]; rfl

/-- What comes behind the payload of `CMP.ARITH` (R300, R301): the payload's bits are those of R106. -/
theorem arithTail_appends {s₀ s : State} {S : List Byte} {n : Nat} (h : s₀.ArithPut s (arithAfter S S) n S.length)
    (hr : s₀.Ranged S) (hne : S ≠ []) (hfits : arithFits S) (hf : s₀.io.failOut = []) :
    ∃ t, arithTail s = .ok () t ∧ s₀.Appended t (packBits (arithBits S)) := by
  have hS : S.length ≤ 2 ^ 29 := (Nat.le_add_right _ _).trans hfits
  have h33 : renormBound = 33 := rfl
  have hranged := h.coding.ranged hr
  obtain ⟨t, ht, hu, hput⟩ := h.encode hr hne hfits hf (hranged.serves hne hfits).last hS
  rw [hranged.last hne hfits, ← arithRun_eq] at hput
  have hpend := hput.pend
  obtain ⟨v, hv, hp, hfv, _⟩ := arithFlush_flushes (s := t.setPhase .term) (s₀ := s₀) (hput.coding.failOut.trans hf)
    hput.coding.packed ⟨hput.stands.low, hput.stands.high, hput.stands.pend⟩ (by rw [h33] at hpend; omega)
  obtain ⟨x, hx, happ⟩ := padAndFlush_appended hfv hp
  exact ⟨x, by rw [arithTail, Run.read_bind, Run.bind_ok ht, setPhase_bind, Run.bind_ok hv, hx], happ⟩

/-- On an empty input `CMP.ARITH` ends behind the header (R309). -/
theorem arithPayload_empty {s : State} (h : s.w.total = 0) : arithPayload s = .ok () s := by
  show (if s.w.total = 0 then pure () else arithSecondPass : Eng Unit) s = _
  rw [if_pos h]
  rfl

/-- `CMP.ARITH` on a host that keeps its duties appends the artifact (R106, R300, R309). -/
theorem arithCompress_appends {s : State} (hs : s.Served) (hfits : arithFits s.io.rest) :
    ∃ t, exec .cmpArith s = .next t ∧ s.Ended t ∧ s.Appended t (arithArtifact s.io.rest) := by
  obtain ⟨u, hu, hranged, hblock⟩ := arithCompress_survey (s := s.streamStart) hs.2.1.1 hs.2.2 hfits
  have hrest : s.streamStart.io.rest = s.io.rest := rfl
  rw [hrest] at hu hranged hblock
  by_cases hne : s.io.rest = []
  · obtain ⟨p, n, hio⟩ := hu.io
    have htotal : u.w.total = 0 := BitVec.eq_of_toNat_eq (by rw [hu.total, hne]; rfl)
    rw [Run.bind_ok (writeAll_ok _ (by rw [hio]; exact hs.2.1.2.1)),
      arithPayload_empty (s := u.wroteAll _) htotal] at hblock
    obtain ⟨hnext, hend⟩ := exec_stream_ok (i := .cmpArith) rfl hs.1 hblock
    refine ⟨_, hnext, hend, ?_⟩
    rw [arithArtifact, if_pos hne, List.append_nil]
    exact (u.wroteAll_appended _).congr (by rw [hio]; exact ⟨rfl, rfl⟩) ⟨rfl, rfl⟩
  · have htotal : u.w.total ≠ 0 := fun h0 =>
      hne (List.eq_nil_of_length_eq_zero (hu.total.symm.trans (by rw [h0]; rfl)))
    obtain ⟨w, hrun, hw⟩ := secondPass_start_served (i := .cmpArith) hs hu (hblock.trans (writeAll_bind_congr
      fun t ht => arithPayload_eq (by rw [ht]; exact htotal)))
    have hranged' : w.Ranged s.io.rest := by rw [hw.same]; exact ⟨hranged.table, hranged.rt, hranged.nrange⟩
    have hfreq : w.freq = u.freq := by rw [hw.same]; rfl
    have htotal' : w.w.total = u.w.total := by rw [hw.same]; rfl
    obtain ⟨s₀, v, hs₀, hv, hput⟩ := encodeArithPayload_puts hranged' hfits (hfreq.trans hu.freq)
      (by rw [htotal']; exact hu.total) hw.pack hw.failIn hw.failOut hw.len hw.rest
    obtain ⟨t, ht, happ⟩ := arithTail_appends hput
      (by rw [hs₀]; exact ⟨hranged'.table, hranged'.rt, hranged'.nrange⟩) hne hfits (by rw [hs₀]; exact hw.failOut)
    rw [Run.bind_ok hv, ht] at hrun
    obtain ⟨hnext, hend⟩ := exec_stream_ok (i := .cmpArith) rfl hs.1 hrun
    refine ⟨_, hnext, hend, ?_⟩
    rw [arithArtifact, if_neg hne]
    exact hw.out.trans (happ.congr (by rw [hs₀]; exact ⟨rfl, rfl⟩) ⟨rfl, rfl⟩)

end Sys2Proof.Machine
end

section

namespace Sys2Proof.Machine

/-! #### The adaptive method -/

theorem adaptiveBits_append (b : Byte) : ∀ (L : List Byte) (g : FgkMem),
    adaptiveBits g (L ++ [b]) = adaptiveBits g L ++ fgkBits (L.foldl fgkAfter g) b
  | [], g => by simp [adaptiveBits]
  | a :: L, g => by
    rw [List.cons_append, adaptiveBits, adaptiveBits_append b L, adaptiveBits, List.append_assoc, List.foldl_cons]

/-- The packer holds the bits of the last byte that is not full (R70). -/
theorem State.Packed.ocnt {s₀ s : State} {c : Bits} (h : s₀.Packed s c) : s.w.ocnt.toNat = c.length % 8 := by
  obtain ⟨full, part, rfl, ⟨k, hk⟩, hpart, _, _, _, hocnt⟩ := h
  rw [hocnt, List.length_append, hk]
  omega

theorem FgkMem.Grown.nytPath_eq {g : FgkMem} {r y : Nat} (hg : g.Grown r y) :
    Machine.nytPath g = (Machine.fgkPath g y).getD [] := by
  rw [Machine.nytPath, hg.nyt, Option.bind_some]

theorem nytSlot_ok {s : State} {r y : Nat} (hg : s.fgk.Grown r y) : nytSlot s = .ok y s := by
  rw [nytSlot, Run.read_bind, hg.nyt]
  rfl

section
variable {s₀ s : State} {c : Bits} {L : List Byte}

/-- `PutBits(FgkPath(n))` for a node of the tree (R254). -/
theorem putPath_ok {r y n : Nat} (hg : s.fgk.Grown r y) (hn : n < s.fgk.n.toNat) (hf : s.io.failOut = [])
    (hp : s₀.Packed s c) : ∃ t, putPath n s = .ok () t ∧ s₀.Packed t (c ++ (fgkPath s.fgk n).getD []) ∧
      t.unpacked = s.unpacked := by
  obtain ⟨d, hd, _⟩ := hg.fgkPath hn
  obtain ⟨t, ht, hput⟩ := putBits_packed hf hp d
  refine ⟨t, ?_, by rw [hd]; exact hput⟩
  rw [putPath, Run.read_bind, hd]
  exact ht

/-- `FgkEncodeSymbol(b)` (R255) puts the bits of the byte and counts it in the tree. -/
theorem fgkEncodeSymbol_ok (hg : s.fgk.Codes L) (hlen : L.length + 1 < 2 ^ 64) (hf : s.io.failOut = [])
    (hp : s₀.Packed s c) (b : Byte) : ∃ t, fgkEncodeSymbol b s = .ok () (t.setFgk (fgkAfter s.fgk b)) ∧
      s₀.Packed t (c ++ fgkBits s.fgk b) ∧ t.unpacked = s.unpacked := by
  obtain ⟨r, y, hrest⟩ := hg.rest
  have hgrown := hrest.grown
  cases hleaf : leafGet s.fgk.leaf b.toNat with
  | some n =>
    obtain ⟨t, ht, hput, hu⟩ := putPath_ok hgrown ((hgrown.leaf b n).1 hleaf).1 hf hp
    have hfgk : t.fgk = s.fgk := (congrArg State.fgk hu :)
    refine ⟨t, ?_, by rw [fgkBits, hleaf]; exact hput, hu⟩
    rw [fgkEncodeSymbol, Run.read_bind, hleaf]
    exact (Run.bind_ok ht).trans (onFgk_ok (by rw [hfgk]; exact (hg.seen_step hlen hleaf).1))
  | none =>
    obtain ⟨⟨n, g, hsplit, hupdate⟩, _⟩ := hg.unseen_step hlen hleaf
    obtain ⟨t, ht, hput, hu⟩ := putPath_ok hgrown hgrown.nyt_lt hf hp
    obtain ⟨v, hv, hput', hu'⟩ := putBits_packed ((State.unpacked_failOut hu).trans hf) hput (byteBits b)
    have hfgk : v.fgk = s.fgk := (congrArg State.fgk (hu'.trans hu) :)
    refine ⟨v, ?_, by rw [fgkBits, hleaf, hgrown.nytPath_eq, ← List.append_assoc]; exact hput', hu'.trans hu⟩
    rw [fgkEncodeSymbol, Run.read_bind, hleaf]
    show (nytSlot >>= _) s = _
    rw [Run.bind_ok (nytSlot_ok hgrown), Run.bind_ok ht, Run.bind_ok hv,
      Run.bind_ok (onFgk_ok (a := n) (g := g) (by rw [hfgk]; exact hsplit))]
    exact onFgk_ok hupdate

/-- `FgkPad()` (R263) puts the bits that are missing from the last byte. -/
theorem fgkPad_ok (hg : s.fgk.Codes L) (hf : s.io.failOut = []) (hp : s₀.Packed s c) :
    ∃ t, fgkPad s = .ok () t ∧ s₀.Packed t (c ++ padBits (nytPath s.fgk) (c.length % 8)) ∧
      t.unpacked = s.unpacked := by
  obtain ⟨r, y, hrest⟩ := hg.rest
  obtain ⟨d, hd, _⟩ := hrest.grown.fgkPath hrest.grown.nyt_lt
  have hnyt : nytPath s.fgk = d := by rw [hrest.grown.nytPath_eq, hd, Option.getD_some]
  obtain ⟨t, ht, hput⟩ := putBits_packed hf hp (padBits d (c.length % 8))
  refine ⟨t, ?_, by rw [hnyt]; exact hput⟩
  rw [fgkPad, Run.bind_ok (nytSlot_ok hrest.grown), Run.read_bind, hd]
  show putBits (padBits d s.w.ocnt.toNat) s = _
  rw [hp.ocnt, ht]

/-- Since `s₀`, whose tree has seen no byte, the bytes `L` have been put and counted in the tree. -/
structure State.AdaptivePut (s₀ s : State) (L : List Byte) : Prop where
  packed : s₀.Packed s (adaptiveBits s₀.fgk L)
  fgk : s.fgk = L.foldl fgkAfter s₀.fgk
  failIn : s.io.failIn = []
  failOut : s.io.failOut = []
  sound : s.io.Sound

theorem State.AdaptivePut.codes (h : s₀.AdaptivePut s L) (hg : s₀.fgk.Codes []) (hlen : L.length < 2 ^ 64) :
    s.fgk.Codes L := by
  rw [h.fgk]
  exact (hg.foldl L (by rw [List.length_nil, Nat.zero_add]; exact hlen)).1

/-- A round of the loop of `CMP.ADAPTIVE` (R260). -/
theorem State.AdaptivePut.step (h : s₀.AdaptivePut s L) (hg : s₀.fgk.Codes []) (hlen : L.length + 1 < 2 ^ 64)
    {b : Byte} {S : List Byte} (hr : s.io.rest = b :: S) (n : Nat) :
    ∃ t, adaptiveEncodeLoop (n + 1) s = adaptiveEncodeLoop n t ∧ s₀.AdaptivePut t (L ++ [b]) ∧ t.io.rest = S := by
  obtain ⟨t, ht, hput, hu⟩ := fgkEncodeSymbol_ok (s := s.advanced) (h.codes hg (by omega)) hlen h.failOut
    (show s₀.Packed s.advanced (adaptiveBits s₀.fgk L) from h.packed) b
  obtain ⟨m, k, hbump⟩ := bumpNsym_ok (t.setFgk (fgkAfter s.fgk b))
  obtain ⟨v, hv⟩ : ∃ v, v = ((t.setFgk (fgkAfter s.fgk b)).setW { t.w with nsym := m }).setFresh k := ⟨_, rfl⟩
  obtain ⟨hrest, hsound, _⟩ := State.unpacked_io hu
  have hio : v.io = t.io := by rw [hv]; rfl
  have hfailIn : t.io.failIn = s.io.failIn := (congrArg (fun x : State => x.io.failIn) hu :)
  refine ⟨v, ?_, ⟨?_, ?_, ?_, ?_, ?_⟩, ?_⟩
  · rw [adaptiveEncodeLoop, Run.bind_ok (inRead_some h.failIn hr), hv]
    exact (Run.bind_ok ht).trans (Run.bind_ok hbump)
  · rw [adaptiveBits_append, ← h.fgk, hv]
    exact hput
  · rw [List.foldl_append, ← h.fgk, hv]
    rfl
  · rw [hio, hfailIn, h.failIn]
  · rw [hio, State.unpacked_failOut hu]
    exact h.failOut
  · rw [hio]
    exact hsound (State.advanced_sound h.sound hr)
  · rw [hio, hrest, State.advanced_rest h.sound hr]

/-- The loop of `CMP.ADAPTIVE` over the bytes left (R260). -/
theorem State.AdaptivePut.run (hg : s₀.fgk.Codes []) : ∀ (S : List Byte) {L : List Byte} {s : State},
    s₀.AdaptivePut s L → L.length + S.length < 2 ^ 64 → s.io.rest = S →
    ∃ t, adaptiveEncodeLoop (S.length + 1) s = .ok () t ∧ s₀.AdaptivePut t (L ++ S) ∧ t.io.rest = []
  | [], L, s, h, _, hr => by
    refine ⟨s.touched, ?_, ?_, hr⟩
    · rw [List.length_nil, adaptiveEncodeLoop, Run.bind_ok (inRead_end h.failIn hr)]
      rfl
    · rw [List.append_nil]
      exact ⟨h.packed, h.fgk, h.failIn, h.failOut, h.sound⟩
  | b :: S, L, s, h, hlen, hr => by
    rw [List.length_cons] at hlen
    obtain ⟨t, ht, hput, hrest⟩ := h.step hg (by omega) hr (S.length + 1)
    obtain ⟨u, hu, hput', hend⟩ := State.AdaptivePut.run hg S hput
      (by rw [List.length_append, List.length_singleton]; omega) hrest
    rw [List.append_assoc] at hput'
    exact ⟨u, by rw [List.length_cons, ht, hu], hput', hend⟩

end

/-- `CMP.ADAPTIVE` on a host that keeps its duties appends the artifact (R105, R260, R263). -/
theorem adaptiveCompress_appends {s : State} (hs : s.Served) :
    ∃ t, exec .cmpAdaptive s = .next t ∧ s.Ended t ∧ s.Appended t (adaptiveArtifact s.fgk s.io.rest) := by
  obtain ⟨hready, ⟨hin, hout, _⟩, hsound⟩ := hs
  obtain ⟨S, hS⟩ : ∃ S, s.io.rest = S := ⟨_, rfl⟩
  have hlen : S.length < 2 ^ 64 := by
    rw [← hS, Streams.rest, List.length_drop]
    exact (Nat.sub_le _ _).trans_lt hsound.1
  obtain ⟨w, hw⟩ : ∃ w, w = ((s.streamStart.setFgk (fgkStart s.fgk)).setPhase .enc).setW
    { s.streamStart.w with nsym := 0 } := ⟨_, rfl⟩
  have hfgk : w.fgk = fgkStart s.fgk := by rw [hw]; rfl
  have hg : w.fgk.Codes [] := by rw [hfgk]; exact fgkStart_codes s.fgk
  have hstart : w.AdaptivePut w [] := by
    refine ⟨.start ?_ ?_, rfl, ?_, ?_, ?_⟩
    · rw [hw]; rfl
    · rw [hw]; rfl
    · rw [hw]; exact hin
    · rw [hw]; exact hout
    · rw [hw]; exact hsound
  obtain ⟨t, ht, hput, _⟩ := State.AdaptivePut.run hg S hstart (by rw [List.length_nil, Nat.zero_add]; exact hlen)
    (by rw [hw]; exact hS)
  rw [List.nil_append] at hput
  obtain ⟨v, hv, hpad, hu⟩ := fgkPad_ok (s := t.setPhase .term) (hput.codes hg hlen) hput.failOut
    (show w.Packed (t.setPhase .term) (adaptiveBits w.fgk S) from hput.packed)
  obtain ⟨x, hx, happ⟩ := padAndFlush_appended ((State.unpacked_failOut hu).trans hput.failOut) hpad
  have hrun : Instr.block .cmpAdaptive s.streamStart = .ok () x := by
    have hbound : Instr.block .cmpAdaptive s.streamStart = (adaptiveEncodeLoop (S.length + 1) >>= fun _ =>
        setPhase .term >>= fun _ => fgkPad >>= fun _ => padAndFlush) w := by rw [hw, ← hS]; rfl
    rw [hbound, Run.bind_ok ht, setPhase_bind, Run.bind_ok hv, hx]
  obtain ⟨hnext, hend⟩ := exec_stream_ok (i := .cmpAdaptive) rfl hready hrun
  refine ⟨_, hnext, hend, ?_⟩
  rw [State.setPhase_fgk, hput.fgk, hfgk] at happ
  rw [hS]
  exact happ.congr (by rw [hw]; exact ⟨rfl, rfl⟩) ⟨rfl, rfl⟩

end Sys2Proof.Machine
end

section

namespace Sys2Proof.Machine

/-! ### What a compressor appends -/

/-- The adaptive artifact does not depend on what the tree's slots held before (R261). -/
theorem adaptiveArtifact_congr (g h : FgkMem) {S : List Byte} (hlen : S.length < 2 ^ 64) :
    adaptiveArtifact g S = adaptiveArtifact h S := by
  obtain ⟨hbits, hnyt, _⟩ := adaptiveBits_fgkStart h g hlen
  rw [adaptiveArtifact, hbits, hnyt]
  rfl

/-- Settles O59: each compressor appends its artifact, a function of the input from the cursor on; the adaptive one is
that whatever the tree's slots held. -/
theorem compressDeterministic : Obligations.CompressDeterministic := by
  intro i s u hi hs hu hrest hlen hfits
  have same : ∀ {a b : List Byte}, (∃ t, exec i s = .next t ∧ s.Ended t ∧ s.Appended t a) →
      (∃ v, exec i u = .next v ∧ u.Ended v ∧ u.Appended v b) → a = b →
      ∃ t v bytes, exec i s = .next t ∧ exec i u = .next v ∧ s.Appended t bytes ∧ u.Appended v bytes := by
    rintro a _ ⟨t, ht, _, hat⟩ ⟨v, hv, _, hav⟩ rfl
    exact ⟨t, v, a, ht, hv, hat, hav⟩
  have static : ∀ m : StaticMethod, i = m.cmp → s.io.rest.length ≤ Config.inLenMax →
      ∃ t v bytes, exec i s = .next t ∧ exec i u = .next v ∧ s.Appended t bytes ∧ u.Appended v bytes := by
    rintro m rfl hle
    exact same (staticCompress_appends m hs hle) (staticCompress_appends m hu (hrest ▸ hle)) (by rw [hrest])
  simp only [List.mem_cons, List.not_mem_nil, or_false] at hi
  obtain rfl | rfl | rfl | rfl | rfl | rfl := hi
  · exact static .shannon rfl (hlen (by decide) (by decide))
  · exact static .fano rfl (hlen (by decide) (by decide))
  · exact static .huffman rfl (hlen (by decide) (by decide))
  · have hle := hlen (by decide) (by decide)
    exact same (contextCompress_appends hs hle) (contextCompress_appends hu (hrest ▸ hle)) (by rw [hrest])
  · refine same (adaptiveCompress_appends hs) (adaptiveCompress_appends hu) ?_
    have hshort : s.io.rest.length < 2 ^ 64 := by
      rw [Streams.rest, List.length_drop]
      exact (Nat.sub_le _ _).trans_lt hs.2.2.1
    rw [← hrest, adaptiveArtifact_congr s.fgk u.fgk hshort]
  · exact same (arithCompress_appends hs (hfits rfl)) (arithCompress_appends hu (hrest ▸ hfits rfl)) (by rw [hrest])

end Sys2Proof.Machine
end

section

namespace Sys2Proof.Machine

/-! ### The valid entries of `DIST` and the counts -/

/-- The counts, and the valid entries of `DIST`. -/
def State.countsAndDist (s : State) : Table (BitVec 32) × List DistEntry := (s.freq, s.distList)

theorem Run.sat_true {σ α : Type} (m : Run σ α) :
    Run.Sat (fun _ => True) m (fun _ _ => True) (fun _ _ => True) := fun s _ => by
  cases m s <;> trivial

/-- What runs behind `DIST` (R132) and leaves `FREQ` and the valid entries alone keeps them the distribution of the
counts. -/
theorem distBlock_then {m : Unit → Eng Unit} (hm : Run.Keeps (Frame.same State.countsAndDist) (m ())) :
    Run.Sat (fun _ => True) (distBlock >>= m) (fun _ s => s.distList = distribution s.freq) (fun _ _ => True) := by
  refine .bind (R := fun _ s => s.distList = distribution s.freq) (fun s _ => ?_) fun _ => ?_
  · obtain ⟨x, n, hx, hlist, _⟩ := distBlock_distributes s
    rw [hx]
    exact hlist
  · refine (hm.carries fun s t hst hs => ?_).conseq (fun _ h => h) (fun _ _ h => h) fun _ _ _ => trivial
    obtain ⟨hfreq, hlist⟩ := Prod.mk.inj (show (t.freq, t.distList) = (s.freq, s.distList) from hst)
    rw [hlist, hfreq, hs]

/-- Where `StaticCompress` (R203) ends, `DIST` holds the distribution of `FREQ`. -/
theorem staticCompress_distributes (b : Builder) : Run.Sat (fun _ => True) (staticCompress b)
    (fun _ s => s.distList = distribution s.freq) (fun _ _ => True) :=
  .bind (Run.sat_true _) fun _ => .bind (Run.sat_true _) fun _ => .bind (Run.sat_true _) fun _ =>
    distBlock_then <| .bind (withDist_keeps (fun _ _ => rfl) b) fun _ =>
      .bind (setPhase_keeps (fun _ _ => rfl) _) fun _ =>
      .bind (.read _) fun f => .bind (writeHeader_keeps (fun _ _ => rfl) (fun _ _ => rfl) f) fun _ =>
      .bind (setPhase_keeps (fun _ _ => rfl) _) fun _ =>
      .bind (inRewind_keeps (fun _ _ _ => rfl) (fun _ => rfl) fun _ _ _ => rfl) fun _ =>
      .bind (encodePayload_keeps (fun _ _ _ => rfl) (fun _ _ => rfl) (fun _ _ => rfl) (fun _ _ _ => rfl) fun _ _ => rfl)
        fun _ => .bind (setPhase_keeps (fun _ _ => rfl) _) fun _ =>
      padAndFlush_keeps (fun _ _ => rfl) (fun _ _ => rfl) fun _ _ _ => rfl

/-- Where `StaticDecompress` (R213) ends behind its header, `DIST` holds the distribution of `FREQ`. -/
theorem staticRebuild_distributes (b : Builder) : Run.Sat (fun _ => True) (staticRebuild b)
    (fun _ s => s.distList = distribution s.freq) (fun _ _ => True) :=
  .bind (Run.sat_true _) fun _ =>
    distBlock_then <| .bind (withDist_keeps (fun _ _ => rfl) b) fun _ =>
      .bind (setPhase_keeps (fun _ _ => rfl) _) fun _ =>
      decodePayload_keeps (fun _ _ _ => rfl) (fun _ _ _ => rfl) (fun _ _ => rfl) (fun _ _ => rfl) (fun _ _ => rfl)
        fun _ _ => rfl

theorem Run.Sat.ok {σ α : Type} {P : σ → Prop} {m : Run σ α} {Q : α → σ → Prop} {E : Stop → σ → Prop}
    (h : Run.Sat P m Q E) {s t : σ} {a : α} (hs : P s) (hm : m s = .ok a t) : Q a t := by
  have := h s hs
  rwa [hm] at this

/-- Only the empty sequence has an empty distribution. -/
theorem distribution_countTable_ne {S : List Byte} (h : S.length < 2 ^ 32) (hS : S ≠ []) :
    distribution (countTable S) ≠ [] := by
  obtain ⟨b, l, rfl⟩ := List.exists_cons_of_ne_nil hS
  have hb := distribution_symbols.2 ((freqGet_countTable_ne h b).2 List.mem_cons_self)
  intro h0
  rw [h0] at hb
  cases hb

/-- The model of a sequence that is not empty: `SCHEME` and `TREE` agree on the method's tree (R155). -/
theorem TreeMem.Models.agrees {t : TreeMem} {m : StaticMethod} {S : List Byte} (h : S.length < 2 ^ 32) (hS : S ≠ [])
    (ht : t.Models (m.shape (distribution (countTable S)))) : t.Agrees (m.shape (distribution (countTable S))) :=
  ⟨ht.roots fun hdead => distribution_countTable_ne h hS
    ((m.shape_dead (distribution_isDist _) (distribution_sorted _) (cntSum_distribution_le _)).1 hdead), ht.code⟩

/-! ### The final state of the static compressors -/

/-- The state in which the payload starts where the host keeps its duties: `header` has been written behind the first
pass, which `u` ends, and the cursor is back at `IN_BASE` (R64). -/
abbrev State.reread (u : State) (header : List Byte) : State :=
  (((u.wroteAll header).setPhase .enc).setIo { (u.wroteAll header).io with
    inAcc := u.io.inAcc + 1, inPos := u.io.inBase, again := none }).setW { u.w with icnt := 0 }

theorem State.reread_w (u : State) (header : List Byte) : (u.reread header).w = { u.w with icnt := 0 } := rfl
theorem State.reread_freq (u : State) (header : List Byte) : (u.reread header).freq = u.freq := rfl
theorem State.reread_main (u : State) (header : List Byte) : (u.reread header).main = u.main := rfl

/-- Header and rewind on a stream that keeps its promise (R390). -/
theorem secondPass_reread {u : State} {header : List Byte} {payload tail : Eng Unit} (hin : u.io.failIn = [])
    (hout : u.io.failOut = []) (hagain : u.io.again = none) :
    (writeAll header >>= fun _ => secondPass payload tail) u = (payload >>= fun _ => tail) (u.reread header) := by
  have hrew := inRewind_eq ((u.wroteAll header).setPhase .enc)
  rw [if_neg (by rw [State.setPhase_io, State.setIo_io, hin]; exact Bool.false_ne_true)] at hrew
  rw [Run.bind_ok (writeAll_ok header hout), secondPass, setPhase_bind, Run.bind_ok hrew]
  simp only [State.setPhase_io, State.setIo_io, hagain]
  rfl

/-- The streams as the payload finds them: the input as the command found it, the header appended. -/
structure State.RereadIo (s w : State) (header : List Byte) : Prop where
  failIn : w.io.failIn = s.io.failIn
  failOut : w.io.failOut = s.io.failOut
  sound : s.io.Sound → w.io.Sound
  rest : w.io.rest = s.io.rest
  appended : s.Appended w header

theorem State.Surveyed.reread {s u : State} {S : List Byte} (hu : s.streamStart.Surveyed u S) (header : List Byte) :
    s.RereadIo (u.reread header) header := by
  obtain ⟨p, n, hio⟩ := hu.io
  have hinput : (u.reread header).io.input = s.io.input ∧ (u.reread header).io.inPos = s.io.inPos := by
    simp only [State.setW_io, State.setIo_io, hio]
    exact ⟨rfl, rfl⟩
  obtain ⟨hinput, hpos⟩ := hinput
  refine ⟨?_, ?_, fun hs => ?_, ?_, (u.wroteAll_appended header).congr (by rw [hio]; exact ⟨rfl, rfl⟩) ⟨rfl, rfl⟩⟩
  · simp only [State.setW_io, State.setIo_io, hio]
    rfl
  · simp only [State.setW_io, State.setIo_io, hio]
    rfl
  · rwa [Streams.Sound, hinput, hpos]
  · rw [Streams.rest, hinput, hpos]
    rfl

/-- `EncodePayload()` (R205) over the bytes that the model and `TOTAL` were made for, put behind an empty packer. -/
theorem encodePayload_ok {s : State} {sh : Shape} {S : List Byte} (hm : s.main.Models sh)
    (hcode : ∀ b ∈ S, (codeIn sh.paths b).isSome = true) (htotal : s.w.total.toNat = S.length)
    (hpack : s.w.obits = 0 ∧ s.w.ocnt = 0) (hin : s.io.failIn = []) (hout : s.io.failOut = []) (hs : s.io.Sound)
    (hr : s.io.rest = S) :
    ∃ t, encodePayload s = .ok () t ∧ s.Packed t (codeBits sh S) ∧ t.io.rest = [] ∧ t.io.Sound ∧
      t.w.nsym = t.w.total ∧ t.uncoded = s.uncoded := by
  obtain ⟨t, ht, hput, hrest, hsound, hn, hsame⟩ := encodeLoop_ok (s₀ := s) S (s := s.setW { s.w with nsym := 0 }) hin
    hout hs hr (fun b hb => by rw [State.setW_main, hm.code]; exact hcode b hb)
    (by show 0 + S.length ≤ s.w.total.toNat; omega) (.start hpack.1 hpack.2)
  have hcount : t.w.nsym = t.w.total := BitVec.eq_of_toNat_eq <| by
    rw [hn, State.uncoded_total hsame]
    exact (Nat.zero_add _).trans htotal.symm
  have hbits : (S.flatMap fun b => (s.main.code b.toNat).getD []) = codeBits sh S := by
    simp only [codeBits, hm.code]
  refine ⟨t, ?_, hbits ▸ hput, hrest, hsound, hcount, hsame⟩
  rw [encodePayload, setW_bind, Run.read_bind]
  show (encodeLoop (s.io.rest.length + 1) >>= _) _ = _
  rw [hr, Run.bind_ok ht, requireAllSeen_eq, if_pos hcount]

/-- What a payload of codewords leaves: its bits have been appended, the last byte padded (R205, R72). -/
structure State.Encoded (s t : State) (bits : Bits) : Prop where
  appended : s.Appended t (packBits bits)
  drained : t.Drained
  nsym : t.w.nsym = t.w.total
  packer : t.w.obits = 0 ∧ t.w.ocnt = 0
  freq : t.freq = s.freq
  main : t.main = s.main
  total : t.w.total = s.w.total

theorem padAndFlush_encoded {s v : State} {bits : Bits} (hput : s.Packed v bits) (hout : v.io.failOut = [])
    (hrest : v.io.rest = []) (hsound : v.io.Sound) (hn : v.w.nsym = v.w.total) (hsame : v.uncoded = s.uncoded) :
    ∃ t, padAndFlush (v.setPhase .term) = .ok () t ∧ s.Encoded t bits := by
  obtain ⟨t, ht, htout, htlen, hobits, hocnt, hkept⟩ := padAndFlush_packed (s := v.setPhase .term) hout hput
  obtain ⟨htrest, htsound, htn⟩ := State.unpacked_io hkept
  have hfreq : t.freq = v.freq := (congrArg State.freq hkept :)
  have hmain : t.main = v.main := (congrArg State.main hkept :)
  have htotal : t.w.total = v.w.total := (congrArg (fun x : State => x.w.total) hkept :)
  refine ⟨t, ht, ⟨?_, htlen⟩, Streams.drained (htsound hsound) (htrest.trans hrest), htn.trans (hn.trans htotal.symm),
    ⟨hobits, hocnt⟩, hfreq.trans (congrArg State.freq hsame :), hmain.trans (State.uncoded_main hsame),
    htotal.trans (State.uncoded_total hsame)⟩
  show t.io.outRev.reverse = s.io.outRev.reverse ++ _
  rw [htout, List.reverse_append, List.reverse_reverse]

/-- What a static compressor leaves of an input `S` (R203, R205). -/
structure State.StaticCompressed (s t : State) (m : StaticMethod) (S : List Byte) : Prop where
  appended : s.Appended t (staticArtifact m S)
  drained : t.Drained
  freq : t.freq = countTable S
  models : t.main.Models (m.shape (distribution (countTable S)))
  total : t.w.total.toNat = S.length
  nsym : t.w.nsym = t.w.total
  packer : t.w.obits = 0 ∧ t.w.ocnt = 0

theorem staticCompress_ok (m : StaticMethod) {s : State} (hs : s.Served) (hl : s.io.rest.length ≤ Config.inLenMax) :
    ∃ t, Instr.block m.cmp s.streamStart = .ok () t ∧ s.StaticCompressed t m s.io.rest := by
  have hmax : Config.inLenMax = 2 ^ 32 - 1 := rfl
  obtain ⟨_, ⟨hin, hout, hagain⟩, hsound⟩ := hs
  obtain ⟨u, hu, hmodel, hblock⟩ : ∃ u, s.streamStart.Surveyed u s.io.rest ∧
      u.main.Models (m.shape (distribution (countTable s.io.rest))) ∧ staticCompress m.block s.streamStart =
        (writeAll (headerBytes (countTable s.io.rest)) >>= fun _ => staticSecondPass) u :=
    staticCompress_survey m (s := s.streamStart) hin hsound hl
  obtain ⟨p, n, hio⟩ := hu.io
  have hrun := secondPass_reread (u := u) (header := headerBytes (countTable s.io.rest)) (payload := encodePayload)
    (tail := do setPhase .term; padAndFlush) (by rw [hio]; exact hin) (by rw [hio]; exact hout)
    (by rw [hio]; exact hagain)
  have hw := hu.reread (headerBytes (countTable s.io.rest))
  obtain ⟨v, hv, hput, hrest, hvsound, hn, hsame⟩ := encodePayload_ok (S := s.io.rest)
    (by rw [State.reread_main]; exact hmodel) (fun b hb => (m.codeIn_countTable (by omega) b).2 hb)
    (by rw [State.reread_w]; exact hu.total) (by rw [State.reread_w]; exact hu.pack) (hw.failIn.trans hin)
    (hw.failOut.trans hout) (hw.sound hsound) hw.rest
  obtain ⟨t, ht, henc⟩ := padAndFlush_encoded hput ((State.uncoded_failOut hsame).trans (hw.failOut.trans hout)) hrest
    hvsound hn hsame
  refine ⟨t, ?_, hw.appended.trans henc.appended, henc.drained, ?_, ?_, ?_, henc.nsym, henc.packer⟩
  · rw [m.block_cmp]
    exact hblock.trans (hrun.trans (by rw [Run.bind_ok hv, setPhase_bind, ht]))
  · rw [henc.freq, State.reread_freq]; exact hu.freq
  · rw [henc.main, State.reread_main]; exact hmodel
  · rw [henc.total, State.reread_w]; exact hu.total

/-- Settles O43: the first pass counts and builds, the second puts a codeword a byte behind the header; `DIST` is not
written again. -/
theorem cmpStaticCompletes : Obligations.CmpStaticCompletes := by
  intro m s hs hl
  have hmax : Config.inLenMax = 2 ^ 32 - 1 := rfl
  obtain ⟨t, ht, h⟩ := staticCompress_ok m hs hl
  obtain ⟨hnext, hend⟩ := exec_stream_ok m.cmp_stream hs.1 ht
  have hdist : t.distList = distribution t.freq := (staticCompress_distributes m.block).ok trivial (m.block_cmp ▸ ht)
  exact ⟨_, hnext, hend, h.appended.congr ⟨rfl, rfl⟩ ⟨rfl, rfl⟩, h.drained, h.freq, h.freq ▸ hdist,
    fun hS => h.models.agrees (by omega) hS, h.total, h.nsym, h.packer.1, h.packer.2⟩

end Sys2Proof.Machine
end

section

namespace Sys2Proof.Machine

/-! ### The bits the parser holds -/

/-- The parser holds less than a byte: of every byte it has read it has taken a bit (R73). -/
def State.InByte (s : State) : Prop := s.w.icnt.toNat < 8

theorem Run.Sat.keeps {α : Type} {P : State → Prop} {m : Eng α}
    (h : Run.Sat P m (fun _ => P) (fun _ => P)) : Run.Keeps (Frame.carry P) m := fun _ hs => h.endState hs

theorem takeBit_inByte : Run.Sat (fun s => s.w.icnt.toNat ≠ 0 ∧ s.w.icnt.toNat ≤ 8) takeBit (fun _ => State.InByte)
    (fun _ => State.InByte) := fun s hs => by
  obtain ⟨h0, h8⟩ := hs
  show (s.w.icnt - 1).toNat < 8
  bv_omega

theorem getBitOpt_inByte : Run.Sat State.InByte getBitOpt (fun _ => State.InByte) (fun _ => State.InByte) := by
  refine .read_bind fun n => .ite (fun _ => ?_) fun h0 => ?_
  · refine .conseq (P := State.InByte) (.bind (R := fun _ => State.InByte) ?_ fun r => ?_) (fun _ h => h.1)
      (fun _ _ h => h) fun _ _ h => h
    · exact (inRead_keeps (F := Frame.same fun s => s.w.icnt) fun _ _ _ => rfl).carries fun s t h hs => by
        have hcnt : t.w.icnt = s.w.icnt := h
        rwa [State.InByte, hcnt]
    · cases r with
      | none => exact .pure fun _ h => h
      | some v =>
        exact .update_bind (R := fun s => s.w.icnt.toNat ≠ 0 ∧ s.w.icnt.toNat ≤ 8) (fun _ _ => by simp)
          (.bind takeBit_inByte fun _ => .pure fun _ h => h)
  · refine .conseq (P := fun s => s.w.icnt.toNat ≠ 0 ∧ s.w.icnt.toNat ≤ 8)
      (.bind takeBit_inByte fun _ => .pure fun _ h => h) (fun s h => ?_) (fun _ _ h => h) fun _ _ h => h
    obtain ⟨hlt, rfl⟩ := h
    exact ⟨fun h => h0 (beq_iff_eq.2 (BitVec.eq_of_toNat_eq h)), Nat.le_of_lt hlt⟩

theorem getBit_inByte : Run.Keeps (Frame.carry State.InByte) getBit := by
  refine .bind getBitOpt_inByte.keeps fun r => ?_
  cases r with
  | none => exact .raise _
  | some b => exact .pure _

theorem walkLoop_inByte (T : Table TreeNode) : ∀ n cur, Run.Keeps (Frame.carry State.InByte) (walkLoop T n cur)
  | 0, _ => .stuck
  | n + 1, cur => by
    unfold walkLoop
    cases (treeGet T cur).sym with
    | some s => exact .pure _
    | none =>
      refine .bind getBit_inByte fun b => .bind (.update fun _ h => h) fun _ => ?_
      cases (treeGet T cur).child b with
      | none => exact .raise _
      | some next => exact walkLoop_inByte T n next

theorem walkSymbol_inByte (T : Table TreeNode) (root : Option Nat) :
    Run.Keeps (Frame.carry State.InByte) (walkSymbol T root) := by
  cases root with
  | none => exact .raise _
  | some r => exact .bind (.update fun _ h => h) fun _ => .bind (.read _) fun _ => walkLoop_inByte T _ r

theorem decodeLoop_inByte : ∀ n, Run.Keeps (Frame.carry State.InByte) (decodeLoop n)
  | 0 => .stuck
  | n + 1 => .bind (.read _) fun _ => .ite
      (.bind (.read _) fun _ => .bind (walkSymbol_inByte _ _) fun b =>
        .bind (outWrite_keeps (fun _ _ h => h) (fun _ _ h => h) b) fun _ =>
        .bind (bumpNsym_keeps (fun _ _ h => h) fun _ _ h => h) fun _ => decodeLoop_inByte n)
      (.pure _)

/-- `DecodePayload()` (R215) starts with no bit held. -/
theorem decodePayload_inByte :
    Run.Sat (fun _ => True) decodePayload (fun _ => State.InByte) (fun _ _ => True) := by
  refine .update_bind (R := State.InByte) (fun _ _ => by simp [State.InByte]) ?_
  exact ((Run.Keeps.bind (.read _) fun _ => decodeLoop_inByte _).carries fun _ _ h => h).conseq (fun _ h => h)
    (fun _ _ h => h) fun _ _ _ => trivial

theorem staticRebuild_inByte (b : Builder) :
    Run.Sat (fun _ => True) (staticRebuild b) (fun _ => State.InByte) (fun _ _ => True) :=
  .bind (Run.sat_true _) fun _ => .bind (Run.sat_true _) fun _ => .bind (Run.sat_true _) fun _ =>
    .bind (Run.sat_true _) fun _ => decodePayload_inByte

/-- The bits left decide how many bytes are left. -/
theorem State.InByte.rest_length {s : State} (h : s.InByte) {pad : Nat} (hpad : pad < 8) {extra : List Byte}
    (hu : s.unread = List.replicate pad false ++ payloadBits extra) : s.io.rest.length = extra.length := by
  have hbits : ∀ p : List Byte, (payloadBits p).length = 8 * p.length := fun p => by
    rw [payloadBits, List.length_flatMap, List.map_congr_left (g := fun _ => 8) fun b _ => by simp [byteBits],
      List.map_const', List.sum_replicate, smul_eq_mul, Nat.mul_comm]
  have hlen := s.unread_length
  rw [hu, List.length_append, List.length_replicate, hbits, State.bitsLeft] at hlen
  unfold State.InByte at h
  omega

/-- The cursor, from what is left to read. -/
theorem Streams.pos_of_rest {x y : Streams} (hin : y.input = x.input) (hx : x.Sound) (hy : y.Sound) :
    y.inPos.toNat + y.rest.length = x.inPos.toNat + x.rest.length := by
  obtain ⟨_, hx⟩ := hx
  obtain ⟨_, hy⟩ := hy
  rw [hin] at hy
  rw [Streams.rest, Streams.rest, List.length_drop, List.length_drop, hin]
  omega

/-- A command on a served engine leaves the input as it is (R390). -/
theorem exec_input {i : Instr} {s t : State} (hs : s.Served) (h : exec i s = .next t) : t.io.input = s.io.input := by
  obtain ⟨_, ⟨_, _, hagain⟩, _⟩ := hs
  obtain ⟨hin, _⟩ | ⟨hother, _⟩ := (exec_streamsKept h).input
  · exact hin
  · rw [hagain] at hother; cases hother

/-! ### Payloads of packed codewords -/

theorem packBits_length (c : Bits) : (packBits c).length = (c.length + 7) / 8 := by
  rw [packBits, List.length_map, List.length_range]

theorem packBits_ne_nil {c : Bits} (h : c ≠ []) : packBits c ≠ [] := fun h0 => by
  have hlen := packBits_length c
  have := List.length_pos_of_ne_nil h
  rw [h0, List.length_nil] at hlen
  omega

/-- A packed bit string with bytes behind it is read as the bits, fewer than 8 zero bits, the bits of the bytes. -/
theorem payloadBits_packBits (c : Bits) (extra : List Byte) : ∃ pad, pad < 8 ∧
    payloadBits (packBits c ++ extra) = c ++ (List.replicate pad false ++ payloadBits extra) :=
  ⟨8 * ((c.length + 7) / 8) - c.length, by omega, by
    rw [payloadBits, List.flatMap_append, packBits_flatMap, List.append_assoc]
    rfl⟩

/-- No codeword of a method is empty (R172, R178). -/
theorem StaticMethod.code_ne_nil (m : StaticMethod) {dl : List DistEntry} (h : IsDist dl) (hs : dl.Pairwise distBefore)
    (hS : cntSum dl ≤ 2 ^ 40) {b : Byte} {c : Bits} (hc : codeIn (m.shape dl).paths b = some c) : c ≠ [] := by
  rintro rfl
  have hfollow := Shape.follow_codeIn hc
  have hleaf : m.shape dl = .leaf b := by
    cases hsh : m.shape dl <;> rw [hsh] at hfollow <;> cases hfollow
    rfl
  match dl with
  | [] => rw [m.shape_nil] at hleaf; cases hleaf
  | [e] => rw [m.shape_one] at hleaf; cases hleaf
  | e₁ :: e₂ :: es =>
    have honly : ∀ e ∈ e₁ :: e₂ :: es, e.sym = b := fun e he => by
      have hmem := (m.shape_symbols h hs hS e.sym).2 (List.mem_map_of_mem he)
      rw [hleaf] at hmem
      exact List.mem_singleton.1 hmem
    have hnodup : e₁.sym ∉ (e₂ :: es).map DistEntry.sym := (List.nodup_cons.1 h.1).1
    exact hnodup (by rw [honly e₁ (by simp), ← honly e₂ (by simp)]; simp)

theorem StaticMethod.codeBits_ne_nil (m : StaticMethod) {S : List Byte} (h : S.length < 2 ^ 32) (hS : S ≠ []) :
    codeBits (m.shape (distribution (countTable S))) S ≠ [] := by
  obtain ⟨b, l, rfl⟩ := List.exists_cons_of_ne_nil hS
  obtain ⟨c, hc⟩ := Option.isSome_iff_exists.1 ((m.codeIn_countTable h b).2 List.mem_cons_self)
  have hne := m.code_ne_nil (distribution_isDist _) (distribution_sorted _) (cntSum_distribution_le _) hc
  rw [codeBits, List.flatMap_cons, hc]
  exact fun h0 => hne (List.append_eq_nil_iff.1 h0).1

/-! ### The final state of the static decompressors -/

/-- What a static decompressor leaves of an input that codes `S` (R213, R215). -/
structure State.StaticDecompressed (s t : State) (m : StaticMethod) (S extra : List Byte) : Prop where
  appended : s.Appended t S
  rest : t.io.rest.length = extra.length
  sound : t.io.Sound
  nsym : t.w.nsym.toNat = S.length
  freq : ∀ k, k < 256 → freqGet t.freq k = freqGet (countTable S) k
  total : t.w.total.toNat = S.length
  model : S ≠ [] → t.distList = distribution (countTable S) ∧ t.main.Agrees (m.shape (distribution (countTable S)))

/-- The state after a header has been read, wherever the cursor is. -/
abbrev State.headed (s : State) (q : BitVec 64) (k : Nat) (x : Table (BitVec 32)) (n : BitVec 40) : State :=
  ((s.setIo { s.io with inPos := q, inAcc := k }).setFreq x).setW { s.w with total := n }

/-- `ReadHeader(FREQ)` and the sum (R213, R214): what it leaves, without the count of the accesses. -/
theorem readHeader_headed (f : Table (BitVec 32)) {s : State} {p : List Byte} (hin : s.io.failIn = [])
    (hs : s.io.Sound) (hr : s.io.rest = headerBytes f ++ p) :
    ∃ q k x n, readHeader s = .ok () (s.headed q k x n) ∧ (s.headed q k x n).io.rest = p ∧
      (s.headed q k x n).io.Sound ∧ (∀ k, k < 256 → freqGet x k = freqGet f k) ∧ n.toNat = freqSum f := by
  obtain ⟨t, ht, hrest, hsound, hget, htotal, hsame⟩ := readHeader_ok f hin hs hr
  obtain ⟨q, k, x, n, rfl⟩ : ∃ q k x n, t = s.headed q k x n := ⟨_, _, _, _, hsame⟩
  have hx : ∀ k, k < 256 → freqGet x k = freqGet f k := hget
  have hn : n = BitVec.ofNat 40 (freqSum x) := htotal
  have hlt := freqSum_lt f
  refine ⟨q, k, x, n, ht, hrest, hsound, hx, ?_⟩
  rw [hn, freqSum_congr hx, BitVec.toNat_ofNat]
  omega

/-- The header read, and bytes behind it: `StaticDecompress` goes on to the models (R213). -/
theorem staticDecompress_rebuilds (b : Builder) {s : State} {f : Table (BitVec 32)} {p : List Byte}
    (hin : s.io.failIn = []) (hs : s.io.Sound) (hr : s.io.rest = headerBytes f ++ p) (hp : p ≠ []) :
    ∃ t, staticDecompress b s = staticRebuild b t ∧ ∀ k, k < 256 → freqGet t.freq k = freqGet f k := by
  obtain ⟨q, k, x, n, ht, hrest, _, hget, _⟩ := readHeader_headed f (s := s.setPhase .hdrRd) hin hs hr
  obtain ⟨t, hsame⟩ : ∃ t, t = (s.setPhase .hdrRd).headed q k x n := ⟨_, rfl⟩
  rw [← hsame] at ht hrest
  have hend : inAtEnd t = .ok false t.touched := by
    obtain ⟨b, l, rfl⟩ := List.exists_cons_of_ne_nil hp
    rw [inAtEnd_eq, Streams.rest_cons hrest, hsame, State.setW_io, State.setFreq_io, State.setIo_io,
      State.setPhase_io, hin]
    rfl
  refine ⟨t.touched, ?_, by rw [hsame]; exact hget⟩
  rw [staticDecompress, setPhase_bind, Run.bind_ok ht, Run.bind_ok hend]
  rfl

/-- What a static decompressor leaves of a header with nothing behind it (R216). -/
structure State.HeaderOnly (s t : State) (f : Table (BitVec 32)) : Prop where
  rest : t.io.rest = []
  sound : t.io.Sound
  freq : ∀ k, k < 256 → freqGet t.freq k = freqGet f k
  total : t.w.total.toNat = freqSum f
  nsym : t.w.nsym = s.w.nsym
  appended : s.Appended t []
  dist : t.dist = s.dist
  main : t.main = s.main

/-- The header read, and nothing behind it: `StaticDecompress` ends (R216). -/
theorem staticDecompress_headerOnly (b : Builder) {s : State} {f : Table (BitVec 32)} (hin : s.io.failIn = [])
    (hs : s.io.Sound) (hr : s.io.rest = headerBytes f) : ∃ t, staticDecompress b s = .ok () t ∧ s.HeaderOnly t f := by
  rw [← List.append_nil (headerBytes f)] at hr
  obtain ⟨q, k, x, n, ht, hrest, hsound, hget, htotal⟩ :=
    readHeader_headed f (s := s.setPhase .hdrRd) hin hs hr
  obtain ⟨t, hsame⟩ : ∃ t, t = (s.setPhase .hdrRd).headed q k x n := ⟨_, rfl⟩
  rw [← hsame] at ht hrest hsound
  have hend : inAtEnd t = .ok true t.touched := by
    rw [inAtEnd_eq, Streams.rest_nil hrest, hsame, State.setW_io, State.setFreq_io, State.setIo_io, State.setPhase_io,
      hin]
    rfl
  have hrun : staticDecompress b s = .ok () t.touched := by
    rw [staticDecompress, setPhase_bind, Run.bind_ok ht, Run.bind_ok hend]
    rfl
  refine ⟨t.touched, hrun, hrest, hsound, ?_, ?_, ?_, ?_, ?_, ?_⟩ <;> rw [hsame]
  · exact hget
  · exact htotal
  · rfl
  · exact (State.Appended.refl s).congr ⟨rfl, rfl⟩ ⟨rfl, rfl⟩
  · rfl
  · rfl

/-- Where the models and the payload have been gone through: the parser holds less than a byte, the counts are those of
the header, and `DIST` holds their distribution. -/
theorem staticRebuild_leaves {b : Builder} {s t : State} (h : staticRebuild b s = .ok () t) :
    t.InByte ∧ t.freq = s.freq ∧ t.distList = distribution s.freq := by
  have hfreq : t.freq = s.freq := (staticRebuild_keeps (F := Frame.same State.freq) (fun _ _ => rfl) (fun _ _ _ => rfl)
    (fun _ _ _ => rfl) (fun _ _ => rfl) (fun _ _ => rfl) (fun _ _ => rfl) (fun _ _ => rfl) (fun _ _ _ => rfl)
    (fun _ _ => rfl) b).ok h
  exact ⟨(staticRebuild_inByte b).ok trivial h, hfreq, hfreq ▸ (staticRebuild_distributes b).ok trivial h⟩

/-- A payload, or bytes behind it: `S` is decoded with the method's model of its counts (R215). -/
theorem staticDecompress_decodes (m : StaticMethod) {s : State} {S p : List Byte} {r : Bits} (hs : s.Served)
    (hS : S.length < 2 ^ 32) (hr : s.io.rest = headerBytes (countTable S) ++ p) (hp : p ≠ [])
    (hbits : payloadBits p = codeBits (m.shape (distribution (countTable S))) S ++ r) :
    ∃ w t, Instr.block m.dec s.streamStart = .ok () t ∧ s.Appended w [] ∧ w.Decoding t S r ∧
      t.w.total.toNat = S.length ∧ t.main.Models (m.shape (distribution (countTable S))) := by
  obtain ⟨w, hw, hmodel, hd⟩ := staticDecompress_enters m hs hr hp
  have hsum := countTable_sum hS
  rw [hbits] at hd
  obtain ⟨t, ht, hdt⟩ := decodeLoop_run hmodel hw.failOut hw.total 1 hd (fun b hb => (m.codeIn_countTable hS b).2 hb)
    hsum.ge
  have htotal : t.w.total.toNat = S.length := by rw [hdt.total, hw.total, hsum]
  refine ⟨w, t, ?_, hw.out, hdt, htotal, by rw [hdt.main]; exact hmodel⟩
  rw [hw.run, hsum, ht, decodeLoop_decodes.done 0 (by rw [hdt.count, htotal]; exact lt_irrefl _)]

/-- `StaticDecompress` (R213) over the artifact of `S` with any bytes behind it. -/
theorem staticDecompress_ok (m : StaticMethod) {s : State} {S extra : List Byte} (hs : s.Served)
    (hS : S.length < 2 ^ 32) (hr : s.io.rest = staticArtifact m S ++ extra) :
    ∃ t, Instr.block m.dec s.streamStart = .ok () t ∧ s.StaticDecompressed t m S extra := by
  by_cases hp : packBits (codeBits (m.shape (distribution (countTable S))) S) ++ extra = []
  · obtain ⟨hpack, rfl⟩ := List.append_eq_nil_iff.1 hp
    obtain rfl : S = [] := by_contra fun hne => packBits_ne_nil (m.codeBits_ne_nil hS hne) hpack
    rw [staticArtifact, hpack, List.append_nil, List.append_nil] at hr
    obtain ⟨t, ht, h⟩ := staticDecompress_headerOnly m.block (s := s.streamStart) hs.2.1.1 hs.2.2 hr
    exact ⟨t, m.block_dec ▸ ht, h.appended.congr ⟨rfl, rfl⟩ ⟨rfl, rfl⟩, by rw [h.rest], h.sound, by rw [h.nsym]; rfl,
      h.freq, by rw [h.total, countTable_sum hS], fun hne => absurd rfl hne⟩
  · rw [staticArtifact, List.append_assoc] at hr
    obtain ⟨pad, hpad, hbits⟩ := payloadBits_packBits (codeBits (m.shape (distribution (countTable S))) S) extra
    obtain ⟨w, t, ht, hw, hd, htotal, hmodel⟩ := staticDecompress_decodes m hs hS hr hp hbits
    obtain ⟨v, hv, hget⟩ := staticDecompress_rebuilds m.block (s := s.streamStart) hs.2.1.1 hs.2.2 hr hp
    obtain ⟨hbyte, hfreq, hdist⟩ := staticRebuild_leaves (hv.symm.trans (m.block_dec ▸ ht))
    exact ⟨t, ht, hw.of_nil hd.out, hbyte.rest_length hpad hd.unread, hd.parses.sound, hd.count, by rwa [hfreq], htotal,
      fun hne => ⟨by rw [hdist, distribution_congr hget], hmodel.agrees hS hne⟩⟩

/-- Settles O44: behind the header the codewords lead back to the bytes of `S`, and the parser has read no byte it has
taken no bit of. -/
theorem decStaticCompletes : Obligations.DecStaticCompletes := by
  intro m s S extra hs hl hr
  have hmax : Config.inLenMax = 2 ^ 32 - 1 := rfl
  obtain ⟨t, ht, h⟩ := staticDecompress_ok m hs (by omega) hr
  obtain ⟨hnext, hend⟩ := exec_stream_ok m.dec_stream hs.1 ht
  have hinput : t.io.input = s.io.input := exec_input (t := t.complete) hs hnext
  have hpos := Streams.pos_of_rest hinput hs.2.2 h.sound
  rw [h.rest, hr, List.length_append] at hpos
  exact ⟨_, hnext, hend, h.appended.congr ⟨rfl, rfl⟩ ⟨rfl, rfl⟩, by show t.io.inPos.toNat = _; omega, h.nsym,
    fun b => h.freq _ b.isLt, h.total, h.model⟩

/-- Settles O45: the decompressor gets the artifact, with nothing behind it. -/
theorem staticRoundTrip : Obligations.StaticRoundTrip := by
  intro m s u hs hu hl
  obtain ⟨t, ht, _, happ, _⟩ := cmpStaticCompletes m s hs hl
  refine ⟨t, _, ht, happ, fun hr => ?_⟩
  obtain ⟨v, hv, hend, hout, _⟩ := decStaticCompletes m u s.io.rest [] hu hl (by rw [hr, List.append_nil])
  exact ⟨v, hv, hend, hout⟩

end Sys2Proof.Machine
end

section

namespace Sys2Proof.Machine

/-! ### What the static stream commands leave alone -/

/-- The states that differ in what a static stream command may write. -/
def staticWrites : Frame State where
  rel s t := t = { s with
      status := t.status, faultCode := t.faultCode, phase := t.phase
      freq := t.freq, dist := t.dist, main := t.main
      w := { s.w with
        total := t.w.total, nsym := t.w.nsym, ndist := t.w.ndist, cur := t.w.cur, prev := t.w.prev
        obits := t.w.obits, ocnt := t.w.ocnt, ibits := t.w.ibits, icnt := t.w.icnt, pend := t.w.pend }
      io := { s.io with
        input := t.io.input, again := t.io.again, inPos := t.io.inPos, inBase := t.io.inBase
        outRev := t.io.outRev, outLen := t.io.outLen, inAcc := t.io.inAcc, outAcc := t.io.outAcc } }
  refl _ := rfl
  trans _ _ _ h h' := h'.trans (by rw [h])

theorem staticWrites_block {m : StaticMethod} {i : Instr} (hi : i = m.cmp ∨ i = m.dec) :
    i.cmdClass = .stream ∧ Run.Keeps staticWrites (Instr.block i) := by
  obtain rfl | rfl := hi
  · rw [m.block_cmp]
    exact ⟨m.cmp_stream, staticCompress_keeps (fun _ _ => rfl) (fun _ _ _ => rfl) (fun _ => rfl) (fun _ _ _ => rfl)
      (fun _ _ => rfl) (fun _ _ => rfl) (fun _ _ _ => rfl) (fun _ _ => rfl) (fun _ _ => rfl) (fun _ _ => rfl)
      (fun _ _ _ => rfl) (fun _ _ => rfl) _⟩
  · rw [m.block_dec]
    exact ⟨m.dec_stream, staticDecompress_keeps (fun _ _ => rfl) (fun _ _ _ => rfl) (fun _ _ _ => rfl) (fun _ _ => rfl)
      (fun _ _ => rfl) (fun _ _ => rfl) (fun _ _ => rfl) (fun _ _ => rfl) (fun _ _ => rfl) (fun _ _ _ => rfl)
      (fun _ _ => rfl) _⟩

/-- Settles O25: the block, and accepting, ending and trapping the command, write only what the frame lets differ. -/
theorem staticFrame : Obligations.StaticFrame := by
  intro m i s t hi h
  obtain ⟨hstream, hblock⟩ := staticWrites_block hi
  rw [exec_eq, hstream] at h
  exact runStream_frame (F := staticWrites) (fun _ _ => rfl) (fun _ _ => rfl) (fun _ _ _ => rfl) (fun _ _ _ => rfl)
    (fun _ _ _ => rfl) (fun _ _ => rfl) (fun _ _ => rfl) (fun _ _ => rfl) (fun _ _ => rfl) hblock h

/-! ### A header followed by nothing -/

theorem leBytes_leValue : ∀ l : List Byte, leBytes l.length (leValue l) = l
  | [] => rfl
  | b :: l => by
    have hb := b.isLt
    rw [List.length_cons, leValue, leBytes, show (b.toNat + 256 * leValue l) / 256 = leValue l by omega,
      leBytes_leValue l, show (b.toNat + 256 * leValue l) % 256 = b.toNat by omega, BitVec.ofNat_toNat,
      BitVec.setWidth_eq]

theorem leValue_lt : ∀ l : List Byte, leValue l < 256 ^ l.length
  | [] => Nat.one_pos
  | b :: l => by
    have hb := b.isLt
    have hl := leValue_lt l
    rw [leValue, List.length_cons, Nat.pow_succ]
    omega

/-- Any 1024 bytes are the header of a table (R101). -/
theorem exists_headerBytes {l : List Byte} (h : l.length = 1024) : ∃ f, headerBytes f = l := by
  have fields : ∀ (n : Nat) (l : List Byte), l.length = 4 * n →
      ∃ f, ((List.range n).flatMap fun k => leBytes 4 (freqGet f k).toNat) = l := by
    intro n
    induction n with
    | zero => exact fun l hl => ⟨[], (List.eq_nil_of_length_eq_zero hl).symm⟩
    | succ n ih =>
      intro l hl
      obtain ⟨f, hf⟩ := ih (l.take (4 * n)) (by rw [List.length_take]; omega)
      have hlast : (l.drop (4 * n)).length = 4 := by rw [List.length_drop]; omega
      have hfield := leBytes_leValue (l.drop (4 * n))
      rw [hlast] at hfield
      have hlt : leValue (l.drop (4 * n)) < 2 ^ 32 := by
        have := leValue_lt (l.drop (4 * n))
        rwa [hlast] at this
      refine ⟨freqSet f n (BitVec.ofNat 32 (leValue (l.drop (4 * n)))), ?_⟩
      have hbefore : ∀ k ∈ List.range n, leBytes 4
          (freqGet (freqSet f n (BitVec.ofNat 32 (leValue (l.drop (4 * n))))) k).toNat =
          leBytes 4 (freqGet f k).toNat := fun k hk => by
        rw [freqGet_freqSet, if_neg (List.mem_range.1 hk).ne]
      rw [List.range_succ, List.flatMap_append, List.flatMap_congr hbefore, hf, List.flatMap_singleton,
        freqGet_freqSet, if_pos rfl, BitVec.toNat_ofNat, Nat.mod_eq_of_lt hlt, hfield, List.take_append_drop]
  exact fields 256 l h

/-- Where there is a count, there is a symbol with a codeword that is not empty. -/
theorem StaticMethod.exists_path (m : StaticMethod) {f : Table (BitVec 32)} (hf : 0 < freqSum f) :
    ∃ w ∈ (m.shape (distribution f)).paths, 0 < w.2.length := by
  have hne : distribution f ≠ [] := fun h0 => by
    rw [← cntSum_distribution, h0] at hf
    exact absurd hf (lt_irrefl 0)
  obtain ⟨e, es, hd⟩ := List.exists_cons_of_ne_nil hne
  obtain ⟨c, hc⟩ := Option.isSome_iff_exists.1
    ((m.codeIn_isSome f e.sym).2 (distribution_symbols.1 (by rw [hd]; exact List.mem_cons_self)))
  exact ⟨(e.sym, c), Shape.mem_paths.2 (Shape.follow_codeIn hc), List.length_pos_of_ne_nil
    (m.code_ne_nil (distribution_isDist f) (distribution_sorted f) (cntSum_distribution_le f) hc)⟩

/-- Settles O46: any 1024 bytes are a header; behind the context header the first symbol's codeword is missing. -/
theorem decHeaderOnly : Obligations.DecHeaderOnly := by
  refine ⟨fun m s hs hlen => ?_, fun s f recs hs hn hf hr => ?_⟩
  · obtain ⟨f, hhdr⟩ := exists_headerBytes hlen
    obtain ⟨t, ht, h⟩ := staticDecompress_headerOnly m.block (s := s.streamStart) hs.2.1.1 hs.2.2 hhdr.symm
    obtain ⟨hnext, hend⟩ := exec_stream_ok m.dec_stream hs.1 (m.block_dec ▸ ht)
    exact ⟨_, hnext, hend, h.appended.congr ⟨rfl, rfl⟩ ⟨rfl, rfl⟩, Streams.drained h.sound h.rest, h.dist, h.main⟩
  · rw [← List.append_nil (contextHeader f recs)] at hr
    obtain ⟨w, hw, hpos⟩ := StaticMethod.huffman.exists_path hf
    exact (contextDecompress_payload (L := []) (c := []) (r := []) hs hn hr rfl rfl hf).1
      ⟨w, hw, List.nil_prefix, hpos⟩

end Sys2Proof.Machine
end

section

namespace Sys2Proof.Machine

/-! ### A header that is cut or not accepted -/

/-- The piece finds the end of the input inside a field (R66). -/
def Run.CutShort {α : Type} (m : Eng α) (s : State) : Prop :=
  ∃ t, m s = .error (.raise .malformedHeader) t ∧ t.io.rest = [] ∧ t.io.Sound

section
variable {α β : Type} {m : Eng α} {f : α → Eng β} {s t : State} {a : α}

theorem Run.CutShort.bind (h : Run.CutShort m s) : Run.CutShort (m >>= f) s := by
  obtain ⟨u, hu, hend⟩ := h
  exact ⟨u, Run.bind_error hu, hend⟩

theorem Run.CutShort.bind_ok (hm : m s = .ok a t) (h : Run.CutShort (f a) t) : Run.CutShort (m >>= f) s := by
  obtain ⟨u, hu, hend⟩ := h
  exact ⟨u, (Run.bind_ok hm).trans hu, hend⟩

end

theorem memRead_cutShort {n : Nat} {s : State} (hin : s.io.failIn = []) (hs : s.io.Sound)
    (hlen : s.io.rest.length < n) : Run.CutShort (memRead n) s := by
  obtain ⟨_, hrest, hsound⟩ := memRead_ok (field := s.io.rest) (l := []) hin hs (List.append_nil _).symm
  exact ⟨_, memRead_short n hin hs hlen, hrest, hsound⟩

/-- A table that is cut, wherever its fields are stored (R214). -/
theorem readHeaderWith_cutShort {store : Nat → BitVec 32 → State → State} (hio : ∀ k v s, (store k v s).io = s.io)
    {s : State} (hin : s.io.failIn = []) (hs : s.io.Sound) (hlen : s.io.rest.length < 1024) :
    Run.CutShort (readHeaderWith store) s := by
  have fields : ∀ (ks : List Nat) {s : State}, s.io.failIn = [] → s.io.Sound → s.io.rest.length < 4 * ks.length →
      Run.CutShort (Run.each ks fun i => do
        let v ← memRead 4
        Run.update (store i (BitVec.ofNat 32 v))) s := by
    intro ks
    induction ks with
    | nil => exact fun _ _ h => absurd h (Nat.not_lt_zero _)
    | cons k ks ih =>
      intro s hin hs hlen
      rw [List.length_cons] at hlen
      rw [Run.each_cons]
      by_cases hcut : s.io.rest.length < 4
      · exact (memRead_cutShort hin hs hcut).bind.bind
      · have hfield : (s.io.rest.take 4).length = 4 := by rw [List.length_take]; omega
        obtain ⟨hread, hrest, hsound⟩ := memRead_ok hin hs (List.take_append_drop 4 s.io.rest).symm
        rw [hfield] at hread hrest hsound
        refine .bind_ok (by rw [Run.bind_ok hread]; rfl) (ih ?_ ?_ ?_)
        · rw [hio]; exact hin
        · rw [hio]; exact hsound
        · rw [hio, hrest, List.length_drop]; omega
  exact fields (List.range 256) hin hs (by rw [List.length_range]; omega)

theorem readHeader_cutShort {s : State} (hin : s.io.failIn = []) (hs : s.io.Sound) (hlen : s.io.rest.length < 1024) :
    Run.CutShort readHeader s :=
  (readHeaderWith_cutShort (store := fun i v s => s.setFreq (freqSet s.freq i v)) (fun _ _ _ => rfl) hin hs hlen).bind

/-! ### The context header up to the fault -/

/-- `ReadContextHeader()` (R241) behind the global table. -/
def readCountAndRecords : Eng Unit := do
  let k ← memRead 8
  writeNctx k
  Run.require (decide (k ≤ 256)) .malformedContext
  Run.times k readRecord

/-- `ReadContextHeader()` (R241) begins with no context present. -/
theorem readContextHeader_cleared (s : State) : ∃ x,
    readContextHeader s = (readHeader >>= fun _ => readCountAndRecords) (s.setCtx x) ∧
      ∀ c : Byte, (ctxGet x c.toNat).present = false := by
  obtain ⟨x, hx, hclear, _⟩ := eachCtx_ok (fun e => { e with present := false }) (List.range 256) s List.nodup_range
  exact ⟨x, Run.bind_ok hx, fun c => by rw [hclear _ (List.mem_range.2 c.isLt)]⟩

theorem readContextHeader_tableCut {s : State} (hin : s.io.failIn = []) (hs : s.io.Sound)
    (hlen : s.io.rest.length < 1024) : Run.CutShort readContextHeader s := by
  obtain ⟨x, hx, _⟩ := readContextHeader_cleared s
  rw [Run.CutShort, hx]
  exact (readHeader_cutShort (s := s.setCtx x) hin hs hlen).bind

/-- The state of a context header read so far: the stream can be read on, no context is present. -/
structure State.Blank (s : State) (p : List Byte) : Prop where
  failIn : s.io.failIn = []
  sound : s.io.Sound
  rest : s.io.rest = p
  absent : ∀ c : Byte, (ctxGet s.ctx c.toNat).present = false

/-- The global table read (R241). -/
theorem readContextHeader_tabled {s : State} {f : Table (BitVec 32)} {p : List Byte} (hin : s.io.failIn = [])
    (hs : s.io.Sound) (hr : s.io.rest = headerBytes f ++ p) :
    ∃ t, readContextHeader s = readCountAndRecords t ∧ t.Blank p := by
  obtain ⟨x, hx, hclear⟩ := readContextHeader_cleared s
  obtain ⟨q, k, y, n, ht, hrest, hsound, _, _⟩ := readHeader_headed f (s := s.setCtx x) hin hs hr
  exact ⟨(s.setCtx x).headed q k y n, by rw [hx, Run.bind_ok ht], hin, hsound, hrest, hclear⟩

theorem writeNctx_ok (k : Nat) (s : State) : ∃ t, writeNctx k s = .ok () t ∧ t.io = s.io ∧ t.ctx = s.ctx := by
  refine ⟨_, rfl, ?_, ?_⟩ <;> split <;> rfl

/-- The count field read (R241). -/
theorem readCountAndRecords_counted {s : State} {k : Nat} {p : List Byte} (hk : k < 2 ^ 64)
    (hs : s.Blank (leBytes 8 k ++ p)) : ∃ t, readCountAndRecords s =
      (Run.require (decide (k ≤ 256)) .malformedContext >>= fun _ => Run.times k readRecord) t ∧ t.Blank p := by
  obtain ⟨hread, hrest, hsound⟩ := memRead_ok hs.failIn hs.sound hs.rest
  rw [leBytes_length, leValue_leBytes 8 k (by omega)] at hread
  rw [leBytes_length] at hrest hsound
  obtain ⟨t, ht, hio, hctx⟩ := writeNctx_ok k (s.advancedBy 8)
  exact ⟨t, by rw [readCountAndRecords, Run.bind_ok hread, Run.bind_ok ht], by rw [hio]; exact hs.failIn,
    by rw [hio]; exact hsound, by rw [hio]; exact hrest, by rw [hctx]; exact hs.absent⟩

/-- A context header with a count field (R241): its records come next, where the count is accepted. -/
theorem readContextHeader_counted {s : State} {f : Table (BitVec 32)} {k : Nat} {p : List Byte}
    (hin : s.io.failIn = []) (hs : s.io.Sound) (hk : k < 2 ^ 64)
    (hr : s.io.rest = headerBytes f ++ (leBytes 8 k ++ p)) :
    ∃ t, readContextHeader s =
      (Run.require (decide (k ≤ 256)) .malformedContext >>= fun _ => Run.times k readRecord) t ∧ t.Blank p := by
  obtain ⟨u, hu, hblank⟩ := readContextHeader_tabled hin hs hr
  obtain ⟨t, ht, hblank'⟩ := readCountAndRecords_counted hk hblank
  exact ⟨t, hu.trans ht, hblank'⟩

/-- The table of a record, stored in context `c` (R241). -/
def readRecordTable (c : Nat) : Eng Unit := do
  readHeaderWith fun i v s =>
    s.setCtx (ctxSet s.ctx c { ctxGet s.ctx c with freq := freqSet (ctxGet s.ctx c).freq i v })
  updateCtx c fun e => { e with present := true }

/-- The id of a record read (R241). -/
theorem readRecord_id {s : State} {c : Byte} {l : List Byte} (hin : s.io.failIn = []) (hs : s.io.Sound)
    (hr : s.io.rest = c :: l) : readRecord s =
      (Run.require (!(ctxGet s.ctx c.toNat).present) .malformedContext >>= fun _ => readRecordTable c.toNat)
        (s.advancedBy 1) ∧ (s.advancedBy 1).io.rest = l ∧ (s.advancedBy 1).io.Sound := by
  obtain ⟨hread, hend⟩ := memRead_ok (field := [c]) hin hs hr
  have hval : leValue [c] = c.toNat := by simp [leValue]
  rw [hval] at hread
  exact ⟨Run.bind_ok hread, hend⟩

theorem readRecord_cutShort {s : State} {r : Byte × Table (BitVec 32)} {l : List Byte} (hin : s.io.failIn = [])
    (hs : s.io.Sound) (hnew : (ctxGet s.ctx r.1.toNat).present = false)
    (hr : s.io.rest <+: r.1 :: headerBytes r.2 ++ l) (hlen : s.io.rest.length < 1025) : Run.CutShort readRecord s := by
  cases hrest : s.io.rest with
  | nil => exact (memRead_cutShort hin hs (by rw [hrest]; exact Nat.one_pos)).bind
  | cons c q =>
    rw [hrest] at hr hlen
    obtain rfl : c = r.1 := (List.cons_prefix_cons.1 hr).1
    obtain ⟨hread, hrest', hsound⟩ := readRecord_id hin hs hrest
    rw [hnew] at hread
    rw [Run.CutShort, hread]
    refine Run.CutShort.bind_ok (s := s.advancedBy 1) (Run.require_true _ _)
      (Run.CutShort.bind (readHeaderWith_cutShort (s := s.advancedBy 1) ?_ hin hsound ?_))
    · exact fun _ _ _ => rfl
    · rw [List.length_cons] at hlen
      rw [hrest']
      omega

theorem exists_append_of_prefix {α : Type} {a b c : List α} (h : a <+: b ++ c) (hle : b.length ≤ a.length) :
    ∃ q, a = b ++ q ∧ q <+: c := by
  obtain ⟨q, rfl⟩ := List.prefix_of_prefix_length_le (List.prefix_append b c) h hle
  exact ⟨q, rfl, (List.prefix_append_right_inj b).1 h⟩

/-- Records that are cut (R66, R241). -/
theorem readRecords_cutShort {s₀ : State} (hin : s₀.io.failIn = []) :
    ∀ (recs done : List (Byte × Table (BitVec 32))) {s : State}, s₀.Recorded s done →
    ((done ++ recs).map Prod.fst).Nodup → s.io.Sound → s.io.rest <+: contextRecords recs →
    s.io.rest.length < (contextRecords recs).length → Run.CutShort (Run.times recs.length readRecord) s
  | [], _, _, _, _, _, _, hlen => absurd hlen (Nat.not_lt_zero _)
  | r :: recs, done, s, h, hn, hs, hr, hlen => by
    have hin' := (State.unrecorded_failIn h.same).trans hin
    have hnew : r.1 ∉ done.map Prod.fst := by
      rw [List.map_append, List.map_cons, List.nodup_append] at hn
      exact fun hmem => hn.2.2 _ hmem _ List.mem_cons_self rfl
    rw [contextRecords_cons] at hr hlen
    rw [List.length_cons, Run.times_succ]
    by_cases hcut : s.io.rest.length < 1025
    · exact (readRecord_cutShort hin' hs (h.absent r.1 hnew) hr hcut).bind
    · obtain ⟨q, hq, hpre⟩ := exists_append_of_prefix hr (by
        rw [List.length_cons, headerBytes_length]; omega)
      rw [hq, List.length_append, List.length_append] at hlen
      obtain ⟨t, ht, hrec, hrest, hsound⟩ := readRecord_ok h hnew hin' hs hq
      exact .bind_ok ht (readRecords_cutShort hin recs (done ++ [r]) hrec (by rwa [List.append_assoc]) hsound
        (hrest ▸ hpre) (by rw [hrest]; omega))

/-- A context header that is cut (R66, R241). -/
theorem readContextHeader_cutShort {s : State} {f : Table (BitVec 32)} {recs : List (Byte × Table (BitVec 32))}
    (hin : s.io.failIn = []) (hs : s.io.Sound) (hn : (recs.map Prod.fst).Nodup)
    (hr : s.io.rest <+: contextHeader f recs) (hlen : s.io.rest.length < (contextHeader f recs).length) :
    Run.CutShort readContextHeader s := by
  have hcount := records_length hn
  rw [contextHeader, List.append_assoc] at hr hlen
  rw [List.length_append, List.length_append, headerBytes_length, leBytes_length] at hlen
  by_cases htable : s.io.rest.length < 1024
  · exact readContextHeader_tableCut hin hs htable
  · obtain ⟨q, hq, hpre⟩ := exists_append_of_prefix hr (by rw [headerBytes_length]; omega)
    rw [hq, List.length_append, headerBytes_length] at hlen
    by_cases hfield : q.length < 8
    · obtain ⟨t, ht, hblank⟩ := readContextHeader_tabled hin hs hq
      rw [Run.CutShort, ht]
      exact (memRead_cutShort hblank.failIn hblank.sound (by rwa [hblank.rest])).bind
    · obtain ⟨p, rfl, hpre'⟩ := exists_append_of_prefix hpre (by rw [leBytes_length]; omega)
      rw [List.length_append, leBytes_length] at hlen
      obtain ⟨t, ht, hblank⟩ := readContextHeader_counted hin hs (by omega) hq
      rw [Run.CutShort, ht, decide_eq_true hcount]
      refine Run.CutShort.bind_ok (Run.require_true _ _) ?_
      exact readRecords_cutShort hblank.failIn recs [] ⟨fun c _ => hblank.absent c, by simp, rfl⟩ hn hblank.sound
        (by rwa [hblank.rest]) (by rw [hblank.rest]; omega)

theorem Run.times_add {σ : Type} (x : Run σ Unit) (m n : Nat) (s : σ) :
    Run.times (m + n) x s = (Run.times m x >>= fun _ => Run.times n x) s := by
  induction m generalizing s with
  | zero => rw [Nat.zero_add]; rfl
  | succ m ih =>
    rw [Nat.add_right_comm, Run.times_succ, Run.times_succ, Run.bind_assoc_apply, Run.bind_apply, Run.bind_apply]
    cases x s with
    | ok a t => exact ih t
    | error e t => rfl

/-- A record whose id an earlier record had (R241). -/
theorem readContextHeader_repeated {s : State} {f : Table (BitVec 32)} {recs : List (Byte × Table (BitVec 32))}
    {k : Nat} {c : Byte} {p : List Byte} (hin : s.io.failIn = []) (hs : s.io.Sound) (hn : (recs.map Prod.fst).Nodup)
    (hc : c ∈ recs.map Prod.fst) (hlt : recs.length < k) (hk : k ≤ 256)
    (hr : s.io.rest = headerBytes f ++ (leBytes 8 k ++ (contextRecords recs ++ c :: p))) :
    ∃ t, readContextHeader s = .error (.raise .malformedContext) t := by
  obtain ⟨t, ht, hblank⟩ := readContextHeader_counted hin hs (by omega) hr
  obtain ⟨u, hu, hrec, hrest, hsound⟩ := readRecords_ok hblank.failIn recs [] (s := t)
    ⟨fun c _ => hblank.absent c, by simp, rfl⟩ hn hblank.sound hblank.rest
  obtain ⟨r, hmem, rfl⟩ := List.mem_map.1 hc
  obtain ⟨hread, _⟩ := readRecord_id ((State.unrecorded_failIn hrec.same).trans hblank.failIn) hsound hrest
  have hfault : readRecord u = .error (.raise .malformedContext) (u.advancedBy 1) := by
    rw [hread, (hrec.there r hmem).1]
    rfl
  obtain ⟨n, rfl⟩ : ∃ n, k = recs.length + (n + 1) := ⟨k - recs.length - 1, by omega⟩
  exact ⟨u.advancedBy 1, by rw [ht, decide_eq_true hk, Run.require_true_bind, Run.times_add, Run.bind_ok hu,
    Run.times_succ, Run.bind_error hfault]⟩

/-! ### From the header to the command -/

/-- What reading a header keeps. -/
def State.headerKept (s : State) : Phase × List Byte × BitVec 64 := (s.phase, s.io.outRev, s.io.outLen)

/-- A decompressor whose header raises a fault ends in it in `HDR_RD`, nothing written (R350). -/
theorem header_traps {i : Instr} (hi : i.cmdClass = .stream) {header : Eng Unit} {rest : Unit → Eng Unit}
    (hblock : Instr.block i = (setPhase .hdrRd >>= fun _ => header >>= rest))
    (hkeeps : Run.Keeps (Frame.same State.headerKept) header) {s u : State} {c : FaultCode} (hs : s.Ready)
    (hu : header (s.streamStart.setPhase .hdrRd) = .error (.raise c) u) :
    ∃ t, exec i s = .next t ∧ t.Trapped c .hdrRd ∧ s.Appended t [] ∧ t.io = u.io := by
  have hkept : u.headerKept = (s.streamStart.setPhase .hdrRd).headerKept := hkeeps.error hu
  obtain ⟨hphase, hout⟩ := Prod.mk.inj hkept
  obtain ⟨hnext, htrap⟩ := exec_stream_raise hi hs (u := u) (c := c) (by rw [hblock, setPhase_bind, Run.bind_error hu])
  exact ⟨_, hnext, ⟨htrap.status, hphase, rfl⟩, (State.Appended.refl s).congr ⟨rfl, rfl⟩ (Prod.mk.inj hout), rfl⟩

theorem readHeader_headerKept : Run.Keeps (Frame.same State.headerKept) readHeader :=
  readHeader_keeps (fun _ _ _ => rfl) (fun _ _ => rfl) fun _ _ => rfl

theorem readContextHeader_headerKept : Run.Keeps (Frame.same State.headerKept) readContextHeader :=
  readContextHeader_keeps (fun _ _ _ => rfl) (fun _ _ => rfl) (fun _ _ => rfl) (fun _ _ => rfl) (fun _ _ => rfl)
    fun _ _ => rfl

/-- The input ends inside the header (R66, R345). -/
theorem header_cutShort {i : Instr} (hi : i.cmdClass = .stream) {header : Eng Unit} {rest : Unit → Eng Unit}
    (hblock : Instr.block i = (setPhase .hdrRd >>= fun _ => header >>= rest))
    (hkeeps : Run.Keeps (Frame.same State.headerKept) header) {s : State} (hs : s.Ready)
    (hcut : Run.CutShort header (s.streamStart.setPhase .hdrRd)) :
    ∃ t, exec i s = .next t ∧ t.Trapped .malformedHeader .hdrRd ∧ s.Appended t [] ∧ t.Drained := by
  obtain ⟨u, hu, hrest, hsound⟩ := hcut
  obtain ⟨t, ht, htrap, happ, hio⟩ := header_traps hi hblock hkeeps hs hu
  exact ⟨t, ht, htrap, happ, by rw [State.Drained, hio]; exact Streams.drained hsound hrest⟩

/-- The decompressors with a header, on an input shorter than a table. -/
theorem exec_tableCut {i : Instr} (hi : i ∈ [.decShannon, .decFano, .decHuffman, .decContext, .decArith]) {s : State}
    (hs : s.Served) (hlen : s.io.rest.length < 1024) :
    ∃ t, exec i s = .next t ∧ t.Trapped .malformedHeader .hdrRd ∧ s.Appended t [] ∧ t.Drained := by
  have plain : ∀ {i : Instr} {rest : Unit → Eng Unit}, i.cmdClass = .stream →
      Instr.block i = (setPhase .hdrRd >>= fun _ => readHeader >>= rest) →
      ∃ t, exec i s = .next t ∧ t.Trapped .malformedHeader .hdrRd ∧ s.Appended t [] ∧ t.Drained :=
    fun hi hblock => header_cutShort hi hblock readHeader_headerKept hs.1
      (readHeader_cutShort (s := s.streamStart.setPhase .hdrRd) hs.2.1.1 hs.2.2 hlen)
  simp only [List.mem_cons, List.not_mem_nil, or_false] at hi
  obtain rfl | rfl | rfl | rfl | rfl := hi
  · exact plain rfl rfl
  · exact plain rfl rfl
  · exact plain rfl rfl
  · exact header_cutShort rfl rfl readContextHeader_headerKept hs.1
      (readContextHeader_tableCut (s := s.streamStart.setPhase .hdrRd) hs.2.1.1 hs.2.2 hlen)
  · exact plain rfl rfl

/-- Settles O47: each header is read field by field, and the fault comes before anything is written. -/
theorem decHeaderCut : Obligations.DecHeaderCut := by
  refine ⟨fun i s hi hs hlen => exec_tableCut hi hs hlen, fun s f recs hs hn hr hlen => ?_,
    fun s f k p hs hk hlt hr => ?_, fun s f k recs c p hs hn hc hlt hk hr => ?_⟩
  · exact header_cutShort (i := .decContext) rfl rfl readContextHeader_headerKept hs.1
      (readContextHeader_cutShort (s := s.streamStart.setPhase .hdrRd) hs.2.1.1 hs.2.2 hn hr hlen)
  · rw [List.append_assoc] at hr
    obtain ⟨u, hu, hblank⟩ := readContextHeader_counted (s := s.streamStart.setPhase .hdrRd) hs.2.1.1 hs.2.2 hlt hr
    rw [decide_eq_false (by omega), Run.require_false_bind] at hu
    obtain ⟨t, ht, htrap, happ, hio⟩ := header_traps (i := .decContext) rfl rfl readContextHeader_headerKept hs.1 hu
    have hpos := Streams.pos_of_rest (exec_input hs ht) hs.2.2 (by rw [hio]; exact hblank.sound)
    rw [hio, hblank.rest, hr, List.length_append, List.length_append, headerBytes_length, leBytes_length] at hpos
    exact ⟨t, ht, htrap, happ, by rw [hio]; omega⟩
  · rw [List.append_assoc, List.append_assoc] at hr
    obtain ⟨u, hu⟩ := readContextHeader_repeated (s := s.streamStart.setPhase .hdrRd) hs.2.1.1 hs.2.2 hn hc hlt hk hr
    obtain ⟨t, ht, htrap, happ, _⟩ := header_traps (i := .decContext) rfl rfl readContextHeader_headerKept hs.1 hu
    exact ⟨t, ht, htrap, happ⟩

end Sys2Proof.Machine
end

section

namespace Sys2Proof.Machine

/-! ### What the context commands leave alone -/

/-- The states that differ in what a context command may write. -/
def contextWrites : Frame State where
  rel s t := t = { s with
      status := t.status, faultCode := t.faultCode, phase := t.phase
      freq := t.freq, dist := t.dist, main := t.main, ctx := t.ctx, fresh := t.fresh
      w := { s.w with
        total := t.w.total, nsym := t.w.nsym, ndist := t.w.ndist, cur := t.w.cur, prev := t.w.prev
        nctx := t.w.nctx
        obits := t.w.obits, ocnt := t.w.ocnt, ibits := t.w.ibits, icnt := t.w.icnt, pend := t.w.pend }
      io := { s.io with
        input := t.io.input, again := t.io.again, inPos := t.io.inPos, inBase := t.io.inBase
        outRev := t.io.outRev, outLen := t.io.outLen, inAcc := t.io.inAcc, outAcc := t.io.outAcc } }
  refl _ := rfl
  trans _ _ _ h h' := h'.trans (by rw [h])

theorem contextWrites_block {i : Instr} (hi : i = .cmpContext ∨ i = .decContext) :
    i.cmdClass = .stream ∧ Run.Keeps contextWrites (Instr.block i) := by
  obtain rfl | rfl := hi
  · exact ⟨rfl, contextCompress_keeps (fun _ _ => rfl) (fun _ _ _ => rfl) (fun _ => rfl) (fun _ _ _ => rfl)
      (fun _ _ => rfl) (fun _ _ => rfl) (fun _ _ _ => rfl) (fun _ _ => rfl) (fun _ _ => rfl) (fun _ _ => rfl)
      (fun _ _ _ => rfl) (fun _ _ => rfl) (fun _ _ => rfl) (fun _ _ => rfl) fun _ _ => rfl⟩
  · exact ⟨rfl, contextDecompress_keeps (fun _ _ => rfl) (fun _ _ _ => rfl) (fun _ _ _ => rfl) (fun _ _ => rfl)
      (fun _ _ => rfl) (fun _ _ => rfl) (fun _ _ => rfl) (fun _ _ => rfl) (fun _ _ => rfl) (fun _ _ _ => rfl)
      (fun _ _ => rfl) (fun _ _ => rfl) (fun _ _ => rfl) (fun _ _ => rfl) fun _ _ => rfl⟩

/-- Settles O26: the block, and accepting, ending and trapping the command, write only what the frame lets differ. -/
theorem contextFrame : Obligations.ContextFrame := by
  intro i s t hi h
  obtain ⟨hstream, hblock⟩ := contextWrites_block hi
  rw [exec_eq, hstream] at h
  exact runStream_frame (F := contextWrites) (fun _ _ => rfl) (fun _ _ => rfl) (fun _ _ _ => rfl) (fun _ _ _ => rfl)
    (fun _ _ _ => rfl) (fun _ _ => rfl) (fun _ _ => rfl) (fun _ _ => rfl) (fun _ _ => rfl) hblock h

end Sys2Proof.Machine
end

section

namespace Sys2Proof.Machine

/-! ### What `BuildAllModels()` leaves at the end of a context command -/

/-- The tables and models of a context command, and the registers that count them. -/
def State.tables (s : State) :
    Table (BitVec 32) × List DistEntry × BitVec 40 × BitVec 9 × TreeMem × Table CtxEntry :=
  (s.freq, s.distList, s.w.total, s.w.nctx, s.main, s.ctx)

/-- The tables of `s` stand in `t` with the distribution and the Huffman models made of them (R132, R232). -/
structure State.Built (s t : State) : Prop where
  freq : t.freq = s.freq
  dist : t.distList = distribution s.freq
  total : t.w.total = s.w.total
  nctx : t.w.nctx = s.w.nctx
  main : t.main.Models (huffmanOf s.freq)
  entry : ∀ c, (ctxGet t.ctx c).present = (ctxGet s.ctx c).present ∧ (ctxGet t.ctx c).freq = (ctxGet s.ctx c).freq
  model : ∀ c, c < 256 → (ctxGet s.ctx c).present = true →
    (ctxGet t.ctx c).model.Models (huffmanOf (ctxGet s.ctx c).freq)

/-- `DIST` is written first: the models leave it the distribution of the counts (R232). -/
theorem buildAllModels_distributes : Run.Sat (fun _ => True) buildAllModels
    (fun _ s => s.distList = distribution s.freq) (fun _ _ => True) :=
  distBlock_then <| .bind (withDist_keeps (fun _ _ => rfl) _) fun _ => .bind (.read _) fun _ =>
    .each (fun _ => .bind (.read _) fun _ => onCtxModel_keeps (fun _ _ => rfl) _ _) _

/-- What runs behind `BuildAllModels()` and leaves the tables alone leaves them as built. -/
theorem buildAllModels_then {m : Unit → Eng Unit} (hm : Run.Keeps (Frame.same State.tables) (m ())) {s t : State}
    (h : (buildAllModels >>= m) s = .ok () t) : s.Built t := by
  obtain ⟨v, hv, hmod⟩ := buildAllModels_ok s
  have hdist : v.distList = distribution v.freq := buildAllModels_distributes.ok trivial hv
  have hfreq : v.freq = s.freq := (congrArg State.freq hmod.same :)
  have htotal : v.w.total = s.w.total := (congrArg (fun x : State => x.w.total) hmod.same :)
  have hnctx : v.w.nctx = s.w.nctx := (congrArg (fun x : State => x.w.nctx) hmod.same :)
  rw [Run.bind_ok hv] at h
  have hsame : (t.freq, t.distList, t.w.total, t.w.nctx, t.main, t.ctx) =
      (v.freq, v.distList, v.w.total, v.w.nctx, v.main, v.ctx) := hm.ok h
  simp only [Prod.mk.injEq] at hsame
  obtain ⟨hf, hd, ht, hn, hmain, hctx⟩ := hsame
  exact ⟨hf.trans hfreq, by rw [hd, hdist, hfreq], ht.trans htotal, hn.trans hnctx, hmain ▸ hmod.main,
    fun c => hctx ▸ ⟨hmod.present c, hmod.freq c⟩, hctx ▸ hmod.model⟩

/-- What both context commands leave of a byte sequence in the tables (R230, R240). -/
structure State.ContextTables (t : State) (S : List Byte) : Prop where
  total : t.w.total.toNat = S.length
  nctx : t.w.nctx.toNat = (contextsOf S).length
  dist : t.distList = distribution (countTable S)
  models : t.ContextModels S

/-- Models built of tables that read as those of `S`, where there are any. -/
theorem State.Built.contextTables {s t : State} {S : List Byte} (h : s.Built t)
    (hfreq : ∀ k, k < 256 → freqGet s.freq k = freqGet (countTable S) k) (htotal : s.w.total.toNat = S.length)
    (hnctx : s.w.nctx.toNat = (contextsOf S).length)
    (hpresent : ∀ c, c < 256 → (ctxGet s.ctx c).present = decide (successors c S ≠ []))
    (hentry : ∀ c, c < 256 → successors c S ≠ [] → ∀ k, k < 256 →
      freqGet (ctxGet s.ctx c).freq k = freqGet (countTable (successors c S)) k) : t.ContextTables S := by
  refine ⟨by rw [h.total, htotal], by rw [h.nctx, hnctx], by rw [h.dist, distribution_congr hfreq],
    huffmanOf_congr hfreq ▸ h.main, fun c hc => (h.entry c).1.trans (hpresent c hc), fun c hc hne => ?_⟩
  rw [← huffmanOf_congr (hentry c hc hne)]
  exact h.model c hc ((hpresent c hc).trans (decide_eq_true hne))

section
variable {t : State} {S : List Byte}

/-- The global code of a sequence that is not empty. -/
theorem State.ContextModels.main_agrees (h : t.ContextModels S) (hS : S.length < 2 ^ 32) (hne : S ≠ []) :
    t.main.Agrees (huffmanOf (countTable S)) := TreeMem.Models.agrees (m := .huffman) hS hne h.main

theorem State.ContextModels.present_iff (h : t.ContextModels S) {c : Nat} (hc : c < 256) :
    (ctxGet t.ctx c).present = true ↔ successors c S ≠ [] := by rw [h.present c hc, decide_eq_true_eq]

/-- The code of a context that a byte follows. -/
theorem State.ContextModels.ctx_agrees (h : t.ContextModels S) (hS : S.length < 2 ^ 32) {c : Nat} (hc : c < 256)
    (hne : successors c S ≠ []) : (ctxGet t.ctx c).model.Agrees (huffmanOf (countTable (successors c S))) :=
  TreeMem.Models.agrees (m := .huffman) ((successors_length c S).trans_lt hS) hne (h.model c hc hne)

end

end Sys2Proof.Machine
end

section

namespace Sys2Proof.Machine

/-! ### The final state of `CMP.CONTEXT` -/

/-- What runs behind the models in `CMP.CONTEXT` (R233, R234) leaves the tables alone. -/
theorem contextSecondPass_tables : Run.Keeps (Frame.same State.tables) contextSecondPass :=
  .bind (setPhase_keeps (fun _ _ => rfl) _) fun _ =>
  .bind (inRewind_keeps (fun _ _ _ => rfl) (fun _ => rfl) fun _ _ _ => rfl) fun _ =>
  .bind (encodeContextPayload_keeps (fun _ _ _ => rfl) (fun _ _ => rfl) (fun _ _ => rfl) (fun _ _ _ => rfl)
    (fun _ _ => rfl) fun _ _ => rfl) fun _ =>
  .bind (setPhase_keeps (fun _ _ => rfl) _) fun _ =>
  padAndFlush_keeps (fun _ _ => rfl) (fun _ _ => rfl) fun _ _ _ => rfl

/-- Where `CMP.CONTEXT` ends, the tables are those that `CountPairs()` counted (R231, R232). -/
theorem contextCompress_built {s t : State} (hin : s.io.failIn = []) (hs : s.io.Sound)
    (hl : s.io.rest.length ≤ Config.inLenMax) (h : contextCompress s = .ok () t) :
    t.freq = countTable s.io.rest ∧ t.ContextTables s.io.rest ∧
      ∀ c, c < 256 → (ctxGet t.ctx c).freq = countTable (successors c s.io.rest) := by
  obtain ⟨u, hu, hp, hn⟩ := countPairs_ok (s := s.setPhase .scan1) hin hs hl
  rw [State.setPhase_io] at hp hn
  have hentry := fun c hc => (hp.entry c hc).2
  rw [contextCompress, setPhase_bind, Run.bind_ok hu, setPhase_bind] at h
  have hb := buildAllModels_then (.bind (setPhase_keeps (fun _ _ => rfl) _) fun _ =>
    .bind (writeContextHeader_keeps (fun _ _ => rfl) fun _ _ => rfl) fun _ => contextSecondPass_tables) h
  exact ⟨hb.freq.trans hp.freq, hb.contextTables (fun k _ => by rw [State.setPhase_freq, hp.freq])
    (by rw [State.setPhase_w, hp.total, toNat_total hl]) hn (fun c hc => (hp.entry c hc).1)
    fun c hc _ k _ => by rw [State.setPhase_ctx, hentry c hc], fun c hc => (hb.entry c).2.trans (hentry c hc)⟩

/-- A sequence of two pieces that ends: both have ended. -/
theorem Run.bind_eq_ok {σ α β : Type} {m : Run σ α} {f : α → Run σ β} {s u : σ} {b : β}
    (h : (m >>= f) s = .ok b u) : ∃ a t, m s = .ok a t ∧ f a t = .ok b u := by
  rw [Run.bind_apply] at h
  cases hm : m s with
  | ok a t => exact ⟨a, t, rfl, by rwa [hm] at h⟩
  | error e t => rw [hm] at h; cases h

/-- A loop over the bytes of the input that ends has read them all. -/
theorem Feeds.drains {loop : Nat → Eng Unit} {put : Byte → Eng Unit} (hloop : Feeds loop put)
    (hput : ∀ b, Run.Keeps (Frame.same fun s => s.io.source) (put b)) : ∀ (S : List Byte) {s t : State},
    s.io.failIn = [] → s.io.Sound → s.io.rest = S → loop (S.length + 1) s = .ok () t → t.io.Sound ∧ t.io.rest = []
  | [], s, t, hf, hs, hr, h => by
    rw [List.length_nil, hloop.atEnd 0 (inRead_end hf hr)] at h
    cases h
    exact ⟨hs, hr⟩
  | b :: S, s, t, hf, hs, hr, h => by
    rw [List.length_cons, hloop.atByte _ (inRead_some hf hr)] at h
    obtain ⟨_, u, hb, h⟩ := Run.bind_eq_ok h
    have hsrc : u.io.source = s.advanced.io.source := (hput b).ok hb
    have hinput : u.io.input = s.advanced.io.input := congrArg Prod.fst hsrc
    have hpos : u.io.inPos = s.advanced.io.inPos := congrArg (fun p => p.2.1) hsrc
    have hfail : u.io.failIn = s.io.failIn := congrArg (fun p => p.2.2) hsrc
    refine Feeds.drains hloop hput S (hfail.trans hf) ?_
      ((Streams.rest_of_source hsrc).trans (State.advanced_rest hs hr)) h
    rw [Streams.Sound, hinput, hpos]
    exact State.advanced_sound hs hr

theorem encodeContextByte_source (b : Byte) : Run.Keeps (Frame.same fun s => s.io.source) (encodeContextByte b) :=
  .bind (.read _) fun _ => .bind (.read _) fun _ => .bind (.require _ _) fun _ =>
  .bind (putBits_keeps (fun _ _ => rfl) (fun _ _ => rfl) (fun _ _ _ => rfl) _) fun _ =>
  .bind (.update fun _ => rfl) fun _ => bumpNsym_keeps (fun _ _ => rfl) fun _ _ => rfl

/-- `EncodeContextPayload()` (R234) ends at the end of the input. -/
theorem encodeContextPayload_drains {s t : State} (hin : s.io.failIn = []) (hs : s.io.Sound)
    (h : encodeContextPayload s = .ok () t) : t.io.Sound ∧ t.io.rest = [] := by
  obtain ⟨s₀, hs₀⟩ : ∃ s₀, s₀ = s.setW { s.w with nsym := 0, prev := 256 } := ⟨_, rfl⟩
  have hio : s₀.io = s.io := by rw [hs₀]; rfl
  have hpay : encodeContextPayload s = (encodeContextLoop (s.io.rest.length + 1) >>= fun _ => requireAllSeen) s₀ := by
    rw [hs₀]; rfl
  rw [hpay] at h
  obtain ⟨_, u, hloop, h⟩ := Run.bind_eq_ok h
  have hsame : t.io = u.io :=
    (.bind (.read _) fun _ => .require _ _ : Run.Keeps (Frame.same State.io) requireAllSeen).ok h
  rw [hsame]
  exact encodeContextLoop_feeds.drains encodeContextByte_source s.io.rest (hio ▸ hin) (hio ▸ hs) (by rw [hio]) hloop

/-- What `CMP.CONTEXT` leaves of an input `S` outside its tables (R230, R234). -/
structure State.ContextCompressed (s t : State) (S : List Byte) : Prop where
  appended : s.Appended t (contextArtifact S)
  drained : t.Drained
  nsym : t.w.nsym.toNat = S.length
  prev : t.w.prev.toNat = (S.getLast?.map BitVec.toNat).getD Config.prevNone

/-- The last byte of a payload of codewords: its bits have been appended behind what stood before (R72). -/
theorem padAndFlush_contextCompressed {s w v : State} {S : List Byte} (hw : s.Appended w (contextHeaderOf S))
    (hcode : w.Coding v (contextBits S) S.length) (hout : v.io.failOut = []) (hs : v.io.Sound) (hr : v.io.rest = [])
    (hprev : v.w.prev.toNat = (S.getLast?.map BitVec.toNat).getD Config.prevNone) :
    ∃ t, padAndFlush (v.setPhase .term) = .ok () t ∧ s.ContextCompressed t S := by
  obtain ⟨t, ht, htout, htlen, _, _, hkept⟩ := padAndFlush_packed (s := v.setPhase .term) hout hcode.packed
  obtain ⟨htrest, htsound, htn⟩ := State.unpacked_io hkept
  have htprev : t.w.prev = v.w.prev := (congrArg (fun x : State => x.w.prev) hkept :)
  have hpayload : w.Appended t (packBits (contextBits S)) := by
    refine ⟨?_, htlen⟩
    show t.io.outRev.reverse = w.io.outRev.reverse ++ _
    rw [htout, List.reverse_append, List.reverse_reverse]
  exact ⟨t, ht, hw.trans hpayload, Streams.drained (htsound hs) (htrest.trans hr),
    (congrArg BitVec.toNat htn).trans hcode.count, by rw [htprev, hprev]⟩

/-- The header and the rewind touch no model. -/
theorem State.ContextModels.reread {u : State} {S : List Byte} (h : u.ContextModels S) (header : List Byte) :
    (u.reread header).ContextModels S := ⟨h.main, h.present, h.model⟩

/-- `CMP.CONTEXT` (R230) on a host that keeps its duties. -/
theorem contextCompress_ok {s : State} (hs : s.Served) (hl : s.io.rest.length ≤ Config.inLenMax) :
    ∃ t, contextCompress s.streamStart = .ok () t ∧ s.ContextCompressed t s.io.rest := by
  have hmax : Config.inLenMax = 2 ^ 32 - 1 := rfl
  obtain ⟨_, ⟨hin, hout, hagain⟩, hsound⟩ := hs
  obtain ⟨u, hu, hmodels, hblock⟩ : ∃ u, s.streamStart.Surveyed u s.io.rest ∧ u.ContextModels s.io.rest ∧
      contextCompress s.streamStart = (writeAll (contextHeaderOf s.io.rest) >>= fun _ => contextSecondPass) u :=
    contextCompress_survey (s := s.streamStart) hin hsound hl
  obtain ⟨p, n, hio⟩ := hu.io
  have hrun := secondPass_reread (u := u) (header := contextHeaderOf s.io.rest) (payload := encodeContextPayload)
    (tail := do setPhase .term; padAndFlush) (by rw [hio]; exact hin) (by rw [hio]; exact hout)
    (by rw [hio]; exact hagain)
  have hw := hu.reread (contextHeaderOf s.io.rest)
  have hwin := hw.failIn.trans hin
  have hwout := hw.failOut.trans hout
  have hwsound := hw.sound hsound
  obtain ⟨v, hv, hcode, hprev⟩ := encodeContextPayload_puts (s := u.reread (contextHeaderOf s.io.rest))
    (hmodels.reread _) (by omega) (by rw [State.reread_w]; exact hu.total) (by rw [State.reread_w]; exact hu.pack) hwin
    hwout hwsound.1 hw.rest
  obtain ⟨hvsound, hvrest⟩ := encodeContextPayload_drains hwin hwsound hv
  obtain ⟨t, ht, hleft⟩ := padAndFlush_contextCompressed hw.appended hcode (hcode.failOut.trans hwout) hvsound hvrest
    hprev
  exact ⟨t, hblock.trans (hrun.trans (by rw [Run.bind_ok hv, setPhase_bind, ht])), hleft⟩

/-- Settles O49: `CountPairs()` counts and `BuildAllModels()` builds, nothing behind them writes the tables again, and
the second pass puts each byte in the tree of the byte before it. -/
theorem cmpContextCompletes : Obligations.CmpContextCompletes := by
  intro s hs hl
  have hmax : Config.inLenMax = 2 ^ 32 - 1 := rfl
  have hS : s.io.rest.length < 2 ^ 32 := by omega
  obtain ⟨t, ht, h⟩ := contextCompress_ok hs hl
  obtain ⟨hnext, hend⟩ := exec_stream_ok (i := .cmpContext) rfl hs.1 ht
  obtain ⟨hfreq, htab, hentry⟩ := contextCompress_built (s := s.streamStart) hs.2.1.1 hs.2.2 hl ht
  have hnsym : t.w.nsym = t.w.total := BitVec.eq_of_toNat_eq (h.nsym.trans htab.total.symm)
  exact ⟨_, hnext, hend, h.appended.congr ⟨rfl, rfl⟩ ⟨rfl, rfl⟩, h.drained, hfreq, htab.total, hnsym, htab.nctx,
    htab.dist, htab.models.main_agrees hS,
    fun c hc => ⟨hentry c hc, htab.models.present_iff hc, htab.models.ctx_agrees hS hc⟩, h.prev⟩

end Sys2Proof.Machine
end

section

namespace Sys2Proof.Machine

/-! ### The records of a context artifact -/

/-- The records of the context header of `S` (R233). -/
def contextRecordsOf (S : List Byte) : List (Byte × Table (BitVec 32)) :=
  (contextsOf S).map fun c => (BitVec.ofNat 8 c, countTable (successors c S))

theorem contextHeaderOf_eq (S : List Byte) :
    contextHeaderOf S = contextHeader (countTable S) (contextRecordsOf S) := by
  rw [contextHeaderOf, contextHeader, contextRecords, contextRecordsOf, List.length_map, List.flatMap_map]

theorem toNat_of_mem_contextsOf {S : List Byte} {c : Nat} (h : c ∈ contextsOf S) : (BitVec.ofNat 8 c).toNat = c := by
  have hc := List.mem_range.1 (List.mem_filter.1 h).1
  rw [BitVec.toNat_ofNat, Nat.mod_eq_of_lt hc]

theorem mem_contextsOf {S : List Byte} {c : Nat} : c ∈ contextsOf S ↔ c < 256 ∧ successors c S ≠ [] := by
  rw [contextsOf, List.mem_filter, List.mem_range, decide_eq_true_eq]

/-- One record for each byte that another follows, with the counts of those. -/
theorem mem_contextRecordsOf {S : List Byte} {r : Byte × Table (BitVec 32)} :
    r ∈ contextRecordsOf S ↔ successors r.1.toNat S ≠ [] ∧ r.2 = countTable (successors r.1.toNat S) := by
  constructor
  · intro h
    obtain ⟨c, hc, rfl⟩ := List.mem_map.1 h
    rw [toNat_of_mem_contextsOf hc]
    exact ⟨(mem_contextsOf.1 hc).2, rfl⟩
  · rintro ⟨hne, htable⟩
    refine List.mem_map.2 ⟨r.1.toNat, mem_contextsOf.2 ⟨r.1.isLt, hne⟩, ?_⟩
    rw [← htable, BitVec.ofNat_toNat, BitVec.setWidth_eq]

theorem mem_contextRecordsOf_fst {S : List Byte} {c : Byte} :
    c ∈ (contextRecordsOf S).map Prod.fst ↔ successors c.toNat S ≠ [] := by
  constructor
  · intro h
    obtain ⟨r, hr, rfl⟩ := List.mem_map.1 h
    exact (mem_contextRecordsOf.1 hr).1
  · exact fun h => List.mem_map.2 ⟨(c, countTable (successors c.toNat S)), mem_contextRecordsOf.2 ⟨h, rfl⟩, rfl⟩

theorem contextRecordsOf_nodup (S : List Byte) : ((contextRecordsOf S).map Prod.fst).Nodup := by
  rw [contextRecordsOf, List.map_map]
  refine List.Nodup.map_on (fun a ha b hb hab => ?_) (List.nodup_range.filter _)
  rw [← toNat_of_mem_contextsOf ha, ← toNat_of_mem_contextsOf hb]
  exact congrArg BitVec.toNat hab

/-- The decoder's tree (R242) is the encoder's (R234) where a byte has followed `last`. -/
theorem contextTree_eq {S : List Byte} {last : Option Byte} {b : Byte} (h : follows S last b) :
    contextTree (countTable S) (contextRecordsOf S) last = contextModel S last := by
  cases last with
  | none => rfl
  | some a =>
    obtain ⟨r, hr, hra⟩ := List.mem_map.1 (mem_contextRecordsOf_fst.2 (List.ne_nil_of_mem h))
    cases hfind : (contextRecordsOf S).find? (fun r => r.1 == a) with
    | none => exact absurd (beq_iff_eq.2 hra) (List.find?_eq_none.1 hfind r hr)
    | some q =>
      have hqa : q.1 = a := beq_iff_eq.1 (List.find?_some (p := fun r : Byte × Table (BitVec 32) => r.1 == a) hfind)
      have hq := (mem_contextRecordsOf.1 (List.mem_of_find?_eq_some hfind)).2
      rw [hqa] at hq
      rw [contextTree, hfind]
      exact congrArg huffmanOf hq

/-- A byte that has followed `last` has a codeword after it. -/
theorem contextModel_isSome {S : List Byte} (hS : S.length < 2 ^ 32) {last : Option Byte} {b : Byte}
    (h : follows S last b) : (codeIn (contextModel S last).paths b).isSome = true := by
  cases last with
  | none => exact (StaticMethod.huffman.codeIn_countTable hS b).2 h
  | some a => exact (StaticMethod.huffman.codeIn_countTable ((successors_length _ S).trans_lt hS) b).2 h

/-- The encoder's bits are what the decoder takes for bytes that each follow one they followed in `S`. -/
theorem contextBits_contextCodes {S : List Byte} (hS : S.length < 2 ^ 32) : ∀ {T : List Byte} {last : Option Byte},
    FollowsAll S last T →
      ContextBits (contextTree (countTable S) (contextRecordsOf S)) last T (contextCodes (contextModel S) last T)
  | [], _, _ => rfl
  | b :: T, last, h => by
    obtain ⟨hb, hT⟩ := h
    obtain ⟨c, hc⟩ := Option.isSome_iff_exists.1 (contextModel_isSome hS hb)
    exact ⟨c, _, by rw [contextTree_eq hb, hc], by rw [contextCodes, hc]; rfl, contextBits_contextCodes hS hT⟩

/-- Each byte of a sequence follows the one before it in that sequence. -/
theorem followsAll_self (S : List Byte) : FollowsAll S none S := by
  obtain ⟨_, hall⟩ := allGood_sameContexts.2 (⟨rfl, fun _ h => h, fun _ _ _ h => h⟩ : SameContexts S S)
  exact ((allGood_followsBefore (Nat.zero_le _)).1 hall).1

/-- The payload of the artifact codes the sequence (R104, R242). -/
theorem contextBits_codes {S : List Byte} (hS : S.length < 2 ^ 32) :
    ContextBits (contextTree (countTable S) (contextRecordsOf S)) none S (contextBits S) := by
  rw [contextBits_eq]
  exact contextBits_contextCodes hS (followsAll_self S)

end Sys2Proof.Machine
end

section

namespace Sys2Proof.Machine

/-! ### The final state of `DEC.CONTEXT` -/

/-- What `ReadContextHeader()` leaves in `NCTX` (R241): the records do not write it. -/
theorem readContextHeader_nctx {s t : State} {f : Table (BitVec 32)} {k : Nat} {p : List Byte} (hin : s.io.failIn = [])
    (hs : s.io.Sound) (hk : k ≤ 256) (hr : s.io.rest = headerBytes f ++ (leBytes 8 k ++ p))
    (h : readContextHeader s = .ok () t) : t.w.nctx.toNat = k := by
  obtain ⟨u, hu, hblank⟩ := readContextHeader_tabled hin hs hr
  obtain ⟨hread, _⟩ := memRead_ok hblank.failIn hblank.sound hblank.rest
  rw [leBytes_length, leValue_leBytes 8 k (by omega)] at hread
  have hwrite : writeNctx k (u.advancedBy 8) =
      .ok () ((u.advancedBy 8).setW { u.w with nctx := BitVec.ofNat 9 k }) := by
    rw [writeNctx, Run.update_apply, if_pos (by omega)]
    rfl
  rw [hu, readCountAndRecords, Run.bind_ok hread, Run.bind_ok hwrite, decide_eq_true hk, Run.require_true_bind] at h
  have hkept : t.w.nctx = BitVec.ofNat 9 k :=
    (Run.Keeps.times (readRecord_keeps (F := Frame.same fun s => s.w.nctx) (fun _ _ _ => rfl) fun _ _ => rfl) k).ok h
  rw [hkept, BitVec.toNat_ofNat]
  omega

/-- `DEC.CONTEXT` behind its header (R240): the models are built and the payload leaves the tables alone. -/
theorem contextRebuild_built {s t : State} (h : contextRebuild s = .ok () t) : (s.setPhase .build).Built t := by
  rw [contextRebuild, setPhase_bind] at h
  exact buildAllModels_then (.bind (setPhase_keeps (fun _ _ => rfl) _) fun _ => .bind (.update fun _ => rfl) fun _ =>
    .bind (.read _) fun _ => decodeContextLoop_keeps (fun _ _ _ => rfl) (fun _ _ _ => rfl) (fun _ _ => rfl)
      (fun _ _ => rfl) (fun _ _ => rfl) (fun _ _ => rfl) (fun _ _ => rfl) _) h

/-- Where `DEC.CONTEXT` ends behind the header of `S`, the tables are those of the header (R241, R232). -/
theorem contextDecompress_built {s t : State} {S p : List Byte} (hin : s.io.failIn = []) (hs : s.io.Sound)
    (hS : S.length < 2 ^ 32) (hr : s.io.rest = contextHeaderOf S ++ p) (h : contextDecompress s = .ok () t) :
    t.ContextTables S ∧ (∀ k, k < 256 → freqGet t.freq k = freqGet (countTable S) k) ∧
      ∀ c, c < 256 → successors c S ≠ [] → ∀ k, k < 256 →
        freqGet (ctxGet t.ctx c).freq k = freqGet (countTable (successors c S)) k := by
  have hcount : (contextsOf S).length ≤ 256 := (List.length_filter_le _ _).trans List.length_range.le
  obtain ⟨_, u, hu, hrec, _, _, hget, htotal, _⟩ := readContextHeader_ok (s := s.setPhase .hdrRd) hin hs
    (contextRecordsOf_nodup S) (contextHeaderOf_eq S ▸ hr)
  have hnctx := readContextHeader_nctx (s := s.setPhase .hdrRd) hin hs hcount
    (hr.trans (by rw [contextHeaderOf, List.append_assoc, List.append_assoc])) hu
  rw [contextDecompress, setPhase_bind, Run.bind_ok hu] at h
  have hb := contextRebuild_built h
  have hthere : ∀ c, c < 256 → successors c S ≠ [] → (ctxGet u.ctx c).present = true ∧
      ∀ k, k < 256 → freqGet (ctxGet u.ctx c).freq k = freqGet (countTable (successors c S)) k := fun c hc hne => by
    have hctx := mem_contextsOf.2 ⟨hc, hne⟩
    have hrecord := hrec.there (BitVec.ofNat 8 c, countTable (successors c S)) (List.mem_map_of_mem hctx)
    rwa [toNat_of_mem_contextsOf hctx] at hrecord
  have hpresent : ∀ c, c < 256 → (ctxGet u.ctx c).present = decide (successors c S ≠ []) := fun c hc => by
    by_cases hne : successors c S = []
    · have habsent := hrec.absent (BitVec.ofNat 8 c)
      rw [mem_contextRecordsOf_fst, BitVec.toNat_ofNat, Nat.mod_eq_of_lt hc] at habsent
      rw [habsent (not_not.2 hne), decide_eq_false (not_not.2 hne)]
    · rw [(hthere c hc hne).1, decide_eq_true hne]
  exact ⟨hb.contextTables hget (htotal.trans (countTable_sum hS)) hnctx hpresent fun c hc hne => (hthere c hc hne).2,
    fun k hk => hb.freq ▸ hget k hk, fun c hc hne k hk => (hb.entry c).2 ▸ (hthere c hc hne).2 k hk⟩

theorem decodeContextSymbol_inByte : Run.Keeps (Frame.carry State.InByte) decodeContextSymbol :=
  .bind (.read _) fun _ => .ite (.bind (.read _) fun _ => walkSymbol_inByte _ _)
    (.bind (.read _) fun _ => .bind (.require _ _) fun _ => walkSymbol_inByte _ _)

theorem decodeContextLoop_inByte : ∀ n, Run.Keeps (Frame.carry State.InByte) (decodeContextLoop n)
  | 0 => .stuck
  | n + 1 => .bind (.read _) fun _ => .ite
      (.bind decodeContextSymbol_inByte fun b =>
        .bind (outWrite_keeps (fun _ _ h => h) (fun _ _ h => h) b) fun _ => .bind (.update fun _ h => h) fun _ =>
        .bind (bumpNsym_keeps (fun _ _ h => h) fun _ _ h => h) fun _ => decodeContextLoop_inByte n)
      (.pure _)

/-- `DecodeContextPayload()` (R242) starts with no bit held. -/
theorem decodeContextPayload_inByte :
    Run.Sat (fun _ => True) decodeContextPayload (fun _ => State.InByte) (fun _ _ => True) := by
  refine .update_bind (R := State.InByte) (fun _ _ => by simp [State.InByte]) ?_
  exact ((Run.Keeps.bind (.read _) fun _ => decodeContextLoop_inByte _).carries fun _ _ h => h).conseq (fun _ h => h)
    (fun _ _ h => h) fun _ _ _ => trivial

theorem contextRebuild_inByte :
    Run.Sat (fun _ => True) contextRebuild (fun _ => State.InByte) (fun _ _ => True) :=
  .bind (Run.sat_true _) fun _ => .bind (Run.sat_true _) fun _ => .bind (Run.sat_true _) fun _ =>
    decodeContextPayload_inByte

theorem contextDecompress_inByte {s t : State} (h : contextDecompress s = .ok () t) : t.InByte := by
  rw [contextDecompress, setPhase_bind] at h
  obtain ⟨_, u, _, hu⟩ := Run.bind_eq_ok h
  exact contextRebuild_inByte.ok trivial hu

/-- What `DEC.CONTEXT` leaves of an input that codes `S` outside its tables (R240, R242). -/
structure State.ContextDecompressed (s t : State) (S extra : List Byte) : Prop where
  appended : s.Appended t S
  rest : t.io.rest.length = extra.length
  sound : t.io.Sound
  nsym : t.w.nsym.toNat = S.length
  prev : t.w.prev.toNat = (S.getLast?.map BitVec.toNat).getD Config.prevNone

/-- `DEC.CONTEXT` (R240) over the artifact of `S` with any bytes behind it. -/
theorem contextDecompress_ok {s : State} {S extra : List Byte} (hs : s.Served) (hS : S.length < 2 ^ 32)
    (hr : s.io.rest = contextHeaderOf S ++ (packBits (contextBits S) ++ extra)) :
    ∃ t, contextDecompress s.streamStart = .ok () t ∧ s.ContextDecompressed t S extra := by
  have hsum := countTable_sum hS
  obtain ⟨pad, hpad, hbits⟩ := payloadBits_packBits (contextBits S) extra
  obtain ⟨w, hw, hm, hd, hprev⟩ := contextDecompress_enters hs (contextRecordsOf_nodup S) (contextHeaderOf_eq S ▸ hr)
  rw [hbits] at hd
  obtain ⟨t, ht, hdt⟩ := decodeContextLoop_run hm hw.failOut hw.total 1 ⟨hd, hprev⟩ (contextBits_codes hS) hsum.ge
  have hrun := hw.run
  rw [hsum, ht, decodeContextLoop_decodes.done 0 (by
    rw [hdt.decoding.count, hdt.decoding.total, hw.total, hsum]; exact lt_irrefl _)] at hrun
  exact ⟨t, hrun, hw.out.of_nil hdt.decoding.out,
    (contextDecompress_inByte hrun).rest_length hpad hdt.decoding.unread, hdt.decoding.parses.sound,
    hdt.decoding.count, hdt.prev⟩

/-- Settles O50: the header gives back the tables and so the trees, the codewords lead back to the bytes of `S`, and the
parser has read no byte it has taken no bit of. -/
theorem decContextCompletes : Obligations.DecContextCompletes := by
  intro s S extra hs hl hr
  have hmax : Config.inLenMax = 2 ^ 32 - 1 := rfl
  have hS : S.length < 2 ^ 32 := by omega
  have hr' : s.io.rest = contextHeaderOf S ++ (packBits (contextBits S) ++ extra) := by
    rw [hr, contextArtifact, List.append_assoc]
  obtain ⟨t, ht, h⟩ := contextDecompress_ok hs hS hr'
  obtain ⟨hnext, hend⟩ := exec_stream_ok (i := .decContext) rfl hs.1 ht
  obtain ⟨htab, hfreq, hentry⟩ := contextDecompress_built (s := s.streamStart) hs.2.1.1 hs.2.2 hS hr' ht
  have hinput : t.io.input = s.io.input := exec_input (t := t.complete) hs hnext
  have hpos := Streams.pos_of_rest hinput hs.2.2 h.sound
  rw [h.rest, hr, List.length_append] at hpos
  exact ⟨_, hnext, hend, h.appended.congr ⟨rfl, rfl⟩ ⟨rfl, rfl⟩, by show t.io.inPos.toNat = _; omega, h.nsym,
    fun b => hfreq _ b.isLt, htab.total, htab.dist, htab.nctx, htab.models.main_agrees hS,
    fun c hc => ⟨htab.models.present_iff hc, fun hne => ⟨fun b => hentry c hc hne _ b.isLt,
      htab.models.ctx_agrees hS hc hne⟩⟩, h.prev⟩

/-- Settles O51: the decompressor gets the artifact, with nothing behind it. -/
theorem contextRoundTrip : Obligations.ContextRoundTrip := by
  intro s u hs hu hl
  obtain ⟨t, ht, _, happ, _⟩ := cmpContextCompletes s hs hl
  refine ⟨t, _, ht, happ, fun hr => ?_⟩
  obtain ⟨v, hv, hend, hout, _⟩ := decContextCompletes u s.io.rest [] hu hl (by rw [hr, List.append_nil])
  exact ⟨v, hv, hend, hout⟩

end Sys2Proof.Machine
end

section

namespace Sys2Proof.Machine

/-! ### What the adaptive commands leave alone -/

/-- The states that differ in what an adaptive command may write. -/
def adaptiveWrites : Frame State where
  rel s t := t = { s with
      status := t.status, faultCode := t.faultCode, phase := t.phase, fgk := t.fgk, fresh := t.fresh
      w := { s.w with
        nsym := t.w.nsym, cur := t.w.cur, prev := t.w.prev
        obits := t.w.obits, ocnt := t.w.ocnt, ibits := t.w.ibits, icnt := t.w.icnt, pend := t.w.pend }
      io := { s.io with
        inPos := t.io.inPos, inBase := t.io.inBase
        outRev := t.io.outRev, outLen := t.io.outLen, inAcc := t.io.inAcc, outAcc := t.io.outAcc } }
  refl _ := rfl
  trans _ _ _ h h' := h'.trans (by rw [h])

theorem adaptiveWrites_block {i : Instr} (hi : i = .cmpAdaptive ∨ i = .decAdaptive) :
    i.cmdClass = .stream ∧ Run.Keeps adaptiveWrites (Instr.block i) := by
  obtain rfl | rfl := hi
  · exact ⟨rfl, adaptiveCompress_keeps (fun _ _ => rfl) (fun _ _ _ => rfl) (fun _ _ => rfl) (fun _ _ => rfl)
      (fun _ _ _ => rfl) (fun _ _ => rfl) (fun _ _ => rfl) fun _ _ => rfl⟩
  · exact ⟨rfl, adaptiveDecompress_keeps (fun _ _ => rfl) (fun _ _ _ => rfl) (fun _ _ _ => rfl) (fun _ _ => rfl)
      (fun _ _ => rfl) (fun _ _ => rfl) (fun _ _ => rfl) (fun _ _ => rfl) fun _ _ => rfl⟩

/-- Settles O27: the block, and accepting, ending and trapping the command, write only what the frame lets differ. -/
theorem adaptiveFrame : Obligations.AdaptiveFrame := by
  intro i s t hi h
  obtain ⟨hstream, hblock⟩ := adaptiveWrites_block hi
  rw [exec_eq, hstream] at h
  exact runStream_frame (F := adaptiveWrites) (fun _ _ => rfl) (fun _ _ => rfl) (fun _ _ _ => rfl) (fun _ _ _ => rfl)
    (fun _ _ _ => rfl) (fun _ _ => rfl) (fun _ _ => rfl) (fun _ _ => rfl) (fun _ _ => rfl) hblock h

end Sys2Proof.Machine
end

section

namespace Sys2Proof.Machine

/-! ### The adaptive tree however a symbol ends -/

/-- The tree between symbols has the sibling property (R252). -/
theorem FgkMem.Codes.sibling {g : FgkMem} {S : List Byte} (hg : g.Codes S) : g.Sibling := by
  obtain ⟨r, y, hgrown, hw, _⟩ := hg.rest
  constructor
  case used => exact hgrown.small
  case root => exact ⟨r, hgrown.root, hgrown.root_lt, hgrown.root_parent, hgrown.root_rank⟩
  case ranks =>
    exact fun i hi => ⟨hgrown.low i hi, hgrown.high i hi, fun j hj h => hgrown.inj i hi j hj (congrArg BitVec.toNat h)⟩
  case sorted => exact fun i j hi hj h => hw.sorted i hi j hj h
  case inner =>
    intro i hi hkind
    obtain ⟨a, b, ha, hb, halt, hblt, hpa, hpb, hab⟩ := hgrown.inner i hi hkind
    exact ⟨a, b, ha, hb, halt, hblt, hpa, hpb, hab, hw.sums i hi hkind a b ha hb⟩
  case outer => exact hgrown.outer
  case parent => exact fun i hi hne => hgrown.parent i hi fun h => hne (h ▸ hgrown.root)
  case nyt =>
    exact ⟨y, hgrown.nyt, hgrown.nyt_lt, hgrown.nyt_kind, BitVec.eq_of_toNat_eq hw.nyt, hgrown.nyt_rank,
      hgrown.nyt_only, hgrown.nyt_parent⟩
  case leaf => exact hgrown.leaf

section
variable {g : FgkMem} {S : List Byte} {b : Byte}

/-- A weaker condition where the piece stops. -/
theorem Run.Sat.stopsIn {σ α : Type} {P : σ → Prop} {m : Run σ α} {Q : α → σ → Prop} {E E' : Stop → σ → Prop}
    (h : Run.Sat P m Q E) (hE : ∀ e s, E e s → E' e s) : Run.Sat P m Q E' :=
  h.conseq (fun _ h => h) (fun _ _ h => h) hE

/-- A pending update as a step of a command. -/
theorem onFgk_update_ok {n : Nat} {E : Stop → State → Prop} :
    Run.Sat (fun s => fgkUpdate fgkBound (some n) s.fgk = .ok () g) (onFgk (fgkUpdate fgkBound (some n)))
      (fun _ s => s.fgk = g) E := fun s hs => by
  rw [onFgk_ok hs]
  rfl

/-- The update of the leaf of a byte that has been seen, as a step of a command. -/
theorem onFgk_update_seen (hg : g.Codes S) (hlen : S.length + 1 < 2 ^ 64) {n : Nat}
    (hleaf : leafGet g.leaf b.toNat = some n) {E : Stop → State → Prop} :
    Run.Sat (fun s => s.fgk = g) (onFgk (fgkUpdate fgkBound (some n))) (fun _ s => s.fgk = fgkAfter g b) E :=
  onFgk_update_ok.conseq (fun _ h => h ▸ (hg.seen_step hlen hleaf).1) (fun _ _ h => h) fun _ _ h => h

/-- The split for a byte that has not been seen, as a step of a command: the update of the new leaf is pending. -/
theorem onFgk_split_unseen (hg : g.Codes S) (hlen : S.length + 1 < 2 ^ 64) (hleaf : leafGet g.leaf b.toNat = none)
    {E : Stop → State → Prop} : Run.Sat (fun s => s.fgk = g) (onFgk (fgkSplit b))
      (fun n s => fgkUpdate fgkBound (some n) s.fgk = .ok () (fgkAfter g b)) E := by
  rintro s rfl
  obtain ⟨⟨n, g₁, hsplit, hupdate⟩, _⟩ := hg.unseen_step hlen hleaf
  rw [onFgk_ok hsplit]
  exact hupdate

/-- A piece that does not write the tree leaves it as it is, however it ends. -/
theorem Run.Keeps.fgk {α : Type} {m : Eng α} (h : Run.Keeps (Frame.same State.fgk) m) :
    Run.Sat (fun s => s.fgk = g) m (fun _ s => s.fgk = g) (fun _ s => s.fgk = g) :=
  h.carries fun _ _ he h => he.trans h

theorem putBits_fgk (c : Bits) : Run.Keeps (Frame.same State.fgk) (putBits c) :=
  putBits_keeps (fun _ _ => rfl) (fun _ _ => rfl) (fun _ _ _ => rfl) c

theorem putPath_fgk (n : Nat) : Run.Keeps (Frame.same State.fgk) (putPath n) :=
  putPath_keeps (fun _ _ => rfl) (fun _ _ => rfl) (fun _ _ _ => rfl) n

theorem bumpNsym_fgk : Run.Keeps (Frame.same State.fgk) bumpNsym :=
  bumpNsym_keeps (fun _ _ => rfl) fun _ _ => rfl

/-- `FgkEncodeSymbol(b)` (R255) counts the byte in the tree, or stops before it has changed the tree. -/
theorem fgkEncodeSymbol_tree (hg : g.Codes S) (hlen : S.length + 1 < 2 ^ 64) (b : Byte) :
    Run.Sat (fun s => s.fgk = g) (fgkEncodeSymbol b) (fun _ s => s.fgk = fgkAfter g b) (fun _ s => s.fgk = g) := by
  refine .read_fact (φ := fun lf => lf = leafGet g.leaf b.toNat) (fun s hs => by rw [hs]) fun lf hlf => ?_
  cases lf with
  | some n => exact .bind (putPath_fgk n).fgk fun _ => onFgk_update_seen hg hlen hlf.symm
  | none =>
    refine .bind nytSlot_keeps.fgk fun nyt => .bind (putPath_fgk nyt).fgk fun _ => .bind (putBits_fgk _).fgk fun _ => ?_
    exact .bind (onFgk_split_unseen hg hlen hlf.symm) fun _ => onFgk_update_ok

/-- The loop of `CMP.ADAPTIVE` (R260) leaves a tree with the sibling property, however it ends. -/
theorem adaptiveEncodeLoop_sibling : ∀ (n : Nat) {g : FgkMem} {S : List Byte}, g.Codes S → S.length + n < 2 ^ 64 →
    Run.Sat (fun s => s.fgk = g) (adaptiveEncodeLoop n) (fun _ s => s.fgk.Sibling) (fun _ s => s.fgk.Sibling)
  | 0, _, _, hg, _ => .stuck fun _ h => h ▸ hg.sibling
  | n + 1, g, S, hg, hlen => by
    have hsib : ∀ {s : State}, s.fgk = g → s.fgk.Sibling := fun h => h ▸ hg.sibling
    refine .bind ((inRead_keeps fun _ _ _ => rfl).fgk.stopsIn fun _ _ => hsib) fun r => ?_
    cases r with
    | none => exact .pure fun _ => hsib
    | some b =>
      have hnext := (hg.after (by omega) b).1
      refine .bind ((fgkEncodeSymbol_tree hg (by omega) b).stopsIn fun _ _ => hsib)
        fun _ => .bind (bumpNsym_fgk.fgk.stopsIn fun _ _ h => h ▸ hnext.sibling)
        fun _ => adaptiveEncodeLoop_sibling n hnext ?_
      rw [List.length_append, List.length_singleton]
      omega

/-- The descent (R267) from a node in use ends on a node in use that has no children. -/
theorem fgkDescend_outer {r y : Nat} (hg : g.Grown r y) : ∀ (k cur : Nat), cur < g.n.toNat →
    Run.Sat (fun s => s.fgk = g) (fgkDescend k cur)
      (fun found s => s.fgk = g ∧ ∀ n, found = some n → n < g.n.toNat ∧ (g.node n).kind ≠ .internal)
      (fun _ s => s.fgk = g)
  | 0, _, _ => .stuck fun _ h => h
  | k + 1, cur, hcur => by
    refine .read_fact (φ := fun nd => nd = g.node cur) (fun s hs => by rw [hs]) fun nd hnd => ?_
    subst hnd
    refine .ite (fun hkind => ?_) fun hkind => .pure fun s hs => ⟨hs, fun n hn => by cases hn; exact ⟨hcur, hkind⟩⟩
    refine .bind (getBitOpt_keeps (fun _ _ _ => rfl) fun _ _ _ => rfl).fgk fun b => ?_
    cases b with
    | none => exact .pure fun s hs => ⟨hs, fun n hn => by cases hn⟩
    | some bit =>
      obtain ⟨x, z, hx, hz, hxlt, hzlt, _⟩ := hg.inner cur hcur hkind
      refine .update_keep (fun _ h => h) ?_
      cases bit with
      | false => simp only [Bool.false_eq_true, if_false, hx]; exact fgkDescend_outer hg k x hxlt
      | true => simp only [if_true, hz]; exact fgkDescend_outer hg k z hzlt

/-- The literal of `n` more bits behind `v`. -/
theorem readLiteral_value : ∀ n v : Nat, Run.Sat (fun s => s.fgk = g) (readLiteral n v)
    (fun lit s => s.fgk = g ∧ ∀ x, lit = some x → x < 2 ^ n * (v + 1)) (fun _ s => s.fgk = g)
  | 0, v => .pure fun s hs => ⟨hs, fun x hx => by cases hx; omega⟩
  | n + 1, v => by
    refine .bind (getBitOpt_keeps (fun _ _ _ => rfl) fun _ _ _ => rfl).fgk fun b => ?_
    cases b with
    | none => exact .pure fun s hs => ⟨hs, fun x hx => by cases hx⟩
    | some bit =>
      refine (readLiteral_value n _).conseq (fun _ h => h) (fun lit s h => ⟨h.1, fun x hx => ?_⟩) fun _ _ h => h
      calc x < 2 ^ n * (2 * v + (if bit then 1 else 0) + 1) := h.2 x hx
        _ ≤ 2 ^ n * (2 * (v + 1)) := Nat.mul_le_mul_left _ (by split <;> omega)
        _ = 2 ^ (n + 1) * (v + 1) := by ring

/-- What the node means on which the descent ends: its byte is counted in the tree, or the tree is left as it is. -/
theorem fgkArrived_tree (hg : g.Codes S) (hlen : S.length + 1 < 2 ^ 64) {r y n : Nat} (hgrown : g.Grown r y)
    (hn : n < g.n.toNat) (hk : (g.node n).kind ≠ .internal) :
    Run.Sat (fun s => s.fgk = g) (fgkArrived n)
      (fun found s => s.fgk = found.elim g (fgkAfter g)) (fun _ s => s.fgk = g) := by
  refine .read_fact (φ := fun nd => nd = g.node n) (fun s hs => by rw [hs]) fun nd hnd => ?_
  subst hnd
  refine .ite (fun _ => .bind_fact (φ := fun lit => ∀ x, lit = some x → x < 256) (readLiteral_value 8 0)
    fun lit hlit => ?_) fun hkn => ?_
  · cases lit with
    | none => exact .pure fun _ h => h
    | some v =>
      have hv : (BitVec.ofNat 8 v).toNat = v := by rw [BitVec.toNat_ofNat, Nat.mod_eq_of_lt (hlit v rfl)]
      refine .read_fact (φ := fun seen => seen = leafGet g.leaf v) (fun s hs => by rw [hs]) fun seen hseen =>
        .require_fact (fun _ h => h) fun hnone => .bind (onFgk_split_unseen hg hlen ?_) fun _ =>
        .bind onFgk_update_ok fun _ => .pure fun _ h => h
      rw [hv, ← hseen, ← Option.isNone_iff_eq_none, hnone]
  · have hleaf : (g.node n).kind = .leaf := by
      cases hkind : (g.node n).kind with
      | leaf => rfl
      | nyt => exact absurd hkind hkn
      | internal => exact absurd hkind hk
    exact .bind (onFgk_update_seen hg hlen ((hgrown.leaf _ n).2 ⟨hn, hleaf, rfl⟩)) fun _ => .pure fun _ h => h

/-- `FgkDecodeSymbol()` (R267) counts the byte it finds in the tree, or leaves the tree as it is. -/
theorem fgkDecodeSymbol_tree (hg : g.Codes S) (hlen : S.length + 1 < 2 ^ 64) :
    Run.Sat (fun s => s.fgk = g) fgkDecodeSymbol
      (fun found s => s.fgk = found.elim g (fgkAfter g)) (fun _ s => s.fgk = g) := by
  obtain ⟨r, y, hgrown, _⟩ := hg.rest
  refine .read_fact (φ := fun root => root = some r) (fun s hs => by rw [hs, hgrown.root]) fun root hroot => ?_
  subst hroot
  refine .update_keep (fun _ h => h) <| .read_any fun bound => .bind_fact
    (φ := fun found => ∀ n, found = some n → n < g.n.toNat ∧ (g.node n).kind ≠ .internal)
    (fgkDescend_outer hgrown (bound + 2) r hgrown.root_lt) fun found hfound => ?_
  cases found with
  | none => exact .pure fun _ h => h
  | some n =>
    obtain ⟨hn, hk⟩ := hfound n rfl
    exact fgkArrived_tree hg hlen hgrown hn hk

/-- The loop of `DEC.ADAPTIVE` (R265) leaves a tree with the sibling property, however it ends. -/
theorem adaptiveDecodeLoop_sibling : ∀ (n : Nat) {g : FgkMem} {S : List Byte}, g.Codes S → S.length + n < 2 ^ 64 →
    Run.Sat (fun s => s.fgk = g) (adaptiveDecodeLoop n) (fun _ s => s.fgk.Sibling) (fun _ s => s.fgk.Sibling)
  | 0, _, _, hg, _ => .stuck fun _ h => h ▸ hg.sibling
  | n + 1, g, S, hg, hlen => by
    refine .bind ((fgkDecodeSymbol_tree hg (by omega)).stopsIn fun _ _ h => h ▸ hg.sibling) fun r => ?_
    cases r with
    | none => exact .pure fun _ h => h ▸ hg.sibling
    | some b =>
      have hnext := (hg.after (by omega) b).1
      have hsib : ∀ {s : State}, s.fgk = fgkAfter g b → s.fgk.Sibling := fun h => h ▸ hnext.sibling
      refine .bind ((outWrite_keeps (fun _ _ => rfl) (fun _ _ => rfl) b).fgk.stopsIn fun _ _ => hsib) fun _ =>
        .bind (bumpNsym_fgk.fgk.stopsIn fun _ _ => hsib)
        fun _ => adaptiveDecodeLoop_sibling n hnext ?_
      rw [List.length_append, List.length_singleton]
      omega

end

/-- A stream command gives the state its block leaves, completed or trapped: the same tree. -/
theorem exec_stream_fgk {i : Instr} (hi : i.cmdClass = .stream) {s t : State} (hs : s.Ready)
    (h : exec i s = .next t) : t.fgk = (endState (Instr.block i s.streamStart)).fgk := by
  cases hb : Instr.block i s.streamStart with
  | ok a u =>
    rw [(exec_stream_ok hi hs hb).1] at h
    cases h
    rfl
  | error e u =>
    cases e with
    | raise c =>
      rw [(exec_stream_raise hi hs hb).1] at h
      cases h
      rfl
    | stuck =>
      rw [exec_eq, hi] at h
      unfold runStream at h
      rw [runCommand_ready hs] at h
      have hstuck : (Instr.block i >>= fun _ => setPhase .idle) s.streamStart = .error .stuck u := Run.bind_error hb
      exact nomatch (congrArg finish hstuck).symm.trans h

/-- The state in which the loop of `CMP.ADAPTIVE` starts (R260). -/
def State.encodeStart (s : State) : State :=
  ((s.streamStart.setFgk (fgkStart s.fgk)).setPhase .enc).setW { s.streamStart.w with nsym := 0 }

theorem adaptiveCompress_eq (s : State) : Instr.block .cmpAdaptive s.streamStart =
    (adaptiveEncodeLoop (s.io.rest.length + 1) >>= fun _ => setPhase .term >>= fun _ => fgkPad >>= fun _ =>
      padAndFlush) s.encodeStart := rfl

/-- The state in which the loop of `DEC.ADAPTIVE` starts (R265). -/
def State.decodeStart (s : State) : State :=
  ((s.streamStart.setFgk (fgkStart s.fgk)).setPhase .dec).setW { s.streamStart.w with nsym := 0, icnt := 0 }

theorem adaptiveDecompress_eq (s : State) : Instr.block .decAdaptive s.streamStart =
    adaptiveDecodeLoop (8 * s.io.rest.length + 2) s.decodeStart := rfl

/-- The blocks of the adaptive commands leave a tree with the sibling property, however they end. -/
theorem adaptive_sibling {i : Instr} (hi : i = .cmpAdaptive ∨ i = .decAdaptive) {s : State}
    (hlen : 8 * s.io.rest.length < 2 ^ 64) : (endState (Instr.block i s.streamStart)).fgk.Sibling := by
  have hstart := fgkStart_codes s.fgk
  obtain rfl | rfl := hi
  · have htail : Run.Keeps (Frame.same State.fgk) (setPhase .term >>= fun _ => fgkPad >>= fun _ => padAndFlush) :=
      .bind (setPhase_keeps (fun _ _ => rfl) _) fun _ =>
        .bind (fgkPad_keeps (fun _ _ => rfl) (fun _ _ => rfl) fun _ _ _ => rfl) fun _ =>
        padAndFlush_keeps (fun _ _ => rfl) (fun _ _ => rfl) fun _ _ _ => rfl
    rw [adaptiveCompress_eq]
    exact (Run.Sat.bind (adaptiveEncodeLoop_sibling _ hstart (by rw [List.length_nil]; omega)) fun _ =>
      htail.carries fun _ _ he h => he ▸ h).endState rfl
  · rw [adaptiveDecompress_eq]
    exact (adaptiveDecodeLoop_sibling _ hstart (by rw [List.length_nil]; omega)).endState rfl

/-- Settles O52: a symbol is counted in the tree whole or not at all, and between symbols the tree has the property; the
scan for the leader keeps the highest rank it has met. -/
theorem siblingProperty : Obligations.SiblingProperty := by
  refine ⟨fun i s t hi hs _ hlen h => ?_, fun g n hn => ?_⟩
  · rw [exec_stream_fgk (adaptiveWrites_block hi).1 hs h]
    exact adaptive_sibling hi hlen
  · obtain ⟨hwt, _, hmax⟩ := fgkLeader_spec g n
    exact ⟨fgkLeader_lt hn le_rfl, BitVec.eq_of_toNat_eq hwt, fun i hi h => hmax i hi (congrArg BitVec.toNat h)⟩

end Sys2Proof.Machine
end

section

namespace Sys2Proof.Machine

/-! ### What the update adds to the weight of a leaf -/

/-- Slot `i` has the weight `w`; the kinds are `K`, and the parent of each of the `N` nodes in use is an inner node. -/
structure FgkMem.Bears (K : Nat → NodeKind) (N i : Nat) (w : BitVec 64) (g : FgkMem) : Prop where
  count : g.n.toNat = N
  kind : ∀ j, (g.node j).kind = K j
  parent : ∀ j < N, ∀ p, (g.node j).parent = some p → p < N ∧ K p = .internal
  weight : (g.node i).weight = w

section
variable {K : Nat → NodeKind} {N i : Nat} {w : BitVec 64} {g : FgkMem} {E : Stop → FgkMem → Prop}

/-- A write to a node that keeps its kind and its parent. -/
theorem FgkMem.Bears.modNode (h : g.Bears K N i w) (n : Nat) {f : FgkNode → FgkNode} {w' : BitVec 64}
    (hf : ∀ e, (f e).kind = e.kind ∧ (f e).parent = e.parent)
    (hw : (if i = n then (f (g.node i)).weight else w) = w') : (g.modNode n f).Bears K N i w' where
  count := h.count
  kind j := by
    rw [node_modNode, ← h.kind j]
    split
    · exact (hf _).1
    · rfl
  parent j hj p hp := by
    refine h.parent j hj p ?_
    rw [node_modNode] at hp
    split at hp
    · rwa [(hf _).2] at hp
    · exact hp
  weight := by
    rw [node_modNode, ← hw]
    split
    · rfl
    · exact h.weight

/-- A new parent, an inner node in use. -/
theorem FgkMem.Bears.setParent (h : g.Bears K N i w) (n : Nat) {q : Nat} (hq : q < N ∧ K q = .internal) :
    (g.modNode n (fun e => { e with parent := some q })).Bears K N i w where
  count := h.count
  kind j := by
    rw [node_modNode, ← h.kind j]
    split <;> rfl
  parent j hj p hp := by
    rw [node_modNode] at hp
    split at hp
    · cases hp
      exact hq
    · exact h.parent j hj p hp
  weight := by
    rw [node_modNode, ← h.weight]
    split <;> rfl

/-- A write to a node that touches none of its kind, parent and weight. -/
theorem FgkMem.Bears.keep (h : g.Bears K N i w) (n : Nat) {f : FgkNode → FgkNode}
    (hf : ∀ e, (f e).kind = e.kind ∧ (f e).parent = e.parent) (hw : ∀ e, (f e).weight = e.weight) :
    (g.modNode n f).Bears K N i w :=
  h.modNode n hf (by rw [hw, h.weight, ite_self])

theorem FgkMem.Bears.relink (h : g.Bears K N i w) (p : Nat) (isLeft : Bool) (c : Nat) :
    (g.relink p isLeft c).Bears K N i w :=
  h.keep p (fun e => by cases isLeft <;> exact ⟨rfl, rfl⟩) fun e => by cases isLeft <;> rfl

/-- An exchange of places (R258) moves no weight. -/
theorem fgkSwap_bears {a b : Nat} (ha : a < N) (hb : b < N) :
    Run.Sat (FgkMem.Bears K N i w) (fgkSwap a b) (fun _ => FgkMem.Bears K N i w) (fun _ _ => True) := by
  refine .read_fact (φ := fun o => ∀ p, o = some p → p < N ∧ K p = .internal) (fun g h => h.parent a ha) fun pa? hpa =>
    .read_fact (φ := fun o => ∀ p, o = some p → p < N ∧ K p = .internal) (fun g h => h.parent b hb) fun pb? hpb => ?_
  match pa?, pb? with
  | none, _ | some _, none => exact .stuck fun _ _ => trivial
  | some pa, some pb =>
    exact .read_any fun aLeft => .read_any fun bLeft =>
      .update_keep (fun g h => h.relink pa aLeft b) <| .update_keep (fun g h => h.relink pb bLeft a) <|
      .update_keep (fun g h => h.setParent a (hpb pb rfl)) <| .update_keep (fun g h => h.setParent b (hpa pa rfl)) <|
      .read_any fun ra => .read_any fun rb =>
      .update_keep (fun g h => h.keep a (fun _ => ⟨rfl, rfl⟩) fun _ => rfl) <|
      .update fun g h => h.keep b (fun _ => ⟨rfl, rfl⟩) fun _ => rfl

/-- The update (R257) adds one to the node it starts from, and to no other node that has no children. -/
theorem fgkUpdate_bears (hi : K i ≠ .internal) : ∀ (k : Nat) (o : Option Nat) (w : BitVec 64),
    (∀ n, o = some n → n < N) →
    Run.Sat (FgkMem.Bears K N i w) (fgkUpdate k o) (fun _ => FgkMem.Bears K N i (if o = some i then w + 1 else w))
      (fun _ _ => True)
  | 0, none, _, _ | _ + 1, none, _, _ => .pure fun _ h => h
  | 0, some _, _, _ => .stuck fun _ _ => trivial
  | k + 1, some n, w, hn => by
    have hlt := hn n rfl
    have hclimb : Run.Sat (FgkMem.Bears K N i w) (do
        Run.update (fun g => g.modNode n (fun e => { e with weight := e.weight + 1 }))
        let next ← Run.read (fun g => (g.node n).parent)
        fgkUpdate k next) (fun _ => FgkMem.Bears K N i (if some n = some i then w + 1 else w)) (fun _ _ => True) := by
      refine .update_bind (R := FgkMem.Bears K N i (if some n = some i then w + 1 else w))
        (fun g h => h.modNode n (fun _ => ⟨rfl, rfl⟩) ?_) <|
        .read_fact (φ := fun o => ∀ p, o = some p → p < N ∧ K p = .internal) (fun g h => h.parent n hlt) fun o ho => ?_
      · simp only [h.weight, Option.some.injEq, eq_comm]
      · have hne : o ≠ some i := fun he => hi (ho i he).2
        refine (fgkUpdate_bears hi k o _ fun p hp => (ho p hp).1).conseq (fun _ h => h) (fun _ g h => ?_) fun _ _ h => h
        rwa [if_neg hne] at h
    exact .read_fact (φ := fun ld => ld < N) (fun g h => fgkLeader_lt hlt h.count.le) fun ld hld => .read_any fun par =>
      .ite (fun _ => .bind (fgkSwap_bears hlt hld) fun _ => hclimb) fun _ => hclimb

end

section
variable {g g' : FgkMem} {r y : Nat} {S : List Byte} {b : Byte}

/-- The weight of a leaf after the update of a node in use. -/
theorem FgkMem.Grown.weight_update (hg : g.Grown r y) {n i : Nat} (hn : n < g.n.toNat)
    (hi : (g.node i).kind ≠ .internal) (h : fgkUpdate fgkBound (some n) g = .ok () g') :
    (g'.node i).weight = if n = i then (g.node i).weight + 1 else (g.node i).weight := by
  have hb : g.Bears (fun j => (g.node j).kind) g.n.toNat i (g.node i).weight :=
    ⟨rfl, fun _ => rfl, fun j hj p hp => ⟨(hg.rank_lt hj hp).1, (hg.rank_lt hj hp).2.1⟩, rfl⟩
  have hb' := (fgkUpdate_bears hi fgkBound (some n) (g.node i).weight fun m hm => Option.some.inj hm ▸ hn).ok hb h
  simpa only [Option.some.injEq] using hb'.weight

/-! ### The weights count the bytes -/

/-- The weight of each leaf is the number of times its byte occurs in `S` (R250). -/
def FgkMem.Tallies (g : FgkMem) (S : List Byte) : Prop :=
  ∀ (b : Byte) (n : Nat), leafGet g.leaf b.toNat = some n → g.wt n = S.count b

/-- The update of the leaf of a byte counts that byte. -/
theorem FgkMem.Tallies.update (ht : g.Tallies S) (hg : g.Grown r y) (hlen : S.length + 1 < 2 ^ 64) {n : Nat}
    (hleaf : leafGet g.leaf b.toNat = some n) (hrun : fgkUpdate fgkBound (some n) g = .ok () g')
    (hheads : g.SameHeads g') : g'.Tallies (S ++ [b]) := by
  intro c m hm
  rw [hheads.leaf] at hm
  obtain ⟨hn, _, hsym⟩ := (hg.leaf b n).1 hleaf
  obtain ⟨_, hkind, hsym'⟩ := (hg.leaf c m).1 hm
  have hcount := ht c m hm
  have hle := List.count_le_length (a := c) (l := S)
  rw [wt, hg.weight_update hn (by rw [hkind]; rintro ⟨⟩) hrun, List.count_append]
  by_cases hnm : n = m
  · have hcb : c = b := by rw [← hsym', ← hnm, hsym]
    rw [if_pos hnm, hcb, List.count_singleton_self, ← hcb, ← hcount, wt, BitVec.toNat_add]
    rw [wt] at hcount
    exact Nat.mod_eq_of_lt (by rw [hcount]; show S.count c + 1 < 2 ^ 64; omega)
  · have hbc : b ≠ c := by
      rintro rfl
      exact hnm (Option.some.inj (hleaf.symm.trans hm))
    rw [if_neg hnm, List.count_singleton, beq_false_of_ne hbc, ← hcount]
    rfl

/-- The leaf that the split makes has no occurrence yet. -/
theorem FgkMem.Tallies.parted (ht : g.Tallies S) (hg : g.Grown r y) (hb : b ∉ S) : (g.parted y b).Tallies S := by
  intro c m hm
  rw [leafGet_parted] at hm
  by_cases hc : c = b
  · subst hc
    rw [if_pos rfl] at hm
    cases hm
    rw [wt, node_parted_leaf c hg.nyt_lt, List.count_eq_zero_of_not_mem hb]
    rfl
  · rw [if_neg fun he => hc (BitVec.eq_of_toNat_eq he)] at hm
    have hmlt := ((hg.leaf c m).1 hm).1
    rw [wt_parted b hg.nyt_lt (by omega), if_pos hmlt, ht c m hm]

/-- The weights after one more byte. -/
theorem FgkMem.Codes.tallies_after (hg : g.Codes S) (ht : g.Tallies S) (hlen : S.length + 1 < 2 ^ 64) (b : Byte) :
    (fgkAfter g b).Tallies (S ++ [b]) := by
  obtain ⟨r, y, hrest⟩ := hg.rest
  cases hleaf : leafGet g.leaf b.toNat with
  | some n =>
    obtain ⟨g', hrun, _, hheads⟩ := hrest.update_leaf hlen hleaf
    rw [fgkAfter_seen hleaf hrun.run]
    exact ht.update hrest.grown hlen hleaf hrun.run hheads
  | none =>
    have hmem := hg.none_iff.1 hleaf
    have hroom := hg.room hmem
    obtain ⟨g', hrun, _, hheads⟩ := hrest.update_parted hlen hroom hleaf
    rw [fgkAfter_unseen hleaf (fgkSplit_eq b hrest.grown.nyt hroom) hrun.run]
    exact (ht.parted hrest.grown hmem).update (hrest.grown.parted hroom hleaf) hlen
      (by rw [leafGet_parted, if_pos rfl]) hrun.run hheads

theorem FgkMem.Codes.tallies_foldl : ∀ (S : List Byte) {T : List Byte} {g : FgkMem}, g.Codes T → g.Tallies T →
    T.length + S.length < 2 ^ 64 → (S.foldl fgkAfter g).Tallies (T ++ S)
  | [], T, g, _, ht, _ => by rwa [List.append_nil]
  | b :: S, T, g, hg, ht, hlen => by
    rw [List.length_cons] at hlen
    have h := FgkMem.Codes.tallies_foldl S (hg.after (by omega) b).1 (hg.tallies_after ht (by omega) b)
      (by rw [List.length_append, List.length_singleton]; omega)
    rwa [List.append_assoc] at h

theorem FgkMem.Codes.weighs (hg : g.Codes S) (ht : g.Tallies S) : g.Weighs S := by
  obtain ⟨r, y, hgrown, hw, _⟩ := hg.rest
  refine ⟨fun b hb => ?_, fun b hb => hg.none_iff.2 hb, r, hgrown.root, hw.top⟩
  obtain ⟨n, hn⟩ := hg.some_of_mem hb
  exact ⟨n, hn, ht b n hn⟩

/-- The tree that the bytes of `S` make counts them (R250). -/
theorem foldl_fgkStart_weighs (g : FgkMem) (hlen : S.length < 2 ^ 64) :
    (S.foldl fgkAfter (fgkStart g)).Weighs S :=
  (foldl_fgkStart_codes g hlen).weighs <| (fgkStart_codes g).tallies_foldl S (fun _ _ h => nomatch h)
    (by rw [List.length_nil, Nat.zero_add]; exact hlen)

end

end Sys2Proof.Machine
end

section

namespace Sys2Proof.Machine

/-! ### The final state of `CMP.ADAPTIVE` -/

/-- `NSYM <- NSYM + 1` below the last value of the register (R25). -/
theorem toNat_nsym_succ {n : BitVec 40} (h : n.toNat + 1 < 2 ^ 40) : (n + 1).toNat = n.toNat + 1 := by
  rw [BitVec.toNat_add]
  exact Nat.mod_eq_of_lt h

/-- `NSYM` and the bytes left are `N` together, `k` more being read and not yet counted. -/
structure State.Awaits (N k : Nat) (s : State) : Prop where
  sound : s.io.Sound
  count : s.w.nsym.toNat + k + s.io.rest.length = N

theorem inRead_awaits {N : Nat} : Run.Sat (State.Awaits N 0) inRead
    (fun r s => s.Awaits N r.toList.length ∧ (r = none → s.w.nsym.toNat = N)) (fun _ _ => True) := by
  rintro s ⟨hs, hcount⟩
  rw [inRead_eq]
  split
  case h_2 e t h => trivial
  case h_1 r t h =>
    split at h
    · cases h
    · cases hr : s.io.rest with
      | nil =>
        rw [Streams.rest_nil hr] at h
        rw [hr] at hcount
        cases h
        exact ⟨⟨hs, by rw [← hcount, ← hr]; rfl⟩, fun _ => hcount⟩
      | cons b l =>
        rw [Streams.rest_cons hr] at h
        rw [hr, List.length_cons] at hcount
        cases h
        refine ⟨⟨State.advanced_sound hs hr, ?_⟩, fun h => nomatch h⟩
        rw [State.advanced_rest hs hr]
        show s.w.nsym.toNat + 1 + l.length = N
        omega

theorem bumpNsym_awaits {N : Nat} (hN : N < 2 ^ 40) : Run.Sat (State.Awaits N 1) bumpNsym
    (fun _ => State.Awaits N 0) (fun _ _ => True) := by
  rintro s ⟨hs, hcount⟩
  have hsmall : s.w.nsym.toNat + 1 < 2 ^ 40 := by omega
  rw [bumpNsym_small hsmall]
  refine ⟨hs, ?_⟩
  show (s.w.nsym + 1).toNat + 0 + s.io.rest.length = N
  rw [toNat_nsym_succ hsmall]
  omega

theorem fgkEncodeSymbol_awaits {N k : Nat} (b : Byte) : Run.Sat (State.Awaits N k) (fgkEncodeSymbol b)
    (fun _ => State.Awaits N k) (fun _ _ => True) := by
  have hkeeps : Run.Keeps (Frame.same fun s => (s.io.source, s.w.nsym)) (fgkEncodeSymbol b) :=
    fgkEncodeSymbol_keeps (fun _ _ => rfl) (fun _ _ => rfl) (fun _ _ _ => rfl) (fun _ _ => rfl) b
  refine (hkeeps.carries fun s t he hs => ?_).stopsIn fun _ _ _ => trivial
  have hsource : t.io.source = s.io.source := congrArg Prod.fst he
  have hnsym : t.w.nsym = s.w.nsym := congrArg Prod.snd he
  have hinput : t.io.input = s.io.input := congrArg Prod.fst hsource
  have hpos : t.io.inPos = s.io.inPos := congrArg (fun p => p.2.1) hsource
  exact ⟨by rw [Streams.Sound, hinput, hpos]; exact hs.sound,
    by rw [hnsym, Streams.rest_of_source hsource]; exact hs.count⟩

/-- The loop of `CMP.ADAPTIVE` counts each byte of the input (R260). -/
theorem adaptiveEncodeLoop_counts {N : Nat} (hN : N < 2 ^ 40) : ∀ n, Run.Sat (State.Awaits N 0) (adaptiveEncodeLoop n)
    (fun _ s => s.w.nsym.toNat = N) (fun _ _ => True)
  | 0 => .stuck fun _ _ => trivial
  | n + 1 => by
    refine .bind inRead_awaits fun r => ?_
    cases r with
    | none => exact .pure fun _ h => h.2 rfl
    | some b =>
      refine .bind (R := fun _ => State.Awaits N 1) ((fgkEncodeSymbol_awaits b).conseq (fun _ h => h.1) (fun _ _ h => h)
        fun _ _ h => h) fun _ => .bind (bumpNsym_awaits hN) fun _ => adaptiveEncodeLoop_counts hN n

/-- A cursor in an input shorter than 2^64 bytes has fewer than 2^64 bytes behind it. -/
theorem Streams.rest_length_lt {x : Streams} (h : x.Sound) : x.rest.length < 2 ^ 64 := by
  obtain ⟨hlen, _⟩ := h
  rw [Streams.rest, List.length_drop]
  omega

/-- What `CMP.ADAPTIVE` leaves of an input `S` besides the artifact (R260). -/
structure State.AdaptiveCompressed (s t : State) (S : List Byte) : Prop where
  drained : t.Drained
  fgk : t.fgk = S.foldl fgkAfter (fgkStart s.fgk)
  nsym : S.length < 2 ^ 40 → t.w.nsym.toNat = S.length
  packer : t.w.obits = 0 ∧ t.w.ocnt = 0

theorem adaptiveCompress_ok {s : State} (hs : s.Served) :
    ∃ t, Instr.block .cmpAdaptive s.streamStart = .ok () t ∧ s.AdaptiveCompressed t s.io.rest := by
  obtain ⟨_, ⟨hin, hout, _⟩, hsound⟩ := hs
  have hlen := Streams.rest_length_lt hsound
  have hg : s.encodeStart.fgk.Codes [] := fgkStart_codes s.fgk
  have hstart : s.encodeStart.AdaptivePut s.encodeStart [] := ⟨.start rfl rfl, rfl, hin, hout, hsound⟩
  obtain ⟨t, ht, hput, hrest⟩ := State.AdaptivePut.run hg s.io.rest hstart
    (by rw [List.length_nil, Nat.zero_add]; exact hlen) rfl
  obtain ⟨v, hv, hpad, hu⟩ := fgkPad_ok (s := t.setPhase .term) (hput.codes hg hlen) hput.failOut
    (show s.encodeStart.Packed (t.setPhase .term) _ from hput.packed)
  obtain ⟨x, hx, _, _, hobits, hocnt, hux⟩ := padAndFlush_packed ((State.unpacked_failOut hu).trans hput.failOut) hpad
  have hsame : x.unpacked = (t.setPhase .term).unpacked := hux.trans hu
  obtain ⟨hxrest, hxsound, hxnsym⟩ := State.unpacked_io hsame
  have hfgk : x.fgk = t.fgk := (congrArg State.fgk hsame :)
  refine ⟨x, by rw [adaptiveCompress_eq, Run.bind_ok ht, setPhase_bind, Run.bind_ok hv, hx],
    Streams.drained (hxsound hput.sound) (hxrest.trans hrest), hfgk.trans hput.fgk, fun hN => ?_, hobits, hocnt⟩
  have hcount := (adaptiveEncodeLoop_counts hN _).ok (s := s.encodeStart) ⟨hsound, Nat.zero_add _⟩ ht
  rw [hxnsym]
  exact hcount

/-- Settles O53: the loop puts the bits of each byte and counts it in the tree, the pad is fewer than 8 bits; the tree
of a byte sequence counts its bytes. -/
theorem cmpAdaptiveCompletes : Obligations.CmpAdaptiveCompletes := by
  intro s hs
  obtain ⟨t, ht, hend, happ⟩ := adaptiveCompress_appends hs
  obtain ⟨u, hu, h⟩ := adaptiveCompress_ok hs
  have hnext := (exec_stream_ok (i := .cmpAdaptive) rfl hs.1 hu).1
  rw [ht] at hnext
  cases hnext
  have hlen := Streams.rest_length_lt hs.2.2
  exact ⟨_, ht, hend, happ, h.drained, h.fgk, h.fgk ▸ foldl_fgkStart_weighs s.fgk hlen, h.nsym, h.packer.1, h.packer.2⟩

end Sys2Proof.Machine
end

section

namespace Sys2Proof.Machine

/-! ### The final state of `DEC.ADAPTIVE` -/

section
variable {s : State} {g : FgkMem} {S : List Byte} {r : Bits}

/-- Fewer than 8 bits behind the path of the `NYT` node, or not all of that path, and the input ends: no symbol (R263,
R266). -/
theorem fgkDecodeSymbol_nytCut {q : Bits} (hg : s.fgk.Codes S) (hs : s.Parses) (hu : s.unread = r)
    (hpre : r <+: nytPath s.fgk ++ q) (hlt : r.length < (nytPath s.fgk).length + 8) :
    ∃ t, fgkDecodeSymbol s = .ok none t ∧ t.unwalked = s.unwalked ∧ t.io.rest = [] ∧ t.io.Sound := by
  obtain ⟨i, y, hgrown, hgoy, _⟩ := hg.bits
  by_cases hshort : r.length < (nytPath s.fgk).length
  · obtain ⟨d, hd⟩ := List.prefix_of_prefix_length_le hpre (List.prefix_append _ _) hshort.le
    have hne : d ≠ [] := by
      rintro rfl
      rw [← hd, List.append_nil] at hshort
      exact lt_irrefl _ hshort
    obtain ⟨t, h1, h2, h3, h4⟩ := fgkDescend_cut hne r (s := s.setW { s.w with cur := some i })
      (hd.symm ▸ hgoy : s.fgk.Goes i (r ++ d) y) ⟨hs.honest, hs.sound, hs.held⟩ hu 1
    refine ⟨t, ?_, h2, h3, h4⟩
    rw [fgkDecodeSymbol_eq hgrown.root, hu, Run.bind_ok h1]
    rfl
  · obtain ⟨p, rfl⟩ := List.prefix_of_prefix_length_le (List.prefix_append _ _) hpre (not_lt.1 hshort)
    have hk := hgrown.nyt_kind
    obtain ⟨t, h1, h2, h3, h4⟩ := fgkDecodeSymbol_goes hgrown.root hgoy (by rw [hk]; rintro ⟨⟩) hs hu
    rw [← fgk_of_unwalked h4] at hk
    rw [List.length_append] at hlt
    obtain ⟨u, h5, h6, h7, h8⟩ := readLiteral_cut 8 0 p (Nat.lt_of_add_lt_add_left hlt) h3 h2
    refine ⟨u, ?_, h6.trans h4, h7, h8⟩
    rw [h1, fgkArrived, Run.read_bind, if_pos hk, Run.bind_ok h5]
    rfl

theorem padBits_length (path : Bits) (n : Nat) : (padBits path n).length = (8 - n) % 8 := by
  rw [padBits, List.length_take, List.length_append, List.length_replicate]
  omega

/-- The pad is no symbol (R263). -/
theorem fgkDecodeSymbol_pad {n : Nat} (hg : s.fgk.Codes S) (hs : s.Parses) (hu : s.unread = padBits (nytPath s.fgk) n) :
    ∃ t, fgkDecodeSymbol s = .ok none t ∧ t.unwalked = s.unwalked ∧ t.io.rest = [] ∧ t.io.Sound :=
  fgkDecodeSymbol_nytCut hg hs hu (List.take_prefix _ _) (by rw [padBits_length]; omega)

/-- The parser reads from the adaptive artifact the bits of the bytes and the pad, and nothing behind them. -/
theorem payloadBits_adaptiveArtifact (g : FgkMem) (S : List Byte) : payloadBits (adaptiveArtifact g S) =
    adaptiveBits (fgkStart g) S ++
      padBits (nytPath (S.foldl fgkAfter (fgkStart g))) ((adaptiveBits (fgkStart g) S).length % 8) := by
  have hpad := padBits_length (nytPath (S.foldl fgkAfter (fgkStart g))) ((adaptiveBits (fgkStart g) S).length % 8)
  rw [payloadBits, adaptiveArtifact, packBits_flatMap, List.length_append, hpad]
  generalize (adaptiveBits (fgkStart g) S).length = n
  rw [show 8 * ((n + (8 - n % 8) % 8 + 7) / 8) - (n + (8 - n % 8) % 8) = 0 by omega, List.replicate_zero,
    List.append_nil]

/-- `NSYM` and `k` are the number of bytes appended since `OUT` had `base` bytes, as long as that fits the register. -/
def State.Wrote (base k : Nat) (s : State) : Prop :=
  s.io.outRev.length < base + 2 ^ 40 → base + s.w.nsym.toNat + k = s.io.outRev.length

theorem outWrite_wrote {base : Nat} (b : Byte) : Run.Sat (State.Wrote base 0) (outWrite b)
    (fun _ => State.Wrote base 1) (fun _ _ => True) := by
  intro s hs
  rw [outWrite_eq]
  split
  case h_2 e t h => trivial
  case h_1 a t h =>
    split at h
    · cases h
    · cases h
      intro (hlt : s.io.outRev.length + 1 < base + 2 ^ 40)
      exact congrArg (· + 1) (hs (by omega))

theorem bumpNsym_wrote {base : Nat} : Run.Sat (State.Wrote base 1) bumpNsym (fun _ => State.Wrote base 0)
    (fun _ _ => True) := by
  intro s hs
  obtain ⟨n, k, hn⟩ := bumpNsym_ok s
  rw [hn]
  intro (hlt : s.io.outRev.length < base + 2 ^ 40)
  have hcount := hs hlt
  have hsmall : s.w.nsym.toNat + 1 < 2 ^ 40 := by omega
  rw [bumpNsym_small hsmall] at hn
  have hnsym : s.w.nsym + 1 = n := (congrArg (fun r => (endState r).w.nsym) hn :)
  show base + n.toNat + 0 = s.io.outRev.length
  rw [← hnsym, toNat_nsym_succ hsmall]
  omega

theorem fgkDecodeSymbol_wrote {base k : Nat} : Run.Sat (State.Wrote base k) fgkDecodeSymbol
    (fun _ => State.Wrote base k) (fun _ _ => True) := by
  have hkeeps : Run.Keeps (Frame.same fun s => (s.io.outRev, s.w.nsym)) fgkDecodeSymbol :=
    fgkDecodeSymbol_keeps (fun _ _ _ => rfl) (fun _ _ _ => rfl) (fun _ _ => rfl) fun _ _ => rfl
  refine (hkeeps.carries fun s t he hs => ?_).stopsIn fun _ _ _ => trivial
  have hout : t.io.outRev = s.io.outRev := congrArg Prod.fst he
  have hnsym : t.w.nsym = s.w.nsym := congrArg Prod.snd he
  rwa [State.Wrote, hout, hnsym]

/-- The loop of `DEC.ADAPTIVE` counts each byte it appends (R265). -/
theorem adaptiveDecodeLoop_counts {base : Nat} : ∀ n, Run.Sat (State.Wrote base 0) (adaptiveDecodeLoop n)
    (fun _ => State.Wrote base 0) (fun _ _ => True)
  | 0 => .stuck fun _ _ => trivial
  | n + 1 => by
    refine .bind fgkDecodeSymbol_wrote fun r => ?_
    cases r with
    | none => exact .pure fun _ h => h
    | some b => exact .bind (outWrite_wrote b) fun _ => .bind bumpNsym_wrote fun _ => adaptiveDecodeLoop_counts n

theorem adaptiveDecompress_nsym {t : State} (h : Instr.block .decAdaptive s.streamStart = .ok () t)
    (happ : s.Appended t S) (hN : S.length < 2 ^ 40) : t.w.nsym.toNat = S.length := by
  rw [adaptiveDecompress_eq] at h
  have hlen : t.io.outRev.length = s.io.outRev.length + S.length := by
    simpa only [Streams.out, List.length_reverse, List.length_append] using congrArg List.length happ.out
  have hcount := (adaptiveDecodeLoop_counts (base := s.io.outRev.length) _).ok (fun _ => rfl) h (by omega)
  omega

/-- What `DEC.ADAPTIVE` leaves of an input that codes `S` (R265). -/
structure State.AdaptiveDecompressed (s t : State) (S : List Byte) : Prop where
  appended : s.Appended t S
  drained : t.Drained
  fgk : t.fgk = S.foldl fgkAfter (fgkStart s.fgk)

/-- `DEC.ADAPTIVE` (R265) over the artifact of `S`: behind the bits of `S` the pad ends the loop (R266). -/
theorem adaptiveDecompress_ok (hs : s.Served) (hlen : S.length < 2 ^ 64) (hr : s.io.rest = adaptiveArtifact g S) :
    ∃ t, Instr.block .decAdaptive s.streamStart = .ok () t ∧ s.AdaptiveDecompressed t S := by
  obtain ⟨n, t, hrun, hd⟩ := adaptiveDecompress_run hs hlen (hr ▸ payloadBits_adaptiveArtifact g S)
  have hunread := hd.unread
  rw [← (adaptiveBits_fgkStart g s.fgk hlen).2.1, ← hd.fgk] at hunread
  obtain ⟨u, h1, h2, h3, h4⟩ := fgkDecodeSymbol_pad (hd.codes hlen) hd.parses hunread
  obtain ⟨ho, hl, _⟩ := State.unwalked_out h2
  rw [adaptiveDecodeLoop, Run.bind_ok h1] at hrun
  exact ⟨u, hrun, hd.out.congr ⟨rfl, rfl⟩ ⟨ho, hl⟩, Streams.drained h4 h3, (fgk_of_unwalked h2).trans hd.fgk⟩

end

/-- Settles O54: the bits of the artifact lead back to the bytes of `S`, each counted in the tree as the compressor
counted it. -/
theorem decAdaptiveCompletes : Obligations.DecAdaptiveCompletes := by
  intro s g S hs hlen hr
  obtain ⟨t, ht, h⟩ := adaptiveDecompress_ok hs hlen hr
  obtain ⟨hnext, hend⟩ := exec_stream_ok (i := .decAdaptive) rfl hs.1 ht
  exact ⟨_, hnext, hend, h.appended.congr ⟨rfl, rfl⟩ ⟨rfl, rfl⟩, h.drained, h.fgk,
    h.fgk ▸ foldl_fgkStart_weighs s.fgk hlen, adaptiveDecompress_nsym (t := t) ht h.appended⟩

/-- Settles O55: the decompressor gets the artifact, whatever the slots of its own tree hold. -/
theorem adaptiveRoundTrip : Obligations.AdaptiveRoundTrip := by
  intro s u hs hu
  have hlen := Streams.rest_length_lt hs.2.2
  obtain ⟨t, ht, _, happ, _⟩ := cmpAdaptiveCompletes s hs
  refine ⟨t, _, ht, happ, fun hr => ?_⟩
  obtain ⟨v, hv, hend, hout, _⟩ := decAdaptiveCompletes u s.fgk s.io.rest hu hlen hr
  exact ⟨v, hv, hend, hout⟩

end Sys2Proof.Machine
end

section

namespace Sys2Proof.Machine

/-! ### What the arithmetic commands leave alone -/

/-- The states that differ in what an arithmetic command may write. -/
def arithWrites : Frame State where
  rel s t := t = { s with
      status := t.status, faultCode := t.faultCode, phase := t.phase
      freq := t.freq, dist := t.dist, range := t.range, fresh := t.fresh
      w := { t.w with nctx := s.w.nctx }
      io := { s.io with
        input := t.io.input, again := t.io.again, inPos := t.io.inPos, inBase := t.io.inBase
        outRev := t.io.outRev, outLen := t.io.outLen, inAcc := t.io.inAcc, outAcc := t.io.outAcc } }
  refl _ := rfl
  trans _ _ _ h h' := h'.trans (by rw [h])

theorem arithWrites_block {i : Instr} (hi : i = .cmpArith ∨ i = .decArith) :
    i.cmdClass = .stream ∧ Run.Keeps arithWrites (Instr.block i) := by
  obtain rfl | rfl := hi
  · exact ⟨rfl, arithCompress_keeps (fun _ _ => rfl) (fun _ _ _ => rfl) (fun _ => rfl) (fun _ _ _ => rfl)
      (fun _ _ => rfl) (fun _ _ => rfl) (fun _ _ _ => rfl) (fun _ _ => rfl) (fun _ _ _ => rfl) (fun _ _ => rfl)
      (fun _ _ => rfl) (fun _ _ => rfl) (fun _ _ _ => rfl) (fun _ _ _ => rfl) fun _ _ _ => rfl⟩
  · exact ⟨rfl, arithDecompress_keeps (fun _ _ => rfl) (fun _ _ _ => rfl) (fun _ _ _ => rfl) (fun _ _ => rfl)
      (fun _ _ _ => rfl) (fun _ _ => rfl) (fun _ _ => rfl) (fun _ _ => rfl) (fun _ _ => rfl) (fun _ _ => rfl)
      (fun _ _ _ => rfl) (fun _ _ _ => rfl) fun _ _ _ => rfl⟩

/-- Settles O28: the block, and accepting, ending and trapping the command, write only what the frame lets differ. -/
theorem arithFrame : Obligations.ArithFrame := by
  intro i s t hi h
  obtain ⟨hstream, hblock⟩ := arithWrites_block hi
  rw [exec_eq, hstream] at h
  exact runStream_frame (F := arithWrites) (fun _ _ => rfl) (fun _ _ => rfl) (fun _ _ _ => rfl) (fun _ _ _ => rfl)
    (fun _ _ _ => rfl) (fun _ _ => rfl) (fun _ _ => rfl) (fun _ _ => rfl) (fun _ _ => rfl) hblock h

end Sys2Proof.Machine
end

section

namespace Sys2Proof.Machine

/-! ### The tables of an arithmetic command at its end -/

/-- `DIST`, `RANGE` and the registers that go with them are those made of the counts `f` (R132, R134). -/
structure State.RangesOf (t : State) (f : Table (BitVec 32)) : Prop where
  dist : t.distList = distribution f
  ndist : t.w.ndist.toNat = (distribution f).length
  table : t.rangeList = rangeTable (distribution f)
  nrange : t.w.nrange.toNat = (rangeTable (distribution f)).length
  rt : t.w.rt.toNat = rangeTotal (distribution f)

/-- The counts, and the tables made of them. -/
def State.codingTables (s : State) :
    Table (BitVec 32) × BitVec 40 × List DistEntry × BitVec 9 × List RangeEntry × BitVec 9 × BitVec 30 :=
  (s.freq, s.w.total, s.distList, s.w.ndist, s.rangeList, s.w.nrange, s.w.rt)

theorem State.RangesOf.of_codingTables {s t : State} {f : Table (BitVec 32)} (h : s.RangesOf f)
    (hsame : t.codingTables = s.codingTables) : t.freq = s.freq ∧ t.w.total = s.w.total ∧ t.RangesOf f := by
  simp only [State.codingTables, Prod.mk.injEq] at hsame
  obtain ⟨hfreq, htotal, hdist, hndist, htable, hnrange, hrt⟩ := hsame
  exact ⟨hfreq, htotal, hdist ▸ h.dist, hndist ▸ h.ndist, htable ▸ h.table, hnrange ▸ h.nrange, hrt ▸ h.rt⟩

/-- `RANGES`' block (R134) within its bound: the tables are made, nothing else is written. -/
theorem rangesBlock_rangesOf {s : State} (h : rangeTotal (distribution s.freq) ≤ Config.arithTMax) :
    ∃ t, rangesBlock s = .ok () t ∧ t.RangesOf s.freq ∧ t = (((s.setDist t.dist).setRange t.range).setW
        { s.w with ndist := t.w.ndist, nrange := t.w.nrange, rt := t.w.rt }) := by
  obtain ⟨t, ht, hdist, htable, hrt, hnrange, hsame⟩ := rangesBlock_ok s h
  have hndist : t.w.ndist.toNat = t.distList.length := by rw [State.distList, List.length_map, List.length_range]
  exact ⟨t, ht, ⟨hdist, hndist.trans (by rw [hdist]), htable, hnrange, hrt⟩, hsame⟩

/-- What `CMP.ARITH` does behind `RANGES` (R300) leaves the tables alone. -/
theorem arithCompress_tail_codingTables : Run.Keeps (Frame.same State.codingTables) (do
    setPhase .hdrWr
    let f ← Run.read State.freq
    writeHeader f
    arithPayload) :=
  .bind (setPhase_keeps (fun _ _ => rfl) _) fun _ => .bind (.read _) fun f =>
  .bind (writeHeader_keeps (fun _ _ => rfl) (fun _ _ => rfl) f) fun _ =>
  .bind (.read _) fun _ => .ite (.pure _) (arithSecondPass_keeps (fun _ _ => rfl) (fun _ _ _ => rfl) (fun _ => rfl)
    (fun _ _ _ => rfl) (fun _ _ => rfl) (fun _ _ => rfl) (fun _ _ _ => rfl) (fun _ _ => rfl) (fun _ _ _ => rfl)
    fun _ _ => rfl)

/-- Where `CMP.ARITH` ends, the tables are those of the bytes that `COUNT` counted (R300). -/
theorem arithCompress_rangesOf {s t : State} (hin : s.io.failIn = []) (hs : s.io.Sound) (hfits : arithFits s.io.rest)
    (h : arithCompress s = .ok () t) :
    t.freq = countTable s.io.rest ∧ t.w.total.toNat = s.io.rest.length ∧ t.RangesOf (countTable s.io.rest) := by
  obtain ⟨p, k, hcount⟩ := countBlock_tallied (s := s.setPhase .scan1) hin hs (arithFits_length hfits)
  rw [State.setPhase_io] at hcount
  obtain ⟨v, hv, hranges, hsame⟩ := rangesBlock_rangesOf
    (s := ((s.setPhase .scan1).tallied s.io.rest p k).setPhase .build) (arithFits_total hfits)
  rw [arithCompress, setPhase_bind, Run.bind_ok hcount, setPhase_bind, Run.bind_ok hv] at h
  obtain ⟨hfreq, htotal, hkept⟩ := hranges.of_codingTables (arithCompress_tail_codingTables.ok h)
  exact ⟨hfreq.trans (by rw [hsame]; rfl), by
    rw [htotal, hsame]; exact toNat_total (arithFits_length hfits), hkept⟩

end Sys2Proof.Machine
end

section

namespace Sys2Proof.Machine

/-! ### The final state of `CMP.ARITH` -/

/-- Encoding a byte reads nothing. -/
theorem encodeArithByte_source (b : Byte) : Run.Keeps (Frame.same fun s => s.io.source) (encodeArithByte b) :=
  .bind (.read _) fun _ => .bind (.require _ _) fun _ =>
  .bind (arithEncodeSym_keeps (fun _ _ => rfl) (fun _ _ => rfl) (fun _ _ _ => rfl) (fun _ _ => rfl)
    (fun _ _ _ => rfl) _) fun _ => bumpNsym_keeps (fun _ _ => rfl) fun _ _ => rfl

/-- The payload of `CMP.ARITH` (R300) ends at the end of the input. -/
theorem encodeArithPayload_drains {s t : State} (hin : s.io.failIn = []) (hs : s.io.Sound)
    (h : encodeArithPayload s = .ok () t) : t.io.Sound ∧ t.io.rest = [] := by
  obtain ⟨s₀, hs₀⟩ : ∃ s₀, s₀ = s.setW { s.w.setInterval 0 Config.scaleM with pend := 0, nsym := 0 } := ⟨_, rfl⟩
  have hio : s₀.io = s.io := by rw [hs₀]; rfl
  have hpay : encodeArithPayload s = (arithEncodeLoop (s.io.rest.length + 1) >>= fun _ => requireAllSeen) s₀ := by
    rw [hs₀]; rfl
  rw [hpay] at h
  obtain ⟨_, u, hloop, h⟩ := Run.bind_eq_ok h
  have hsame : t.io = u.io :=
    (.bind (.read _) fun _ => .require _ _ : Run.Keeps (Frame.same State.io) requireAllSeen).ok h
  rw [hsame]
  exact arithEncodeLoop_feeds.drains encodeArithByte_source s.io.rest (hio ▸ hin) (hio ▸ hs) (by rw [hio]) hloop

/-- The input is at its end and the registers are as the initialisation leaves them (R383). -/
structure State.AtEnd (s : State) : Prop where
  drained : s.Drained
  nsym : s.w.nsym = 0
  pend : s.w.pend = 0

/-- On an empty input `COUNT` (R130) finds the end where the cursor stands. -/
theorem countBlock_empty_atEnd : Run.Sat (fun s => (s.io.failIn = [] ∧ s.io.Sound ∧ s.io.rest = []) ∧ s.AtEnd)
    countBlock (fun _ t => t.AtEnd ∧ t.w.total = 0) (fun _ _ => True) := by
  rintro s ⟨⟨hin, hs, hrest⟩, hend⟩
  rw [(countBlock_ok hin hs (by rw [hrest]; exact Nat.zero_le _)).1, hrest]
  exact ⟨⟨(BitVec.add_zero s.io.inPos).trans hend.drained, hend.nsym, hend.pend⟩, rfl⟩

/-- On an empty input `CMP.ARITH` reads nothing behind `COUNT` and does not code (R309). -/
theorem arithCompress_empty_atEnd : Run.Sat (fun s => (s.io.failIn = [] ∧ s.io.Sound ∧ s.io.rest = []) ∧ s.AtEnd)
    arithCompress (fun _ => State.AtEnd) (fun _ _ => True) := by
  have carry : ∀ {α : Type} {m : Eng α},
      Run.Keeps (Frame.same fun s => (s.io.input, s.io.inPos, s.w.nsym, s.w.pend, s.w.total)) m →
      Run.Sat (fun s => s.AtEnd ∧ s.w.total = 0) m (fun _ s => s.AtEnd ∧ s.w.total = 0) (fun _ _ => True) :=
    fun hm => (hm.carries (P := fun s => s.AtEnd ∧ s.w.total = 0) fun s t hst hs => by
      simp only [Frame.same, Prod.mk.injEq] at hst
      obtain ⟨hinput, hpos, hnsym, hpend, htotal⟩ := hst
      obtain ⟨⟨hd, hn, hp⟩, h0⟩ := hs
      exact ⟨⟨by rw [State.Drained, hinput, hpos]; exact hd, hnsym.trans hn, hpend.trans hp⟩, htotal.trans h0⟩).conseq
        (fun _ h => h) (fun _ _ h => h) fun _ _ _ => trivial
  refine .update_bind (fun s h => ⟨h.1, h.2.drained, h.2.nsym, h.2.pend⟩) <| .bind countBlock_empty_atEnd fun _ =>
    .bind (carry (setPhase_keeps (fun _ _ => rfl) _)) fun _ =>
    .bind (carry (rangesBlock_keeps (fun _ _ _ => rfl) (fun _ _ _ => rfl) fun _ _ _ => rfl)) fun _ =>
    .bind (carry (setPhase_keeps (fun _ _ => rfl) _)) fun _ => .bind (carry (.read _)) fun f =>
    .bind (carry (writeHeader_keeps (fun _ _ => rfl) (fun _ _ => rfl) f)) fun _ => .read_bind fun total => ?_
  exact .ite (fun _ => .pure fun _ h => h.1.1) fun hne s hs => absurd (hs.2.trans hs.1.2) hne

/-- What comes behind the payload of `CMP.ARITH` keeps each frame that allows the writes of the coder. -/
theorem arithTail_keeps {F : Frame State} (hf : F.AllowsPhase) (ht : F.AllowsTouchOut) (ho : F.AllowsOut)
    (hk : F.AllowsPack) (hd : F.AllowsPend) (hi : F.AllowsInterval) : Run.Keeps F arithTail :=
  .bind (.read _) fun _ => .bind (arithEncode_keeps ht ho hk hd hi _) fun _ => .bind (setPhase_keeps hf _) fun _ =>
  .bind (arithFlush_keeps ht ho hk hd) fun _ => padAndFlush_keeps ht ho hk

/-- What the coder leaves behind the flush: the payload of `S` has been appended, the registers hold the interval of
the end-of-stream symbol (R300, R306). -/
structure State.ArithFlushed (s t : State) (S : List Byte) : Prop where
  appended : s.Appended t (packBits (arithBits S))
  low : t.w.low.toNat = (arithFinal S).low
  high : t.w.high.toNat = (arithFinal S).high
  settled : Settled (arithFinal S).low (arithFinal S).high
  pend : t.w.pend = 0

/-- The end-of-stream symbol, the flush and the pad behind the bytes of `S` (R300, R301). -/
theorem arithTail_flushed {s₀ s : State} {S : List Byte} {n : Nat} (h : s₀.ArithPut s (arithAfter S S) n S.length)
    (hr : s₀.Ranged S) (hne : S ≠ []) (hfits : arithFits S) (hf : s₀.io.failOut = []) :
    ∃ t, arithTail s = .ok () t ∧ s₀.ArithFlushed t S := by
  have hS : S.length ≤ 2 ^ 29 := (Nat.le_add_right _ _).trans hfits
  have h33 : renormBound = 33 := rfl
  have hranged := h.coding.ranged hr
  obtain ⟨t, ht, hu, hput⟩ := h.encode hr hne hfits hf (hranged.serves hne hfits).last hS
  rw [hranged.last hne hfits, ← arithRun_eq] at hput
  have hpend := hput.pend
  obtain ⟨v, hv, hp, hfv, hzero, hlow, hhigh, _⟩ := arithFlush_flushes (s := t.setPhase .term) (s₀ := s₀)
    (hput.coding.failOut.trans hf) hput.coding.packed ⟨hput.stands.low, hput.stands.high, hput.stands.pend⟩
    (by rw [h33] at hpend; omega)
  obtain ⟨x, hx, happ⟩ := padAndFlush_appended hfv hp
  have hsame : (x.w.low, x.w.high, x.w.pend) = (v.w.low, v.w.high, v.w.pend) :=
    (padAndFlush_keeps (F := Frame.same fun s => (s.w.low, s.w.high, s.w.pend)) (fun _ _ => rfl) (fun _ _ => rfl)
      fun _ _ _ => rfl).ok hx
  simp only [Prod.mk.injEq] at hsame
  obtain ⟨hxlow, hxhigh, hxpend⟩ := hsame
  exact ⟨x, by rw [arithTail, Run.read_bind, Run.bind_ok ht, setPhase_bind, Run.bind_ok hv, hx], happ,
    by rw [hxlow, hlow]; exact hput.stands.low, by rw [hxhigh, hhigh]; exact hput.stands.high, hput.settled,
    hxpend.trans hzero⟩

/-- What `CMP.ARITH` leaves of an input `S` outside its tables (R300, R309). -/
structure State.ArithCompressed (s t : State) (S : List Byte) : Prop where
  appended : s.Appended t (arithArtifact S)
  drained : t.Drained
  nsym : t.w.nsym.toNat = S.length
  pend : t.w.pend = 0
  interval : S ≠ [] → t.w.low.toNat = (arithFinal S).low ∧ t.w.high.toNat = (arithFinal S).high ∧
    Settled (arithFinal S).low (arithFinal S).high

section
variable {s : State}

/-- On an empty input the artifact is the header (R309). -/
theorem arithCompress_ok_empty (hs : s.Served) (hfits : arithFits s.io.rest) (hempty : s.io.rest = []) :
    ∃ t, Instr.block .cmpArith s.streamStart = .ok () t ∧ s.ArithCompressed t s.io.rest := by
  obtain ⟨_, ⟨hin, hout, _⟩, hsound⟩ := hs
  obtain ⟨u, hu, _, hblock⟩ : ∃ u, s.streamStart.Surveyed u s.io.rest ∧ u.Ranged s.io.rest ∧
      arithCompress s.streamStart = (writeAll (headerBytes (countTable s.io.rest)) >>= fun _ => arithPayload) u :=
    arithCompress_survey (s := s.streamStart) hin hsound hfits
  obtain ⟨p, n, hio⟩ := hu.io
  have htotal : u.w.total = 0 := BitVec.eq_of_toNat_eq (by rw [hu.total, hempty]; rfl)
  rw [Run.bind_ok (writeAll_ok _ (by rw [hio]; exact hout)), arithPayload_empty (s := u.wroteAll _) htotal] at hblock
  have hend := arithCompress_empty_atEnd.ok (s := s.streamStart)
    ⟨⟨hin, hsound, hempty⟩, Streams.drained hsound hempty, rfl, rfl⟩ hblock
  refine ⟨_, hblock, ?_, hend.drained, by rw [hend.nsym, hempty]; rfl, hend.pend, fun hne => absurd hempty hne⟩
  rw [arithArtifact, if_pos hempty, List.append_nil]
  exact (u.wroteAll_appended _).congr (by rw [hio]; exact ⟨rfl, rfl⟩) ⟨rfl, rfl⟩

/-- On an input that is not empty the payload of the second pass stands behind the header (R300, R301). -/
theorem arithCompress_ok_coded (hs : s.Served) (hfits : arithFits s.io.rest) (hne : s.io.rest ≠ []) :
    ∃ t, Instr.block .cmpArith s.streamStart = .ok () t ∧ s.ArithCompressed t s.io.rest := by
  obtain ⟨u, hu, hranged, hblock⟩ : ∃ u, s.streamStart.Surveyed u s.io.rest ∧ u.Ranged s.io.rest ∧
      arithCompress s.streamStart = (writeAll (headerBytes (countTable s.io.rest)) >>= fun _ => arithPayload) u :=
    arithCompress_survey (s := s.streamStart) hs.2.1.1 hs.2.2 hfits
  have htotal : u.w.total ≠ 0 := fun h0 => hne (List.eq_nil_of_length_eq_zero (hu.total.symm.trans (by rw [h0]; rfl)))
  obtain ⟨w, hrun, hw⟩ := secondPass_start_served (i := .cmpArith) hs hu (hblock.trans (writeAll_bind_congr
    fun t ht => arithPayload_eq (by rw [ht]; exact htotal)))
  have hrest : w.io.rest = s.io.rest := hw.rest
  have hsound : w.io.Sound := by
    obtain ⟨b, l, hcons⟩ := List.exists_cons_of_ne_nil hne
    exact Streams.sound_of_cons hw.len (hrest.trans hcons)
  have hfreq : w.freq = u.freq := by rw [hw.same]; rfl
  have htotal' : w.w.total = u.w.total := by rw [hw.same]; rfl
  have hranged' : w.Ranged s.io.rest := by rw [hw.same]; exact ⟨hranged.table, hranged.rt, hranged.nrange⟩
  obtain ⟨s₀, v, hs₀, hv, hput⟩ := encodeArithPayload_puts hranged' hfits (hfreq.trans hu.freq)
    (by rw [htotal']; exact hu.total) hw.pack hw.failIn hw.failOut hw.len hrest
  obtain ⟨hvsound, hvrest⟩ := encodeArithPayload_drains hw.failIn hsound hv
  obtain ⟨t, ht, hflushed⟩ := arithTail_flushed hput
    (by rw [hs₀]; exact ⟨hranged'.table, hranged'.rt, hranged'.nrange⟩) hne hfits (by rw [hs₀]; exact hw.failOut)
  have hsame : (t.io.input, t.io.inPos, t.w.nsym) = (v.io.input, v.io.inPos, v.w.nsym) :=
    (arithTail_keeps (F := Frame.same fun s => (s.io.input, s.io.inPos, s.w.nsym)) (fun _ _ => rfl) (fun _ _ => rfl)
      (fun _ _ => rfl) (fun _ _ _ => rfl) (fun _ _ => rfl) fun _ _ _ => rfl).ok ht
  simp only [Prod.mk.injEq] at hsame
  obtain ⟨hinput, hpos, hnsym⟩ := hsame
  rw [Run.bind_ok hv, ht] at hrun
  refine ⟨t, hrun, ?_, ?_, (congrArg BitVec.toNat hnsym).trans hput.coding.count, hflushed.pend,
    fun _ => ⟨hflushed.low, hflushed.high, hflushed.settled⟩⟩
  · rw [arithArtifact, if_neg hne]
    exact hw.out.trans (hflushed.appended.congr (by rw [hs₀]; exact ⟨rfl, rfl⟩) ⟨rfl, rfl⟩)
  · rw [State.Drained, hinput, hpos]
    exact Streams.drained hvsound hvrest

/-- `CMP.ARITH` (R300) on a host that keeps its duties. -/
theorem arithCompress_ok (hs : s.Served) (hfits : arithFits s.io.rest) :
    ∃ t, Instr.block .cmpArith s.streamStart = .ok () t ∧ s.ArithCompressed t s.io.rest := by
  by_cases hempty : s.io.rest = []
  · exact arithCompress_ok_empty hs hfits hempty
  · exact arithCompress_ok_coded hs hfits hempty

end

/-- Settles O56: the first pass counts and makes the tables, nothing behind it writes them again, and the second pass
puts the bits of each byte, of the end-of-stream symbol and of the flush, from settled interval to settled interval. -/
theorem cmpArithCompletes : Obligations.CmpArithCompletes := by
  intro s hs hfits
  obtain ⟨t, ht, h⟩ := arithCompress_ok hs hfits
  obtain ⟨hnext, hend⟩ := exec_stream_ok (i := .cmpArith) rfl hs.1 ht
  obtain ⟨hfreq, htotal, htables⟩ := arithCompress_rangesOf (s := s.streamStart) hs.2.1.1 hs.2.2 hfits ht
  have htotal : t.w.total.toNat = s.io.rest.length := htotal
  refine ⟨_, hnext, hend, h.appended.congr ⟨rfl, rfl⟩ ⟨rfl, rfl⟩, h.drained, hfreq, htables.dist, htables.ndist,
    htables.table, htables.nrange, htables.rt, htotal, BitVec.eq_of_toNat_eq (h.nsym.trans htotal.symm), h.pend,
    fun hne => ?_⟩
  obtain ⟨hlow, hhigh, hsettled⟩ := h.interval hne
  have hwidth := hsettled.width
  have htop := hsettled.top
  rw [← hlow, ← hhigh] at hwidth
  rw [← hhigh] at htop
  exact ⟨⟨hlow, hhigh⟩, hwidth, htop⟩

end Sys2Proof.Machine
end

section

namespace Sys2Proof.Machine

/-! ### The window as a point of the interval -/

/-- `LOW` and `HIGH` hold an interval, `VAL` a point of it (R320). -/
structure State.Points (s : State) (l h : Nat) : Prop where
  low : s.w.low.toNat = l
  high : s.w.high.toNat = h
  least : l ≤ s.w.val.toNat
  less : s.w.val.toNat < h
  parses : s.Parses

/-- Each rule maps a point of the interval, with the bit that comes in, to a point of twice as wide an interval
(R322). -/
theorem Renorm.map_point {r : Renorm} {l h v : Nat} (hr : r.Fires l h) (hne : r ≠ .done) (hl : l ≤ v) (hv : v < h)
    (ht : h ≤ Config.scaleM) (b : Bool) : r.map l ≤ r.map v + (if b then 1 else 0) ∧
      r.map v + (if b then 1 else 0) < r.map h ∧ r.map h ≤ Config.scaleM ∧ r.map h - r.map l = 2 * (h - l) := by
  have hM : Config.scaleM = 2147483648 := rfl
  have hH : Config.half = 1073741824 := rfl
  have hQ : Config.quarter = 536870912 := rfl
  have hT : Config.threeQuarters = 1610612736 := rfl
  have hb : (if b then 1 else 0) ≤ 1 := by cases b <;> decide
  cases r with
  | done => exact absurd rfl hne
  | lower | upper | middle => simp only [Renorm.Fires] at hr; simp only [Renorm.map]; omega

/-- The window shifted: the parser goes on by a bit, zeros behind the end (R74, R315, R322). -/
theorem shiftVal_takes {s : State} (hs : s.Parses) (f : Nat → Nat) : ∃ t, shiftVal f s = .ok () t ∧
    t.w.val = BitVec.ofNat 31 (f s.w.val.toNat + (if s.unread.getD 0 false then 1 else 0)) ∧
    (∀ i, t.unread.getD i false = s.unread.getD (i + 1) false) ∧ t.Parses ∧ t.w.low = s.w.low ∧ t.w.high = s.w.high ∧
    t.unvalued = s.unvalued := by
  obtain ⟨u, hu, hnext, hparses, hsame⟩ := getBitOrZero_ok hs
  have hval : u.w.val = s.w.val := (congrArg (fun x : State => x.w.val) hsame :)
  have hlow : u.w.low = s.w.low := (congrArg (fun x : State => x.w.low) hsame :)
  have hhigh : u.w.high = s.w.high := (congrArg (fun x : State => x.w.high) hsame :)
  refine ⟨u.setW { u.w with val := BitVec.ofNat 31 (f s.w.val.toNat + (if s.unread.getD 0 false then 1 else 0)) },
    by rw [shiftVal, Run.bind_ok hu, setW_apply, hval], rfl, hnext,
    ⟨hparses.honest, hparses.sound, hparses.held⟩, hlow, hhigh, ?_⟩
  exact (State.unvalued_of_unparsed hsame : u.unvalued = _)

/-- Bounds within the scale fit their registers (R291). -/
theorem State.bounds_setInterval (s : State) {a b : Nat} (ha : a ≤ Config.scaleM) (hb : b ≤ Config.scaleM) :
    (s.setW (s.w.setInterval a b)).w.low.toNat = a ∧ (s.setW (s.w.setInterval a b)).w.high.toNat = b := by
  have hM : Config.scaleM = 2147483648 := rfl
  obtain ⟨hlow, hhigh, _⟩ := setInterval_at (s := s) (a := a) (b := b) (by omega) (by omega) rfl
  exact ⟨hlow, hhigh⟩

/-- `DecRenorm()` (R322) settles the interval, whatever the bits that come in; the window stays a point of it. -/
theorem decRenorm_points : ∀ (n : Nat) {s : State} {l h : Nat}, s.Points l h → h ≤ Config.scaleM →
    Config.scaleM < (h - l) * 2 ^ n → ∃ t l' h', decRenorm n s = .ok () t ∧ t.Points l' h' ∧ Settled l' h' ∧
      t.unvalued = s.unvalued
  | 0, s, l, h, _, ht, hw => by rw [Nat.pow_zero, Nat.mul_one] at hw; omega
  | n + 1, s, l, h, hp, ht, hw => by
    have hM : Config.scaleM = 2147483648 := rfl
    have hfires := s.w.renorm_fires
    rw [hp.low, hp.high] at hfires
    rw [decRenorm, Run.read_bind]
    by_cases hr : s.w.renorm = .done
    · rw [hr] at hfires
      obtain ⟨habove, hbelow, hwide⟩ := hfires
      exact ⟨s, l, h, by rw [if_pos hr]; rfl, hp, ⟨ht, habove, hbelow, hwide⟩, rfl⟩
    · obtain ⟨hleast, hless, htop, hwidth⟩ := Renorm.map_point hfires hr hp.least hp.less ht (s.unread.getD 0 false)
      obtain ⟨hlow, hhigh⟩ := s.bounds_setInterval (a := s.w.renorm.map l) (b := s.w.renorm.map h) (by omega) htop
      obtain ⟨v, hv, hval, _, hparses, hvlow, hvhigh, hvsame⟩ := shiftVal_takes
        (s := s.setW (s.w.rescale s.w.renorm)) ⟨hp.parses.honest, hp.parses.sound, hp.parses.held⟩ s.w.renorm.map
      rw [← hp.low, ← hp.high] at hlow hhigh
      have hpoint : v.w.val.toNat = s.w.renorm.map s.w.val.toNat + (if s.unread.getD 0 false then 1 else 0) := by
        rw [hval]
        show (BitVec.ofNat 31 (s.w.renorm.map s.w.val.toNat + (if s.unread.getD 0 false then 1 else 0))).toNat = _
        rw [BitVec.toNat_ofNat, Nat.mod_eq_of_lt (by omega)]
      obtain ⟨t, l', h', ht', hpt, hset, hsame⟩ := decRenorm_points n (s := v) (l := s.w.renorm.map l)
        (h := s.w.renorm.map h)
        ⟨by rw [hvlow, ← hp.low]; exact hlow, by rw [hvhigh, ← hp.high]; exact hhigh, by rw [hpoint]; exact hleast,
          by rw [hpoint]; exact hless, hparses⟩ htop (by
          rw [hwidth]
          calc _ < (h - l) * 2 ^ (n + 1) := hw
            _ = _ := by ring)
      refine ⟨t, l', h', ?_, hpt, hset, hsame.trans hvsame⟩
      rw [if_neg hr, setW_bind, Run.bind_ok hv, ht']

/-- Thirty-three passes are enough for an interval that is not empty (R304). -/
theorem scaleM_lt_renormBound {a b : Nat} (h : a < b) : Config.scaleM < (b - a) * 2 ^ renormBound :=
  calc Config.scaleM < 1 * 2 ^ renormBound := by decide
    _ ≤ (b - a) * 2 ^ renormBound := Nat.mul_le_mul_right _ (by omega)

/-! ### The entry whose sub-interval the window lies in -/

/-- Entries that share their ends cover what lies between the first and the last. -/
theorem chain_covers {g : Nat → Nat} {v : Nat} : ∀ {table : List RangeEntry}, table ≠ [] →
    table.IsChain (fun a b => a.cumHi = b.cumLo) → (∀ e, table.head? = some e → g e.cumLo.toNat ≤ v) →
    (∀ e, table.getLast? = some e → v < g e.cumHi.toNat) → ∃ e ∈ table, g e.cumLo.toNat ≤ v ∧ v < g e.cumHi.toNat
  | [], hne, _, _, _ => absurd rfl hne
  | [e], _, _, hfirst, hlast => ⟨e, List.mem_singleton_self e, hfirst e rfl, hlast e rfl⟩
  | e :: e' :: table, _, hchain, hfirst, hlast => by
    obtain ⟨hmeet, hchain⟩ := List.isChain_cons_cons.1 hchain
    by_cases hv : v < g e.cumHi.toNat
    · exact ⟨e, List.mem_cons_self, hfirst e rfl, hv⟩
    · obtain ⟨x, hx, hin⟩ := chain_covers (List.cons_ne_nil e' table) hchain
        (fun y hy => by cases hy; rw [← hmeet]; exact Nat.not_lt.1 hv)
        (fun y hy => hlast y (by rw [List.getLast?_cons_cons]; exact hy))
      exact ⟨x, List.mem_cons_of_mem e hx, hin⟩

theorem rangeTable_ne_nil {dl : List DistEntry} (h : dl ≠ []) : rangeTable dl ≠ [] := by
  rw [rangeTable_eq h]
  exact List.append_ne_nil_of_right_ne_nil _ (List.cons_ne_nil _ _)

/-- The sub-intervals of the range table cover the interval (R303, R320). -/
theorem rangeTable_covers {dl : List DistEntry} (hne : dl ≠ []) (hpos : 0 < rangeTotal dl)
    (hfits : rangeTotal dl ≤ Config.arithTMax) {l h v : Nat} (hl : l ≤ v) (hv : v < h) :
    ∃ e ∈ rangeTable dl, subBound l h (rangeTotal dl) e.cumLo.toNat ≤ v ∧
      v < subBound l h (rangeTotal dl) e.cumHi.toNat := by
  have hmax : Config.arithTMax = 2 ^ 29 := rfl
  have hstart : (BitVec.ofNat 30 (cntSum dl) : BitVec 30) = BitVec.ofNat 30 (0 + cntSum dl) := by rw [Nat.zero_add]
  refine chain_covers (g := subBound l h (rangeTotal dl)) (rangeTable_ne_nil hne) ?_ (fun e he => ?_) fun e he => ?_
  · rw [rangeTable_eq hne]
    exact rangesFrom_chain hstart
  · rw [rangeTable_eq hne] at he
    rw [rangesFrom_head hstart e he]
    exact (subBound_zero l h (rangeTotal dl)).trans_le hl
  · rw [rangeTable_eq hne, List.getLast?_concat] at he
    cases he
    have hhigh : (BitVec.ofNat 30 (rangeTotal dl)).toNat = rangeTotal dl := by rw [BitVec.toNat_ofNat]; omega
    rwa [hhigh, subBound_total hpos (by omega)]

end Sys2Proof.Machine
end

section

namespace Sys2Proof.Machine

/-! ### The loop of `DEC.ARITH` -/

/-- What the loop of `DEC.ARITH` does not touch. -/
def State.arithUndecoded (s : State) : State :=
  (s.unvalued.setIo { s.unvalued.io with outRev := [], outLen := 0, outAcc := 0 }).setW { s.unvalued.w with nsym := 0 }

theorem State.arithUndecoded_of_unvalued {s t : State} (h : t.unvalued = s.unvalued) :
    t.arithUndecoded = s.arithUndecoded := by
  rw [State.arithUndecoded, State.arithUndecoded, h]

/-- Since `s₀` the bytes `L` have been decoded, written and counted (R315). -/
structure State.ArithDecoded (s₀ s : State) (L : List Byte) : Prop where
  out : s₀.Appended s L
  count : s.w.nsym.toNat = L.length
  same : s.arithUndecoded = s₀.arithUndecoded

/-- The state in which `DecRenorm()` starts behind the symbol of entry `e`: it has been written and counted, the
interval is its own (R315). -/
abbrev State.took (s : State) (e : RangeEntry) : State :=
  ((s.wrote (e.sym.setWidth 8)).setW { s.w with nsym := s.w.nsym + 1 }).setW
    (Working.setInterval { s.w with nsym := s.w.nsym + 1 } (s.w.entryLow e) (s.w.entryHigh e))

/-- `DEC.ARITH` stands in front of its loop: the table of the counts `f`, `TOTAL` symbols to decode (R315). -/
structure State.ArithReady (s₀ : State) (f : Table (BitVec 32)) : Prop where
  ranges : s₀.RangesOf f
  fits : rangeTotal (distribution f) ≤ Config.arithTMax
  nonempty : distribution f ≠ []
  total : s₀.w.total.toNat = freqSum f
  failOut : s₀.io.failOut = []

section
variable {s₀ s t : State} {L : List Byte} {f : Table (BitVec 32)} {e : RangeEntry} {l h : Nat}

theorem arithDecodeLoop_done (n : Nat) (hdone : ¬s.w.nsym.toNat < s.w.total.toNat) :
    arithDecodeLoop (n + 1) s = .ok () s := by
  rw [arithDecodeLoop, Run.read_bind, if_neg (by rwa [decide_eq_true_eq])]
  rfl

theorem arithDecodeLoop_eos (n : Nat) (hmore : s.w.nsym.toNat < s.w.total.toNat) (hfind : arithFind s = .ok e s)
    (hsym : e.sym.toNat = Config.eosSym) : arithDecodeLoop (n + 1) s = .ok () s := by
  rw [arithDecodeLoop, Run.read_bind, if_pos (decide_eq_true hmore), Run.bind_ok hfind, if_pos hsym]
  rfl

/-- A round of the loop that finds a byte. -/
theorem arithDecodeLoop_round (n : Nat) (hmore : s.w.nsym.toNat < s.w.total.toNat) (hf : s.io.failOut = [])
    (hfind : arithFind s = .ok e s) (hsym : e.sym.toNat ≠ Config.eosSym)
    (hren : decRenorm renormBound (s.took e) = .ok () t) : arithDecodeLoop (n + 1) s = arithDecodeLoop n t := by
  obtain ⟨hbump, _⟩ := bumpNsym_below (s := s.wrote (e.sym.setWidth 8)) hmore
  rw [arithDecodeLoop, Run.read_bind, if_pos (decide_eq_true hmore), Run.bind_ok hfind, if_neg hsym,
    Run.bind_ok (outWrite_ok hf _), Run.bind_ok hbump, narrow, setW_bind]
  exact Run.bind_ok hren

theorem State.ArithDecoded.start (hn : s₀.w.nsym = 0) : s₀.ArithDecoded s₀ [] :=
  ⟨.refl s₀, by rw [hn]; rfl, rfl⟩

/-- The loop leaves the tables, `TOTAL` and the oracle alone. -/
theorem State.ArithDecoded.ready (hd : s₀.ArithDecoded s L) (hr : s₀.ArithReady f) : s.ArithReady f := by
  have htables : s.codingTables = s₀.codingTables := (congrArg State.codingTables hd.same :)
  have hfail : s.io.failOut = s₀.io.failOut := (congrArg (fun x : State => x.io.failOut) hd.same :)
  obtain ⟨_, htotal, hranges⟩ := hr.ranges.of_codingTables htables
  exact ⟨hranges, hr.fits, hr.nonempty, by rw [htotal]; exact hr.total, hfail.trans hr.failOut⟩

/-- A byte more, in the state the renormalisation leaves. -/
theorem State.ArithDecoded.took (hd : s₀.ArithDecoded s L) (hmore : s.w.nsym.toNat < s.w.total.toNat)
    (ht : t.unvalued = (s.took e).unvalued) : s₀.ArithDecoded t (L ++ [e.sym.setWidth 8]) := by
  obtain ⟨_, hcount⟩ := bumpNsym_below (s := s.wrote (e.sym.setWidth 8)) hmore
  have hrev : t.io.outRev = (s.wrote (e.sym.setWidth 8)).io.outRev := (congrArg (fun x : State => x.io.outRev) ht :)
  have hlen : t.io.outLen = (s.wrote (e.sym.setWidth 8)).io.outLen := (congrArg (fun x : State => x.io.outLen) ht :)
  have hnsym : t.w.nsym = s.w.nsym + 1 := (congrArg (fun x : State => x.w.nsym) ht :)
  refine ⟨?_, ?_, (State.arithUndecoded_of_unvalued ht).trans hd.same⟩
  · exact (hd.out.trans (s.wroteAll_appended [e.sym.setWidth 8])).congr ⟨rfl, rfl⟩ ⟨hrev, hlen⟩
  · rw [hnsym, List.length_append, ← hd.count]
    exact hcount

/-- Where the symbols are fewer than `TOTAL` the loop goes on. -/
theorem State.ArithDecoded.more (hd : s₀.ArithDecoded s L) (hr : s₀.ArithReady f) (hL : L.length < freqSum f) :
    s.w.nsym.toNat < s.w.total.toNat := by
  rw [hd.count, (hd.ready hr).total]
  exact hL

/-- `TOTAL` symbols are decoded: the loop ends (R323). -/
theorem State.ArithDecoded.full (hd : s₀.ArithDecoded s L) (hr : s₀.ArithReady f) (hL : L.length = freqSum f)
    (n : Nat) : arithDecodeLoop (n + 1) s = .ok () s :=
  arithDecodeLoop_done n (by rw [hd.count, (hd.ready hr).total, hL]; exact lt_irrefl _)

/-- The table of a decoder: its entries are proper parts of the total and stand in order (R29). -/
theorem State.ArithReady.entries (hr : s.ArithReady f) :
    (∀ x ∈ rangeTable (distribution f), x.Ok (rangeTotal (distribution f))) ∧
    (rangeTable (distribution f)).Pairwise (fun x y => x.cumHi.toNat ≤ y.cumLo.toNat) := by
  have hmax : Config.arithTMax = 2 ^ 29 := rfl
  have := hr.fits
  exact rangeTable_spec (distribution_isDist f).2 (by omega)

theorem State.ArithReady.pos (hr : s.ArithReady f) : 0 < rangeTotal (distribution f) := by
  obtain ⟨x, hx⟩ := List.exists_mem_of_ne_nil _ (rangeTable_ne_nil hr.nonempty)
  obtain ⟨hless, hmost⟩ := hr.entries.1 x hx
  omega

theorem State.ArithReady.entryBounds (hr : s.ArithReady f) (hl : s.w.low.toNat = l) (hh : s.w.high.toNat = h)
    (e : RangeEntry) : s.w.entryLow e = subBound l h (rangeTotal (distribution f)) e.cumLo.toNat ∧
      s.w.entryHigh e = subBound l h (rangeTotal (distribution f)) e.cumHi.toNat := by
  rw [Working.entryLow, Working.entryHigh, hl, hh, hr.ranges.rt]
  exact ⟨rfl, rfl⟩

/-- `ArithFind()` (R320) finds the entry whose sub-interval the window lies in. -/
theorem State.ArithReady.find (hr : s.ArithReady f) (hl : s.w.low.toNat = l) (hh : s.w.high.toNat = h)
    (he : e ∈ rangeTable (distribution f))
    (hleast : subBound l h (rangeTotal (distribution f)) e.cumLo.toNat ≤ s.w.val.toNat)
    (hless : s.w.val.toNat < subBound l h (rangeTotal (distribution f)) e.cumHi.toNat) : arithFind s = .ok e s := by
  obtain ⟨hlow, hhigh⟩ := hr.entryBounds hl hh e
  exact arithFind_ok (hr.ranges.table ▸ he) (hr.ranges.table ▸ hr.entries.2) (hlow ▸ hleast) (hhigh ▸ hless)

/-- The interval in which `DecRenorm()` starts: a proper part of the settled one (R305). -/
theorem State.ArithReady.took (hr : s.ArithReady f) (hl : s.w.low.toNat = l) (hh : s.w.high.toNat = h)
    (hs : Settled l h) (he : e ∈ rangeTable (distribution f)) :
    (s.took e).w.low.toNat = subBound l h (rangeTotal (distribution f)) e.cumLo.toNat ∧
    (s.took e).w.high.toNat = subBound l h (rangeTotal (distribution f)) e.cumHi.toNat ∧
    subBound l h (rangeTotal (distribution f)) e.cumLo.toNat <
      subBound l h (rangeTotal (distribution f)) e.cumHi.toNat ∧
    subBound l h (rangeTotal (distribution f)) e.cumHi.toNat ≤ Config.scaleM := by
  obtain ⟨_, hlt, htop⟩ := narrow_within (hr.entries.1 e he) hr.fits hs
  have htop := htop.trans hs.top
  obtain ⟨hlow, hhigh⟩ := hr.entryBounds hl hh e
  obtain ⟨h1, h2⟩ := ((s.wrote (e.sym.setWidth 8)).setW { s.w with nsym := s.w.nsym + 1 }).bounds_setInterval
    (hlt.le.trans htop) htop
  rw [← hlow, ← hhigh] at h1 h2
  exact ⟨h1.trans hlow, h2.trans hhigh, hlt, htop⟩

end

/-- The loop of `DEC.ARITH` (R315) on any payload: with `n` symbols left it ends, at the end-of-stream symbol or with
none left. -/
theorem arithDecodeLoop_any {s₀ : State} {f : Table (BitVec 32)} (hr : s₀.ArithReady f) : ∀ (n : Nat) {s : State}
    {L : List Byte} {l h : Nat}, s₀.ArithDecoded s L → s.Points l h → Settled l h → L.length + n = freqSum f →
    ∃ t L' l' h', arithDecodeLoop (n + 1) s = .ok () t ∧ s₀.ArithDecoded t L' ∧ t.Points l' h' ∧ Settled l' h' ∧
      L'.length ≤ freqSum f
  | 0, s, L, l, h, hd, hp, hset, hn => ⟨s, L, l, h, hd.full hr hn 0, hd, hp, hset, hn.le⟩
  | n + 1, s, L, l, h, hd, hp, hset, hn => by
    have hready := hd.ready hr
    have hmore := hd.more hr (by omega)
    obtain ⟨e, he, hleast, hless⟩ := rangeTable_covers hr.nonempty hr.pos hr.fits hp.least hp.less
    have hfind := hready.find hp.low hp.high he hleast hless
    by_cases hsym : e.sym.toNat = Config.eosSym
    · exact ⟨s, L, l, h, arithDecodeLoop_eos _ hmore hfind hsym, hd, hp, hset, by omega⟩
    · obtain ⟨hlow, hhigh, hlt, htop⟩ := hready.took hp.low hp.high hset he
      obtain ⟨u, l', h', hu, hpu, hsetu, hsame⟩ := decRenorm_points renormBound (s := s.took e)
        ⟨hlow, hhigh, hleast, hless, hp.parses.honest, hp.parses.sound, hp.parses.held⟩ htop (scaleM_lt_renormBound hlt)
      rw [arithDecodeLoop_round (n + 1) hmore hready.failOut hfind hsym hu]
      exact arithDecodeLoop_any hr n (hd.took hmore hsame) hpu hsetu
        (by rw [List.length_append, List.length_singleton]; omega)

/-- No byte is the end-of-stream symbol. -/
theorem toNat_ne_eosSym (b : Byte) : b.toNat ≠ Config.eosSym := by
  have heos : Config.eosSym = 256 := rfl
  have hb := b.isLt
  omega

/-- The entry of a symbol of the distribution (R292). -/
theorem entryOf_byte {dl : List DistEntry} {b : Byte} (hb : b ∈ dl.map DistEntry.sym) :
    entryOf (rangeTable dl) b.toNat ∈ rangeTable dl ∧ (entryOf (rangeTable dl) b.toNat).sym.toNat = b.toNat := by
  obtain ⟨e, he, hfind⟩ := rangeTable_find hb
  have hentry : entryOf (rangeTable dl) b.toNat = e := by rw [entryOf, hfind]; rfl
  have hsym := List.find?_some hfind
  rw [hentry]
  exact ⟨he, beq_iff_eq.1 hsym⟩

/-- The entries the encoder goes through are entries of the table. -/
theorem arithEntries_subset {dl : List DistEntry} (hne : dl ≠ []) {T : List Byte}
    (hT : ∀ b ∈ T, b ∈ dl.map DistEntry.sym) : ∀ e ∈ arithEntries dl T, e ∈ rangeTable dl := by
  intro e he
  rw [arithEntries, List.map_append, List.map_map, List.mem_append, List.mem_map, List.map_singleton,
    List.mem_singleton] at he
  obtain ⟨b, hb, rfl⟩ | rfl := he
  · exact (entryOf_byte (hT b hb)).1
  · exact List.mem_of_getLast? (entryOf_eosSym hne)

/-- The loop of `DEC.ARITH` (R315) over what the encoder gives for `T` and the end-of-stream symbol: the window lies in
the sub-interval of each byte's entry in turn. -/
theorem arithDecodeLoop_exact {s₀ : State} {f : Table (BitVec 32)} (hr : s₀.ArithReady f) : ∀ (T : List Byte)
    {s : State} {L : List Byte} {l h : Nat}, (∀ b ∈ T, b ∈ (distribution f).map DistEntry.sym) → s₀.ArithDecoded s L →
    s.w.low.toNat = l → s.w.high.toNat = h → Settled l h →
    s.Shows (codeFrom (rangeTotal (distribution f)) (arithEntries (distribution f) T) ⟨l, h, 0⟩) →
    L.length + T.length = freqSum f →
    ∃ t, arithDecodeLoop (T.length + 1) s = .ok () t ∧ s₀.ArithDecoded t (L ++ T)
  | [], s, L, l, h, _, hd, _, _, _, _, hn => ⟨s, hd.full hr hn 0, by rwa [List.append_nil]⟩
  | b :: T, s, L, l, h, hT, hd, hlow, hhigh, hset, hshows, hn => by
    have hready := hd.ready hr
    rw [List.length_cons] at hn
    have hmore := hd.more hr (by omega)
    obtain ⟨hmem, hsym⟩ := entryOf_byte (hT b List.mem_cons_self)
    have hok : ∀ x ∈ arithEntries (distribution f) (b :: T), x.Ok (rangeTotal (distribution f)) :=
      fun x hx => hr.entries.1 x (arithEntries_subset hr.nonempty hT x hx)
    obtain ⟨e, he⟩ : ∃ e, e = entryOf (rangeTable (distribution f)) b.toNat := ⟨_, rfl⟩
    have hcons : arithEntries (distribution f) (b :: T) = e :: arithEntries (distribution f) T := by rw [he]; rfl
    rw [← he] at hmem hsym
    rw [hcons] at hshows hok
    obtain ⟨hleast, hless⟩ := codeFrom_in_entry hr.fits hok hset
    rw [← hshows.val] at hleast hless
    have hfind := hready.find hlow hhigh hmem hleast hless
    obtain ⟨hlow', hhigh', hlt, htop⟩ := hready.took hlow hhigh hset hmem
    have hwidth := scaleM_lt_renormBound hlt
    rw [codeFrom_cons] at hshows
    obtain ⟨u, hu, hul, huh, hushows, husame⟩ := decRenorm_ok (codeFrom_defers _ _) renormBound (s := s.took e) hlow'
      hhigh' hlt htop hwidth
      ⟨hshows.val, hshows.ahead, hshows.parses.honest, hshows.parses.sound, hshows.parses.held⟩
    have hset' := (renorm_settles renormBound ⟨_, _, 0⟩ hlt htop hwidth).1
    have hbyte : e.sym.setWidth 8 = b := BitVec.eq_of_toNat_eq (by
      rw [BitVec.toNat_setWidth, hsym, Nat.mod_eq_of_lt b.isLt])
    obtain ⟨t, ht, hdt⟩ := arithDecodeLoop_exact hr T (fun x hx => hT x (List.mem_cons_of_mem b hx))
      (hbyte ▸ hd.took hmore husame) hul huh hset' hushows
      (by rw [List.length_append, List.length_singleton]; omega)
    refine ⟨t, ?_, by rwa [List.append_assoc] at hdt⟩
    rw [List.length_cons, arithDecodeLoop_round (T.length + 1) hmore hready.failOut hfind
      (hsym ▸ toNat_ne_eosSym b) hu]
    exact ht

end Sys2Proof.Machine
end

section

namespace Sys2Proof.Machine

/-! ### From the header to the loop of `DEC.ARITH` -/

/-- Filling the window (R315, R316): the first `n` bits behind what it shows, zeros behind the end. -/
theorem fillWindow_ok : ∀ (n : Nat) {s : State} {c : Bits} {v : Nat}, s.Parses → s.w.val.toNat = v →
    (∀ i, s.unread.getD i false = c.getD i false) → (v + 1) * 2 ^ n ≤ 2 ^ 31 →
    ∃ t, Run.times n (shiftVal (fun v => 2 * v)) s = .ok () t ∧ t.w.val.toNat = v * 2 ^ n + window n c ∧
      (∀ i, t.unread.getD i false = c.getD (n + i) false) ∧ t.Parses ∧ t.unvalued = s.unvalued
  | 0, s, c, v, hs, hv, hc, _ =>
    ⟨s, rfl, by rw [Nat.pow_zero, Nat.mul_one]; exact hv, fun i => by rw [hc, Nat.zero_add], hs, rfl⟩
  | n + 1, s, c, v, hs, hv, hc, hle => by
    obtain ⟨u, hu, hval, hnext, hparses, _, _, hsame⟩ := shiftVal_takes hs (fun v => 2 * v)
    have hroom : 2 * (v + 1) * 2 ^ n ≤ 2 ^ 31 := by
      calc _ = (v + 1) * 2 ^ (n + 1) := by ring
        _ ≤ _ := hle
    have hbit : (if c.getD 0 false then 1 else 0) ≤ 1 := by split <;> decide
    have hone : 1 ≤ 2 ^ n := Nat.one_le_two_pow
    have huv : u.w.val.toNat = 2 * v + (if c.getD 0 false then 1 else 0) := by
      have := Nat.mul_le_mul_left (2 * (v + 1)) hone
      rw [hval, hv, hc, BitVec.toNat_ofNat, Nat.mod_eq_of_lt (by omega)]
    obtain ⟨t, ht, htv, htnext, htparses, htsame⟩ := fillWindow_ok n (c := c.drop 1) hparses huv
      (fun i => by rw [hnext, hc, List.getD_eq_getElem?_getD, List.getD_eq_getElem?_getD, List.getElem?_drop,
        Nat.add_comm]) ((Nat.mul_le_mul_right _ (by omega)).trans hroom)
    refine ⟨t, by rw [Run.times_succ, Run.bind_ok hu, ht], ?_, fun i => ?_, htparses, htsame.trans hsame⟩
    · rw [htv, window]
      split <;> ring
    · rw [htnext, List.getD_eq_getElem?_getD, List.getD_eq_getElem?_getD, List.getElem?_drop]
      congr 2
      omega

theorem State.RangesOf.congr {s : State} {f g : Table (BitVec 32)} (h : s.RangesOf f)
    (hfg : ∀ k, k < 256 → freqGet f k = freqGet g k) : s.RangesOf g := by
  have hdist := distribution_congr hfg
  exact ⟨hdist ▸ h.dist, hdist ▸ h.ndist, hdist ▸ h.table, hdist ▸ h.nrange, hdist ▸ h.rt⟩

/-- `DEC.ARITH` has gone from the counts in `u` to its loop in `w` (R315, R316): the tables are made, the window shows
the bits `c`, the interval is the whole scale. -/
structure State.Windows (u w : State) (c : Bits) : Prop where
  ranges : w.RangesOf u.freq
  freq : w.freq = u.freq
  total : w.w.total = u.w.total
  failOut : w.io.failOut = u.io.failOut
  out : w.io.outRev = u.io.outRev ∧ w.io.outLen = u.io.outLen
  nsym : w.w.nsym = 0
  low : w.w.low.toNat = 0
  high : w.w.high.toNat = Config.scaleM
  shows : w.Shows c

/-- The loop of `DEC.ARITH`, entered in `w` behind a header with the counts `f`: nothing is decoded, the interval is the
whole scale, the window shows the bits `c` (R315, R316). -/
structure State.EntersArith (s w : State) (f : Table (BitVec 32)) (c : Bits) : Prop where
  run : Instr.block .decArith s.streamStart = arithDecodeLoop (freqSum f + 1) w
  out : s.Appended w []
  ready : w.ArithReady f
  freq : ∀ k, k < 256 → freqGet w.freq k = freqGet f k
  decoded : w.ArithDecoded w []
  low : w.w.low.toNat = 0
  high : w.w.high.toNat = Config.scaleM
  shows : w.Shows c

/-- The whole scale is settled (R305). -/
theorem settled_whole : Settled 0 Config.scaleM := ⟨le_rfl, by decide, by decide, by decide⟩

theorem distribution_ne_nil {f : Table (BitVec 32)} (h : 0 < freqSum f) : distribution f ≠ [] := fun hnil => by
  rw [← cntSum_distribution, hnil] at h
  exact absurd h (lt_irrefl 0)

section
variable {s : State} {f : Table (BitVec 32)} {p : List Byte}

/-- `DEC.ARITH` behind a header that counts nothing ends (R324). -/
theorem arithDecompress_none (hs : s.Served) (hr : s.io.rest = headerBytes f ++ p) (hf : freqSum f = 0) :
    ∃ t, Instr.block .decArith s.streamStart = .ok () t ∧ s.Appended t [] ∧ t.w.nsym = 0 ∧
      (∀ k, k < 256 → freqGet t.freq k = freqGet f k) ∧ t.w.total.toNat = freqSum f := by
  obtain ⟨q, k, x, n, ht, _, _, hget, htotal⟩ :=
    readHeader_headed f (s := s.streamStart.setPhase .hdrRd) hs.2.1.1 hs.2.2 hr
  have hzero : n = 0 := BitVec.eq_of_toNat_eq (htotal.trans hf)
  refine ⟨(s.streamStart.setPhase .hdrRd).headed q k x n, ?_, (State.Appended.refl s).congr ⟨rfl, rfl⟩ ⟨rfl, rfl⟩, rfl,
    hget, htotal⟩
  show arithDecompress s.streamStart = _
  rw [arithDecompress, setPhase_bind, Run.bind_ok ht, Run.read_bind, State.setW_w, if_pos hzero]
  rfl

/-- From the counts to the loop (R315): the tables, the window, the whole scale. -/
theorem arithRebuild_windows {u : State} (hin : u.io.failIn = []) (hs : u.io.Sound)
    (hfits : rangeTotal (distribution u.freq) ≤ Config.arithTMax) {c : Bits}
    (hc : ∀ i, (payloadBits u.io.rest).getD i false = c.getD i false) (total : Nat) :
    ∃ w, arithRebuild total u = arithDecodeLoop (total + 1) w ∧ u.Windows w c := by
  obtain ⟨v, hv, hranges, hvsame⟩ := rangesBlock_rangesOf (s := u.setPhase .build) hfits
  obtain ⟨y, hy⟩ : ∃ y, y = (v.setPhase .dec).setW { v.w with icnt := 0, nsym := 0, val := 0 } := ⟨_, rfl⟩
  have hyio : y.io = u.io := by rw [hy, hvsame]; rfl
  have hyfreq : y.freq = u.freq := by rw [hy, hvsame]; rfl
  have hytotal : y.w.total = u.w.total := by rw [hy, hvsame]; rfl
  have hyranges : y.RangesOf u.freq := by
    rw [hy]; exact ⟨hranges.dist, hranges.ndist, hranges.table, hranges.nrange, hranges.rt⟩
  have hicnt : y.w.icnt = 0 := by rw [hy]; rfl
  have hunread : y.unread = payloadBits u.io.rest := by
    rw [State.unread, hicnt, hyio]
    rfl
  obtain ⟨t, ht, hval, hahead, htparses, htsame⟩ := fillWindow_ok Config.windowBits (s := y) (c := c) (v := 0)
    ⟨hyio ▸ hin, hyio ▸ hs, by rw [hicnt]; exact Nat.zero_le _⟩ (by rw [hy]; rfl) (fun i => by rw [hunread, hc])
    (by decide)
  rw [Nat.zero_mul, Nat.zero_add] at hval
  obtain ⟨w, hw⟩ : ∃ w, w = t.setW (t.w.setInterval 0 Config.scaleM) := ⟨_, rfl⟩
  have hsame : w.unvalued = y.unvalued := by rw [hw]; exact htsame
  have htables : w.codingTables = y.codingTables := (congrArg State.codingTables hsame :)
  obtain ⟨hfreq, htotal, hwranges⟩ := hyranges.of_codingTables htables
  have hfail : w.io.failOut = y.io.failOut := (congrArg (fun x : State => x.io.failOut) hsame :)
  have hrev : w.io.outRev = y.io.outRev := (congrArg (fun x : State => x.io.outRev) hsame :)
  have hlen : w.io.outLen = y.io.outLen := (congrArg (fun x : State => x.io.outLen) hsame :)
  have hnsym : w.w.nsym = y.w.nsym := (congrArg (fun x : State => x.w.nsym) hsame :)
  refine ⟨w, ?_, hwranges, hfreq.trans hyfreq, htotal.trans hytotal, hfail.trans (by rw [hyio]),
    ⟨hrev.trans (by rw [hyio]), hlen.trans (by rw [hyio])⟩, hnsym.trans (by rw [hy]; rfl), by rw [hw]; rfl,
    by rw [hw]; rfl, ?_⟩
  · rw [arithRebuild, setPhase_bind, Run.bind_ok hv, setPhase_bind, setW_bind, State.setPhase_w, ← hy, Run.bind_ok ht,
      setW_bind, ← hw]
  · rw [hw]
    exact ⟨hval, hahead, htparses.honest, htparses.sound, htparses.held⟩

/-- `DEC.ARITH` behind a header whose total fits comes to its loop (R315). -/
theorem arithDecompress_enters (hs : s.Served) (hr : s.io.rest = headerBytes f ++ p)
    (hfits : rangeTotal (distribution f) ≤ Config.arithTMax) (hf : 0 < freqSum f) {c : Bits}
    (hc : ∀ i, (payloadBits p).getD i false = c.getD i false) : ∃ w, s.EntersArith w f c := by
  obtain ⟨_, ⟨hin, hout, _⟩, hsound⟩ := hs
  obtain ⟨q, k, x, n, hread, hrest, hsound', hget, htotal⟩ :=
    readHeader_headed f (s := s.streamStart.setPhase .hdrRd) hin hsound hr
  obtain ⟨w, hrun, hw⟩ := arithRebuild_windows (u := (s.streamStart.setPhase .hdrRd).headed q k x n) hin hsound'
    ((distribution_congr hget).symm ▸ hfits) (c := c) (by rw [hrest]; exact hc) (freqSum f)
  have hne : n ≠ 0 := by
    rintro rfl
    exact hf.ne htotal
  have hready : w.ArithReady f := ⟨hw.ranges.congr hget, hfits, distribution_ne_nil hf,
    (congrArg BitVec.toNat hw.total).trans htotal, hw.failOut.trans hout⟩
  refine ⟨w, ?_, (State.Appended.refl s).congr ⟨rfl, rfl⟩ hw.out, hready, by rw [hw.freq]; exact hget,
    .start hw.nsym, hw.low, hw.high, hw.shows⟩
  show arithDecompress s.streamStart = _
  rw [arithDecompress, setPhase_bind, Run.bind_ok hread, Run.read_bind, State.setW_w, if_neg hne, htotal, hrun]

end

end Sys2Proof.Machine
end

section

namespace Sys2Proof.Machine

/-! ### The final state of `DEC.ARITH` -/

/-- What `DEC.ARITH` leaves where it has decoded `L` behind a header with the counts `f` (R315, R323). -/
structure State.ArithDecompressed (s t : State) (f : Table (BitVec 32)) (L : List Byte) : Prop where
  appended : s.Appended t L
  nsym : t.w.nsym.toNat = L.length
  freq : ∀ k, k < 256 → freqGet t.freq k = freqGet f k
  total : t.w.total.toNat = freqSum f

section
variable {s : State} {f : Table (BitVec 32)} {p : List Byte}

theorem State.EntersArith.decompressed {w t : State} {c : Bits} {L : List Byte} (hw : s.EntersArith w f c)
    (hd : w.ArithDecoded t L) : s.ArithDecompressed t f L := by
  have hfreq : t.freq = w.freq := (congrArg State.freq hd.same :)
  exact ⟨hw.out.of_nil hd.out, hd.count, by rw [hfreq]; exact hw.freq, (hd.ready hw.ready).total⟩

/-- `DEC.ARITH` (R315) on any payload behind a header whose total fits. -/
theorem arithDecompress_any (hs : s.Served) (hr : s.io.rest = headerBytes f ++ p)
    (hfits : rangeTotal (distribution f) ≤ Config.arithTMax) :
    ∃ t L, Instr.block .decArith s.streamStart = .ok () t ∧ s.ArithDecompressed t f L ∧ L.length ≤ freqSum f ∧
      (0 < freqSum f → t.RangesOf f ∧ ∃ l h, t.Points l h ∧ Settled l h) := by
  rcases Nat.eq_zero_or_pos (freqSum f) with hf | hf
  · obtain ⟨t, ht, happ, hnsym, hfreq, htotal⟩ := arithDecompress_none hs hr hf
    exact ⟨t, [], ht, ⟨happ, by rw [hnsym]; rfl, hfreq, htotal⟩, Nat.zero_le _, fun hpos => absurd hf hpos.ne'⟩
  · obtain ⟨w, hw⟩ := arithDecompress_enters hs hr hfits hf (fun _ => rfl)
    have hpoint : w.Points 0 Config.scaleM :=
      ⟨hw.low, hw.high, Nat.zero_le _, by rw [hw.shows.val]; exact window_lt 31 _, hw.shows.parses⟩
    obtain ⟨t, L, l, h, ht, hd, hp, hset, hle⟩ := arithDecodeLoop_any hw.ready (freqSum f) hw.decoded hpoint
      settled_whole (Nat.zero_add _)
    exact ⟨t, L, hw.run.trans ht, hw.decompressed hd, hle, fun _ => ⟨(hd.ready hw.ready).ranges, l, h, hp, hset⟩⟩

/-- Zeros behind the end are read as what is behind the end (R74). -/
theorem getD_append_zeros (c : Bits) (n i : Nat) : (c ++ List.replicate n false).getD i false = c.getD i false := by
  by_cases h : i < c.length
  · exact List.getD_append _ _ _ _ h
  · have h := Nat.not_lt.1 h
    rw [List.getD_append_right _ _ _ _ h, List.getD_eq_default _ _ h, List.getD_eq_getElem?_getD]
    exact List.getElem?_getD_replicate_default_eq _ _ _

/-- `DEC.ARITH` (R315) on the artifact of `S`. -/
theorem arithDecompress_artifact {S : List Byte} (hs : s.Served) (hfits : arithFits S)
    (hr : s.io.rest = arithArtifact S) :
    ∃ t, Instr.block .decArith s.streamStart = .ok () t ∧ s.Appended t S ∧ t.w.nsym.toNat = S.length := by
  have hmax : Config.inLenMax = 2 ^ 32 - 1 := rfl
  have hS : S.length < 2 ^ 32 := by
    have := arithFits_length hfits
    omega
  have hsum := countTable_sum hS
  by_cases hne : S = []
  · rw [arithArtifact, if_pos hne] at hr
    obtain ⟨t, ht, happ, hnsym, _⟩ := arithDecompress_none hs hr (by rw [hsum, hne]; rfl)
    exact ⟨t, ht, by rw [hne]; exact happ, by rw [hnsym, hne]; rfl⟩
  · rw [arithArtifact, if_neg hne] at hr
    obtain ⟨w, hw⟩ := arithDecompress_enters (c := arithBits S) hs hr (arithFits_total hfits)
      (by rw [hsum]; exact List.length_pos_of_ne_nil hne) (fun i => by
        rw [payloadBits, packBits_flatMap, getD_append_zeros])
    obtain ⟨t, ht, hd⟩ := arithDecodeLoop_exact hw.ready S
      (fun b hb => distribution_symbols.2 ((freqGet_countTable_ne hS b).2 hb)) hw.decoded hw.low hw.high settled_whole
      hw.shows (by rw [hsum]; exact Nat.zero_add _)
    have hdone := hw.decompressed hd
    exact ⟨t, hw.run.trans (by rw [hsum, ht]), hdone.appended, hdone.nsym⟩

end

/-- Settles O57: on the artifact the window shows what the encoder has still to give, so each byte's entry is found in
turn; on any payload it is a point of the interval, so some entry is found. -/
theorem decArithCompletes : Obligations.DecArithCompletes := by
  refine ⟨fun s S hs hfits hr => ?_, fun s f p hs hr hfits => ?_⟩
  · obtain ⟨t, ht, happ, hnsym⟩ := arithDecompress_artifact hs hfits hr
    obtain ⟨hnext, hend⟩ := exec_stream_ok (i := .decArith) rfl hs.1 ht
    exact ⟨_, hnext, hend, happ.congr ⟨rfl, rfl⟩ ⟨rfl, rfl⟩, hnsym⟩
  · obtain ⟨t, L, ht, h, hle, hcoded⟩ := arithDecompress_any hs hr hfits
    obtain ⟨hnext, hend⟩ := exec_stream_ok (i := .decArith) rfl hs.1 ht
    refine ⟨_, L, hnext, hend, h.appended.congr ⟨rfl, rfl⟩ ⟨rfl, rfl⟩, hle, h.nsym, fun b => h.freq _ b.isLt, h.total,
      fun hpos => ?_⟩
    obtain ⟨hranges, l, r, hp, hset⟩ := hcoded hpos
    have hwidth := hset.width
    have htop := hset.top
    obtain ⟨rfl, rfl, hleast, hless, _⟩ := hp
    exact ⟨hranges.dist, hranges.table, hranges.rt, hleast, hless, hwidth, htop⟩

/-- Settles O58: the decompressor gets the artifact; the end-of-stream weight is the count of a byte, and so at most
the length. -/
theorem arithRoundTrip : Obligations.ArithRoundTrip := by
  refine ⟨fun s u hs hu hfits => ?_, fun S hS => ?_⟩
  · obtain ⟨t, ht, _, happ, _⟩ := cmpArithCompletes s hs hfits
    refine ⟨t, _, ht, happ, fun hr => ?_⟩
    obtain ⟨v, hv, hend, hout, _⟩ := decArithCompletes.1 u s.io.rest hu hfits hr
    exact ⟨v, hv, hend, hout⟩
  · have hmax : Config.arithTMax = 2 ^ 29 := rfl
    have hweight := eosWeight_le_cntSum (distribution (countTable S))
    rw [cntSum_distribution, countTable_sum (by omega)] at hweight
    unfold arithFits
    omega

end Sys2Proof.Machine
end

section

namespace Sys2Proof.Machine

/-! ### The system commands and the faulted engine -/

/-- `NOP` on a ready engine (R360, R362). -/
theorem execNop_ready {s : State} (h : s.Ready) :
    exec .nop s = .next { s with status := ⟨false, true, false⟩, phase := .idle } := by
  have hfault := h.2
  calc exec .nop s = .next s.acceptPlain.complete := runCommand_ready h State.acceptPlain (pure ())
    _ = .next { s with status := ⟨false, true, s.status.fault⟩, phase := .idle } := rfl
    _ = _ := by rw [hfault]

/-- A faulted engine ignores every command but `RESET` (R354, R362). -/
theorem exec_faulted {i : Instr} {s : State} (hi : i ≠ .reset) (hb : s.status.busy = false)
    (hf : s.status.fault = true) : exec i s = .next s := by
  rw [exec_eq]
  cases hc : i.cmdClass with
  | system =>
    cases i with
    | nop => exact runCommand_faulted hb hf _ _
    | reset => exact absurd rfl hi
    | _ => cases hc
  | primitive => exact runCommand_faulted hb hf _ _
  | stream => exact runCommand_faulted hb hf _ _

theorem execReset_idle {s : State} (hb : s.status.busy = false) : exec .reset s = .next s.softReset := by
  show execReset s = _
  rw [execReset, hb]
  rfl

/-- A byte that is the code of no command (R94, R346). -/
theorem writeCmd_illegal {c : Byte} (hc : ∀ i : Instr, encode i ≠ c) (s : State) : writeCmd c s = illegalCode s := by
  obtain ⟨_, _, hreject, _⟩ := decodeEncode
  rw [writeCmd, hreject c hc]

theorem illegalCode_ready {s : State} (h : s.Ready) : illegalCode s =
    .next { s with status := ⟨false, false, true⟩, faultCode := some .illegalCmd } := by
  obtain ⟨hbusy, hfault⟩ := h
  rw [illegalCode, hbusy, hfault]
  rfl

theorem illegalCode_faulted {s : State} (hb : s.status.busy = false) (hf : s.status.fault = true) :
    illegalCode s = .next s := by
  rw [illegalCode, hb, hf]
  rfl

/-- A faulted engine ignores every byte but the code of `RESET` (R354). -/
theorem writeCmd_faulted {c : Byte} {s : State} (hc : c ≠ encode .reset) (hb : s.status.busy = false)
    (hf : s.status.fault = true) : writeCmd c s = .next s := by
  by_cases hlegal : ∃ i : Instr, encode i = c
  · obtain ⟨i, rfl⟩ := hlegal
    rw [writeCmd_ok (decode_eq_ok_iff.2 rfl)]
    exact exec_faulted (fun hi => hc (congrArg encode hi)) hb hf
  · rw [writeCmd_illegal fun i hi => hlegal ⟨i, hi⟩]
    exact illegalCode_faulted hb hf

/-- A step with a write to `CMD` waiting (R21). -/
theorem step_writeCmd {s : State} {c : Byte} {rest : List HostAct} (h : s.host = .writeCmd c :: rest) :
    step s = writeCmd c (s.setHost rest) := by
  rw [step, h]
  rfl

/-- Settles O3: the acceptance and the end of `NOP` write `STATUS` and `PHASE` only; after reset nothing else is set. -/
theorem nopEffect : Obligations.NopEffect := by
  refine ⟨rfl, fun s hs => execNop_ready hs, fun s => exec_faulted (by decide), fun t ht => ?_⟩
  rw [execNop_ready ⟨rfl, rfl⟩] at ht
  cases ht
  rfl

/-- Settles O7: the byte decodes to no command, so the step takes ILLEGAL_CMD. -/
theorem illegalCodeFaults : Obligations.IllegalCodeFaults := by
  intro s c rest hs hhost hc
  rw [step_writeCmd hhost, writeCmd_illegal hc]
  exact illegalCode_ready hs

/-- Settles O8: a faulted engine ignores every byte but the code of `RESET`, which gives the state of R35. -/
theorem faultIsSticky : Obligations.FaultIsSticky := by
  intro s c rest hb hf hhost
  rw [step_writeCmd hhost]
  refine ⟨fun hc => writeCmd_faulted hc hb hf, ?_⟩
  rintro rfl
  exact ⟨_, (writeCmd_ok (i := .reset) (decode_eq_ok_iff.2 rfl) _).trans (execReset_idle hb), rfl, rfl⟩

end Sys2Proof.Machine
end

section

namespace Sys2Proof.Machine

/-! ### The pieces a command is made of -/

/-- The same state under the oracle that never fails (R68). -/
abbrev State.unfailing (s : State) : State := s.setOracle [] []

/-- A fault that is one of `L`; a loop without an end is no fault. -/
def Stop.Among (L : List FaultCode) (e : Stop) : Prop := ∀ c, e = .raise c → c ∈ L

/-- A piece raises no fault but those of `L`. -/
abbrev Run.Raises {σ α : Type} (L : List FaultCode) (m : Run σ α) : Prop :=
  Run.Sat (fun _ => True) m (fun _ _ => True) fun e _ => e.Among L

/-- Without failures a piece does what it does under any oracle, as far as it gets; where a failure stops it, it has
written the beginning of it (R351, R352). -/
def Run.Follows {α : Type} (m : Eng α) : Prop := ∀ s, match m s with
  | .ok a t => m s.unfailing = .ok a t.unfailing
  | .error _ t => t.io.out <+: (endState (m s.unfailing)).io.out

/-- What every piece of a command keeps: it does not go back to `IDLE`, the output only grows, `IN_BASE` stays. -/
structure State.GoesOn (s t : State) : Prop where
  phase : s.phase ≠ .idle → t.phase ≠ .idle
  out : s.io.out <+: t.io.out
  base : t.io.inBase = s.io.inBase

theorem State.GoesOn.refl (s : State) : s.GoesOn s := ⟨id, List.prefix_rfl, rfl⟩

theorem State.GoesOn.trans {s t u : State} (h : s.GoesOn t) (h' : t.GoesOn u) : s.GoesOn u :=
  ⟨h'.phase ∘ h.phase, h.out.trans h'.out, h'.base.trans h.base⟩

def goesOnFrame : Frame State := ⟨State.GoesOn, .refl, fun _ _ _ => .trans⟩

/-- A piece of a command's block that raises no fault but those of `L`. -/
structure Run.Piece (L : List FaultCode) {α : Type} (m : Eng α) : Prop where
  raises : Run.Raises L m
  follows : Run.Follows m
  keeps : Run.Keeps goesOnFrame m

/-- What an assignment that is no access to a stream leaves alone. -/
def State.footing (s : State) : Phase × List Byte × BitVec 64 := (s.phase, s.io.outRev, s.io.inBase)

theorem State.GoesOn.of_footing {s t : State} (h : t.footing = s.footing) : s.GoesOn t := by
  have hphase : t.phase = s.phase := congrArg (·.1) h
  have hout : t.io.outRev = s.io.outRev := congrArg (·.2.1) h
  refine ⟨fun hne => hphase ▸ hne, ?_, congrArg (·.2.2) h⟩
  rw [Streams.out, Streams.out, hout]

section
variable {L : List FaultCode} {σ α β : Type}

theorem Stop.among_raise {c : FaultCode} (h : c ∈ L) : (Stop.raise c).Among L := fun _ he => by cases he; exact h

theorem Stop.among_stuck : Stop.stuck.Among L := fun _ he => nomatch he

/-! #### Faults -/

theorem Run.Raises.bind {m : Run σ α} {f : α → Run σ β} (hm : Run.Raises L m) (hf : ∀ a, Run.Raises L (f a)) :
    Run.Raises L (m >>= f) := Run.Sat.bind hm hf

theorem Run.Raises.pure (a : α) : Run.Raises L (pure a : Run σ α) := Run.Sat.pure fun _ h => h
theorem Run.Raises.read (f : σ → α) : Run.Raises L (Run.read f) := Run.Sat.read fun _ h => h
theorem Run.Raises.update (f : σ → σ) : Run.Raises L (Run.update f) := Run.Sat.update fun _ h => h
theorem Run.Raises.stuck : Run.Raises L (Run.stuck : Run σ α) := Run.Sat.stuck fun _ _ => Stop.among_stuck

theorem Run.Raises.raise {c : FaultCode} (h : c ∈ L) : Run.Raises L (Run.raise c : Run σ α) :=
  Run.Sat.raise fun _ _ => Stop.among_raise h

theorem Run.Raises.require {c : FaultCode} (h : c ∈ L) (b : Bool) : Run.Raises L (Run.require b c : Run σ Unit) :=
  Run.Sat.require (fun _ _ h => h) fun _ _ _ => Stop.among_raise h

theorem Run.Raises.each {f : α → Run σ Unit} (hf : ∀ a, Run.Raises L (f a)) (xs : List α) :
    Run.Raises L (Run.each xs f) := Run.Sat.each hf xs

/-! #### Runs under an oracle that never fails -/

theorem Run.Follows.of_ok {m : Eng α} (h : Run.Follows m) {s t : State} {a : α} (hm : m s = .ok a t) :
    m s.unfailing = .ok a t.unfailing := by
  have := h s
  rwa [hm] at this

theorem Run.Follows.of_error {m : Eng α} (h : Run.Follows m) {s t : State} {e : Stop} (hm : m s = .error e t) :
    t.io.out <+: (endState (m s.unfailing)).io.out := by
  have := h s
  rwa [hm] at this

/-- However a piece ends, it has written the beginning of what it writes without failures. -/
theorem Run.Follows.out_prefix {m : Eng α} (h : Run.Follows m) (s : State) :
    (endState (m s)).io.out <+: (endState (m s.unfailing)).io.out := by
  cases hm : m s with
  | ok a t => rw [h.of_ok hm]; exact List.prefix_rfl
  | error e t => exact h.of_error hm

/-- What comes behind a failure only writes more. -/
theorem Run.Follows.bind {m : Eng α} {f : α → Eng β} (hm : Run.Follows m) (hf : ∀ a, Run.Follows (f a))
    (hg : ∀ a, Run.Keeps goesOnFrame (f a)) : Run.Follows (m >>= f) := fun s => by
  rw [Run.bind_apply, Run.bind_apply]
  cases hms : m s with
  | ok a t => rw [hm.of_ok hms]; exact hf a t
  | error e t =>
    have hpre := hm.of_error hms
    cases hmu : m s.unfailing with
    | ok a u => rw [hmu] at hpre; exact hpre.trans (hg a u).out
    | error e' u => rw [hmu] at hpre; exact hpre

/-! #### Ways of putting pieces together -/

theorem Run.Piece.bind {m : Eng α} {f : α → Eng β} (hm : Run.Piece L m) (hf : ∀ a, Run.Piece L (f a)) :
    Run.Piece L (m >>= f) :=
  ⟨hm.raises.bind fun a => (hf a).raises, hm.follows.bind (fun a => (hf a).follows) fun a => (hf a).keeps,
    hm.keeps.bind fun a => (hf a).keeps⟩

/-- Two pieces seen as one. -/
theorem Run.Piece.bind_join {γ : Type} {m : Eng α} {f : α → Eng β} {g : β → Eng γ} (hm : Run.Piece L (m >>= f))
    (hg : ∀ b, Run.Piece L (g b)) : Run.Piece L (m >>= fun a => f a >>= g) := by
  have hassoc : (m >>= fun a => f a >>= g) = ((m >>= f) >>= g) := by
    funext s
    exact (Run.bind_assoc_apply m f g s).symm
  rw [hassoc]
  exact hm.bind hg

theorem Run.Piece.pure (a : α) : Run.Piece L (pure a : Eng α) := ⟨.pure a, fun _ => rfl, .pure a⟩

theorem Run.Piece.read {f : State → α} (hf : ∀ s : State, f s.unfailing = f s) : Run.Piece L (Run.read f) :=
  ⟨.read f, fun s => congrArg (EStateM.Result.ok · s.unfailing) (hf s), .read f⟩

theorem Run.Piece.update {f : State → State} (hf : ∀ s, f s.unfailing = (f s).unfailing)
    (hg : ∀ s, (f s).footing = s.footing) : Run.Piece L (Run.update f) :=
  ⟨.update f, fun s => congrArg (EStateM.Result.ok ()) (hf s), .update fun s => .of_footing (hg s)⟩

theorem Run.Piece.raise {c : FaultCode} (h : c ∈ L) : Run.Piece L (Run.raise c : Eng α) :=
  ⟨.raise h, fun _ => List.prefix_rfl, .raise c⟩

theorem Run.Piece.stuck : Run.Piece L (Run.stuck : Eng α) := ⟨.stuck, fun _ => List.prefix_rfl, .stuck⟩

theorem Run.Piece.require {c : FaultCode} (h : c ∈ L) (b : Bool) : Run.Piece L (Run.require b c) :=
  ⟨.require h b, fun _ => by cases b; exacts [List.prefix_rfl, rfl], .require b c⟩

theorem Run.Piece.ite {c : Prop} [Decidable c] {m n : Eng α} (hm : Run.Piece L m) (hn : Run.Piece L n) :
    Run.Piece L (if c then m else n) := by split <;> assumption

theorem Run.Piece.each {f : α → Eng Unit} (hf : ∀ a, Run.Piece L (f a)) : ∀ xs : List α, Run.Piece L (Run.each xs f)
  | [] => .pure ()
  | x :: xs => .bind (hf x) fun _ => Run.Piece.each hf xs

theorem Run.Piece.times {m : Eng Unit} (hm : Run.Piece L m) : ∀ n, Run.Piece L (Run.times n m)
  | 0 => .pure ()
  | n + 1 => .bind hm fun _ => Run.Piece.times hm n

/-- A piece in front of which nothing is known stops, if at all, outside `IDLE`. -/
structure Run.Block (L : List FaultCode) (m : Eng α) : Prop extends Run.Piece L m where
  wakes : ∀ s, (endState (m s)).phase ≠ .idle

end

/-! #### The operations of the whole state -/

section
variable {L : List FaultCode} {α : Type}

theorem setW_piece (f : Working → Working) : Run.Piece L (setW f) := .update (fun _ => rfl) fun _ => rfl

/-- Working registers written from what the state holds. -/
theorem updateW_piece {g : State → Working} (hg : ∀ s : State, g s.unfailing = g s) :
    Run.Piece L (Run.update fun s => s.setW (g s)) :=
  .update (fun s => congrArg s.unfailing.setW (hg s)) fun _ => rfl

theorem setPhase_piece {p : Phase} (h : p ≠ .idle) : Run.Piece L (setPhase p) :=
  ⟨.update _, fun _ => rfl, .update fun _ => ⟨fun _ => h, List.prefix_rfl, rfl⟩⟩

/-- A block names its phase first. -/
theorem setPhase_block {p : Phase} {f : Unit → Eng α} (h : p ≠ .idle) (hf : Run.Piece L (f ())) :
    Run.Block L (setPhase p >>= f) :=
  ⟨.bind (setPhase_piece h) fun _ => hf, fun s => (hf.keeps (s.setPhase p)).phase h⟩

/-- A piece that works on a part of the state alone. -/
theorem Run.Piece.of_part {σ : Type} {m : Eng α} {n : Run σ α} {get : State → σ} {put : State → σ → State}
    (hm : ∀ s, m s = match n (get s) with
      | .ok a x => .ok a (put s x)
      | .error e x => .error e (put s x))
    (hget : ∀ s : State, get s.unfailing = get s) (hput : ∀ s x, put s.unfailing x = (put s x).unfailing)
    (hfoot : ∀ s x, (put s x).footing = s.footing) (hn : Run.Raises L n) : Run.Piece L m := by
  refine ⟨fun s _ => ?_, fun s => ?_, fun s => ?_⟩
  · have hs := hn (get s) trivial
    rw [hm]
    cases hr : n (get s) with
    | ok a x => trivial
    | error e x => rw [hr] at hs; exact hs
  · rw [hm, hm, hget]
    cases n (get s) with
    | ok a x => exact congrArg (EStateM.Result.ok a) (hput s x)
    | error e x =>
      have hout : (put s.unfailing x).io.out = (put s x).io.out := congrArg (·.io.out) (hput s x)
      exact hout ▸ List.prefix_rfl
  · rw [hm]
    cases n (get s) with
    | ok a x => exact .of_footing (hfoot s x)
    | error e x => exact .of_footing (hfoot s x)

theorem onMain_piece {m : Run TreeMem α} (hm : Run.Raises L m) : Run.Piece L (onMain m) :=
  .of_part (get := State.main) (put := State.setMain) (fun s => by unfold onMain; cases m s.main <;> rfl)
    (fun _ => rfl) (fun _ _ => rfl) (fun _ _ => rfl) hm

theorem onCtxModel_piece (c : Nat) {m : Run TreeMem α} (hm : Run.Raises L m) : Run.Piece L (onCtxModel c m) :=
  .of_part (get := fun s => (ctxGet s.ctx c).model)
    (put := fun s t => s.setCtx (ctxSet s.ctx c { ctxGet s.ctx c with model := t }))
    (fun s => by unfold onCtxModel; cases m (ctxGet s.ctx c).model <;> rfl)
    (fun _ => rfl) (fun _ _ => rfl) (fun _ _ => rfl) hm

theorem onFgk_piece {m : Run FgkMem α} (hm : Run.Raises L m) : Run.Piece L (onFgk m) :=
  .of_part (get := State.fgk) (put := State.setFgk) (fun s => by unfold onFgk; cases m s.fgk <;> rfl)
    (fun _ => rfl) (fun _ _ => rfl) (fun _ _ => rfl) hm

/-! #### The streams -/

theorem touchInput_piece (h : .ioRead ∈ L) : Run.Piece L touchInput := by
  refine ⟨.bind (.update _) fun _ => .bind (.read _) fun _ => .require h _, fun s => ?_,
    .bind (.update fun s => .of_footing rfl) fun _ => .bind (.read _) fun _ => .require _ _⟩
  rw [touchInput_eq, touchInput_eq]
  cases s.io.failIn.contains (s.io.inAcc + 1) with
  | true => exact List.prefix_rfl
  | false => rfl

theorem inRead_piece (h : .ioRead ∈ L) : Run.Piece L inRead := by
  refine .bind (touchInput_piece h) fun _ => .bind (.read fun _ => rfl) fun r => ?_
  cases r with
  | none => exact .pure _
  | some b => exact .bind (.update (fun _ => rfl) fun _ => rfl) fun _ => .pure _

theorem inAtEnd_piece (h : .ioRead ∈ L) : Run.Piece L inAtEnd :=
  .bind (touchInput_piece h) fun _ => .read fun _ => rfl

theorem inRewind_piece (h : .ioRead ∈ L) : Run.Piece L inRewind :=
  .bind (touchInput_piece h) fun _ => .bind (.update (fun _ => rfl) fun _ => rfl) fun _ => setW_piece _

theorem State.wrote_goesOn (s : State) (v : Byte) : s.GoesOn (s.wrote v) :=
  ⟨id, ⟨[v], (s.wroteAll_out [v]).symm⟩, rfl⟩

theorem outWrite_piece (h : .ioWrite ∈ L) (v : Byte) : Run.Piece L (outWrite v) := by
  refine ⟨.bind (.update _) fun _ => .bind (.read _) fun _ => .bind (.require h _) fun _ => .update _, fun s => ?_,
    fun s => ?_⟩
  · rw [outWrite_eq, outWrite_eq]
    cases s.io.failOut.contains (s.io.outAcc + 1) with
    | true => exact (s.unfailing.wrote_goesOn v).out
    | false => rfl
  · rw [outWrite_eq]
    cases s.io.failOut.contains (s.io.outAcc + 1) with
    | true => exact .of_footing rfl
    | false => exact s.wrote_goesOn v

theorem memRead_piece (hr : .ioRead ∈ L) (hh : .malformedHeader ∈ L) : ∀ n, Run.Piece L (memRead n)
  | 0 => .pure _
  | n + 1 => by
    refine .bind (inRead_piece hr) fun r => ?_
    cases r with
    | none => exact .raise hh
    | some b => exact .bind (memRead_piece hr hh n) fun _ => .pure _

theorem memWrite_piece (hw : .ioWrite ∈ L) : ∀ n v, Run.Piece L (memWrite n v)
  | 0, _ => .pure _
  | n + 1, _ => .bind (outWrite_piece hw _) fun _ => memWrite_piece hw n _

/-! #### The bit packer, the bit parser, the counter -/

theorem flushByte_piece (hw : .ioWrite ∈ L) : Run.Piece L flushByte :=
  .bind (.read fun _ => rfl) fun v => .bind (outWrite_piece hw v) fun _ => setW_piece _

theorem putBit_piece (hw : .ioWrite ∈ L) (b : Bool) : Run.Piece L (putBit b) :=
  .bind (setW_piece _) fun _ => .bind (.read fun _ => rfl) fun _ => .ite (flushByte_piece hw) (.pure _)

theorem putBits_piece (hw : .ioWrite ∈ L) (c : Bits) : Run.Piece L (putBits c) := .each (putBit_piece hw) c

theorem padAndFlush_piece (hw : .ioWrite ∈ L) : Run.Piece L padAndFlush :=
  .bind (.read fun _ => rfl) fun _ => .ite (.pure _) (flushByte_piece hw)

theorem takeBit_piece : Run.Piece L takeBit :=
  .bind (.read fun _ => rfl) fun _ => .bind (setW_piece _) fun _ => .pure _

theorem getBitOpt_piece (hr : .ioRead ∈ L) : Run.Piece L getBitOpt := by
  refine .bind (.read fun _ => rfl) fun n => .ite (.bind (inRead_piece hr) fun r => ?_)
    (.bind takeBit_piece fun _ => .pure _)
  cases r with
  | none => exact .pure _
  | some v => exact .bind (setW_piece _) fun _ => .bind takeBit_piece fun _ => .pure _

theorem getBit_piece (hr : .ioRead ∈ L) (ht : .malformedTruncated ∈ L) : Run.Piece L getBit := by
  refine .bind (getBitOpt_piece hr) fun r => ?_
  cases r with
  | none => exact .raise ht
  | some b => exact .pure _

theorem getBitOrZero_piece (hr : .ioRead ∈ L) : Run.Piece L getBitOrZero :=
  .bind (getBitOpt_piece hr) fun _ => .pure _

theorem bumpNsym_piece : Run.Piece L bumpNsym := by
  refine .update (fun s => ?_) fun s => ?_
  · show (if s.w.nsym.toNat + 1 < 2 ^ 40 then _ else _) = State.unfailing (if _ then _ else _)
    split <;> rfl
  · split <;> rfl

/-! #### Counting and the distribution -/

theorem countLoop_piece (hr : .ioRead ∈ L) (ho : .countOverflow ∈ L) : ∀ n, Run.Piece L (countLoop n)
  | 0 => .stuck
  | n + 1 => by
    refine .bind (inRead_piece hr) fun r => ?_
    cases r with
    | none => exact .pure _
    | some b =>
      exact .bind (.read fun _ => rfl) fun _ => .bind (.require ho _) fun _ =>
        .bind (.update (fun _ => rfl) fun _ => rfl) fun _ => .bind (setW_piece _) fun _ => countLoop_piece hr ho n

theorem countBlock_piece (hr : .ioRead ∈ L) (ho : .countOverflow ∈ L) : Run.Piece L countBlock :=
  .bind (.update (fun _ => rfl) fun _ => rfl) fun _ => .bind (setW_piece _) fun _ => .bind (.read fun _ => rfl) fun _ =>
    countLoop_piece hr ho _

theorem distBlock_piece : Run.Piece L distBlock := .update (fun _ => rfl) fun _ => rfl

theorem writeRange_piece (i : Nat) (sym : BitVec 9) (lo hi : Nat) : Run.Piece L (writeRange i sym lo hi) :=
  .update (fun _ => rfl) fun _ => rfl

theorem rangeLoop_piece : ∀ dl i cum, Run.Piece L (rangeLoop dl i cum)
  | [], _, _ => .pure _
  | _ :: es, i, _ => .bind (writeRange_piece _ _ _ _) fun _ => rangeLoop_piece es (i + 1) _

theorem rangesBlock_piece (ht : .rangeTotal ∈ L) : Run.Piece L rangesBlock := by
  refine .bind distBlock_piece fun _ => .bind (.read fun _ => rfl) fun dl => ?_
  cases dl.getLast? with
  | none => exact setW_piece _
  | some last =>
    exact .bind (rangeLoop_piece _ _ _) fun _ => .bind (writeRange_piece _ _ _ _) fun _ =>
      .bind (.require ht _) fun _ => setW_piece _

theorem withDist_piece {b : List DistEntry → Run TreeMem Unit} (hb : ∀ dl, Run.Raises L (b dl)) :
    Run.Piece L (withDist b) := .bind (.read fun _ => rfl) fun dl => onMain_piece (hb dl)

end

end Sys2Proof.Machine
end

section

namespace Sys2Proof.Machine

/-! ### The code-tree blocks and the builders: no fault where the arena has room -/

section
variable {L : List FaultCode}

/-! #### The blocks with no fault but ARENA_OVERFLOW -/

theorem growPath_raises (ha : .arenaOverflow ∈ L) : ∀ bs cur, Run.Raises L (growPath bs cur)
  | [], _ => .pure _
  | b :: bs, cur => by
    refine .bind (.read _) fun c => ?_
    cases c with
    | some child => exact growPath_raises ha bs child
    | none =>
      exact .bind (.read _) fun n => .bind (.require ha _) fun _ => .bind (.update _) fun _ => .bind (.update _) fun _ =>
        growPath_raises ha bs n

theorem plantSymbol_raises (ha : .arenaOverflow ∈ L) (e : DistEntry) : Run.Raises L (plantSymbol e) := by
  refine .bind (.read _) fun c => ?_
  cases c with
  | none => exact .pure _
  | some bits => exact .bind (growPath_raises ha bits 0) fun _ => .update _

theorem fromSchemeBlock_raises (ha : .arenaOverflow ∈ L) (dl : List DistEntry) : Run.Raises L (fromSchemeBlock dl) :=
  .bind (.update _) fun _ => .each (plantSymbol_raises ha) dl

theorem resolve_raises : ∀ n i, Run.Raises L (resolve n i)
  | 0, _ => .stuck
  | n + 1, i => by
    refine .bind (.read _) fun nd => ?_
    obtain ⟨sym, left, right⟩ := nd
    match sym, left, right with
    | some _, _, _ => exact .pure _
    | none, some l, none => exact resolve_raises n l
    | none, none, some r => exact resolve_raises n r
    | none, none, none => exact .pure _
    | none, some l, some r =>
      exact .bind (resolve_raises n l) fun _ => .bind (.update _) fun _ => .bind (resolve_raises n r) fun _ =>
        .bind (.update _) fun _ => .pure _

theorem truncBlock_raises : Run.Raises L truncBlock := by
  refine .bind (.read _) fun root => ?_
  cases root with
  | none => exact .pure _
  | some r => exact .bind (resolve_raises depthBound r) fun _ => .update _

theorem visit_raises : ∀ n i? p, Run.Raises L (visit n i? p)
  | 0, none, _ | _ + 1, none, _ => .pure _
  | 0, some _, _ => .stuck
  | n + 1, some i, p => by
    refine .bind (.read _) fun nd => ?_
    cases nd.sym with
    | some s => exact .update _
    | none => exact .bind (visit_raises n nd.left _) fun _ => visit_raises n nd.right _

theorem deriveBlock_raises : Run.Raises L deriveBlock :=
  .bind (.update _) fun _ => .bind (.read _) fun root => visit_raises depthBound root []

theorem plantLeaves_raises : ∀ dl i, Run.Raises L (plantLeaves dl i)
  | [], _ => .pure _
  | _ :: es, i => .bind (.update _) fun _ => plantLeaves_raises es (i + 1)

theorem mergeLoop_raises : ∀ k q, Run.Raises L (mergeLoop k q)
  | 0, _ => .stuck
  | k + 1, q => by
    rw [mergeLoop]
    split
    · exact .stuck
    · split
      · exact .pure _
      · exact .bind (.read _) fun _ => .bind (.update _) fun _ => .bind (.update _) fun _ => mergeLoop_raises k _

theorem huffmanBlock_raises : ∀ dl, Run.Raises L (huffmanBlock dl)
  | [] => .update _
  | [_] => .update _
  | e :: e' :: es => .bind (plantLeaves_raises (e :: e' :: es) 0) fun _ => .bind (.update _) fun _ =>
      .bind (mergeLoop_raises _ _) fun _ => .bind (.update _) fun _ => deriveBlock_raises

/-- `TREE.FROMSCHEME`'s block does not fault where the arena has room for every codeword (R150). -/
theorem fromSchemeBlock_fits {dl : List DistEntry} :
    Run.Sat (fun t => Trie.lone.Fits (t.codesOf dl)) (fromSchemeBlock dl) (fun _ _ => True) fun e _ => e.Among L :=
  fun t ht => by
    obtain ⟨u, hu, _⟩ := fromSchemeBlock_ok ht
    rw [hu]
    trivial

/-! #### Shannon: 256 codewords of 40 bits -/

/-- No codeword of the scheme is longer than 40 bits (R176). -/
def TreeMem.Short (t : TreeMem) : Prop := ∀ k c, t.code k = some c → c.length ≤ Config.shannonLenMax

theorem TreeMem.Short.setCode {t : TreeMem} (h : t.Short) (s : Nat) {c : Bits}
    (hc : c.length ≤ Config.shannonLenMax) : (t.setCode s c).Short := fun k d hd => by
  rw [TreeMem.code_setCode] at hd
  split at hd
  · cases hd; exact hc
  · exact h k d hd

theorem shannonLen_le {c S n : Nat} (h : shannonLen c S = some n) : n ≤ Config.shannonLenMax :=
  Nat.le_of_lt_succ (List.mem_range.1 (List.mem_of_find?_eq_some h))

theorem shannonLoop_short (S : Nat) : ∀ (dl : List DistEntry) (C : Nat),
    Run.Sat TreeMem.Short (shannonLoop dl S C) (fun _ => TreeMem.Short) fun e _ => e.Among L
  | [], _ => .pure fun _ h => h
  | e :: es, C => by
    rw [shannonLoop]
    cases hn : shannonLen e.cnt.toNat S with
    | none => exact .stuck fun _ _ => Stop.among_stuck
    | some n =>
      exact .update_keep (fun _ h => h.setCode _ ((numeral_length n _).trans_le (shannonLen_le hn)))
        (shannonLoop_short S es _)

/-- 256 short codewords fit the arena: it has one slot more than their bits (R28). -/
theorem TreeMem.Short.fits {t : TreeMem} (h : t.Short) {dl : List DistEntry} (hdl : dl.length ≤ 256) :
    Trie.lone.Fits (t.codesOf dl) := by
  have hcodes : ∀ n ∈ (t.codesOf dl).map (fun c => c.2.length), n ≤ 40 := by
    intro n hn
    obtain ⟨c, hc, rfl⟩ := List.mem_map.1 hn
    obtain ⟨e, _, he⟩ := List.mem_filterMap.1 hc
    obtain ⟨d, hd, rfl⟩ := Option.map_eq_some_iff.1 he
    exact h _ d hd
  have hsum := List.sum_le_card_nsmul _ 40 hcodes
  have hlen : (t.codesOf dl).length ≤ dl.length := List.length_filterMap_le _ _
  have hcap : Config.treeCap = 10241 := rfl
  rw [List.length_map, smul_eq_mul] at hsum
  exact Trie.fits_of_sum (by omega)

/-- `BLD.SHANNON`'s block on a distribution of at most 256 entries raises no fault, whatever its counts. -/
theorem shannonBlock_raises : ∀ {dl : List DistEntry}, dl.length ≤ 256 → Run.Raises L (shannonBlock dl)
  | [], _ => .update _
  | [_], _ => .update _
  | e :: e' :: es, hdl =>
    .update_bind (R := TreeMem.Short) (fun t _ k c hc => by rw [TreeMem.clearScheme_code] at hc; cases hc) <|
      .bind (shannonLoop_short _ _ 0) fun _ => .bind
        (fromSchemeBlock_fits.conseq (fun _ h => h.fits hdl) (fun _ _ h => h) fun _ _ h => h) fun _ =>
        .bind truncBlock_raises fun _ => deriveBlock_raises

/-! #### Fano: the codewords lie on one tree with a leaf an entry -/

/-- Every node of the one tree has its place in the other. -/
def Trie.Within : Trie → Trie → Prop
  | .nil, _ => True
  | .node _ _ _, .nil => False
  | .node _ l r, .node _ l' r' => l.Within l' ∧ r.Within r'

theorem Trie.Within.size_le : ∀ {tr big : Trie}, tr.Within big → tr.size ≤ big.size
  | .nil, _, _ => Nat.zero_le _
  | .node _ _ _, .nil, h => h.elim
  | .node _ _ _, .node _ _ _, ⟨hl, hr⟩ => Nat.add_le_add_right (Nat.add_le_add hl.size_le hr.size_le) 1

/-- A codeword whose path lies on the larger tree, walked in. -/
theorem Trie.Within.graft {sym sym' : Byte} : ∀ {c : Bits} {tr big : Trie}, tr.Within big →
    (Trie.graft sym' c .nil).Within big → (Trie.graft sym c tr).Within big
  | [], .nil, .node _ _ _, _, h => h
  | [], .node _ _ _, .node _ _ _, h, _ => h
  | b :: bs, .nil, .node _ _ _, _, hc => by
    cases b
    · exact ⟨Trie.Within.graft (c := bs) (tr := .nil) trivial hc.1, trivial⟩
    · exact ⟨trivial, Trie.Within.graft (c := bs) (tr := .nil) trivial hc.2⟩
  | b :: bs, .node _ _ _, .node _ _ _, h, hc => by
    cases b
    · exact ⟨h.1.graft hc.1, h.2⟩
    · exact ⟨h.1, h.2.graft hc.2⟩
  | [], .nil, .nil, _, h => h
  | b :: bs, .nil, .nil, _, h => by cases b <;> exact h.elim

theorem Trie.Within.graftAll {big : Trie} : ∀ {codes : List (Byte × Bits)} {tr : Trie}, tr.Within big →
    (∀ c ∈ codes, ∃ sym, (Trie.graft sym c.2 .nil).Within big) → (tr.graftAll codes).Within big
  | [], _, h, _ => h
  | c :: codes, tr, h, hc => by
    obtain ⟨_, hsym⟩ := hc c List.mem_cons_self
    exact Trie.Within.graftAll (codes := codes) (tr := Trie.graft c.1 c.2 tr) (h.graft hsym) fun d hd => hc d (List.mem_cons_of_mem c hd)

/-- The paths of a tree lie on it. -/
theorem Shape.paths_within : ∀ (sh : Shape), ∀ c ∈ sh.pathsFrom [], (Trie.graft c.1 c.2 .nil).Within sh.trie
  | .dead, _, hc => by cases hc
  | .leaf _, c, hc => by
    rw [Shape.pathsFrom, List.mem_singleton] at hc
    subst hc
    exact ⟨trivial, trivial⟩
  | .left l, c, hc => by
    rw [Shape.pathsFrom, Shape.pathsFrom_eq] at hc
    obtain ⟨d, hd, rfl⟩ := List.mem_map.1 hc
    exact ⟨l.paths_within d hd, trivial⟩
  | .right r, c, hc => by
    rw [Shape.pathsFrom, Shape.pathsFrom_eq] at hc
    obtain ⟨d, hd, rfl⟩ := List.mem_map.1 hc
    exact ⟨trivial, r.paths_within d hd⟩
  | .both l r, c, hc => by
    rw [Shape.pathsFrom, Shape.pathsFrom_eq l, Shape.pathsFrom_eq r, List.mem_append] at hc
    obtain hc | hc := hc
    · obtain ⟨d, hd, rfl⟩ := List.mem_map.1 hc
      exact ⟨l.paths_within d hd, trivial⟩
    · obtain ⟨d, hd, rfl⟩ := List.mem_map.1 hc
      exact ⟨trivial, r.paths_within d hd⟩

/-- The codewords written by a walk over a tree are paths of the tree. -/
theorem mem_codesOf_paths {t : TreeMem} {dl : List DistEntry} {sh : Shape} {c : Byte × Bits}
    (hc : c ∈ (sh.paths.foldl (fun t e => t.setCode e.1.toNat e.2) t.clearScheme).codesOf dl) : c ∈ sh.paths := by
  obtain ⟨e, _, he⟩ := List.mem_filterMap.1 hc
  obtain ⟨d, hd, rfl⟩ := Option.map_eq_some_iff.1 he
  rw [foldl_setCode_code, TreeMem.clearScheme_code, Option.or_none] at hd
  obtain ⟨x, hx, rfl⟩ := Option.map_eq_some_iff.1 hd
  have hsym : x.1 = e.sym := beq_iff_eq.1 (List.find?_some hx :)
  exact hsym ▸ List.mem_reverse.1 (List.mem_of_find?_eq_some hx)

/-- The codewords of a full tree of at most 256 leaves fit the arena, though a symbol may have several leaves. -/
theorem Shape.fits_of_full {sh : Shape} (hf : sh.full = true) (hn : sh.symbols.length ≤ 256)
    {codes : List (Byte × Bits)} (hc : ∀ c ∈ codes, c ∈ sh.paths) : Trie.lone.Fits codes := by
  have hcap : Config.treeCap = 10241 := rfl
  have hsize := Shape.trie_size hf
  have hroot : Trie.lone.Within sh.trie := by
    cases sh with
    | dead => cases hf
    | _ => exact ⟨trivial, trivial⟩
  have hall : (Trie.lone.graftAll codes).Within sh.trie :=
    hroot.graftAll fun c h => ⟨c.1, sh.paths_within c (hc c h)⟩
  have hle := hall.size_le
  refine Trie.fits_of_size (n := 255) (fun c h => ?_) (by omega)
  have := Shape.full_path_length hf c (hc c h)
  omega

/-- `BLD.FANO`'s block on a distribution of at most 256 entries raises no fault, whatever its symbols. -/
theorem fanoBlock_raises : ∀ {dl : List DistEntry}, dl.length ≤ 256 → Run.Raises L (fanoBlock dl)
  | [], _ => .update _
  | [_], _ => .update _
  | e :: e' :: es, hdl => by
    obtain ⟨hsym, hfull⟩ := fanoTree_symbols _ (e :: e' :: es) (List.cons_ne_nil _ _) le_rfl
    refine .update_bind (R := fun t => ∃ u : TreeMem, t = u.clearScheme) (fun t _ => ⟨t, rfl⟩) <|
      .bind (R := fun _ t => Trie.lone.Fits (t.codesOf (e :: e' :: es))) (fun t ht => ?_) fun _ => fromSchemeBlock_fits
    obtain ⟨u, rfl⟩ := ht
    rw [fano_ok _ _ [] _ (List.cons_ne_nil _ _) le_rfl]
    exact Shape.fits_of_full hfull (by rw [hsym, List.length_map]; exact hdl) fun c hc => mem_codesOf_paths hc

end

/-- A builder that raises no fault on a distribution of at most 256 entries. -/
abbrev Builder.Quiet (builder : Builder) : Prop :=
  ∀ {L : List FaultCode} {dl : List DistEntry}, dl.length ≤ 256 → Run.Raises L (builder dl)

end Sys2Proof.Machine
end

section

namespace Sys2Proof.Machine

/-! ### The blocks as pieces -/

/-- Every fault code (R341). -/
def FaultCode.all : List FaultCode :=
  [.ioRead, .ioWrite, .illegalCmd, .countOverflow, .rangeTotal, .arenaOverflow, .malformedHeader, .malformedTruncated,
    .malformedPath, .malformedNoSymbol, .malformedContext, .malformedLiteral]

theorem FaultCode.mem_all (c : FaultCode) : c ∈ FaultCode.all := by cases c <;> decide

/-- Of a piece of which nothing is known, that its faults are fault codes. -/
theorem Run.Raises.any {σ α : Type} (m : Run σ α) : Run.Raises FaultCode.all m := fun s _ => by
  cases m s with
  | ok a t => trivial
  | error e t => exact fun c _ => c.mem_all

section
variable {L : List FaultCode}

/-- A better list of faults. -/
theorem Run.Piece.of_raises {L' : List FaultCode} {α : Type} {m : Eng α} (h : Run.Piece L' m) (hr : Run.Raises L m) :
    Run.Piece L m := ⟨hr, h.follows, h.keeps⟩

/-! #### The static codec -/

theorem distBlock_length : Run.Sat (fun _ => True) distBlock (fun _ s => s.distList.length ≤ 256)
    fun e _ => e.Among L := fun s _ => by
  obtain ⟨t, ht, hdl⟩ := distBlock_distList s
  rw [ht]
  show t.distList.length ≤ 256
  rw [hdl]
  exact distribution_length s.freq

/-- A builder behind `DIST` finds a distribution of at most 256 entries (R132, R170). -/
theorem distBuild_piece {builder : Builder} (hb : builder.Quiet) :
    Run.Piece L (distBlock >>= fun _ => withDist builder) := by
  refine Run.Piece.of_raises (L' := FaultCode.all)
    (.bind distBlock_piece fun _ => withDist_piece fun _ => .any _) <|
    Run.Sat.bind distBlock_length fun _ => Run.Sat.bind_fact (R := fun _ => True) (φ := fun dl => dl.length ≤ 256)
      (.read fun _ h => ⟨trivial, h⟩) fun dl hdl => (onMain_piece (hb hdl)).raises

theorem writeHeader_piece (hw : .ioWrite ∈ L) (f : Table (BitVec 32)) : Run.Piece L (writeHeader f) :=
  .each (fun _ => memWrite_piece hw 4 _) _

theorem encodeLoop_piece (hr : .ioRead ∈ L) (hw : .ioWrite ∈ L) : ∀ n, Run.Piece L (encodeLoop n)
  | 0 => .stuck
  | n + 1 => by
    refine .bind (inRead_piece hr) fun r => ?_
    cases r with
    | none => exact .pure _
    | some b =>
      exact .bind (.read fun _ => rfl) fun c => .bind (.read fun _ => rfl) fun _ => .bind (.require hr _) fun _ =>
        .bind (putBits_piece hw _) fun _ => .bind bumpNsym_piece fun _ => encodeLoop_piece hr hw n

theorem requireAllSeen_piece (hr : .ioRead ∈ L) : Run.Piece L requireAllSeen :=
  .bind (.read fun _ => rfl) fun _ => .require hr _

theorem encodePayload_piece (hr : .ioRead ∈ L) (hw : .ioWrite ∈ L) : Run.Piece L encodePayload :=
  .bind (setW_piece _) fun _ => .bind (.read fun _ => rfl) fun _ => .bind (encodeLoop_piece hr hw _) fun _ =>
    requireAllSeen_piece hr

theorem staticCompress_block (hr : .ioRead ∈ L) (hw : .ioWrite ∈ L) (ho : .countOverflow ∈ L) {builder : Builder}
    (hb : builder.Quiet) : Run.Block L (staticCompress builder) :=
  setPhase_block (by decide) <| .bind (countBlock_piece hr ho) fun _ => .bind (setPhase_piece (by decide)) fun _ =>
    .bind_join (distBuild_piece hb) fun _ => .bind (setPhase_piece (by decide)) fun _ =>
    .bind (.read fun _ => rfl) fun f => .bind (writeHeader_piece hw f) fun _ =>
    .bind (setPhase_piece (by decide)) fun _ => .bind (inRewind_piece hr) fun _ =>
    .bind (encodePayload_piece hr hw) fun _ => .bind (setPhase_piece (by decide)) fun _ => padAndFlush_piece hw

theorem readHeaderWith_piece (hr : .ioRead ∈ L) (hh : .malformedHeader ∈ L) {store : Nat → BitVec 32 → State → State}
    (hs : ∀ i v s, store i v s.unfailing = (store i v s).unfailing) (hf : ∀ i v s, (store i v s).footing = s.footing) :
    Run.Piece L (readHeaderWith store) :=
  .each (fun i => .bind (memRead_piece hr hh 4) fun _ => .update (hs i _) (hf i _)) _

theorem readHeader_piece (hr : .ioRead ∈ L) (hh : .malformedHeader ∈ L) : Run.Piece L readHeader := by
  have hread : Run.Piece L (readHeaderWith (fun i v s => s.setFreq (freqSet s.freq i v))) :=
    readHeaderWith_piece hr hh (fun _ _ _ => rfl) fun _ _ _ => rfl
  exact .bind hread fun _ => updateW_piece fun _ => rfl

theorem walkLoop_piece (hr : .ioRead ∈ L) (ht : .malformedTruncated ∈ L) (hp : .malformedPath ∈ L)
    (T : Table TreeNode) : ∀ n cur, Run.Piece L (walkLoop T n cur)
  | 0, _ => .stuck
  | n + 1, cur => by
    unfold walkLoop
    cases (treeGet T cur).sym with
    | some s => exact .pure _
    | none =>
      refine .bind (getBit_piece hr ht) fun b => .bind (setW_piece _) fun _ => ?_
      cases (treeGet T cur).child b with
      | none => exact .raise hp
      | some next => exact walkLoop_piece hr ht hp T n next

theorem walkSymbol_piece (hr : .ioRead ∈ L) (ht : .malformedTruncated ∈ L) (hp : .malformedPath ∈ L)
    (T : Table TreeNode) (root : Option Nat) : Run.Piece L (walkSymbol T root) := by
  unfold walkSymbol
  cases root with
  | none => exact .raise hp
  | some r => exact .bind (setW_piece _) fun _ => .bind (.read fun _ => rfl) fun _ => walkLoop_piece hr ht hp T _ r

theorem decodeLoop_piece (hr : .ioRead ∈ L) (hw : .ioWrite ∈ L) (ht : .malformedTruncated ∈ L)
    (hp : .malformedPath ∈ L) : ∀ n, Run.Piece L (decodeLoop n)
  | 0 => .stuck
  | n + 1 => .bind (.read fun _ => rfl) fun _ => .ite (.bind (.read fun _ => rfl) fun _ =>
      .bind (walkSymbol_piece hr ht hp _ _) fun b => .bind (outWrite_piece hw b) fun _ => .bind bumpNsym_piece fun _ =>
      decodeLoop_piece hr hw ht hp n) (.pure _)

theorem decodePayload_piece (hr : .ioRead ∈ L) (hw : .ioWrite ∈ L) (ht : .malformedTruncated ∈ L)
    (hp : .malformedPath ∈ L) : Run.Piece L decodePayload :=
  .bind (setW_piece _) fun _ => .bind (.read fun _ => rfl) fun _ => decodeLoop_piece hr hw ht hp _

theorem staticDecompress_block (hr : .ioRead ∈ L) (hw : .ioWrite ∈ L) (hh : .malformedHeader ∈ L)
    (ht : .malformedTruncated ∈ L) (hp : .malformedPath ∈ L) {builder : Builder} (hb : builder.Quiet) :
    Run.Block L (staticDecompress builder) :=
  setPhase_block (by decide) <| .bind (readHeader_piece hr hh) fun _ => .bind (inAtEnd_piece hr) fun _ =>
    .ite (.pure _) <| .bind (setPhase_piece (by decide)) fun _ => .bind_join (distBuild_piece hb) fun _ =>
    .bind (setPhase_piece (by decide)) fun _ => decodePayload_piece hr hw ht hp

/-! #### The context codec -/

theorem updateCtx_piece (c : Nat) (f : CtxEntry → CtxEntry) : Run.Piece L (updateCtx c f) :=
  .update (fun _ => rfl) fun _ => rfl

theorem countPairsLoop_piece (hr : .ioRead ∈ L) (ho : .countOverflow ∈ L) : ∀ n, Run.Piece L (countPairsLoop n)
  | 0 => .stuck
  | n + 1 => by
    refine .bind (inRead_piece hr) fun r => ?_
    cases r with
    | none => exact .pure _
    | some b =>
      have hnext : Run.Piece L (do
          setW (fun w => { w with prev := b.setWidth 9 })
          countPairsLoop n) := .bind (setW_piece _) fun _ => countPairsLoop_piece hr ho n
      exact .bind (.read fun _ => rfl) fun _ => .bind (.require ho _) fun _ =>
        .bind (.update (fun _ => rfl) fun _ => rfl) fun _ => .bind (setW_piece _) fun _ =>
        .bind (.read fun _ => rfl) fun _ => .ite hnext (.bind (updateCtx_piece _ _) fun _ => hnext)

theorem countPairs_piece (hr : .ioRead ∈ L) (ho : .countOverflow ∈ L) : Run.Piece L countPairs := by
  have hclear : Run.Piece L (Run.each (List.range 256) (fun c =>
    updateCtx c (fun e => { e with present := false, freq := [] }))) := .each (fun c => updateCtx_piece c _) _
  unfold countPairs
  -- named, so that Lean does not run it when it compares the goal with a rule
  generalize Run.each (List.range 256) (fun c =>
    updateCtx c (fun e => { e with present := false, freq := [] })) = clear at hclear ⊢
  exact .bind (.update (fun _ => rfl) fun _ => rfl) fun _ => .bind hclear fun _ => .bind (setW_piece _) fun _ =>
    .bind (.read fun _ => rfl) fun _ => .bind (countPairsLoop_piece hr ho _) fun _ =>
    .update (fun _ => rfl) fun _ => rfl

theorem buildAllModels_piece : Run.Piece L buildAllModels :=
  .bind distBlock_piece fun _ => .bind (withDist_piece huffmanBlock_raises) fun _ => .bind (.read fun _ => rfl) fun cs =>
  .each (fun c => .bind (.read fun _ => rfl) fun _ => onCtxModel_piece c (huffmanBlock_raises _)) cs

theorem writeContextHeader_piece (hw : .ioWrite ∈ L) : Run.Piece L writeContextHeader :=
  .bind (.read fun _ => rfl) fun _ => .bind (writeHeader_piece hw _) fun _ => .bind (.read fun _ => rfl) fun _ =>
  .bind (memWrite_piece hw _ _) fun _ => .bind (.read fun _ => rfl) fun cs =>
  .each (fun _ => .bind (memWrite_piece hw _ _) fun _ => .bind (.read fun _ => rfl) fun _ =>
    writeHeader_piece hw _) cs

theorem encodeContextLoop_piece (hr : .ioRead ∈ L) (hw : .ioWrite ∈ L) : ∀ n, Run.Piece L (encodeContextLoop n)
  | 0 => .stuck
  | n + 1 => by
    refine .bind (inRead_piece hr) fun r => ?_
    cases r with
    | none => exact .pure _
    | some b =>
      exact .bind (.read fun _ => rfl) fun c => .bind (.read fun _ => rfl) fun _ => .bind (.require hr _) fun _ =>
        .bind (putBits_piece hw _) fun _ => .bind (setW_piece _) fun _ => .bind bumpNsym_piece fun _ =>
        encodeContextLoop_piece hr hw n

theorem encodeContextPayload_piece (hr : .ioRead ∈ L) (hw : .ioWrite ∈ L) : Run.Piece L encodeContextPayload :=
  .bind (setW_piece _) fun _ => .bind (.read fun _ => rfl) fun _ => .bind (encodeContextLoop_piece hr hw _) fun _ =>
    requireAllSeen_piece hr

theorem contextCompress_block (hr : .ioRead ∈ L) (hw : .ioWrite ∈ L) (ho : .countOverflow ∈ L) :
    Run.Block L contextCompress := by
  have hcount : Run.Piece L countPairs := countPairs_piece hr ho
  unfold contextCompress
  generalize countPairs = count at hcount ⊢
  exact setPhase_block (by decide) <| .bind hcount fun _ => .bind (setPhase_piece (by decide)) fun _ =>
    .bind buildAllModels_piece fun _ => .bind (setPhase_piece (by decide)) fun _ =>
    .bind (writeContextHeader_piece hw) fun _ => .bind (setPhase_piece (by decide)) fun _ =>
    .bind (inRewind_piece hr) fun _ => .bind (encodeContextPayload_piece hr hw) fun _ =>
    .bind (setPhase_piece (by decide)) fun _ => padAndFlush_piece hw

theorem writeNctx_piece (v : Nat) : Run.Piece L (writeNctx v) := by
  unfold writeNctx
  split
  · exact .update (fun _ => rfl) fun _ => rfl
  · exact .update (fun _ => rfl) fun _ => rfl

theorem readRecord_piece (hr : .ioRead ∈ L) (hh : .malformedHeader ∈ L) (hc : .malformedContext ∈ L) :
    Run.Piece L readRecord :=
  .bind (memRead_piece hr hh 1) fun _ => .bind (.read fun _ => rfl) fun _ => .bind (.require hc _) fun _ =>
  .bind (readHeaderWith_piece hr hh (fun _ _ _ => rfl) fun _ _ _ => rfl) fun _ => updateCtx_piece _ _

theorem readContextHeader_piece (hr : .ioRead ∈ L) (hh : .malformedHeader ∈ L) (hc : .malformedContext ∈ L) :
    Run.Piece L readContextHeader := by
  have hclear : Run.Piece L (Run.each (List.range 256) (fun c =>
    updateCtx c (fun e => { e with present := false }))) := .each (fun c => updateCtx_piece c _) _
  unfold readContextHeader
  generalize Run.each (List.range 256) (fun c => updateCtx c (fun e => { e with present := false })) = clear
    at hclear ⊢
  exact .bind hclear fun _ => .bind (readHeader_piece hr hh) fun _ => .bind (memRead_piece hr hh 8) fun k =>
    .bind (writeNctx_piece k) fun _ => .bind (.require hc _) fun _ => .times (readRecord_piece hr hh hc) k

theorem decodeContextSymbol_piece (hr : .ioRead ∈ L) (ht : .malformedTruncated ∈ L) (hp : .malformedPath ∈ L)
    (hc : .malformedContext ∈ L) : Run.Piece L decodeContextSymbol :=
  .bind (.read fun _ => rfl) fun _ => .ite (.bind (.read fun _ => rfl) fun _ => walkSymbol_piece hr ht hp _ _)
    (.bind (.read fun _ => rfl) fun _ => .bind (.require hc _) fun _ => walkSymbol_piece hr ht hp _ _)

theorem decodeContextLoop_piece (hr : .ioRead ∈ L) (hw : .ioWrite ∈ L) (ht : .malformedTruncated ∈ L)
    (hp : .malformedPath ∈ L) (hc : .malformedContext ∈ L) : ∀ n, Run.Piece L (decodeContextLoop n)
  | 0 => .stuck
  | n + 1 => .bind (.read fun _ => rfl) fun _ => .ite (.bind (decodeContextSymbol_piece hr ht hp hc) fun b =>
      .bind (outWrite_piece hw b) fun _ => .bind (setW_piece _) fun _ => .bind bumpNsym_piece fun _ =>
      decodeContextLoop_piece hr hw ht hp hc n) (.pure _)

theorem contextRebuild_piece (hr : .ioRead ∈ L) (hw : .ioWrite ∈ L) (ht : .malformedTruncated ∈ L)
    (hp : .malformedPath ∈ L) (hc : .malformedContext ∈ L) : Run.Piece L contextRebuild :=
  .bind (setPhase_piece (by decide)) fun _ => .bind buildAllModels_piece fun _ =>
    .bind (setPhase_piece (by decide)) fun _ => .bind (setW_piece _) fun _ => .bind (.read fun _ => rfl) fun _ =>
    decodeContextLoop_piece hr hw ht hp hc _

theorem contextDecompress_block (hr : .ioRead ∈ L) (hw : .ioWrite ∈ L) (hh : .malformedHeader ∈ L)
    (ht : .malformedTruncated ∈ L) (hp : .malformedPath ∈ L) (hc : .malformedContext ∈ L) :
    Run.Block L contextDecompress := by
  have hread : Run.Piece L readContextHeader := readContextHeader_piece hr hh hc
  unfold contextDecompress
  generalize readContextHeader = read at hread ⊢
  exact setPhase_block (by decide) <| .bind hread fun _ => contextRebuild_piece hr hw ht hp hc

/-! #### The adaptive codec -/

theorem nytSlot_piece : Run.Piece L nytSlot := by
  refine .bind (.read fun _ => rfl) fun n => ?_
  cases n with
  | none => exact .stuck
  | some i => exact .pure _

theorem putPath_piece (hw : .ioWrite ∈ L) (n : Nat) : Run.Piece L (putPath n) := by
  refine .bind (.read fun _ => rfl) fun p => ?_
  cases p with
  | none => exact .stuck
  | some bits => exact putBits_piece hw bits

theorem fgkPad_piece (hw : .ioWrite ∈ L) : Run.Piece L fgkPad := by
  refine .bind nytSlot_piece fun nyt => .bind (.read fun _ => rfl) fun path => ?_
  cases path with
  | none => exact .stuck
  | some p => exact .bind (.read fun _ => rfl) fun _ => putBits_piece hw _

theorem readLiteral_piece (hr : .ioRead ∈ L) : ∀ n v, Run.Piece L (readLiteral n v)
  | 0, _ => .pure _
  | n + 1, v => by
    refine .bind (getBitOpt_piece hr) fun b => ?_
    cases b with
    | none => exact .pure _
    | some bit => exact readLiteral_piece hr n _

theorem fgkDescend_piece (hr : .ioRead ∈ L) : ∀ k cur, Run.Piece L (fgkDescend k cur)
  | 0, _ => .stuck
  | k + 1, cur => by
    refine .bind (.read fun _ => rfl) fun nd => .ite (.bind (getBitOpt_piece hr) fun b => ?_) (.pure _)
    cases b with
    | none => exact .pure _
    | some bit =>
      refine .bind (setW_piece _) fun _ => ?_
      cases (if bit then nd.right else nd.left) with
      | none => exact .stuck
      | some next => exact fgkDescend_piece hr k next

end

/-! The faults of the work on the adaptive tree depend on the tree, so no list of them is claimed here. -/

theorem fgkEncodeSymbol_piece (b : Byte) : Run.Piece FaultCode.all (fgkEncodeSymbol b) := by
  have hw := FaultCode.ioWrite.mem_all
  refine .bind (.read fun _ => rfl) fun lf => ?_
  cases lf with
  | some n => exact .bind (putPath_piece hw n) fun _ => onFgk_piece (.any _)
  | none =>
    exact .bind nytSlot_piece fun nyt => .bind (putPath_piece hw nyt) fun _ => .bind (putBits_piece hw _) fun _ =>
      .bind (onFgk_piece (.any _)) fun _ => onFgk_piece (.any _)

theorem adaptiveEncodeLoop_piece : ∀ n, Run.Piece FaultCode.all (adaptiveEncodeLoop n)
  | 0 => .stuck
  | n + 1 => by
    refine .bind (inRead_piece (FaultCode.mem_all _)) fun r => ?_
    cases r with
    | none => exact .pure _
    | some b =>
      exact .bind (fgkEncodeSymbol_piece b) fun _ => .bind bumpNsym_piece fun _ => adaptiveEncodeLoop_piece n

/-- The tree is made before the phase is named. -/
theorem fgkInit_block {L : List FaultCode} {f : Unit → Eng Unit} (hf : Run.Block L (f ())) :
    Run.Block L (onFgk fgkInit >>= f) :=
  ⟨.bind (onFgk_piece (.update _)) fun _ => hf.toPiece, fun _ => hf.wakes _⟩

theorem adaptiveCompress_block : Run.Block FaultCode.all adaptiveCompress :=
  fgkInit_block <| setPhase_block (by decide) <| .bind (setW_piece _) fun _ => .bind (.read fun _ => rfl) fun _ =>
    .bind (adaptiveEncodeLoop_piece _) fun _ => .bind (setPhase_piece (by decide)) fun _ =>
    .bind (fgkPad_piece (FaultCode.mem_all _)) fun _ => padAndFlush_piece (FaultCode.mem_all _)

theorem fgkDecodeSymbol_piece : Run.Piece FaultCode.all fgkDecodeSymbol := by
  have hr := FaultCode.ioRead.mem_all
  refine .bind (.read fun _ => rfl) fun root => .bind (setW_piece _) fun _ => ?_
  cases root with
  | none => exact .stuck
  | some r =>
    refine .bind (.read fun _ => rfl) fun _ => .bind (fgkDescend_piece hr _ r) fun found => ?_
    cases found with
    | none => exact .pure _
    | some n =>
      refine .bind (.read fun _ => rfl) fun nd => .ite (.bind (readLiteral_piece hr 8 0) fun lit => ?_)
        (.bind (onFgk_piece (.any _)) fun _ => .pure _)
      cases lit with
      | none => exact .pure _
      | some v =>
        exact .bind (.read fun _ => rfl) fun _ => .bind (.require (FaultCode.mem_all _) _) fun _ =>
          .bind (onFgk_piece (.any _)) fun _ => .bind (onFgk_piece (.any _)) fun _ => .pure _

theorem adaptiveDecodeLoop_piece : ∀ n, Run.Piece FaultCode.all (adaptiveDecodeLoop n)
  | 0 => .stuck
  | n + 1 => by
    refine .bind fgkDecodeSymbol_piece fun r => ?_
    cases r with
    | none => exact .pure _
    | some b =>
      exact .bind (outWrite_piece (FaultCode.mem_all _) b) fun _ => .bind bumpNsym_piece fun _ =>
        adaptiveDecodeLoop_piece n

theorem adaptiveDecompress_block : Run.Block FaultCode.all adaptiveDecompress :=
  fgkInit_block <| setPhase_block (by decide) <| .bind (setW_piece _) fun _ => .bind (.read fun _ => rfl) fun _ =>
    adaptiveDecodeLoop_piece _

/-! #### The arithmetic codec -/

section
variable {L : List FaultCode}

theorem emitWithPending_piece (hw : .ioWrite ∈ L) (b : Bool) : Run.Piece L (emitWithPending b) :=
  .bind (putBit_piece hw b) fun _ => .bind (.read fun _ => rfl) fun n => .bind (.times (putBit_piece hw _) n) fun _ =>
    setW_piece _

theorem encRenorm_piece (hw : .ioWrite ∈ L) : ∀ n, Run.Piece L (encRenorm n)
  | 0 => .stuck
  | n + 1 => by
    refine .bind (.read fun _ => rfl) fun r => ?_
    cases r with
    | lower =>
      exact .bind (emitWithPending_piece hw _) fun _ => .bind (setW_piece _) fun _ => encRenorm_piece hw n
    | upper =>
      exact .bind (emitWithPending_piece hw _) fun _ => .bind (setW_piece _) fun _ => encRenorm_piece hw n
    | middle => exact .bind (setW_piece _) fun _ => .bind (setW_piece _) fun _ => encRenorm_piece hw n
    | done => exact .pure _

theorem arithEncode_piece (hw : .ioWrite ∈ L) (e : RangeEntry) : Run.Piece L (arithEncode e) :=
  .bind (setW_piece _) fun _ => encRenorm_piece hw _

theorem arithEncodeSym_piece (hw : .ioWrite ∈ L) (sym : Nat) : Run.Piece L (arithEncodeSym sym) := by
  refine .bind (.read fun _ => rfl) fun e => ?_
  cases e with
  | none => exact .stuck
  | some x => exact arithEncode_piece hw x

theorem arithEncodeLoop_piece (hr : .ioRead ∈ L) (hw : .ioWrite ∈ L) : ∀ n, Run.Piece L (arithEncodeLoop n)
  | 0 => .stuck
  | n + 1 => by
    refine .bind (inRead_piece hr) fun r => ?_
    cases r with
    | none => exact .pure _
    | some b =>
      exact .bind (.read fun _ => rfl) fun _ => .bind (.require hr _) fun _ => .bind (arithEncodeSym_piece hw _) fun _ =>
        .bind bumpNsym_piece fun _ => arithEncodeLoop_piece hr hw n

theorem arithFlush_piece (hw : .ioWrite ∈ L) : Run.Piece L arithFlush :=
  .bind (setW_piece _) fun _ => .bind (.read fun _ => rfl) fun _ =>
    .ite (emitWithPending_piece hw _) (emitWithPending_piece hw _)

theorem arithSecondPass_piece (hr : .ioRead ∈ L) (hw : .ioWrite ∈ L) : Run.Piece L arithSecondPass :=
  .bind (setPhase_piece (by decide)) fun _ => .bind (inRewind_piece hr) fun _ => .bind (setW_piece _) fun _ =>
  .bind (.read fun _ => rfl) fun _ => .bind (arithEncodeLoop_piece hr hw _) fun _ =>
  .bind (requireAllSeen_piece hr) fun _ => .bind (.read fun _ => rfl) fun _ => .bind (arithEncode_piece hw _) fun _ =>
  .bind (setPhase_piece (by decide)) fun _ => .bind (arithFlush_piece hw) fun _ => padAndFlush_piece hw

theorem arithCompress_block (hr : .ioRead ∈ L) (hw : .ioWrite ∈ L) (ho : .countOverflow ∈ L) (ht : .rangeTotal ∈ L) :
    Run.Block L arithCompress :=
  setPhase_block (by decide) <| .bind (countBlock_piece hr ho) fun _ => .bind (setPhase_piece (by decide)) fun _ =>
    .bind (rangesBlock_piece ht) fun _ => .bind (setPhase_piece (by decide)) fun _ => .bind (.read fun _ => rfl) fun f =>
    .bind (writeHeader_piece hw f) fun _ => .bind (.read fun _ => rfl) fun _ =>
    .ite (.pure _) (arithSecondPass_piece hr hw)

theorem shiftVal_piece (hr : .ioRead ∈ L) (f : Nat → Nat) : Run.Piece L (shiftVal f) :=
  .bind (getBitOrZero_piece hr) fun _ => setW_piece _

theorem decRenorm_piece (hr : .ioRead ∈ L) : ∀ n, Run.Piece L (decRenorm n)
  | 0 => .stuck
  | n + 1 => .bind (.read fun _ => rfl) fun _ => .ite (.pure _) <| .bind (setW_piece _) fun _ =>
      .bind (shiftVal_piece hr _) fun _ => decRenorm_piece hr n

theorem arithFind_piece (hn : .malformedNoSymbol ∈ L) : Run.Piece L arithFind := by
  refine .bind (.read fun _ => rfl) fun e => ?_
  cases e with
  | none => exact .raise hn
  | some x => exact .pure _

theorem arithDecodeLoop_piece (hr : .ioRead ∈ L) (hw : .ioWrite ∈ L) (hn : .malformedNoSymbol ∈ L) :
    ∀ n, Run.Piece L (arithDecodeLoop n)
  | 0 => .stuck
  | n + 1 => .bind (.read fun _ => rfl) fun _ => .ite (.bind (arithFind_piece hn) fun _ => .ite (.pure _) <|
      .bind (outWrite_piece hw _) fun _ => .bind bumpNsym_piece fun _ => .bind (setW_piece _) fun _ =>
      .bind (decRenorm_piece hr _) fun _ => arithDecodeLoop_piece hr hw hn n) (.pure _)

theorem arithRebuild_piece (hr : .ioRead ∈ L) (hw : .ioWrite ∈ L) (ht : .rangeTotal ∈ L)
    (hn : .malformedNoSymbol ∈ L) (total : Nat) : Run.Piece L (arithRebuild total) :=
  .bind (setPhase_piece (by decide)) fun _ => .bind (rangesBlock_piece ht) fun _ =>
    .bind (setPhase_piece (by decide)) fun _ => .bind (setW_piece _) fun _ => .bind (.times (shiftVal_piece hr _) _) fun _ =>
    .bind (setW_piece _) fun _ => arithDecodeLoop_piece hr hw hn _

theorem arithDecompress_block (hr : .ioRead ∈ L) (hw : .ioWrite ∈ L) (hh : .malformedHeader ∈ L)
    (ht : .rangeTotal ∈ L) (hn : .malformedNoSymbol ∈ L) : Run.Block L arithDecompress :=
  setPhase_block (by decide) <| .bind (readHeader_piece hr hh) fun _ => .bind (.read fun _ => rfl) fun _ =>
    .ite (.pure _) (arithRebuild_piece hr hw ht hn _)

end

/-! #### A whole block -/

/-- The faults found by reading a block; where a fault is excluded by what the memories hold, any. -/
def Instr.listed : Instr → List FaultCode
  | .bldShannon | .bldFano | .cmpAdaptive | .decAdaptive | .decArith => FaultCode.all
  | i => mayRaise i

theorem stream_block {i : Instr} (h : i.cmdClass = .stream) : Run.Block (Instr.listed i) (Instr.block i) := by
  cases i with
  | cmpShannon => exact staticCompress_block (by decide) (by decide) (by decide) shannonBlock_raises
  | cmpFano => exact staticCompress_block (by decide) (by decide) (by decide) fanoBlock_raises
  | cmpHuffman => exact staticCompress_block (by decide) (by decide) (by decide) fun _ => huffmanBlock_raises _
  | cmpContext => exact contextCompress_block (by decide) (by decide) (by decide)
  | cmpAdaptive => exact adaptiveCompress_block
  | cmpArith => exact arithCompress_block (by decide) (by decide) (by decide) (by decide)
  | decShannon =>
    exact staticDecompress_block (by decide) (by decide) (by decide) (by decide) (by decide) shannonBlock_raises
  | decFano =>
    exact staticDecompress_block (by decide) (by decide) (by decide) (by decide) (by decide) fanoBlock_raises
  | decHuffman =>
    exact staticDecompress_block (by decide) (by decide) (by decide) (by decide) (by decide) fun _ => huffmanBlock_raises _
  | decContext => exact contextDecompress_block (by decide) (by decide) (by decide) (by decide) (by decide) (by decide)
  | decAdaptive => exact adaptiveDecompress_block
  | decArith => exact arithDecompress_block (by decide) (by decide) (by decide) (by decide) (by decide)
  | _ => cases h

theorem primitive_piece {i : Instr} (h : i.cmdClass = .primitive) : Run.Piece (Instr.listed i) (Instr.block i) := by
  cases i with
  | count => exact countBlock_piece (by decide) (by decide)
  | dist => exact distBlock_piece
  | ranges => exact rangesBlock_piece (by decide)
  | treeFromScheme => exact withDist_piece (fromSchemeBlock_raises (by decide))
  | treeTrunc => exact onMain_piece truncBlock_raises
  | treeDerive => exact onMain_piece deriveBlock_raises
  | bldShannon | bldFano => exact withDist_piece fun _ => .any _
  | bldHuffman => exact withDist_piece huffmanBlock_raises
  | _ => cases h

end Sys2Proof.Machine
end

section

namespace Sys2Proof.Machine

/-! ### A whole command from its block -/

/-- The state in which the block of a primitive or stream command starts (R362, R383). -/
def Instr.start (i : Instr) (s : State) : State :=
  if i.cmdClass = .primitive then s.accept.setPhase .prim else s.streamStart

theorem Instr.start_unfailing (i : Instr) (s : State) : Instr.start i s.unfailing = (Instr.start i s).unfailing := by
  unfold Instr.start
  split <;> rfl

theorem Instr.start_control (i : Instr) (s : State) : (Instr.start i s).control = s.accept.control := by
  unfold Instr.start
  split <;> rfl

theorem Instr.start_base (i : Instr) (s : State) : (Instr.start i s).io.inBase = s.io.inPos := by
  unfold Instr.start
  split <;> rfl

/-- What a block leaves, finished; the return to `IDLE` behind it is part of completion. -/
theorem finish_idle (m : Eng Unit) (s : State) : finish ((m >>= fun _ => setPhase .idle) s) = finish (m s) := by
  rw [Run.bind_apply]
  cases m s with
  | ok a u => rfl
  | error e u => rfl

/-- A primitive or stream command on a ready engine is its block, finished (R362). -/
theorem exec_ready {i : Instr} (hi : i.cmdClass ≠ .system) {s : State} (h : s.Ready) :
    exec i s = finish (Instr.block i (Instr.start i s)) := by
  rw [exec_eq, Instr.start]
  cases hc : i.cmdClass with
  | system => exact absurd hc hi
  | primitive =>
    calc runPrimitive (Instr.block i) s
        = finish ((Instr.block i >>= fun _ => setPhase .idle) (s.accept.setPhase .prim)) := runCommand_ready h _ _
      _ = _ := finish_idle _ _
  | stream =>
    calc runStream (Instr.block i) s
        = finish ((Instr.block i >>= fun _ => setPhase .idle) s.streamStart) := runCommand_ready h _ _
      _ = _ := finish_idle _ _

/-- A next state is what the run leaves, completed or trapped. -/
theorem finish_next {r : EStateM.Result Stop State Unit} {t : State} (h : finish r = .next t) :
    (∃ u, r = .ok () u ∧ t = u.complete) ∨ ∃ c u, r = .error (.raise c) u ∧ t = u.takeFault c := by
  match r with
  | .ok () u => cases h; exact .inl ⟨u, rfl, rfl⟩
  | .error (.raise c) u => cases h; exact .inr ⟨c, u, rfl, rfl⟩
  | .error .stuck u => cases h

/-- Completing or trapping a command leaves the streams as its run left them. -/
theorem finish_io {r : EStateM.Result Stop State Unit} {t : State} (h : finish r = .next t) :
    t.io = (endState r).io := by
  obtain ⟨u, rfl, rfl⟩ | ⟨c, u, rfl, rfl⟩ := finish_next h <;> rfl

theorem block_piece {i : Instr} (hi : i.cmdClass ≠ .system) : Run.Piece (Instr.listed i) (Instr.block i) := by
  cases hc : i.cmdClass with
  | system => exact absurd hc hi
  | primitive => exact primitive_piece hc
  | stream => exact (stream_block hc).toPiece

/-- A block stops, if at all, outside `IDLE`: a primitive's starts in `PRIM`, a stream command's names its phase. -/
theorem block_phase {i : Instr} (hi : i.cmdClass ≠ .system) (s : State) :
    (endState (Instr.block i (Instr.start i s))).phase ≠ .idle := by
  cases hc : i.cmdClass with
  | system => exact absurd hc hi
  | primitive =>
    refine ((primitive_piece hc).keeps (Instr.start i s)).phase ?_
    rw [Instr.start, if_pos hc]
    exact fun h => nomatch h
  | stream => exact (stream_block hc).wakes _

/-- An accepted primitive or stream command ends done, or trapped outside `IDLE` in the fault its block raised
(R350, R362). -/
theorem exec_ends {i : Instr} (hi : i.cmdClass ≠ .system) {s t : State} (hs : s.Ready) (h : exec i s = .next t) :
    s.Ended t ∨ ∃ c u, Instr.block i (Instr.start i s) = .error (.raise c) u ∧ t.Trapped c u.phase ∧
      u.phase ≠ .idle := by
  have hcontrol := control_allowsWork.block i
  have hphase := block_phase hi s
  rw [exec_ready hi hs] at h
  obtain ⟨u, hu, rfl⟩ | ⟨c, u, hu, rfl⟩ := finish_next h
  · exact .inl (State.ended_of_control hs ((hcontrol.ok hu).trans (Instr.start_control i s)))
  · rw [hu] at hphase
    exact .inr ⟨c, u, hu, State.trapped_of_control hs ((hcontrol.error hu).trans (Instr.start_control i s)) c, hphase⟩

theorem system_cases {i : Instr} (h : i.cmdClass = .system) : i = .nop ∨ i = .reset := by
  cases i with
  | nop => exact .inl rfl
  | reset => exact .inr rfl
  | _ => cases h

/-- The system commands leave the streams as they are (R360, R361). -/
theorem exec_system_io {i : Instr} (hi : i.cmdClass = .system) {s t : State} (hs : s.Ready) (h : exec i s = .next t) :
    t.io = s.io := by
  obtain rfl | rfl := system_cases hi
  · rw [execNop_ready hs] at h
    cases h
    rfl
  · rw [execReset_idle hs.1] at h
    cases h
    rfl

/-- Settles O12: acceptance latches `IN_BASE`, and every piece of a block keeps it. -/
theorem inBaseLatched : Obligations.InBaseLatched := by
  intro i s t hs h
  by_cases hi : i.cmdClass = .system
  · rw [if_pos hi, exec_system_io hi hs h]
  · rw [exec_ready hi hs] at h
    rw [if_neg hi, finish_io h, ((block_piece hi).keeps (Instr.start i s)).base, Instr.start_base]

/-- Settles O13: `NOP` ends; of every other command the block ends or raises a fault, outside `IDLE`. -/
theorem twoEndings : Obligations.TwoEndings := by
  intro i s t hreset hs h
  by_cases hi : i.cmdClass = .system
  · obtain rfl | rfl := system_cases hi
    · rw [execNop_ready hs] at h
      cases h
      exact .inl ⟨rfl, rfl, rfl⟩
    · exact absurd rfl hreset
  · exact (exec_ends hi hs h).imp_right fun ⟨c, u, _, htrap, hphase⟩ => ⟨c, u.phase, htrap, hphase⟩

/-- Under any oracle a command writes the beginning of what it writes without failures (R351, R352). -/
theorem exec_prefix {i : Instr} {s t u : State} (hs : s.Ready) (h : exec i s = .next t)
    (hu : exec i s.unfailing = .next u) : t.io.out <+: u.io.out := by
  by_cases hi : i.cmdClass = .system
  · rw [exec_system_io hi hs h, exec_system_io hi (s := s.unfailing) hs hu]
    exact List.prefix_rfl
  · rw [exec_ready hi hs] at h
    rw [exec_ready hi (s := s.unfailing) hs, Instr.start_unfailing] at hu
    rw [finish_io h, finish_io hu]
    exact (block_piece hi).follows.out_prefix _

/-- Settles O21: hardware reset before an access is the run in which that access fails, so both halves compare a run
under some oracle with the run under the one that never fails. -/
theorem faultLeavesPrefix : Obligations.FaultLeavesPrefix := by
  intro i s u hs hu
  refine ⟨fun t ht => exec_prefix hs ht hu, fun onInput k t ht => ?_⟩
  obtain ⟨v, hv, rfl⟩ := resetDuring_next ht
  rw [writeCmd_ok (decode_eq_ok_iff.2 rfl)] at hv
  have hcut : (s.setIo (s.io.cutAt onInput k)).unfailing = s.unfailing := by cases onInput <;> rfl
  have hprefix : v.io.out <+: u.io.out :=
    exec_prefix (s := s.setIo (s.io.cutAt onInput k)) hs hv (by rw [hcut]; exact hu)
  exact hprefix

end Sys2Proof.Machine
end

section

namespace Sys2Proof.Machine

/-! ### The faults that the memories exclude -/

section
variable {L : List FaultCode} {σ α : Type}

/-- What a piece keeps, with the list of its faults. -/
theorem Run.Sat.among {P : σ → Prop} {m : Run σ α} {Q : α → σ → Prop} {E : Stop → σ → Prop} (h : Run.Sat P m Q E)
    (hr : Run.Raises L m) : Run.Sat P m Q fun e _ => e.Among L :=
  (h.and hr).conseq (fun _ h => ⟨h, trivial⟩) (fun _ _ h => h.1) fun _ _ h => h.2

/-- A fault of the list. -/
theorem Run.Sat.mem {P : σ → Prop} {m : Run σ α} {Q : α → σ → Prop} (h : Run.Sat P m Q fun e _ => e.Among L) {s t : σ}
    {c : FaultCode} (hs : P s) (hm : m s = .error (.raise c) t) : c ∈ L := by
  have := h s hs
  rw [hm] at this
  exact this c rfl

/-! #### `BLD.SHANNON` and `BLD.FANO`: room in the arena -/

/-- A builder on a distribution of at most 256 entries, as `NDIST` says (R25). -/
theorem withDist_quiet {builder : Builder} (hb : builder.Quiet) :
    Run.Sat (fun s => s.w.ndist.toNat ≤ 256) (withDist builder) (fun _ _ => True) fun e _ => e.Among L :=
  .bind_fact (R := fun _ => True) (φ := fun dl => dl.length ≤ 256)
    (.read fun s hs => ⟨trivial, (distList_length s).trans_le hs⟩) fun _ hdl => (onMain_piece (hb hdl)).raises

/-! #### The adaptive commands: room for a node pair as long as a byte has not been seen -/

variable {g : FgkMem} {S : List Byte} {b : Byte}

/-- `FgkEncodeSymbol(b)` (R255) on the tree of a byte sequence does not run out of nodes. -/
theorem fgkEncodeSymbol_faults (hw : .ioWrite ∈ L) (hg : g.Codes S) (hlen : S.length + 1 < 2 ^ 64) (b : Byte) :
    Run.Sat (fun s => s.fgk = g) (fgkEncodeSymbol b) (fun _ s => s.fgk = fgkAfter g b) fun e _ => e.Among L := by
  have hpath : ∀ n, Run.Sat (fun s => s.fgk = g) (putPath n) (fun _ s => s.fgk = g) fun e _ => e.Among L :=
    fun n => (putPath_fgk n).fgk.among (putPath_piece hw n).raises
  refine .read_fact (φ := fun lf => lf = leafGet g.leaf b.toNat) (fun s hs => by rw [hs]) fun lf hlf => ?_
  cases lf with
  | some n => exact .bind (hpath n) fun _ => onFgk_update_seen hg hlen hlf.symm
  | none =>
    exact .bind (nytSlot_keeps.fgk.among nytSlot_piece.raises) fun nyt => .bind (hpath nyt) fun _ =>
      .bind ((putBits_fgk _).fgk.among (putBits_piece hw _).raises) fun _ =>
      .bind (onFgk_split_unseen hg hlen hlf.symm) fun _ => onFgk_update_ok

theorem adaptiveEncodeLoop_faults (hr : .ioRead ∈ L) (hw : .ioWrite ∈ L) : ∀ (n : Nat) {g : FgkMem} {S : List Byte},
    g.Codes S → S.length + n < 2 ^ 64 →
    Run.Sat (fun s => s.fgk = g) (adaptiveEncodeLoop n) (fun _ _ => True) fun e _ => e.Among L
  | 0, _, _, _, _ => .stuck fun _ _ => Stop.among_stuck
  | n + 1, g, S, hg, hlen => by
    refine .bind ((inRead_keeps fun _ _ _ => rfl).fgk.among (inRead_piece hr).raises) fun r => ?_
    cases r with
    | none => exact .pure fun _ _ => trivial
    | some b =>
      refine .bind (fgkEncodeSymbol_faults hw hg (by omega) b) fun _ =>
        .bind (bumpNsym_fgk.fgk.among bumpNsym_piece.raises) fun _ =>
        adaptiveEncodeLoop_faults hr hw n (hg.after (by omega) b).1 ?_
      rw [List.length_append, List.length_singleton]
      omega

/-- What the node means on which the descent ends (R267): a literal already seen is MALFORMED_LITERAL, one not seen finds
two nodes left. -/
theorem fgkArrived_faults (hr : .ioRead ∈ L) (hl : .malformedLiteral ∈ L) (hg : g.Codes S)
    (hlen : S.length + 1 < 2 ^ 64) {r y n : Nat} (hgrown : g.Grown r y) (hn : n < g.n.toNat)
    (hk : (g.node n).kind ≠ .internal) :
    Run.Sat (fun s => s.fgk = g) (fgkArrived n) (fun found s => s.fgk = found.elim g (fgkAfter g))
      fun e _ => e.Among L := by
  refine .read_fact (φ := fun nd => nd = g.node n) (fun s hs => by rw [hs]) fun nd hnd => ?_
  subst hnd
  refine .ite (fun _ => .bind_fact (φ := fun lit => ∀ x, lit = some x → x < 256)
    ((readLiteral_value 8 0).among (readLiteral_piece hr 8 0).raises) fun lit hlit => ?_) fun hkn => ?_
  · cases lit with
    | none => exact .pure fun _ h => h
    | some v =>
      have hv : (BitVec.ofNat 8 v).toNat = v := by rw [BitVec.toNat_ofNat, Nat.mod_eq_of_lt (hlit v rfl)]
      refine .read_fact (φ := fun seen => seen = leafGet g.leaf v) (fun s hs => by rw [hs]) fun seen hseen =>
        .require_fact (fun _ _ => Stop.among_raise hl) fun hnone => ?_
      have hunseen : leafGet g.leaf (BitVec.ofNat 8 v).toNat = none := by
        rw [hv, ← hseen, ← Option.isNone_iff_eq_none, hnone]
      exact .bind (onFgk_split_unseen hg hlen hunseen) fun _ => .bind onFgk_update_ok fun _ => .pure fun _ h => h
  · have hleaf : (g.node n).kind = .leaf := by
      cases hkind : (g.node n).kind with
      | leaf => rfl
      | nyt => exact absurd hkind hkn
      | internal => exact absurd hkind hk
    exact .bind (onFgk_update_seen hg hlen ((hgrown.leaf _ n).2 ⟨hn, hleaf, rfl⟩)) fun _ => .pure fun _ h => h

theorem fgkDecodeSymbol_faults (hr : .ioRead ∈ L) (hl : .malformedLiteral ∈ L) (hg : g.Codes S)
    (hlen : S.length + 1 < 2 ^ 64) : Run.Sat (fun s => s.fgk = g) fgkDecodeSymbol
      (fun found s => s.fgk = found.elim g (fgkAfter g)) fun e _ => e.Among L := by
  obtain ⟨r, y, hgrown, _⟩ := hg.rest
  refine .read_fact (φ := fun root => root = some r) (fun s hs => by rw [hs, hgrown.root]) fun root hroot => ?_
  subst hroot
  refine .update_keep (fun _ h => h) <| .read_any fun bound => .bind_fact
    (φ := fun found => ∀ n, found = some n → n < g.n.toNat ∧ (g.node n).kind ≠ .internal)
    ((fgkDescend_outer hgrown (bound + 2) r hgrown.root_lt).among (fgkDescend_piece hr _ r).raises) fun found hfound => ?_
  cases found with
  | none => exact .pure fun _ h => h
  | some n =>
    obtain ⟨hn, hk⟩ := hfound n rfl
    exact fgkArrived_faults hr hl hg hlen hgrown hn hk

theorem adaptiveDecodeLoop_faults (hr : .ioRead ∈ L) (hw : .ioWrite ∈ L) (hl : .malformedLiteral ∈ L) :
    ∀ (n : Nat) {g : FgkMem} {S : List Byte}, g.Codes S → S.length + n < 2 ^ 64 →
    Run.Sat (fun s => s.fgk = g) (adaptiveDecodeLoop n) (fun _ _ => True) fun e _ => e.Among L
  | 0, _, _, _, _ => .stuck fun _ _ => Stop.among_stuck
  | n + 1, g, S, hg, hlen => by
    refine .bind (fgkDecodeSymbol_faults hr hl hg (by omega)) fun r => ?_
    cases r with
    | none => exact .pure fun _ _ => trivial
    | some b =>
      refine .bind ((outWrite_keeps (fun _ _ => rfl) (fun _ _ => rfl) b).fgk.among (outWrite_piece hw b).raises)
        fun _ => .bind (bumpNsym_fgk.fgk.among bumpNsym_piece.raises) fun _ =>
        adaptiveDecodeLoop_faults hr hw hl n (hg.after (by omega) b).1 ?_
      rw [List.length_append, List.length_singleton]
      omega

/-- The block of `CMP.ADAPTIVE` (R260) on an input short enough for the weights (R250). -/
theorem adaptiveCompress_faults {s t : State} {c : FaultCode} (hlen : 8 * s.io.rest.length < 2 ^ 64)
    (h : Instr.block .cmpAdaptive s.streamStart = .error (.raise c) t) : c ∈ mayRaise .cmpAdaptive := by
  have hloop := adaptiveEncodeLoop_faults (L := mayRaise .cmpAdaptive) (by decide) (by decide) (s.io.rest.length + 1)
    (fgkStart_codes s.fgk) (by rw [List.length_nil]; omega)
  have htail : Run.Raises (mayRaise .cmpAdaptive)
      (setPhase .term >>= fun _ => fgkPad >>= fun _ => padAndFlush) :=
    (Run.Piece.bind (setPhase_piece (by decide)) fun _ => .bind (fgkPad_piece (by decide)) fun _ =>
      padAndFlush_piece (by decide)).raises
  rw [adaptiveCompress_eq] at h
  exact (hloop.bind fun _ => htail).mem rfl h

/-- The block of `DEC.ADAPTIVE` (R265). -/
theorem adaptiveDecompress_faults {s t : State} {c : FaultCode} (hlen : 8 * s.io.rest.length < 2 ^ 64)
    (h : Instr.block .decAdaptive s.streamStart = .error (.raise c) t) : c ∈ mayRaise .decAdaptive := by
  rw [adaptiveDecompress_eq] at h
  exact (adaptiveDecodeLoop_faults (by decide) (by decide) (by decide) _ (fgkStart_codes s.fgk)
    (by rw [List.length_nil]; omega)).mem rfl h

end

end Sys2Proof.Machine
end

section

namespace Sys2Proof.Machine

/-! ### `DEC.ARITH`: the window lies in the interval, so some entry is found -/

/-- The entries of the range table cover every interval (R29, R303). -/
structure Coder.Tiled (c : Coder) : Prop where
  pos : 0 < c.rt
  most : ∀ e ∈ c.table, e.cumHi.toNat ≤ c.rt
  covers : ∀ {l h v : Nat}, l ≤ v → v < h → ∃ e ∈ c.table, subBound l h c.rt e.cumLo.toNat ≤ v ∧
    v < subBound l h c.rt e.cumHi.toNat

/-- The window `v` is a point of the interval (R320). -/
structure Coder.Aims (c : Coder) (v : Nat) : Prop extends c.Tiled where
  top : c.high ≤ Config.scaleM
  least : c.low ≤ v
  less : v < c.high

/-- The window `v` is a point of the sub-interval of entry `e`. -/
structure Coder.Finds (c : Coder) (v : Nat) (e : RangeEntry) : Prop extends c.Aims v where
  mem : e ∈ c.table
  least' : subBound c.low c.high c.rt e.cumLo.toNat ≤ v
  less' : v < subBound c.low c.high c.rt e.cumHi.toNat

/-- `Narrow(i)` to the entry found (R303). -/
theorem Coder.Finds.narrow {c : Coder} {v : Nat} {e : RangeEntry} (h : c.Finds v e) : Coder.Aims
    { c with low := subBound c.low c.high c.rt e.cumLo.toNat, high := subBound c.low c.high c.rt e.cumHi.toNat } v := by
  have htop : subBound c.low c.high c.rt e.cumHi.toNat ≤ c.high :=
    (subBound_mono (h.most e h.mem)).trans (subBound_total h.pos (h.least.trans h.less.le)).le
  exact ⟨⟨h.pos, h.most, h.covers⟩, htop.trans h.top, h.least', h.less'⟩

/-- A pass of the renormalisation, whatever the bit that comes in (R322). -/
theorem Coder.Aims.map {c : Coder} {v : Nat} {r : Renorm} (h : c.Aims v) (hr : r.Fires c.low c.high)
    (hne : r ≠ .done) (b : Bool) :
    Coder.Aims { c with low := r.map c.low, high := r.map c.high } (r.map v + if b then 1 else 0) := by
  obtain ⟨hleast, hless, htop, _⟩ := Renorm.map_point hr hne h.least h.less h.top b
  exact ⟨⟨h.pos, h.most, h.covers⟩, htop, hleast, hless⟩

theorem Coder.Aims.bounds {c : Coder} {v : Nat} (h : c.Aims v) : c.low < 2 ^ 31 ∧ c.high ≤ 2 ^ 31 ∧ v < 2 ^ 31 := by
  have hM : Config.scaleM = 2 ^ 31 := rfl
  obtain ⟨_, htop, hleast, hless⟩ := h
  omega

/-- A table made of a distribution within the bound of R136 (R134). -/
theorem coder_tiled {s : State} {dl : List DistEntry} (hdl : IsDist dl) (hne : dl ≠ [])
    (hfits : rangeTotal dl ≤ Config.arithTMax) (htable : s.rangeList = rangeTable dl)
    (hrt : s.w.rt.toNat = rangeTotal dl) : s.coder.Tiled := by
  have hmax : Config.arithTMax = 2 ^ 29 := rfl
  obtain ⟨hok, _⟩ := rangeTable_spec hdl.2 (by omega)
  have hpos : 0 < rangeTotal dl := by
    obtain ⟨x, hx⟩ := List.exists_mem_of_ne_nil _ (rangeTable_ne_nil hne)
    obtain ⟨hless, hmost⟩ := hok x hx
    omega
  have hcoder : s.coder = ⟨s.w.low.toNat, s.w.high.toNat, rangeTotal dl, rangeTable dl⟩ := by
    rw [State.coder, htable, hrt]
  rw [hcoder]
  exact ⟨hpos, fun e he => (hok e he).most, fun hl hv => rangeTable_covers hne hpos hfits hl hv⟩

/-- What the pieces between two symbols leave alone. -/
def State.aim (s : State) : Coder × Nat := (s.coder, s.w.val.toNat)

/-- The window is a point of the interval. -/
def State.Aims (s : State) : Prop := s.coder.Aims s.w.val.toNat

section
variable {L : List FaultCode} {α : Type}

/-- A piece that leaves the coder and its window alone. -/
theorem Run.Piece.aimed {m : Eng α} (h : Run.Piece L m) (hk : Run.Keeps (Frame.same State.aim) m)
    (C : Coder → Nat → Prop) : Run.Sat (fun s => C s.coder s.w.val.toNat) m (fun _ s => C s.coder s.w.val.toNat)
      fun e _ => e.Among L :=
  (hk.carries (P := fun s => C s.aim.1 s.aim.2) fun _ _ he hC => he ▸ hC).among h.raises

theorem State.aims_setInterval {s : State} {x y : Nat} (h : Coder.Aims { s.coder with low := x, high := y } s.w.val.toNat) :
    (s.setW (s.w.setInterval x y)).Aims := by
  obtain ⟨hx, hy, _⟩ := h.bounds
  unfold State.Aims
  rw [State.coder_setInterval s hx hy]
  exact h

/-- Some entry is found (R320): MALFORMED_NOSYMBOL is not raised. -/
theorem arithFind_found : Run.Sat State.Aims arithFind (fun e s => s.coder.Finds s.w.val.toNat e)
    fun e _ => e.Among L := by
  refine .read_bind fun e => ?_
  cases e with
  | none =>
    refine .raise fun s hs => ?_
    obtain ⟨haims, hnone⟩ := hs
    obtain ⟨e, he, hleast, hless⟩ := haims.covers haims.least haims.less
    have hmiss := List.find?_eq_none.1 hnone.symm e he
    exact absurd (Bool.and_eq_true_iff.2 ⟨decide_eq_true hleast, decide_eq_true hless⟩) hmiss
  | some e =>
    refine .pure fun s hs => ?_
    obtain ⟨haims, hsome⟩ := hs
    have hfound := List.find?_some hsome.symm
    rw [Bool.and_eq_true, decide_eq_true_eq, decide_eq_true_eq] at hfound
    obtain ⟨hleast, hless⟩ := hfound
    exact { haims with mem := List.mem_of_find?_eq_some hsome.symm, least' := hleast, less' := hless }

/-- A bit shifted in, where every bit keeps the window in the interval. -/
theorem shiftVal_aims (hr : .ioRead ∈ L) (f : Nat → Nat) :
    Run.Sat (fun s => ∀ b : Bool, s.coder.Aims (f s.w.val.toNat + if b then 1 else 0)) (shiftVal f)
      (fun _ => State.Aims) fun e _ => e.Among L := by
  refine .bind ((getBitOrZero_piece hr).aimed (getBitOrZero_keeps (fun _ _ _ => rfl) fun _ _ _ => rfl)
    fun c v => ∀ b : Bool, c.Aims (f v + if b then 1 else 0)) fun b => .update fun s hs => ?_
  obtain ⟨_, _, hv⟩ := (hs b).bounds
  show s.coder.Aims (BitVec.ofNat 31 (f s.w.val.toNat + if b then 1 else 0)).toNat
  rw [BitVec.toNat_ofNat, Nat.mod_eq_of_lt hv]
  exact hs b

theorem decRenorm_aims (hr : .ioRead ∈ L) : ∀ n, Run.Sat State.Aims (decRenorm n) (fun _ => State.Aims)
    fun e _ => e.Among L
  | 0 => .stuck fun _ _ => Stop.among_stuck
  | n + 1 => by
    refine .read_bind fun r => .ite (fun _ => .pure fun _ h => h.1) fun hne => .update_bind (fun s hs b => ?_) <|
      .bind (shiftVal_aims hr r.map) fun _ => decRenorm_aims hr n
    obtain ⟨haims, rfl⟩ := hs
    have hmap := haims.map s.w.renorm_fires hne
    obtain ⟨hx, hy, _⟩ := (hmap b).bounds
    have hcoder := State.coder_setInterval s hx hy
    show Coder.Aims (s.setW (s.w.rescale s.w.renorm)).coder _
    exact hcoder ▸ hmap b

theorem arithDecodeLoop_faults (hr : .ioRead ∈ L) (hw : .ioWrite ∈ L) : ∀ n,
    Run.Sat State.Aims (arithDecodeLoop n) (fun _ _ => True) fun e _ => e.Among L
  | 0 => .stuck fun _ _ => Stop.among_stuck
  | n + 1 => .read_any fun _ => .ite (fun _ => .bind arithFind_found fun e => .ite (fun _ => .pure fun _ _ => trivial)
      fun _ => .bind ((outWrite_piece hw _).aimed (outWrite_keeps (fun _ _ => rfl) (fun _ _ => rfl) _)
        (Coder.Finds · · e)) fun _ =>
      .bind (bumpNsym_piece.aimed (bumpNsym_keeps (fun _ _ => rfl) fun _ _ => rfl) (Coder.Finds · · e)) fun _ =>
      .bind (.update fun _ h => State.aims_setInterval h.narrow) fun _ => .bind (decRenorm_aims hr _) fun _ =>
      arithDecodeLoop_faults hr hw n) fun _ => .pure fun _ _ => trivial

/-- `RANGES`' block of a table that is not empty leaves a table that tiles its total, or raises RANGE_TOTAL (R134,
R136). -/
theorem rangesBlock_tiled (ht : .rangeTotal ∈ L) : Run.Sat (fun s => distribution s.freq ≠ []) rangesBlock
    (fun _ s => s.coder.Tiled) fun e _ => e.Among L := by
  refine Run.Sat.among (E := fun _ _ => True) (fun s hne => ?_) (rangesBlock_piece ht).raises
  by_cases hfits : rangeTotal (distribution s.freq) ≤ Config.arithTMax
  · obtain ⟨t, hrun, _, htable, hrt, _⟩ := rangesBlock_ok s hfits
    rw [hrun]
    exact coder_tiled (distribution_isDist s.freq) hne hfits htable hrt
  · have hover := rangesBlock_over s (Nat.not_le.1 hfits)
    cases hrun : rangesBlock s with
    | ok a t => rw [hrun] at hover; exact hover.elim
    | error e t => trivial

theorem arithRebuild_faults (hr : .ioRead ∈ L) (hw : .ioWrite ∈ L) (ht : .rangeTotal ∈ L) (total : Nat) :
    Run.Sat (fun s => distribution s.freq ≠ []) (arithRebuild total) (fun _ _ => True) fun e _ => e.Among L := by
  have hshift : Run.Sat (fun s => s.coder.Tiled) (Run.times Config.windowBits (shiftVal (fun v => 2 * v)))
      (fun _ s => s.coder.Tiled) fun e _ => e.Among L :=
    .times (((shiftVal_keeps (F := Frame.same State.coder) (fun _ _ _ => rfl) (fun _ _ _ => rfl) (fun _ _ => rfl) _).carries
      fun _ _ he h => he ▸ h).among (shiftVal_piece hr _).raises) _
  refine .update_keep (fun _ h => h) <| .bind (rangesBlock_tiled ht) fun _ => .update_keep (fun _ h => h) <|
    .update_keep (fun _ h => h) <| .bind hshift fun _ => .update_bind (fun s h => State.aims_setInterval ?_) <|
    arithDecodeLoop_faults hr hw _
  exact ⟨⟨h.pos, h.most, h.covers⟩, le_rfl, Nat.zero_le _, s.w.val.isLt⟩

theorem distribution_ne_nil_of_total {f : Table (BitVec 32)} (h : BitVec.ofNat 40 (freqSum f) ≠ 0) :
    distribution f ≠ [] :=
  distribution_ne_nil (Nat.pos_of_ne_zero fun h0 => h (congrArg (BitVec.ofNat 40) h0))

/-- `TOTAL` is the sum of the header read (R213). -/
theorem readHeader_total (hr : .ioRead ∈ L) (hh : .malformedHeader ∈ L) : Run.Sat (fun _ => True) readHeader
    (fun _ s => s.w.total ≠ 0 → distribution s.freq ≠ []) fun e _ => e.Among L := by
  have hread : Run.Piece L (readHeaderWith (fun i v s => s.setFreq (freqSet s.freq i v))) :=
    readHeaderWith_piece hr hh (fun _ _ _ => rfl) fun _ _ _ => rfl
  refine Run.Sat.bind hread.raises fun _ => .update fun s _ => ?_
  rw [State.setW_w, State.setW_freq]
  exact distribution_ne_nil_of_total

theorem arithDecompress_faults (hr : .ioRead ∈ L) (hw : .ioWrite ∈ L) (hh : .malformedHeader ∈ L)
    (ht : .rangeTotal ∈ L) : Run.Raises L arithDecompress := by
  refine Run.Sat.bind (setPhase_piece (p := .hdrRd) (by decide)).raises fun _ => .bind (readHeader_total hr hh) fun _ =>
    .read_bind fun total => .ite (fun _ => .pure fun _ _ => trivial) fun hne =>
    (arithRebuild_faults hr hw ht _).conseq (fun s hs => ?_) (fun _ _ h => h) fun _ _ h => h
  obtain ⟨hdist, rfl⟩ := hs
  exact hdist hne

end

end Sys2Proof.Machine
end

section

namespace Sys2Proof.Machine

/-! ### Which command can raise which fault -/

/-- The faults of a block are those of R342. -/
theorem block_faults {i : Instr} (hi : i.cmdClass ≠ .system) {s t : State} {c : FaultCode} (hr : s.RangeInv)
    (hlen : 8 * s.io.rest.length < 2 ^ 64) (h : Instr.block i (Instr.start i s) = .error (.raise c) t) :
    c ∈ mayRaise i := by
  have hlisted : c ∈ Instr.listed i := (block_piece hi).raises.mem trivial h
  cases i with
  | bldShannon => exact (withDist_quiet shannonBlock_raises).mem (s := s.accept.setPhase .prim) hr.ndist h
  | bldFano => exact (withDist_quiet fanoBlock_raises).mem (s := s.accept.setPhase .prim) hr.ndist h
  | cmpAdaptive => exact adaptiveCompress_faults hlen h
  | decAdaptive => exact adaptiveDecompress_faults hlen h
  | decArith => exact (arithDecompress_faults (by decide) (by decide) (by decide) (by decide)).mem trivial h
  | _ => exact hlisted

theorem State.Ended.fault_eq {s t : State} (h : s.Ended t) : t.status.fault = false := by rw [h.status]

/-- Settles O14: the faults that a block names are read off it; ARENA_OVERFLOW in the builders and in the adaptive
tree, and MALFORMED_NOSYMBOL, are excluded by what the memories hold. -/
theorem faultsByCommand : Obligations.FaultsByCommand := by
  refine ⟨fun i s t c hs hr _ hlen h hfault hcode => ?_, fun c s hs hc => ?_⟩
  · by_cases hi : i.cmdClass = .system
    · obtain rfl | rfl := system_cases hi
      · rw [execNop_ready hs] at h
        cases h
        cases hfault
      · rw [execReset_idle hs.1] at h
        cases h
        cases hfault
    · obtain hend | ⟨c', u, hu, htrap, _⟩ := exec_ends hi hs h
      · rw [hend.fault_eq] at hfault
        cases hfault
      · rw [htrap.faultCode] at hcode
        cases hcode
        exact block_faults hi hr hlen hu
  · exact ⟨_, (writeCmd_illegal hc s).trans (illegalCode_ready hs), rfl, rfl⟩

end Sys2Proof.Machine
end

section

namespace Sys2Proof.Machine

/-! ### The two resets and the host's hazards -/

/-- A field no command's block, acceptance or end writes is kept by every command but `RESET`, the host's field here. -/
theorem host_allowsAll : (Frame.same State.host).AllowsAll where
  phase _ _ := rfl
  control _ _ _ := rfl
  accept _ _ := rfl
  reads _ _ _ := rfl
  rewind _ := rfl
  touchOut _ _ := rfl
  out _ _ := rfl
  freq _ _ := rfl
  dist _ _ _ := rfl
  range _ _ _ := rfl
  rt _ _ _ := rfl
  main _ _ := rfl
  ctx _ _ := rfl
  fgk _ _ := rfl
  fresh _ _ := rfl
  total _ _ := rfl
  nsym _ _ := rfl
  cur _ _ := rfl
  prev _ _ := rfl
  nctx _ _ := rfl
  pack _ _ _ := rfl
  parse _ _ _ := rfl
  interval _ _ _ := rfl
  pend _ _ := rfl
  val _ _ := rfl

theorem execReset_next {s t : State} (h : exec .reset s = .next t) : t = s.softReset := by
  have hx : execReset s = .next t := h
  unfold execReset at hx
  split at hx <;> cases hx
  rfl

/-- The acts to come are the host's, and no command changes them. -/
theorem exec_host {i : Instr} {s t : State} (h : exec i s = .next t) : t.host = s.host := by
  by_cases hi : i = .reset
  · subst hi
    rw [execReset_next h]
    rfl
  · exact host_allowsAll.exec hi h

theorem illegalCode_next {s t : State} (h : illegalCode s = .next t) : t.io = s.io ∧ t.host = s.host := by
  unfold illegalCode at h
  split at h
  · cases h
  · split at h <;> cases h <;> exact ⟨rfl, rfl⟩

/-- What a byte written to `CMD` keeps, a legal code or not. -/
theorem writeCmd_next {c : Byte} {s t : State} (h : writeCmd c s = .next t) : s.StreamsKept t ∧ t.host = s.host := by
  obtain ⟨i, hi⟩ | hillegal := decode_cases c
  · rw [writeCmd_ok hi] at h
    exact ⟨exec_streamsKept h, exec_host h⟩
  · rw [writeCmd, hillegal] at h
    obtain ⟨hio, hhost⟩ := illegalCode_next h
    exact ⟨.of_io hio, hhost⟩

/-- A command stopped by hardware reset leaves the reset state, over the streams and oracle the command kept. -/
theorem resetDuring_kept {c : Byte} {onInput : Bool} {k : Nat} {s t : State} (h : resetDuring c onInput k s = .next t) :
    ∃ u : State, (s.setIo (s.io.cutAt onInput k)).StreamsKept u ∧ u.host = s.host ∧
      t = (u.setOracle s.io.failIn s.io.failOut).hardReset := by
  obtain ⟨u, hu, ht⟩ := resetDuring_next h
  obtain ⟨hkept, hhost⟩ := writeCmd_next hu
  exact ⟨u, hkept, hhost, ht⟩

/-- Settles O2: the two resets by their definitions; a command stopped by hardware reset keeps of the streams what
every command keeps. -/
theorem bothResets : Obligations.BothResets := by
  refine ⟨fun s hs => execReset_idle hs, fun s => rfl, fun s t c onInput k h => ?_⟩
  obtain ⟨u, hkept, hhost, rfl⟩ := resetDuring_kept h
  refine ⟨?_, ?_, ?_, rfl, rfl⟩
  · rw [← hhost]
    rfl
  · obtain ⟨bytes, happended⟩ := hkept.out
    have hout : u.io.out = s.io.out ++ bytes := by
      rw [happended.out]
      exact congrArg (· ++ bytes) (s.io.cutAt_out onInput k)
    exact ⟨bytes, hout.symm⟩
  · obtain ⟨hin, _⟩ | ⟨hagain, _⟩ := hkept.input
    · exact .inl (hin.trans (s.io.cutAt_input onInput k))
    · exact .inr ((s.io.cutAt_again onInput k).symm.trans hagain)

theorem exec_busy {s : State} (h : s.status.busy = true) (i : Instr) : exec i s = .refused .cmdWhileBusy := by
  rw [exec_eq]
  cases hc : i.cmdClass with
  | system =>
    obtain rfl | rfl := system_cases hc
    · exact runCommand_busy h State.acceptPlain (pure ())
    · show execReset s = _
      rw [execReset, h]
      rfl
  | primitive => exact runCommand_busy h _ _
  | stream => exact runCommand_busy h _ _

theorem writeCmd_busy {s : State} (h : s.status.busy = true) (c : Byte) : writeCmd c s = .refused .cmdWhileBusy := by
  obtain ⟨i, hi⟩ | hillegal := decode_cases c
  · rw [writeCmd_ok hi, exec_busy h i]
  · rw [writeCmd, hillegal]
    show illegalCode s = _
    rw [illegalCode, h]
    rfl

theorem hostOnly_busy {s : State} (h : s.status.busy = true) (ok : Bool) (t : State) :
    hostOnly ok s t = .refused .hostActWhileBusy := by
  rw [hostOnly, h]
  rfl

/-- Settles O9: a command and an illegal code are refused before anything else is looked at, and so is a change of a
stream; a reset in the middle of a command needs a command that was accepted. -/
theorem busyRefused : Obligations.BusyRefused := by
  intro s hs
  refine ⟨exec_busy hs, writeCmd_busy hs, fun c onInput k => ?_, fun _ _ _ => hostOnly_busy hs _ _,
    fun _ => hostOnly_busy hs _ _, fun _ => hostOnly_busy hs _ _⟩
  have hw : writeCmd c (s.setIo (s.io.cutAt onInput k)) = .refused .cmdWhileBusy :=
      writeCmd_busy (s := s.setIo (s.io.cutAt onInput k)) hs c
  show resetDuring c onInput k s = _
  rw [resetDuring, hw]

/-- Settles O10: each act is well formed under its premises, and a length below 2^64 is what its register holds. -/
theorem hostAttaches : Obligations.HostAttaches := by
  intro s hs
  refine ⟨fun bytes cursor hlen hcur => ?_, fun cursor hcur hlen => ?_, fun bytes hlen => ?_⟩
  · have hwf : (HostAct.attachIn bytes none cursor).wf = true := by
      rw [HostAct.wf, streamLenOk, cursorOk, decide_eq_true hlen, decide_eq_true hcur]
      rfl
    exact ⟨_, (congrArg (hostOnly · s _) hwf).trans (hostOnly_ok hs), Nat.mod_eq_of_lt (by omega), rfl⟩
  · have hwf : cursorOk s.io.input cursor = true := decide_eq_true hcur
    exact ⟨_, (congrArg (hostOnly · s _) hwf).trans (hostOnly_ok hs), Nat.mod_eq_of_lt (by omega), rfl⟩
  · have hwf : (HostAct.attachOut bytes).wf = true := decide_eq_true hlen
    exact ⟨_, (congrArg (hostOnly · s _) hwf).trans (hostOnly_ok hs), bytes.reverse_reverse,
      Nat.mod_eq_of_lt hlen, rfl⟩

end Sys2Proof.Machine
end

section

namespace Sys2Proof.Machine

/-! ### Pieces of a command that reach an end -/

section
variable {σ α β : Type} {P : σ → Prop} {Q : α → σ → Prop}

/-- From every state that meets `P` the piece ends in one that meets `Q`, or traps: no loop runs out of its bound
(R400). -/
abbrev Run.Ends (P : σ → Prop) (m : Run σ α) (Q : α → σ → Prop) : Prop := Run.Sat P m Q fun e _ => e ≠ .stuck

/-- The piece ends or traps from every state. -/
abbrev Run.Halts (m : Run σ α) : Prop := Run.Ends (fun _ => True) m fun _ _ => True

theorem raise_ends (c : FaultCode) : Run.Ends P (Run.raise c : Run σ α) Q := .raise fun _ _ => Stop.noConfusion

/-- Behind a test its outcome is known, and the test fails into a trap. -/
theorem Run.Sat.require_ends {b : Bool} {c : FaultCode} {g : Unit → Run σ α} (h : b = true → Run.Ends P (g ()) Q) :
    Run.Ends P (Run.require b c >>= g) Q := .require_fact (fun _ _ => Stop.noConfusion) h

/-- A rule from a stronger condition. -/
theorem Run.Sat.under {m : Run σ α} {P' : σ → Prop} {E : Stop → σ → Prop} (h : Run.Sat P m Q E) (hP : ∀ s, P' s → P s) :
    Run.Sat P' m Q E := fun s hs => h s (hP s hs)

/-- A fact beside the condition that does not speak of the state. -/
theorem Run.Sat.extract {m : Run σ α} {E : Stop → σ → Prop} {φ : Prop} (h : φ → Run.Sat P m Q E) :
    Run.Sat (fun s => P s ∧ φ) m Q E := fun s hs => h hs.2 s hs.1

theorem Run.Halts.pure (a : α) : Run.Halts (pure a : Run σ α) := Run.Sat.pure fun _ _ => trivial

theorem Run.Halts.read (f : σ → α) : Run.Halts (Run.read f) := Run.Sat.read fun _ _ => trivial

theorem Run.Halts.update (f : σ → σ) : Run.Halts (Run.update f) := Run.Sat.update fun _ _ => trivial

theorem Run.Halts.require (b : Bool) (c : FaultCode) : Run.Halts (Run.require b c : Run σ Unit) :=
  Run.Sat.require (fun _ _ _ => trivial) fun _ _ _ => Stop.noConfusion

theorem Run.Halts.bind {m : Run σ α} {f : α → Run σ β} (hm : Run.Halts m) (hf : ∀ a, Run.Halts (f a)) :
    Run.Halts (m >>= f) := Run.Sat.bind hm hf

theorem Run.Halts.ite {c : Prop} [Decidable c] {m n : Run σ α} (hm : Run.Halts m) (hn : Run.Halts n) :
    Run.Halts (if c then m else n) := Run.Sat.ite (fun _ => hm) fun _ => hn

theorem Run.Halts.each {f : α → Run σ Unit} (hf : ∀ a, Run.Halts (f a)) (xs : List α) : Run.Halts (Run.each xs f) :=
  Run.Sat.each hf xs

theorem Run.Halts.times {m : Run σ Unit} (hm : Run.Halts m) (n : Nat) : Run.Halts (Run.times n m) := Run.Sat.times hm n

/-- A piece that halts, where the state it starts from is of no matter. -/
theorem Run.Halts.ends {m : Run σ α} (h : Run.Halts m) : Run.Ends P m fun _ _ => True :=
  h.under fun _ _ => trivial

/-- Two facts about the outcome of a piece that ends. -/
theorem Run.Ends.ends_and {m : Run σ α} {P' : σ → Prop} {Q' : α → σ → Prop} {E : Stop → σ → Prop}
    (h : Run.Ends P m Q) (h' : Run.Sat P' m Q' E) :
    Run.Ends (fun s => P s ∧ P' s) m fun a s => Q a s ∧ Q' a s :=
  (h.and h').conseq (fun _ h => h) (fun _ _ h => h) fun _ _ h => h.1

/-- A piece that halts does what is known of it otherwise. -/
theorem Run.Halts.ends_sat {m : Run σ α} (h : Run.Halts m) {E : Stop → σ → Prop} (h' : Run.Sat P m Q E) :
    Run.Ends P m Q :=
  (Run.Ends.ends_and h h').conseq (fun _ hs => ⟨trivial, hs⟩) (fun _ _ h => h.2) fun _ _ h => h

end

section
variable {α : Type} {P P₀ : State → Prop} {Q : α → State → Prop}

/-- A piece that ends and carries a further condition over. -/
theorem Run.Ends.and_keeping {m : Eng α} (h : Run.Ends P₀ m Q) (hk : Run.Keeps (Frame.carry P) m) :
    Run.Ends (fun s => P₀ s ∧ P s) m fun a s => Q a s ∧ P s := h.ends_and (hk.carries fun _ _ => id)

theorem Run.Ends.keeping_and {m : Eng α} (h : Run.Ends P₀ m Q) (hk : Run.Keeps (Frame.carry P) m) :
    Run.Ends (fun s => P s ∧ P₀ s) m fun a s => P s ∧ Q a s :=
  (h.and_keeping hk).conseq (fun _ h => h.symm) (fun _ _ h => h.symm) fun _ _ h => h

/-- A piece that ends and carries a condition over. -/
theorem Run.Ends.keeping {m : Eng α} (h : Run.Ends P₀ m Q) (hP : ∀ s, P s → P₀ s)
    (hk : Run.Keeps (Frame.carry P) m) : Run.Ends P m fun _ => P :=
  (h.and_keeping hk).conseq (fun s hs => ⟨hP s hs, hs⟩) (fun _ _ h => h.2) fun _ _ h => h

theorem Run.Halts.keeping {m : Eng α} (h : Run.Halts m) (hk : Run.Keeps (Frame.carry P) m) :
    Run.Ends P m fun _ => P := Run.Ends.keeping h (fun _ _ => trivial) hk

/-- A command whose block ends gives a next state. -/
theorem Run.Ends.finishes {m : Eng Unit} {Q : Unit → State → Prop} (h : Run.Ends P m Q) {s : State} (hs : P s) :
    ∃ t, finish (m s) = .next t := by
  have hend := h s hs
  cases hm : m s with
  | ok a t => exact ⟨_, rfl⟩
  | error e t =>
    rw [hm] at hend
    cases e with
    | raise c => exact ⟨_, rfl⟩
    | stuck => exact absurd rfl hend

end

/-! #### The streams, the packer and the parser -/

theorem touchInput_halts : Run.Halts touchInput :=
  .bind (.update _) fun _ => .bind (.read _) fun _ => .require _ _

theorem inRead_halts : Run.Halts inRead := by
  refine .bind touchInput_halts fun _ => .bind (.read _) fun r => ?_
  cases r with
  | none => exact .pure _
  | some b => exact .bind (.update _) fun _ => .pure _

theorem inAtEnd_halts : Run.Halts inAtEnd := .bind touchInput_halts fun _ => .read _

theorem outWrite_halts (v : Byte) : Run.Halts (outWrite v) :=
  .bind (.update _) fun _ => .bind (.read _) fun _ => .bind (.require _ _) fun _ => .update _

theorem memRead_halts : ∀ n, Run.Halts (memRead n)
  | 0 => .pure _
  | n + 1 => by
    refine .bind inRead_halts fun r => ?_
    cases r with
    | none => exact raise_ends _
    | some b => exact .bind (memRead_halts n) fun _ => .pure _

theorem memWrite_halts : ∀ n v, Run.Halts (memWrite n v)
  | 0, _ => .pure _
  | n + 1, _ => .bind (outWrite_halts _) fun _ => memWrite_halts n _

theorem flushByte_halts : Run.Halts flushByte :=
  .bind (.read _) fun _ => .bind (outWrite_halts _) fun _ => .update _

theorem putBit_halts (b : Bool) : Run.Halts (putBit b) :=
  .bind (.update _) fun _ => .bind (.read _) fun _ => .ite flushByte_halts (.pure _)

theorem putBits_halts (c : Bits) : Run.Halts (putBits c) := .each putBit_halts c

theorem padAndFlush_halts : Run.Halts padAndFlush :=
  .bind (.read _) fun _ => .ite (.pure _) flushByte_halts

theorem takeBit_halts : Run.Halts takeBit := .bind (.read _) fun _ => .bind (.update _) fun _ => .pure _

theorem getBitOpt_halts : Run.Halts getBitOpt := by
  refine .bind (.read _) fun n => .ite (.bind inRead_halts fun r => ?_) (.bind takeBit_halts fun _ => .pure _)
  cases r with
  | none => exact .pure _
  | some v => exact .bind (.update _) fun _ => .bind takeBit_halts fun _ => .pure _

theorem getBitOrZero_halts : Run.Halts getBitOrZero := .bind getBitOpt_halts fun _ => .pure _

theorem bumpNsym_halts : Run.Halts bumpNsym := .update _

/-! #### The blocks without a bounded loop -/

theorem distBlock_halts : Run.Halts distBlock := .update _

theorem rangeLoop_halts : ∀ dl i cum, Run.Halts (rangeLoop dl i cum)
  | [], _, _ => .pure _
  | _ :: es, _, _ => .bind (.update _) fun _ => rangeLoop_halts es _ _

theorem rangesBlock_halts : Run.Halts rangesBlock := by
  refine .bind distBlock_halts fun _ => .bind (.read _) fun dl => ?_
  cases dl.getLast? with
  | none => exact .update _
  | some last =>
    exact .bind (rangeLoop_halts _ _ _) fun _ => .bind (.update _) fun _ => .bind (.require _ _) fun _ => .update _

theorem writeHeader_halts (f : Table (BitVec 32)) : Run.Halts (writeHeader f) :=
  .each (fun _ => memWrite_halts 4 _) _

theorem readHeaderWith_halts (store : Nat → BitVec 32 → State → State) : Run.Halts (readHeaderWith store) :=
  .each (fun _ => .bind (memRead_halts 4) fun _ => .update _) _

theorem readHeader_halts : Run.Halts readHeader := .bind (readHeaderWith_halts _) fun _ => .update _

theorem requireAllSeen_halts : Run.Halts requireAllSeen := .bind (.read _) fun _ => .require _ _

theorem onMain_halts {α : Type} {m : Run TreeMem α} (h : Run.Halts m) : Run.Halts (onMain m) := fun s _ => by
  have hm := h s.main trivial
  unfold onMain
  cases hs : m s.main <;> rw [hs] at hm <;> exact hm

theorem growPath_halts : ∀ c cur, Run.Halts (growPath c cur)
  | [], _ => .pure _
  | b :: bs, cur => by
    refine .bind (.read _) fun c => ?_
    cases c with
    | some child => exact growPath_halts bs child
    | none =>
      exact .bind (.read _) fun _ => .bind (.require _ _) fun _ => .bind (.update _) fun _ => .bind (.update _) fun _ =>
        growPath_halts bs _

theorem plantSymbol_halts (e : DistEntry) : Run.Halts (plantSymbol e) := by
  refine .bind (.read _) fun c => ?_
  cases c with
  | none => exact .pure _
  | some bits => exact .bind (growPath_halts _ _) fun _ => .update _

theorem fromSchemeBlock_halts (dl : List DistEntry) : Run.Halts (fromSchemeBlock dl) :=
  .bind (.update _) fun _ => .each plantSymbol_halts dl

theorem writeContextHeader_halts : Run.Halts writeContextHeader :=
  .bind (.read _) fun _ => .bind (writeHeader_halts _) fun _ => .bind (.read _) fun _ =>
  .bind (memWrite_halts _ _) fun _ => .bind (.read _) fun _ =>
  .each (fun _ => .bind (memWrite_halts _ _) fun _ => .bind (.read _) fun _ => writeHeader_halts _) _

theorem readRecord_halts : Run.Halts readRecord :=
  .bind (memRead_halts 1) fun _ => .bind (.read _) fun _ => .bind (.require _ _) fun _ =>
  .bind (readHeaderWith_halts _) fun _ => .update _

/-- A write to each context of a list. -/
theorem eachCtx_halts (f : CtxEntry → CtxEntry) (cs : List Nat) : Run.Halts (Run.each cs fun c => updateCtx c f) :=
  .each (fun _ => .update _) cs

theorem readContextHeader_halts : Run.Halts readContextHeader := by
  have hclear : Run.Halts (Run.each (List.range 256) fun c => updateCtx c fun e => { e with present := false }) :=
    eachCtx_halts _ _
  unfold readContextHeader
  -- named, so that Lean does not run it when it compares the goal with a rule
  generalize Run.each (List.range 256) (fun c => updateCtx c fun e => { e with present := false }) = clear at hclear ⊢
  exact .bind hclear fun _ => .bind readHeader_halts fun _ => .bind (memRead_halts 8) fun _ =>
    .bind (.update _) fun _ => .bind (.require _ _) fun _ => .times readRecord_halts _

theorem emitWithPending_halts (b : Bool) : Run.Halts (emitWithPending b) :=
  .bind (putBit_halts b) fun _ => .bind (.read _) fun _ => .bind (.times (putBit_halts _) _) fun _ => .update _

theorem arithFlush_halts : Run.Halts arithFlush :=
  .bind (.update _) fun _ => .bind (.read _) fun _ => .ite (emitWithPending_halts _) (emitWithPending_halts _)

theorem shiftVal_halts (f : Nat → Nat) : Run.Halts (shiftVal f) := .bind getBitOrZero_halts fun _ => .update _

theorem arithFind_halts : Run.Halts arithFind := by
  refine .bind (.read _) fun e => ?_
  cases e with
  | none => exact raise_ends _
  | some x => exact .pure _

end Sys2Proof.Machine
end

section

namespace Sys2Proof.Machine

/-! ### What bounds the loops: the bytes, the bits and the symbols left -/

/-- The cursor can stand anywhere in the input (R24). -/
abbrev State.Fits (s : State) : Prop := s.io.input.length < 2 ^ 64

/-- Fewer than `n` bytes are left to read. -/
abbrev State.Short (n : Nat) (s : State) : Prop := s.Fits ∧ s.io.rest.length < n

/-- The parser can give fewer than `n` bits. -/
abbrev State.Bits (n : Nat) (s : State) : Prop := s.Fits ∧ s.bitsLeft < n

/-- `TOTAL` allows fewer than `n` further symbols. -/
abbrev State.Rounds (n : Nat) (s : State) : Prop :=
  s.w.nsym.toNat ≤ s.w.total.toNat ∧ s.w.total.toNat < s.w.nsym.toNat + n

/-- The input and what the second pass would bring in its place (R390) fit the cursor. -/
abbrev State.Bounded (s : State) : Prop := s.Fits ∧ ∀ b, s.io.again = some b → b.length < 2 ^ 64

/-- `InRead()`: a byte it gives is one fewer left. -/
theorem inRead_left (C : Nat → Prop) : Run.Ends (fun s => s.Fits ∧ C s.io.rest.length) inRead
    fun r s => r.elim True fun _ => s.Fits ∧ C (s.io.rest.length + 1) := by
  rintro s ⟨hfits, hC⟩
  rw [inRead_eq]
  split
  case h_2 e t h =>
    split at h
    · cases h; exact Stop.noConfusion
    · split at h <;> cases h
  case h_1 r t h =>
    split at h
    · cases h
    · cases hr : s.io.rest with
      | nil =>
        rw [Streams.rest_nil hr] at h
        cases h
        trivial
      | cons b l =>
        rw [Streams.rest_cons hr] at h
        rw [hr] at hC
        cases h
        refine ⟨hfits, ?_⟩
        rw [State.advanced_rest (Streams.sound_of_cons hfits hr) hr]
        exact hC

theorem inRead_short {n : Nat} : Run.Ends (State.Short (n + 1)) inRead fun r s => r.elim True fun _ => s.Short n :=
  (inRead_left (· < n + 1)).conseq (fun _ h => h) (fun r _ h => match r, h with
    | none, _ => trivial
    | some _, ⟨hfits, hlt⟩ => ⟨hfits, Nat.lt_of_succ_lt_succ hlt⟩) fun _ _ h => h

/-- `takeBit`: one bit fewer left. -/
theorem takeBit_bits {n : Nat} : Run.Ends (fun s => s.Bits (n + 1) ∧ s.w.icnt ≠ 0) takeBit fun _ => State.Bits n := by
  rintro s ⟨⟨hfits, hbits⟩, hcnt⟩
  refine ⟨hfits, ?_⟩
  have hpos : s.w.icnt.toNat ≠ 0 := fun h => hcnt (BitVec.eq_of_toNat_eq h)
  have hsub : (s.w.icnt - 1).toNat + 1 = s.w.icnt.toNat := by bv_omega
  unfold State.bitsLeft at hbits
  show 8 * s.io.rest.length + (s.w.icnt - 1).toNat < n
  omega

/-- `GetBitOpt()` (R75): one bit fewer left. -/
theorem getBitOpt_bits {n : Nat} : Run.Ends (State.Bits (n + 1)) getBitOpt
    fun r s => r.elim True fun _ => s.Bits n := by
  have hbytes (s : State) (h : s.Bits (n + 1)) : s.Fits ∧ 8 * s.io.rest.length < n + 1 :=
    ⟨h.1, (Nat.le_add_right _ _).trans_lt h.2⟩
  refine .read_bind fun k => .ite (fun _ => ?_) fun hk => ?_
  · refine .bind ((inRead_left (8 * · < n + 1)).under fun s ⟨h, _⟩ => hbytes s h) fun r => ?_
    cases r with
    | none => exact .pure fun _ _ => trivial
    | some v =>
      refine .update_bind (R := fun s => s.Bits (n + 1) ∧ s.w.icnt ≠ 0) (fun s ⟨hfits, hlt⟩ => ⟨⟨hfits, ?_⟩,
        show (8 : BitVec 4) ≠ 0 by decide⟩) (.bind takeBit_bits fun _ => .pure fun _ h => h)
      show 8 * s.io.rest.length + 8 < n + 1
      omega
  · exact .conseq (.bind takeBit_bits fun _ => .pure fun _ h => h)
      (fun s ⟨hbits, hcnt⟩ => ⟨hbits, fun h0 => hk (by rw [hcnt, h0]; rfl)⟩) (fun _ _ h => h) fun _ _ h => h

theorem State.Bits.mono {s : State} {n m : Nat} (h : s.Bits n) (hle : n ≤ m) : s.Bits m := ⟨h.1, h.2.trans_le hle⟩

/-- `GetBitOpt()` under any bound: none where no bit is left. -/
theorem getBitOpt_bits_pred {m : Nat} : Run.Ends (State.Bits m) getBitOpt
    fun r s => r.elim True fun _ => s.Bits (m - 1) :=
  match m with
  | 0 => fun _ hs => absurd hs.2 (Nat.not_lt_zero _)
  | _ + 1 => getBitOpt_bits

theorem getBit_bits {n : Nat} : Run.Ends (State.Bits (n + 1)) getBit fun _ => State.Bits n :=
  .bind getBitOpt_bits fun r => match r with
    | none => raise_ends _
    | some _ => .pure fun _ h => h

/-- A symbol that `TOTAL` allows leaves one fewer. -/
theorem bumpNsym_rounds {n : Nat} {P : State → Prop} (hn : (Frame.carry P).AllowsNsym)
    (hf : (Frame.carry P).AllowsFresh) : Run.Ends (fun s => P s ∧ s.Rounds (n + 1) ∧ s.Below) bumpNsym
      fun _ s => P s ∧ s.Rounds n := by
  have hbump : Run.Ends (fun s => s.Rounds (n + 1) ∧ s.Below) bumpNsym fun _ => State.Rounds n :=
    fun s ⟨⟨_, hlt⟩, hbelow⟩ => by
      obtain ⟨hrun, hsucc⟩ := bumpNsym_below hbelow
      rw [hrun]
      show (s.w.nsym + 1).toNat ≤ s.w.total.toNat ∧ s.w.total.toNat < (s.w.nsym + 1).toNat + n
      rw [hsucc]
      unfold State.Below at hbelow
      omega
  exact hbump.keeping_and (bumpNsym_keeps hn hf)

theorem State.Rounds.not_zero {s : State} (h : s.Rounds 0) : False := by
  obtain ⟨hle, hlt⟩ := h
  omega

/-- A loop that starts with `NSYM` 0 has the bound it needs. -/
theorem State.rounds_start {s : State} {n : Nat} (h : s.w.nsym = 0) (hn : n = s.w.total.toNat) : s.Rounds (n + 1) := by
  rw [State.Rounds, h, hn]
  exact ⟨Nat.zero_le _, by omega⟩

theorem inRewind_bounded : Run.Ends State.Bounded inRewind fun _ => State.Bounded := by
  refine .bind (touchInput_halts.keeping (touchInput_keeps fun _ _ _ h => h)) fun _ =>
    .update_bind (fun s ⟨hfits, hagain⟩ => ⟨?_, fun _ h => nomatch h⟩) (.update fun _ h => h)
  show (s.io.again.getD s.io.input).length < 2 ^ 64
  cases ha : s.io.again with
  | none => exact hfits
  | some b => exact hagain b ha

/-- A loop that reads to the end of the input has the bound it needs (R400), next to a condition it starts with. -/
theorem readBound_ends_and {P : State → Prop} {α : Type} {loop : Nat → Eng α} {Q : α → State → Prop}
    (h : ∀ n, Run.Ends (fun s => P s ∧ s.Short n) (loop n) Q) :
    Run.Ends (fun s => P s ∧ s.Fits) (Run.read State.readBound >>= loop) Q :=
  .read_bind fun n => (h n).under fun _ ⟨⟨hP, hfits⟩, hn⟩ => ⟨hP, hfits, hn ▸ Nat.lt_succ_self _⟩

theorem readBound_ends {α : Type} {loop : Nat → Eng α} {Q : α → State → Prop}
    (h : ∀ n, Run.Ends (State.Short n) (loop n) Q) : Run.Ends State.Fits (Run.read State.readBound >>= loop) Q :=
  .read_bind fun n => (h n).under fun _ ⟨hfits, hn⟩ => ⟨hfits, hn ▸ Nat.lt_succ_self _⟩

/-- A decode loop has the bound it needs. -/
theorem totalBound_ends {loop : Nat → Eng Unit}
    (h : ∀ n, Run.Ends (fun s => s.Fits ∧ s.Rounds n) (loop n) fun _ _ => True) :
    Run.Ends (fun s => s.Fits ∧ s.w.nsym = 0)
      (Run.read (fun s => s.w.total.toNat) >>= fun total => loop (total + 1)) fun _ _ => True :=
  .read_bind fun total => (h (total + 1)).under fun _ ⟨⟨hfits, h0⟩, htotal⟩ => ⟨hfits, State.rounds_start h0 htotal⟩

end Sys2Proof.Machine
end

section

namespace Sys2Proof.Machine

/-! ### The builders end -/

section
variable {σ α : Type} {P : σ → Prop} {Q : α → σ → Prop}

/-- A piece of which it is known how it ends. -/
theorem Run.Ends.of_ok {m : Run σ α} (h : ∀ s, P s → ∃ a t, m s = .ok a t ∧ Q a t) : Run.Ends P m Q := fun s hs => by
  obtain ⟨a, t, hm, hq⟩ := h s hs
  rw [hm]
  exact hq

end

/-- The tree can be walked: it hangs at `ROOT`, and is not deeper than the walks of the arena go. -/
abbrev TreeMem.Walkable (t : TreeMem) : Prop := ∃ sh, t.Roots sh ∧ sh.depth ≤ depthBound

theorem deriveBlock_ends : Run.Ends TreeMem.Walkable deriveBlock fun _ _ => True :=
  .of_ok fun _ ⟨_, hroots, hdepth⟩ => have ⟨u, hu, _⟩ := deriveBlock_ok hroots hdepth
    ⟨(), u, hu, trivial⟩

/-- The leaves planted are one-node trees (R182). -/
theorem plantLeaves_ends (dl : List DistEntry) : Run.Ends (fun _ => True) (plantLeaves dl 0)
    fun _ v => ∀ p ∈ leafTrees dl 0, v.Holds p.2 p.1.slot := .of_ok fun t _ =>
  have ⟨u, hu, _, _, _, _, hnodes⟩ := plantLeaves_ok dl 0 t
  ⟨(), u, hu, leafTrees_holds dl 0 hnodes⟩

/-- A tree depends on `TREE` alone. -/
theorem TreeMem.Holds.of_tree {t u : TreeMem} {sh : Shape} {r : Nat} (h : t.Holds sh r) (htree : u.tree = t.tree) :
    u.Holds sh r := (TreeMem.Holds.congr h fun k _ => by rw [TreeMem.node, htree]; rfl).1

/-- The leaves in the first slots are a queue of trees, whatever their counts are. -/
theorem TreeMem.queue_leaves {t : TreeMem} {dl : List DistEntry} (hlen : dl.length < 2 ^ 14)
    (h : ∀ p ∈ leafTrees dl 0, t.Holds p.2 p.1.slot) :
    TreeMem.Queue { t with nnodes := BitVec.ofNat 14 dl.length } (leafTrees dl 0) where
  holds p hp := (h p hp).of_tree rfl
  nodup := by rw [leafTrees_slots]; exact List.nodup_range'
  used k hk := by
    rw [leafTrees_slots] at hk
    have hlt := List.mem_range'_1.1 hk
    show k < (BitVec.ofNat 14 dl.length).toNat
    rw [BitVec.toNat_ofNat, Nat.mod_eq_of_lt hlen]
    omega

/-- Merging leaves ends with one tree, which `TREE.DERIVE` can walk (R182, R184). -/
theorem mergeLoop_ends {dl : List DistEntry} (hne : dl ≠ []) (hlen : dl.length < 512) :
    Run.Ends (fun t : TreeMem => t.Queue (leafTrees dl 0) ∧ t.nnodes.toNat = dl.length)
      (mergeLoop dl.length (leafQueue dl 0)) fun r u => TreeMem.Walkable { u with root := some r } := by
  refine .of_ok fun t ⟨hqueue, hnodes⟩ => ?_
  have hleaves : (leafTrees dl 0).length = dl.length := leafTrees_length dl 0
  obtain ⟨r, u, hmerge, htree, hused, _⟩ := mergeLoop_ok dl.length (t := t)
    (fun h0 => hne (List.eq_nil_of_length_eq_zero (hleaves.symm.trans (congrArg List.length h0)))) hleaves.le hqueue
    (by rw [hnodes, hleaves]; omega)
  rw [leafTrees_fst] at hmerge
  have hholds : u.Holds _ r := htree.holds _ (List.mem_singleton.2 rfl)
  have hslots := htree.nodup
  have hbelow := htree.used
  rw [List.flatMap_singleton] at hslots hbelow
  have hdepth := hholds.depth_le.trans (nodup_length_le hslots hbelow)
  refine ⟨r, u, hmerge, _, ⟨r, rfl, hholds.of_tree rfl⟩, ?_⟩
  have hbound : depthBound = 10242 := rfl
  omega

/-- `BLD.HUFFMAN`'s block ends on every list a distribution can be, whatever the counts (R182). -/
theorem huffmanBlock_halts {dl : List DistEntry} (hlen : dl.length < 512) : Run.Halts (huffmanBlock dl) :=
  match dl with
  | [] => .update _
  | [_] => .update _
  | _ :: _ :: _ => Run.Sat.bind (plantLeaves_ends _) fun _ =>
    .update_bind (fun _ h => ⟨TreeMem.queue_leaves (by omega) h, Nat.mod_eq_of_lt (by omega)⟩) <|
    .bind (mergeLoop_ends (List.cons_ne_nil _ _) hlen) fun _ => .update_bind (fun _ h => h) deriveBlock_ends

theorem fano_ends {dl : List DistEntry} (hne : dl ≠ []) (p : Bits) : Run.Halts (fano dl.length dl p) :=
  .of_ok fun t _ => ⟨(), _, fano_ok dl.length dl p t hne le_rfl, trivial⟩

/-- `BLD.FANO`'s block ends on every list, whatever the counts (R178). -/
theorem fanoBlock_halts (dl : List DistEntry) : Run.Halts (fanoBlock dl) :=
  match dl with
  | [] => .update _
  | [_] => .update _
  | _ :: _ :: _ => .bind (.update _) fun _ => .bind (fano_ends (List.cons_ne_nil _ _) []) fun _ =>
    fromSchemeBlock_halts _

/-- `BLD.SHANNON`'s block ends on a distribution (R174); a count 0 has no codeword length. -/
theorem shannonBlock_halts {dl : List DistEntry} (h : IsDist dl) : Run.Halts (shannonBlock dl) :=
  match dl with
  | [] => .update _
  | [_] => .update _
  | _ :: _ :: _ => .of_ok fun t _ => have ⟨u, hu, _⟩ := shannonBlock_ok h (Nat.le_add_left 2 _) t
    ⟨(), u, hu, trivial⟩

/-- `DIST` leaves the distribution of `FREQ` (R132), next to what it carries over. -/
theorem distBlock_ends {P : State → Prop} (h : (Frame.carry P).AllowsDist) :
    Run.Ends P distBlock fun _ s => s.distList = distribution s.freq ∧ P s := .of_ok fun s hs => by
  obtain ⟨t, ht, hdist⟩ := distBlock_distList s
  cases ht
  exact ⟨(), _, rfl, hdist, h s _ _ hs⟩

/-- A builder on the distribution `DIST` has just left ends (R170). -/
theorem withDist_distributed_ends {P : State → Prop} (h : (Frame.carry P).AllowsMain) (m : StaticMethod) :
    Run.Ends (fun s => s.distList = distribution s.freq ∧ P s) (withDist m.block) fun _ => P :=
  .of_ok fun s ⟨hdist, hs⟩ => by
    obtain ⟨u, hu, _⟩ := m.block_distribution s.freq s.main
    exact ⟨(), _, onMain_ok (m := m.block s.distList) (hdist ▸ hu), h s u hs⟩

theorem buildAllModels_halts : Run.Halts buildAllModels := .of_ok fun s _ =>
  have ⟨t, ht, _⟩ := buildAllModels_ok s
  ⟨(), t, ht, trivial⟩

/-- A builder run on `DIST` as it stands. -/
theorem withDist_ends {b : Builder} {P : State → Prop} (h : ∀ s, P s → Run.Halts (b s.distList)) :
    Run.Ends P (withDist b) fun _ _ => True := fun s hs => onMain_halts (h s hs) s trivial

/-- A piece on the engine's own code model. -/
theorem onMain_ends {α : Type} {m : Run TreeMem α} {P : TreeMem → Prop} (h : Run.Ends P m fun _ _ => True)
    {R : State → Prop} (hR : ∀ s, R s → P s.main) : Run.Ends R (onMain m) fun _ _ => True := fun s hs => by
  have hm := h s.main (hR s hs)
  unfold onMain
  cases hrun : m s.main <;> rw [hrun] at hm <;> exact hm

/-- A tree as `TREE.TRUNC` and `TREE.DERIVE` find it: none, or one with distinct slots that fits the arena (log entry
21). -/
abbrev TreeMem.Arena (t : TreeMem) : Prop := t.root = none ∨ ∃ (r : Nat) (sh : Shape),
  t.root = some r ∧ t.Holds sh r ∧ (t.slots sh r).Nodup ∧ sh.depth ≤ Config.treeCap

theorem truncBlock_ends : Run.Ends TreeMem.Arena truncBlock fun _ _ => True :=
  .of_ok fun t ht => by
    obtain hnone | ⟨r, sh, hroot, hholds, hnodup, hdepth⟩ := ht
    · exact ⟨(), t, truncBlock_of_no_root hnone, trivial⟩
    · obtain ⟨u, hu, _⟩ := truncBlock_ok hroot hholds hnodup (depth_le_depthBound hdepth)
      exact ⟨(), u, hu, trivial⟩

theorem deriveBlock_arena_ends : Run.Ends TreeMem.Arena deriveBlock fun _ _ => True := fun t ht => by
  obtain hnone | ⟨r, sh, hroot, hholds, _, hdepth⟩ := ht
  · rw [deriveBlock_of_no_root hnone]
    trivial
  · exact deriveBlock_ends t ⟨sh, ⟨r, hroot, hholds⟩, depth_le_depthBound hdepth⟩

end Sys2Proof.Machine
end

section

namespace Sys2Proof.Machine

/-! ### The static and the context codec end -/

/-! #### The passes over the input -/

theorem countLoop_ends : ∀ n, Run.Ends (State.Short n) (countLoop n) fun _ _ => True
  | 0 => .stuck fun _ h => absurd h.2 (Nat.not_lt_zero _)
  | n + 1 => .bind inRead_short fun r => match r with
    | none => .pure fun _ _ => trivial
    | some _ => .read_any fun _ => .require_ends fun _ => .update_keep (fun _ h => h) <| .update_keep (fun _ h => h)
      (countLoop_ends n)

theorem countBlock_ends : Run.Ends State.Fits countBlock fun _ _ => True :=
  .update_keep (fun _ h => h) <| .update_keep (fun _ h => h) (readBound_ends countLoop_ends)

theorem countPairsLoop_ends : ∀ n, Run.Ends (State.Short n) (countPairsLoop n) fun _ _ => True
  | 0 => .stuck fun _ h => absurd h.2 (Nat.not_lt_zero _)
  | n + 1 => .bind inRead_short fun r => match r with
    | none => .pure fun _ _ => trivial
    | some _ => .read_any fun _ => .require_ends fun _ => .update_keep (fun _ h => h) <| .update_keep (fun _ h => h) <|
      .read_any fun _ => .ite (fun _ => .update_keep (fun _ h => h) (countPairsLoop_ends n)) fun _ =>
        .update_keep (fun _ h => h) <| .update_keep (fun _ h => h) (countPairsLoop_ends n)

theorem encodeLoop_ends : ∀ n, Run.Ends (State.Short n) (encodeLoop n) fun _ _ => True
  | 0 => .stuck fun _ h => absurd h.2 (Nat.not_lt_zero _)
  | n + 1 => .bind inRead_short fun r => match r with
    | none => .pure fun _ _ => trivial
    | some _ => .read_any fun _ => .read_any fun _ => .require_ends fun _ =>
      .bind ((putBits_halts _).keeping (putBits_keeps (fun _ _ h => h) (fun _ _ h => h) (fun _ _ _ h => h) _)) fun _ =>
      .bind (bumpNsym_halts.keeping (bumpNsym_keeps (fun _ _ h => h) fun _ _ h => h)) fun _ => encodeLoop_ends n

theorem encodeContextLoop_ends : ∀ n, Run.Ends (State.Short n) (encodeContextLoop n) fun _ _ => True
  | 0 => .stuck fun _ h => absurd h.2 (Nat.not_lt_zero _)
  | n + 1 => .bind inRead_short fun r => match r with
    | none => .pure fun _ _ => trivial
    | some _ => .read_any fun _ => .read_any fun _ => .require_ends fun _ =>
      .bind ((putBits_halts _).keeping (putBits_keeps (fun _ _ h => h) (fun _ _ h => h) (fun _ _ _ h => h) _)) fun _ =>
      .update_keep (fun _ h => h) <|
      .bind (bumpNsym_halts.keeping (bumpNsym_keeps (fun _ _ h => h) fun _ _ h => h)) fun _ => encodeContextLoop_ends n

/-- `EncodePayload()` (R205) over an input that fits. -/
theorem encodePayload_ends : Run.Ends State.Fits encodePayload fun _ _ => True :=
  .update_keep (fun _ h => h) <| readBound_ends fun n => .bind (encodeLoop_ends n) fun _ => requireAllSeen_halts

/-- `EncodeContextPayload()` (R234) over an input that fits. -/
theorem encodeContextPayload_ends : Run.Ends State.Fits encodeContextPayload fun _ _ => True :=
  .update_keep (fun _ h => h) <| readBound_ends fun n => .bind (encodeContextLoop_ends n) fun _ => requireAllSeen_halts

/-! #### The walks and the passes over the symbols -/

theorem walkLoop_ends (T : Table TreeNode) : ∀ n cur, Run.Ends (State.Bits n) (walkLoop T n cur) fun _ _ => True
  | 0, _ => .stuck fun _ h => absurd h.2 (Nat.not_lt_zero _)
  | n + 1, cur => by
    unfold walkLoop
    cases (treeGet T cur).sym with
    | some s => exact .pure fun _ _ => trivial
    | none =>
      refine .bind getBit_bits fun b => .update_keep (fun _ h => h) ?_
      cases (treeGet T cur).child b with
      | none => exact raise_ends _
      | some next => exact walkLoop_ends T n next

/-- `WalkSymbol` over an input that fits ends, on any tree (R156, R345). -/
theorem walkSymbol_ends (T : Table TreeNode) (root : Option Nat) :
    Run.Ends State.Fits (walkSymbol T root) fun _ _ => True :=
  match root with
  | none => raise_ends _
  | some r => .update_keep (fun _ h => h) <| .read_bind fun n => (walkLoop_ends T (n + 2) r).under
    fun _ ⟨hfits, hn⟩ => ⟨hfits, hn ▸ Nat.lt_add_of_pos_right Nat.two_pos⟩

/-- A symbol is to be decoded: `TOTAL` allows it, and fewer than `n` behind it. -/
abbrev State.AtSymbol (n : Nat) (s : State) : Prop := s.Fits ∧ s.Rounds (n + 1) ∧ s.Below

section
variable {n : Nat}

theorem walkSymbol_atSymbol (T : Table TreeNode) (root : Option Nat) :
    Run.Ends (State.AtSymbol n) (walkSymbol T root) fun _ => State.AtSymbol n :=
  (walkSymbol_ends T root).keeping (fun _ h => h.1)
    (walkSymbol_keeps (fun _ _ _ h => h) (fun _ _ _ h => h) (fun _ _ h => h) T root)

theorem decodeSymbol_ends : Run.Ends (State.AtSymbol n) decodeSymbol fun _ => State.AtSymbol n :=
  .read_any fun _ => walkSymbol_atSymbol _ _

theorem decodeContextSymbol_ends : Run.Ends (State.AtSymbol n) decodeContextSymbol fun _ => State.AtSymbol n :=
  .read_any fun _ => .ite (fun _ => .read_any fun _ => walkSymbol_atSymbol _ _) fun _ =>
    .read_any fun _ => .require_ends fun _ => walkSymbol_atSymbol _ _

theorem noteSymbol_ends (b : Byte) :
    Run.Ends (State.AtSymbol n) (noteSymbol b) fun _ s => s.Fits ∧ s.Rounds n :=
  .bind ((outWrite_halts b).keeping (outWrite_keeps (fun _ _ h => h) (fun _ _ h => h) b)) fun _ =>
    bumpNsym_rounds (fun _ _ h => h) fun _ _ h => h

theorem noteContextSymbol_ends (b : Byte) :
    Run.Ends (State.AtSymbol n) (noteContextSymbol b) fun _ s => s.Fits ∧ s.Rounds n :=
  .bind ((outWrite_halts b).keeping (outWrite_keeps (fun _ _ h => h) (fun _ _ h => h) b)) fun _ =>
    .update_keep (fun _ h => h) <| bumpNsym_rounds (fun _ _ h => h) fun _ _ h => h

end

/-- A decode loop whose symbols end takes no more rounds than `TOTAL` says (R400). -/
theorem Decodes.ends {loop : Nat → Eng Unit} {symbol : Eng Byte} {note : Byte → Eng Unit} (h : Decodes loop symbol note)
    (hsymbol : ∀ n, Run.Ends (State.AtSymbol n) symbol fun _ => State.AtSymbol n)
    (hnote : ∀ n b, Run.Ends (State.AtSymbol n) (note b) fun _ s => s.Fits ∧ s.Rounds n) :
    ∀ n, Run.Ends (fun s => s.Fits ∧ s.Rounds n) (loop n) fun _ _ => True
  | 0 => fun _ hs => hs.2.not_zero.elim
  | n + 1 => fun s ⟨hfits, hrounds⟩ => by
    by_cases hbelow : s.Below
    · have hround : Run.Ends (State.AtSymbol n) (symbol >>= fun b => note b >>= fun _ => loop n) fun _ _ => True :=
        .bind (hsymbol n) fun b => .bind (hnote n b) fun _ => Decodes.ends h hsymbol hnote n
      rw [h.more n hbelow]
      exact hround s ⟨hfits, hrounds, hbelow⟩
    · rw [h.done n hbelow]
      trivial

/-! #### The commands -/

/-- The five steps of a compressor's second pass, over what the rewind brings (R390). -/
theorem secondPass_ends {payload : Eng Unit} (h : Run.Ends State.Fits payload fun _ _ => True) :
    Run.Ends State.Bounded (do
      setPhase .enc
      inRewind
      payload
      setPhase .term
      padAndFlush) fun _ _ => True :=
  .update_keep (fun _ h => h) <| .bind inRewind_bounded fun _ =>
  .bind (h.under fun _ h => h.1) fun _ => .update_keep (fun _ h => h) padAndFlush_halts

theorem staticCompress_ends (m : StaticMethod) : Run.Ends State.Bounded (staticCompress m.block) fun _ _ => True :=
  .update_keep (fun _ h => h) <|
  .bind (countBlock_ends.keeping (fun _ h => h.1)
    (countBlock_keeps (fun _ _ _ h => h) (fun _ _ h => h) fun _ _ h => h)) fun _ =>
  .update_keep (fun _ h => h) <|
  .bind (distBlock_ends fun _ _ _ h => h) fun _ => .bind (withDist_distributed_ends (fun _ _ h => h) m) fun _ =>
  .update_keep (fun _ h => h) <| .read_any fun f =>
  .bind ((writeHeader_halts f).keeping (writeHeader_keeps (fun _ _ h => h) (fun _ _ h => h) f)) fun _ =>
  secondPass_ends encodePayload_ends

theorem decodePayload_ends : Run.Ends State.Fits decodePayload fun _ _ => True :=
  .update_bind (R := fun s => s.Fits ∧ s.w.nsym = 0) (fun _ h => ⟨h, rfl⟩) <|
    totalBound_ends (decodeLoop_decodes.ends (fun _ => decodeSymbol_ends) fun _ => noteSymbol_ends)

theorem staticDecompress_ends (m : StaticMethod) : Run.Ends State.Fits (staticDecompress m.block) fun _ _ => True :=
  .update_keep (fun _ h => h) <|
  .bind (readHeader_halts.keeping (readHeader_keeps (fun _ _ _ h => h) (fun _ _ h => h) fun _ _ h => h)) fun _ =>
  .bind (inAtEnd_halts.keeping (inAtEnd_keeps fun _ _ _ h => h)) fun _ => .ite (fun _ => .pure fun _ _ => trivial)
  fun _ => .update_keep (fun _ h => h) <| .bind (distBlock_ends fun _ _ _ h => h) fun _ =>
  .bind (withDist_distributed_ends (fun _ _ h => h) m) fun _ => .update_keep (fun _ h => h) decodePayload_ends

theorem eachCtx_ends {P : State → Prop} (h : (Frame.carry P).AllowsCtx) (f : CtxEntry → CtxEntry) (cs : List Nat) :
    Run.Ends P (Run.each cs fun c => updateCtx c f) fun _ => P :=
  .each (fun _ => .update fun s hs => h s _ hs) cs

theorem countPairs_ends : Run.Ends State.Fits countPairs fun _ _ => True := by
  have hclear : Run.Ends State.Fits (Run.each (List.range 256) fun c =>
      updateCtx c fun e => { e with present := false, freq := [] }) fun _ => State.Fits :=
    eachCtx_ends (fun _ _ h => h) _ _
  unfold countPairs
  -- named, so that Lean does not run it when it compares the goal with a rule
  generalize Run.each (List.range 256) (fun c =>
    updateCtx c fun e => { e with present := false, freq := [] }) = clear at hclear ⊢
  exact .update_keep (fun _ h => h) <| .bind hclear fun _ => .update_keep (fun _ h => h) <|
    readBound_ends fun n => .bind (countPairsLoop_ends n) fun _ => .update fun _ _ => trivial

theorem contextCompress_ends : Run.Ends State.Bounded contextCompress fun _ _ => True := by
  have hends := @countPairs_ends
  have hkeeps : Run.Keeps (Frame.carry State.Bounded) countPairs := countPairs_keeps (fun _ _ _ h => h)
    (fun _ _ h => h) (fun _ _ h => h) (fun _ _ h => h) (fun _ _ h => h) fun _ _ h => h
  unfold contextCompress
  -- named, so that Lean does not run it when it compares the goal with a rule
  generalize countPairs = count at hends hkeeps ⊢
  exact .update_keep (fun _ h => h) <| .bind (hends.keeping (fun _ h => h.1) hkeeps) fun _ =>
    .update_keep (fun _ h => h) <| .bind (buildAllModels_halts.keeping
      (buildAllModels_keeps (fun _ _ _ h => h) (fun _ _ h => h) fun _ _ h => h)) fun _ =>
    .update_keep (fun _ h => h) <|
    .bind (writeContextHeader_halts.keeping (writeContextHeader_keeps (fun _ _ h => h) fun _ _ h => h)) fun _ =>
    secondPass_ends encodeContextPayload_ends

theorem decodeContextPayload_ends : Run.Ends State.Fits decodeContextPayload fun _ _ => True :=
  .update_bind (R := fun s => s.Fits ∧ s.w.nsym = 0) (fun _ h => ⟨h, rfl⟩) <|
    totalBound_ends (decodeContextLoop_decodes.ends (fun _ => decodeContextSymbol_ends) fun _ => noteContextSymbol_ends)

theorem contextDecompress_ends : Run.Ends State.Fits contextDecompress fun _ _ => True := by
  have hends := @readContextHeader_halts
  have hkeeps : Run.Keeps (Frame.carry State.Fits) readContextHeader := readContextHeader_keeps (fun _ _ _ h => h)
    (fun _ _ h => h) (fun _ _ h => h) (fun _ _ h => h) (fun _ _ h => h) fun _ _ h => h
  unfold contextDecompress
  -- named, so that Lean does not run it when it compares the goal with a rule
  generalize readContextHeader = header at hends hkeeps ⊢
  exact .update_keep (fun _ h => h) <| .bind (hends.keeping hkeeps) fun _ => .update_keep (fun _ h => h) <|
    .bind (buildAllModels_halts.keeping
      (buildAllModels_keeps (fun _ _ _ h => h) (fun _ _ h => h) fun _ _ h => h)) fun _ =>
    .update_keep (fun _ h => h) decodeContextPayload_ends

end Sys2Proof.Machine
end

section

namespace Sys2Proof.Machine

/-! ### The adaptive codec ends -/

section
variable {g : FgkMem} {S : List Byte} {r y : Nat}

/-! #### The encoder -/

/-- The path of a node in use is written: the climb to the root has an end (R254). -/
theorem putPath_ends (hgrown : g.Grown r y) {n : Nat} (hn : n < g.n.toNat) :
    Run.Ends (fun s => s.fgk = g) (putPath n) fun _ s => s.fgk = g := by
  obtain ⟨d, hd, _⟩ := hgrown.fgkPath hn
  refine .read_fact (φ := fun p => p = some d) (fun s hs => by rw [hs, hd]) fun p hp => ?_
  subst hp
  exact (putBits_halts d).keeping (putBits_keeps (fun _ _ h => h) (fun _ _ h => h) (fun _ _ _ h => h) d)

theorem nytSlot_ends (hgrown : g.Grown r y) :
    Run.Ends (fun s => s.fgk = g) nytSlot fun n s => s.fgk = g ∧ n = y := by
  refine .read_fact (φ := fun o => o = some y) (fun s hs => by rw [hs, hgrown.nyt]) fun o ho => ?_
  subst ho
  exact .pure fun _ h => ⟨h, rfl⟩

/-- `FgkEncodeSymbol(b)` (R255) on the tree of a byte sequence ends with the tree of the longer sequence. -/
theorem fgkEncodeSymbol_ends (hg : g.Codes S) (hlen : S.length + 1 < 2 ^ 64) (b : Byte) :
    Run.Ends (fun s => s.fgk = g) (fgkEncodeSymbol b) fun _ s => s.fgk = fgkAfter g b := by
  obtain ⟨r, y, hgrown, _⟩ := hg.rest
  refine .read_fact (φ := fun lf => lf = leafGet g.leaf b.toNat) (fun s hs => by rw [hs]) fun lf hlf => ?_
  cases lf with
  | some n =>
    obtain ⟨hn, _⟩ := (hgrown.leaf b n).1 hlf.symm
    exact .bind (putPath_ends hgrown hn) fun _ => onFgk_update_seen hg hlen hlf.symm
  | none =>
    refine .bind_fact (nytSlot_ends hgrown) fun nyt hnyt => ?_
    subst hnyt
    exact .bind (putPath_ends hgrown hgrown.nyt_lt) fun _ =>
      .bind ((putBits_halts _).keeping (putBits_keeps (fun _ _ h => h) (fun _ _ h => h) (fun _ _ _ h => h) _)) fun _ =>
      .bind (onFgk_split_unseen hg hlen hlf.symm) fun _ => onFgk_update_ok

/-- The loop of `CMP.ADAPTIVE` (R260) ends with the tree of a byte sequence. -/
theorem adaptiveEncodeLoop_ends : ∀ (n : Nat) {g : FgkMem} {S : List Byte}, g.Codes S → S.length + n < 2 ^ 64 →
    Run.Ends (fun s => s.fgk = g ∧ s.Short n) (adaptiveEncodeLoop n) fun _ s => ∃ S, s.fgk.Codes S
  | 0, _, _, _, _ => .stuck fun _ h => absurd h.2.2 (Nat.not_lt_zero _)
  | n + 1, g, S, hg, hlen => by
    refine .bind (inRead_short.keeping_and (inRead_keeps fun _ _ _ h => h)) fun r => ?_
    cases r with
    | none => exact .pure fun s hs => ⟨S, hs.1 ▸ hg⟩
    | some b =>
      refine .bind ((fgkEncodeSymbol_ends hg (by omega) b).and_keeping (P := State.Short n)
          (fgkEncodeSymbol_keeps (fun _ _ h => h) (fun _ _ h => h) (fun _ _ _ h => h) (fun _ _ h => h) b)) fun _ =>
        .bind (bumpNsym_halts.keeping (bumpNsym_keeps (fun _ _ h => h) fun _ _ h => h)) fun _ =>
        adaptiveEncodeLoop_ends n (hg.after (by omega) b).1 ?_
      rw [List.length_append, List.length_singleton]
      omega

/-- `FgkPad()` (R263) on the tree of a byte sequence. -/
theorem fgkPad_ends : Run.Ends (fun s => ∃ S, s.fgk.Codes S) fgkPad fun _ _ => True := by
  rintro s ⟨S, hg⟩
  obtain ⟨r, y, hgrown, _⟩ := hg.rest
  obtain ⟨d, hd, _⟩ := hgrown.fgkPath hgrown.nyt_lt
  have hpad : Run.Ends (fun t => t.fgk = s.fgk) fgkPad fun _ _ => True := by
    refine .bind_fact (nytSlot_ends hgrown) fun nyt hnyt => .read_fact (φ := fun p => p = some d)
      (fun t ht => by rw [ht, hnyt, hd]) fun p hp => ?_
    subst hp
    exact .read_any fun _ => (putBits_halts _).ends
  exact hpad s rfl

/-! #### The decoder: a symbol takes a bit at least -/

/-- The root is the `NYT` node or has children: a leaf has a sibling (R250). -/
theorem FgkMem.Codes.root_kind (hg : g.Codes S) : ∃ r y, g.Grown r y ∧ (g.node r).kind ≠ .leaf := by
  obtain ⟨r, y, hgrown, hgoes, _⟩ := hg.bits
  refine ⟨r, y, hgrown, fun hleaf => ?_⟩
  cases hpath : nytPath g with
  | nil =>
    rw [hpath] at hgoes
    cases (hgoes : r = y)
    rw [hgrown.nyt_kind] at hleaf
    cases hleaf
  | cons x p =>
    rw [hpath] at hgoes
    rw [hgoes.1] at hleaf
    cases hleaf

/-- The descent (R267) takes a bit, or ends where it started. -/
theorem fgkDescend_ends (hgrown : g.Grown r y) : ∀ (k cur m : Nat), cur < g.n.toNat →
    Run.Ends (fun s => s.fgk = g ∧ s.Bits k ∧ s.Bits m) (fgkDescend k cur)
      fun found s => found.elim True fun n => s.fgk = g ∧ (s.Bits (m - 1) ∨ n = cur ∧ s.Bits m)
  | 0, _, _, _ => .stuck fun _ h => absurd h.2.1.2 (Nat.not_lt_zero _)
  | k + 1, cur, m, hcur => by
    refine .read_fact (φ := fun nd => nd = g.node cur) (fun s hs => by rw [hs.1]) fun nd hnd => ?_
    subst hnd
    refine .ite (fun hkind => ?_) fun _ => .pure fun _ ⟨hs, _, hm⟩ => ⟨hs, .inr ⟨rfl, hm⟩⟩
    obtain ⟨a, b, hleft, hright, ha, hb, _⟩ := hgrown.inner cur hcur hkind
    have hbit : Run.Ends (fun s => s.fgk = g ∧ s.Bits (k + 1) ∧ s.Bits m) getBitOpt
        fun bit s => bit.elim True fun _ => s.fgk = g ∧ s.Bits k ∧ s.Bits (m - 1) := by
      refine ((getBitOpt_bits.ends_and getBitOpt_bits_pred).keeping_and (P := fun s => s.fgk = g)
        (getBitOpt_keeps (fun _ _ _ h => h) fun _ _ _ h => h)).conseq (fun _ h => h) (fun bit s h => ?_) fun _ _ h => h
      cases bit with
      | none => trivial
      | some bit => exact h
    refine .bind hbit fun bit => ?_
    cases bit with
    | none => exact .pure fun _ _ => trivial
    | some bit =>
      have hnext : ∃ c, (if bit then (g.node cur).right else (g.node cur).left) = some c ∧ c < g.n.toNat := by
        cases bit with
        | true => exact ⟨b, hright, hb⟩
        | false => exact ⟨a, hleft, ha⟩
      obtain ⟨c, hc, hclt⟩ := hnext
      refine .update_keep (fun _ h => h) ?_
      rw [hc]
      refine (fgkDescend_ends hgrown k c (m - 1) hclt).conseq (fun _ h => h) (fun found s h => ?_) fun _ _ h => h
      cases found with
      | none => trivial
      | some n =>
        obtain ⟨hs, hfewer | ⟨_, hm⟩⟩ := h
        · exact ⟨hs, .inl (hfewer.mono (Nat.sub_le _ _))⟩
        · exact ⟨hs, .inl hm⟩

theorem readLiteral_ends : ∀ (n v : Nat) {m : Nat},
    Run.Ends (State.Bits m) (readLiteral n v) fun lit s => lit.elim True fun _ => s.Bits (m - n)
  | 0, _, _ => .pure fun _ h => h
  | n + 1, v, m => by
    refine .bind getBitOpt_bits_pred fun bit => ?_
    cases bit with
    | none => exact .pure fun _ _ => trivial
    | some bit =>
      have hsub : m - 1 - n = m - (n + 1) := by omega
      exact hsub ▸ readLiteral_ends n _

/-- What the node means on which the descent ends (R267): `NYT` takes literal bits, and a leaf has taken a bit to get
to. -/
theorem fgkArrived_ends (hg : g.Codes S) (hlen : S.length + 1 < 2 ^ 64) (hgrown : g.Grown r y)
    (hroot : (g.node r).kind ≠ .leaf) {n m : Nat} (hn : n < g.n.toNat) (hk : (g.node n).kind ≠ .internal) :
    Run.Ends (fun s => s.fgk = g ∧ (s.Bits (m - 1) ∨ n = r ∧ s.Bits m)) (fgkArrived n)
      fun found s => found.elim True fun b => s.fgk = fgkAfter g b ∧ s.Bits (m - 1) := by
  refine .read_fact (φ := fun nd => nd = g.node n) (fun s hs => by rw [hs.1]) fun nd hnd => ?_
  subst hnd
  refine .ite (fun _ => ?_) fun hnyt => ?_
  · have hlit : Run.Ends (fun s => s.fgk = g ∧ (s.Bits (m - 1) ∨ n = r ∧ s.Bits m)) (readLiteral 8 0)
        fun lit s => lit.elim True fun v => (s.fgk = g ∧ s.Bits (m - 1)) ∧ v < 256 := by
      refine ((readLiteral_ends 8 0).ends_and (readLiteral_value 8 0)).conseq
        (fun _ ⟨hs, hm⟩ => ⟨hm.elim (fun h => h.mono (Nat.sub_le _ _)) And.right, hs⟩) (fun lit s h => ?_)
        fun _ _ h => h
      cases lit with
      | none => trivial
      | some v => exact ⟨⟨h.2.1, State.Bits.mono h.1 (by omega)⟩, h.2.2 v rfl⟩
    refine .bind hlit fun lit => ?_
    cases lit with
    | none => exact .pure fun _ _ => trivial
    | some v =>
      refine .extract fun hlt => ?_
      have hv : (BitVec.ofNat 8 v).toNat = v := Nat.mod_eq_of_lt hlt
      refine .read_fact (φ := fun seen => seen = leafGet g.leaf v) (fun s hs => by rw [hs.1]) fun seen hseen =>
        .require_ends fun hnone => ?_
      have hunseen : leafGet g.leaf (BitVec.ofNat 8 v).toNat = none := by
        rw [hv, ← hseen, ← Option.isNone_iff_eq_none, hnone]
      exact .bind (Run.Ends.and_keeping (onFgk_split_unseen hg hlen hunseen) (onFgk_keeps (fun _ _ h => h) _)) fun _ =>
        .bind (Run.Ends.and_keeping onFgk_update_ok (onFgk_keeps (fun _ _ h => h) _)) fun _ => .pure fun _ h => h
  · have hleaf : (g.node n).kind = .leaf := by
      cases hkind : (g.node n).kind with
      | leaf => rfl
      | nyt => exact absurd hkind hnyt
      | internal => exact absurd hkind hk
    have hseen := (hgrown.leaf _ n).2 ⟨hn, hleaf, rfl⟩
    exact .bind ((Run.Ends.and_keeping (onFgk_update_seen hg hlen hseen) (onFgk_keeps (fun _ _ h => h) _)).under
      fun _ ⟨hs, hm⟩ => ⟨hs, hm.elim id fun h => absurd (h.1 ▸ hleaf) hroot⟩)
      fun _ => .pure fun _ h => h

/-- `FgkDecodeSymbol()` (R267) on the tree of a byte sequence: a symbol, and a bit fewer left. -/
theorem fgkDecodeSymbol_ends (hg : g.Codes S) (hlen : S.length + 1 < 2 ^ 64) {m : Nat} :
    Run.Ends (fun s => s.fgk = g ∧ s.Bits m) fgkDecodeSymbol
      fun found s => found.elim True fun b => s.fgk = fgkAfter g b ∧ s.Bits (m - 1) := by
  obtain ⟨r, y, hgrown, hroot⟩ := hg.root_kind
  refine .read_fact (φ := fun root => root = some r) (fun s hs => by rw [hs.1, hgrown.root]) fun root hr => ?_
  subst hr
  refine .update_keep (fun _ h => h) <| .read_bind fun bound => ?_
  have hdescend : Run.Ends (fun s => (s.fgk = g ∧ s.Bits m) ∧ bound = s.bitsLeft) (fgkDescend (bound + 2) r)
      fun found s => found.elim True fun n => (s.fgk = g ∧ (s.Bits (m - 1) ∨ n = r ∧ s.Bits m)) ∧
        n < g.n.toNat ∧ (g.node n).kind ≠ .internal := by
    refine ((fgkDescend_ends hgrown (bound + 2) r m hgrown.root_lt).ends_and
      (fgkDescend_outer hgrown (bound + 2) r hgrown.root_lt)).conseq
      (fun s ⟨⟨hs, hm⟩, hbound⟩ => ⟨⟨hs, ⟨hm.1, by omega⟩, hm⟩, hs⟩) (fun found s h => ?_) fun _ _ h => h
    cases found with
    | none => trivial
    | some n => exact ⟨h.1, h.2.2 n rfl⟩
  refine .bind hdescend fun found => ?_
  cases found with
  | none => exact .pure fun _ _ => trivial
  | some n => exact .extract fun ⟨hn, hk⟩ => fgkArrived_ends hg hlen hgrown hroot hn hk

/-- The loop of `DEC.ADAPTIVE` (R265): a bit a round. -/
theorem adaptiveDecodeLoop_ends : ∀ (n : Nat) {g : FgkMem} {S : List Byte}, g.Codes S → S.length + n < 2 ^ 64 →
    Run.Ends (fun s => s.fgk = g ∧ s.Bits n) (adaptiveDecodeLoop n) fun _ _ => True
  | 0, _, _, _, _ => .stuck fun _ h => absurd h.2.2 (Nat.not_lt_zero _)
  | n + 1, g, S, hg, hlen => by
    refine .bind (fgkDecodeSymbol_ends hg (by omega)) fun r => ?_
    cases r with
    | none => exact .pure fun _ _ => trivial
    | some b =>
      refine .bind ((outWrite_halts b).keeping (outWrite_keeps (fun _ _ h => h) (fun _ _ h => h) b)) fun _ =>
        .bind (bumpNsym_halts.keeping (bumpNsym_keeps (fun _ _ h => h) fun _ _ h => h)) fun _ =>
        adaptiveDecodeLoop_ends n (hg.after (by omega) b).1 ?_
      rw [List.length_append, List.length_singleton]
      omega

end

/-! #### The commands -/

theorem fgkInit_ends {P : State → Prop} (h : (Frame.carry P).AllowsFgk) :
    Run.Ends P (onFgk fgkInit) fun _ s => s.fgk.Codes [] ∧ P s := fun s hs => ⟨fgkStart_codes s.fgk, h s _ hs⟩

/-- An input short enough for the weights of the adaptive tree (R250). -/
abbrev State.Weighable (s : State) : Prop := s.Fits ∧ 8 * s.io.rest.length < 2 ^ 64

/-- The block of `CMP.ADAPTIVE` (R260). -/
theorem adaptiveCompress_ends : Run.Ends State.Weighable adaptiveCompress fun _ _ => True :=
  .bind (fgkInit_ends fun _ _ h => h) fun _ => .update_keep (fun _ h => h) <| .update_keep (fun _ h => h) <|
  .read_bind fun n => .bind (R := fun _ s => ∃ S, s.fgk.Codes S)
    (fun s ⟨⟨hg, hfits, hlen⟩, hn⟩ => by
      have hbound : n = s.io.rest.length + 1 := hn
      exact adaptiveEncodeLoop_ends n hg (by rw [List.length_nil]; omega) s ⟨rfl, hfits, by omega⟩)
    fun _ => .update_keep (fun _ h => h) <| .bind fgkPad_ends fun _ => padAndFlush_halts

/-- The block of `DEC.ADAPTIVE` (R265). -/
theorem adaptiveDecompress_ends : Run.Ends State.Weighable adaptiveDecompress fun _ _ => True :=
  .bind (fgkInit_ends fun _ _ h => h) fun _ => .update_keep (fun _ h => h) <|
  .update_bind (R := fun s => s.fgk.Codes [] ∧ s.Weighable ∧ s.w.icnt = 0) (fun _ ⟨hg, hs⟩ => ⟨hg, hs, rfl⟩) <|
  .read_bind fun n s ⟨⟨hg, ⟨hfits, hlen⟩, hcnt⟩, hn⟩ => by
    have hbound : n = 8 * s.io.rest.length + s.w.icnt.toNat := hn
    have hnone : s.w.icnt.toNat = 0 := congrArg BitVec.toNat hcnt
    exact adaptiveDecodeLoop_ends (n + 2) hg (by rw [List.length_nil]; omega) s ⟨rfl, hfits, by omega⟩

end Sys2Proof.Machine
end

section

namespace Sys2Proof.Machine

/-! ### The arithmetic codec ends -/

/-! #### The renormalisation: the interval doubles with each pass -/

/-- An interval of the scale that has left it after fewer than `n` doublings (R304). -/
structure Coder.Wide (n : Nat) (c : Coder) : Prop where
  top : c.high ≤ Config.scaleM
  wide : Config.scaleM < (c.high - c.low) * 2 ^ n

theorem Coder.Wide.not_zero {c : Coder} (h : c.Wide 0) : False := by
  obtain ⟨htop, hwide⟩ := h
  rw [Nat.pow_zero, Nat.mul_one] at hwide
  omega

theorem Coder.Wide.lt {c : Coder} {n : Nat} (h : c.Wide n) : c.low < c.high := by
  have hpos : 0 < (c.high - c.low) * 2 ^ n := (Nat.zero_le _).trans_lt h.wide
  have := Nat.pos_of_mul_pos_right hpos
  omega

/-- An interval that is not empty is wide enough for the bound of the renormalisation. -/
theorem Coder.wide_of_lt {c : Coder} (htop : c.high ≤ Config.scaleM) (hlt : c.low < c.high) : c.Wide renormBound :=
  ⟨htop, scaleM_lt_renormBound hlt⟩

/-- A pass doubles the interval (R304, R322). -/
theorem Coder.Wide.map {c : Coder} {n : Nat} {r : Renorm} (h : c.Wide (n + 1)) (hr : r.Fires c.low c.high)
    (hne : r ≠ .done) : Coder.Wide n { c with low := r.map c.low, high := r.map c.high } := by
  obtain ⟨_, _, htop, hdouble⟩ := Renorm.map_point hr hne le_rfl h.lt h.top false
  refine ⟨htop, ?_⟩
  calc Config.scaleM < (c.high - c.low) * 2 ^ (n + 1) := h.wide
    _ = 2 * (c.high - c.low) * 2 ^ n := by ring
    _ = (r.map c.high - r.map c.low) * 2 ^ n := by rw [hdouble]

theorem Coder.Wide.bounds {c : Coder} {n : Nat} (h : c.Wide n) : c.low < 2 ^ 31 ∧ c.high ≤ 2 ^ 31 := by
  have hM : Config.scaleM = 2 ^ 31 := rfl
  have := h.top
  have := h.lt
  omega

theorem State.wide_setInterval {s : State} {n x y : Nat} (h : Coder.Wide n { s.coder with low := x, high := y }) :
    (s.setW (s.w.setInterval x y)).coder.Wide n := by
  obtain ⟨hx, hy⟩ := h.bounds
  rw [State.coder_setInterval s hx hy]
  exact h

/-- `DecRenorm()` (R322) settles every interval that is not empty. -/
theorem decRenorm_ends : ∀ n, Run.Ends (fun s => s.coder.Wide n) (decRenorm n) fun _ _ => True
  | 0 => .stuck fun _ h => h.not_zero.elim
  | n + 1 => .read_bind fun _ => .ite (fun _ => .pure fun _ _ => trivial) fun hne =>
    .update_bind (R := fun s => s.coder.Wide n)
      (fun s ⟨h, hr⟩ => State.wide_setInterval (h.map (hr ▸ s.w.renorm_fires) hne)) <|
    .bind ((shiftVal_halts _).keeping (shiftVal_keeps (fun _ _ _ h => h) (fun _ _ _ h => h) (fun _ _ h => h) _))
      fun _ => decRenorm_ends n

/-! #### The decoder -/

theorem Coder.Aims.wide {c : Coder} {v : Nat} (h : c.Aims v) : c.Wide renormBound :=
  Coder.wide_of_lt h.top (h.least.trans_lt h.less)

/-- The loop of `DEC.ARITH` (R323): a symbol a round, each behind an interval the window is a point of. -/
theorem arithDecodeLoop_ends : ∀ n, Run.Ends (fun s => s.Aims ∧ s.Rounds n) (arithDecodeLoop n) fun _ _ => True
  | 0 => fun _ hs => hs.2.not_zero.elim
  | n + 1 => by
    refine .read_bind fun more => .ite (fun hmore => ?_) fun _ => .pure fun _ _ => trivial
    have hfind : Run.Ends (fun s => (s.Aims ∧ s.Rounds (n + 1)) ∧ more = decide (s.w.nsym.toNat < s.w.total.toNat))
        arithFind fun e s => s.coder.Finds s.w.val.toNat e ∧ s.Rounds (n + 1) ∧ s.Below :=
      ((arithFind_halts.ends_sat (arithFind_found (L := []))).and_keeping arithFind_keeps).under
        fun _ ⟨⟨haims, hrounds⟩, hbelow⟩ => ⟨haims, hrounds, of_decide_eq_true (hbelow ▸ hmore)⟩
    refine .bind hfind fun e => .ite (fun _ => .pure fun _ _ => trivial) fun _ =>
      .bind ((outWrite_halts _).keeping (outWrite_keeps (fun _ _ h => h) (fun _ _ h => h) _)) fun _ =>
      .bind (bumpNsym_rounds (fun _ _ h => h) fun _ _ h => h) fun _ => .update_bind (R := fun s => s.Aims ∧ s.Rounds n)
        (fun _ ⟨hfinds, hrounds⟩ => ⟨State.aims_setInterval hfinds.narrow, hrounds⟩) <|
      .bind ?_ fun _ => arithDecodeLoop_ends n
    have hrenorm : Run.Ends State.Aims (decRenorm renormBound) fun _ => State.Aims :=
      ((decRenorm_ends renormBound).ends_and (decRenorm_aims (L := [.ioRead]) (by decide) renormBound)).conseq
        (fun _ haims => ⟨haims.wide, haims⟩) (fun _ _ h => h.2) fun _ _ h => h
    exact hrenorm.and_keeping
      (decRenorm_keeps (fun _ _ _ h => h) (fun _ _ _ h => h) (fun _ _ h => h) (fun _ _ _ h => h) _)

/-- `DEC.ARITH` from phase `BUILD` on, behind a header that counts something (R315). -/
theorem arithRebuild_ends (total : Nat) :
    Run.Ends (fun s => distribution s.freq ≠ [] ∧ total = s.w.total.toNat) (arithRebuild total) fun _ _ => True :=
  .update_keep (fun _ h => h) <|
  .bind ((rangesBlock_halts.ends_sat (rangesBlock_tiled (L := [.rangeTotal]) (by decide))).and_keeping
    (P := fun s => total = s.w.total.toNat)
    (rangesBlock_keeps (fun _ _ _ h => h) (fun _ _ _ h => h) fun _ _ _ h => h)) fun _ =>
  .update_keep (fun _ h => h) <|
  .update_bind (R := fun s => s.coder.Tiled ∧ total = s.w.total.toNat ∧ s.w.nsym = 0)
    (fun _ ⟨htiled, htotal⟩ => ⟨htiled, htotal, rfl⟩) <|
  .bind ((Run.Halts.times (shiftVal_halts _) _).keeping
    (.times (shiftVal_keeps (fun _ _ _ h => h) (fun _ _ _ h => h) (fun _ _ h => h) _) _)) fun _ =>
  .update_bind (fun s ⟨htiled, htotal, h0⟩ => ⟨State.aims_setInterval
    ⟨⟨htiled.pos, htiled.most, htiled.covers⟩, le_rfl, Nat.zero_le _, s.w.val.isLt⟩, State.rounds_start h0 htotal⟩) <|
  arithDecodeLoop_ends (total + 1)

/-- The block of `DEC.ARITH` (R315), on any input. -/
theorem arithDecompress_ends : Run.Halts arithDecompress :=
  .bind (.update _) fun _ =>
  Run.Sat.bind (readHeader_halts.ends_sat (readHeader_total (L := [.ioRead, .malformedHeader]) (by decide) (by decide)))
  fun _ => .read_bind fun _ => .ite (fun _ => .pure fun _ _ => trivial) fun hne =>
  (arithRebuild_ends _).under fun _ ⟨hdist, htotal⟩ => ⟨hdist (htotal ▸ hne), congrArg BitVec.toNat htotal⟩

/-! #### The encoder -/

/-- The table serves the interval coder for the bytes that `f` counts: every entry is a proper part of a total within
the bound of R136, and each of those bytes has its entry (R134, R292). -/
structure Coder.Serves (f : Table (BitVec 32)) (c : Coder) : Prop where
  most : c.rt ≤ Config.arithTMax
  entries : ∀ e ∈ c.table, e.Ok c.rt
  symbol : ∀ b : Byte, freqGet f b.toNat ≠ 0 → ∃ e ∈ c.table, c.table.find? (fun e => e.sym.toNat == b.toNat) = some e
  filled : c.table ≠ []

/-- Between two symbols the interval is settled (R305). -/
structure Coder.Encodes (f : Table (BitVec 32)) (c : Coder) : Prop extends c.Serves f where
  settled : Settled c.low c.high

/-- Within a renormalisation it has at most `n` doublings left. -/
structure Coder.Renorms (f : Table (BitVec 32)) (n : Nat) (c : Coder) : Prop extends c.Serves f where
  wide : c.Wide n

/-- The sub-interval of an entry (R303). -/
theorem Coder.Encodes.narrow {f : Table (BitVec 32)} {c : Coder} {e : RangeEntry} (h : c.Encodes f) (he : e ∈ c.table) :
    Coder.Renorms f renormBound { c with
      low := subBound c.low c.high c.rt e.cumLo.toNat, high := subBound c.low c.high c.rt e.cumHi.toNat } := by
  obtain ⟨_, hlt, htop⟩ := narrow_within (h.entries e he) h.most h.settled
  exact { h.toServes with wide := Coder.wide_of_lt (htop.trans h.settled.top) hlt }

/-- Where no rule fires the interval is settled. -/
theorem Coder.Renorms.done {f : Table (BitVec 32)} {c : Coder} {n : Nat} (h : c.Renorms f n)
    (hr : Renorm.Fires c.low c.high .done) : c.Encodes f :=
  { h.toServes with settled := ⟨h.wide.top, hr.1, hr.2.1, hr.2.2⟩ }

theorem State.renorms_setInterval {s : State} {f : Table (BitVec 32)} {n x y : Nat}
    (h : Coder.Renorms f n { s.coder with low := x, high := y }) :
    (s.setW (s.w.setInterval x y)).coder.Renorms f n := by
  obtain ⟨hx, hy⟩ := h.wide.bounds
  rw [State.coder_setInterval s hx hy]
  exact h

/-- A pass of the renormalisation (R304). -/
theorem State.renorms_rescale {s : State} {f : Table (BitVec 32)} {n : Nat} {r : Renorm}
    (h : s.coder.Renorms f (n + 1) ∧ r = s.w.renorm) (hne : r ≠ .done) :
    (s.setW (s.w.rescale r)).coder.Renorms f n :=
  State.renorms_setInterval { h.1.toServes with wide := h.1.wide.map (h.2 ▸ s.w.renorm_fires) hne }

section
variable {f : Table (BitVec 32)}

/-- `EncRenorm()` (R304) ends with a settled interval. -/
theorem encRenorm_ends : ∀ n, Run.Ends (fun s => s.coder.Renorms f n) (encRenorm n) fun _ s => s.coder.Encodes f
  | 0 => .stuck fun _ h => h.wide.not_zero.elim
  | n + 1 => by
    refine .read_bind fun r => ?_
    have hemit (b : Bool) := (emitWithPending_halts b).keeping
      (P := fun s => s.coder.Renorms f (n + 1) ∧ r = s.w.renorm)
      (emitWithPending_keeps (fun _ _ h => h) (fun _ _ h => h) (fun _ _ _ h => h) (fun _ _ h => h) b)
    cases r with
    | lower =>
      exact .bind (hemit false) fun _ => .update_bind (fun _ h => State.renorms_rescale h Renorm.noConfusion)
        (encRenorm_ends n)
    | upper =>
      exact .bind (hemit true) fun _ => .update_bind (fun _ h => State.renorms_rescale h Renorm.noConfusion)
        (encRenorm_ends n)
    | middle =>
      exact .update_keep (fun _ h => h) <| .update_bind (fun _ h => State.renorms_rescale h Renorm.noConfusion)
        (encRenorm_ends n)
    | done =>
      exact .pure fun s ⟨h, hr⟩ => h.done (hr ▸ s.w.renorm_fires)

/-- `ArithEncode(i)` (R302) for an entry of the table. -/
theorem arithEncode_ends (e : RangeEntry) : Run.Ends (fun s => s.coder.Encodes f ∧ e ∈ s.rangeList) (arithEncode e)
    fun _ s => s.coder.Encodes f :=
  .update_bind (fun _ ⟨h, he⟩ => State.renorms_setInterval (h.narrow he)) (encRenorm_ends renormBound)

/-- `ArithEncode(RangeIndex(b))` for a byte that has been counted. -/
theorem arithEncodeSym_ends {b : Byte} (hb : freqGet f b.toNat ≠ 0) :
    Run.Ends (fun s => s.coder.Encodes f) (arithEncodeSym b.toNat) fun _ s => s.coder.Encodes f := by
  refine .bind (R := fun o s => ∃ e, o = some e ∧ s.coder.Encodes f ∧ e ∈ s.rangeList) (.read fun s h => ?_)
    fun o s hs => ?_
  · obtain ⟨e, he, hfind⟩ := h.symbol b hb
    exact ⟨e, hfind, h, he⟩
  · obtain ⟨e, rfl, h⟩ := hs
    exact arithEncode_ends e s h

/-- The loop of `CMP.ARITH` (R300): a byte that gets to the coder has been counted. -/
theorem arithEncodeLoop_ends : ∀ n, Run.Ends (fun s => (s.freq = f ∧ s.coder.Encodes f) ∧ s.Short n) (arithEncodeLoop n)
    fun _ s => s.coder.Encodes f
  | 0 => .stuck fun _ h => absurd h.2.2 (Nat.not_lt_zero _)
  | n + 1 => by
    refine .bind (inRead_short.keeping_and (P := fun s => s.freq = f ∧ s.coder.Encodes f)
      (inRead_keeps fun _ _ _ h => h)) fun r => ?_
    cases r with
    | none => exact .pure fun _ h => h.1.2
    | some b =>
      refine .read_fact (φ := fun ok => ok = true → freqGet f b.toNat ≠ 0) (fun s hs hok => ?_) fun ok hok =>
        .require_ends fun htrue => ?_
      · rw [Bool.and_eq_true, decide_eq_true_eq, hs.1.1] at hok
        exact hok.1
      · have hsym : Run.Ends (fun s => (s.freq = f ∧ s.coder.Encodes f) ∧ s.Short n) (arithEncodeSym b.toNat)
            fun _ s => (s.freq = f ∧ s.coder.Encodes f) ∧ s.Short n :=
          ((arithEncodeSym_ends (hok htrue)).and_keeping (P := fun s => s.freq = f ∧ s.Short n)
            (arithEncodeSym_keeps (fun _ _ h => h) (fun _ _ h => h) (fun _ _ _ h => h) (fun _ _ h => h)
              (fun _ _ _ h => h) _)).conseq (fun _ ⟨⟨hf, hc⟩, hn⟩ => ⟨hc, hf, hn⟩)
            (fun _ _ ⟨hc, hf, hn⟩ => ⟨⟨hf, hc⟩, hn⟩) fun _ _ h => h
        exact .bind hsym fun _ => .bind (bumpNsym_halts.keeping (bumpNsym_keeps (fun _ _ h => h) fun _ _ h => h))
          fun _ => arithEncodeLoop_ends n

/-- The end-of-stream symbol's entry is the last of the table (R300). -/
theorem Coder.Serves.last_mem {s : State} (h : s.coder.Serves f) :
    rangeGet s.range (s.w.nrange.toNat - 1) ∈ s.rangeList := by
  have hpos : s.w.nrange.toNat ≠ 0 := fun h0 => h.filled (by show s.rangeList = []; rw [State.rangeList, h0]; rfl)
  exact List.mem_map.2 ⟨_, List.mem_range.2 (by omega), rfl⟩

theorem State.encodes_whole {s : State} (h : s.coder.Serves f) :
    (s.setW (s.w.setInterval 0 Config.scaleM)).coder.Encodes f := by
  rw [State.coder_setInterval s (by decide) (by decide)]
  exact { h with settled := settled_whole }

/-- The coding pass of `CMP.ARITH` (R300, R301). -/
theorem arithSecondPass_ends : Run.Ends (fun s => s.Bounded ∧ s.freq = f ∧ s.coder.Serves f) arithSecondPass
    fun _ _ => True :=
  .update_keep (fun _ h => h) <|
  .bind (inRewind_bounded.and_keeping (P := fun s => s.freq = f ∧ s.coder.Serves f)
    (inRewind_keeps (fun _ _ _ h => h) (fun _ h => h) fun _ _ _ h => h)) fun _ =>
  .update_bind (R := fun s => (s.freq = f ∧ s.coder.Encodes f) ∧ s.Fits) (fun _ ⟨hbounded, hf, hserves⟩ =>
    ⟨⟨hf, State.encodes_whole hserves⟩, hbounded.1⟩) <|
  readBound_ends_and fun n => .bind (arithEncodeLoop_ends n) fun _ =>
  .bind (requireAllSeen_halts.keeping (.bind (.read _) fun _ => .require _ _)) fun _ => .read_bind fun last =>
  .bind ((arithEncode_ends last).under fun _ ⟨h, hlast⟩ => ⟨h, hlast ▸ h.last_mem⟩)
  fun _ => .update_keep (fun _ h => h) <| .bind arithFlush_halts.ends fun _ => padAndFlush_halts

end

/-- `RANGES`' block leaves a table that serves the bytes counted, if there are any, or raises RANGE_TOTAL (R134,
R136). -/
theorem rangesBlock_serves : Run.Ends (fun s => s.w.total ≠ 0 → distribution s.freq ≠ []) rangesBlock
    fun _ s => s.w.total ≠ 0 → s.coder.Serves s.freq := by
  refine rangesBlock_halts.ends_sat (E := fun _ _ => True) fun s hcounts => ?_
  by_cases hfits : rangeTotal (distribution s.freq) ≤ Config.arithTMax
  · have hmax : Config.arithTMax = 2 ^ 29 := rfl
    obtain ⟨t, hrun, _, htable, hrt, _, hsame⟩ := rangesBlock_ok s hfits
    have hfreq : t.freq = s.freq := by rw [hsame]; rfl
    have htotal : t.w.total = s.w.total := by rw [hsame]; rfl
    rw [hrun]
    intro hne
    rw [htotal] at hne
    refine ⟨hrt.trans_le hfits, fun e he => ?_, fun b hb => ?_, fun hnil => ?_⟩
    · show e.Ok t.w.rt.toNat
      rw [hrt]
      exact (rangeTable_spec (distribution_isDist _).2 (by omega)).1 e (htable ▸ he)
    · rw [hfreq] at hb
      show ∃ e ∈ t.rangeList, t.rangeList.find? (fun e => e.sym.toNat == b.toNat) = some e
      rw [htable]
      exact rangeTable_find (distribution_symbols.2 hb)
    · exact rangeTable_ne_nil (hcounts hne) (htable ▸ hnil)
  · have hover := rangesBlock_over s (Nat.not_le.1 hfits)
    cases hrun : rangesBlock s with
    | ok a t => rw [hrun] at hover; exact hover.elim
    | error e t => trivial

/-- A count that is not 0 has counted some byte (R130). -/
theorem countBlock_counts : Run.Ends (fun s => s.io.Sound) countBlock
    fun _ s => s.w.total ≠ 0 → distribution s.freq ≠ [] := by
  have hends : Run.Ends (fun s => s.io.Sound) countBlock fun _ _ => True :=
    countBlock_ends.under fun _ h => h.1
  intro s hs
  have hstop := hends s hs
  cases hm : countBlock s with
  | error e t => rw [hm] at hstop; exact hstop
  | ok a t =>
    intro htotal
    have hrun := (countBlock_piece (L := [.ioRead, .countOverflow]) (by decide) (by decide)).follows.of_ok hm
    by_cases hlen : s.io.rest.length ≤ Config.inLenMax
    · have hmax : Config.inLenMax = 2 ^ 32 - 1 := rfl
      obtain ⟨p, n, hcount⟩ := countBlock_tallied (s := s.unfailing) rfl hs hlen
      obtain ⟨_, hsame⟩ := EStateM.Result.ok.inj (hrun.symm.trans hcount)
      have hfreq : t.freq = countTable s.io.rest := (congrArg State.freq hsame :)
      have htotal' : t.w.total = BitVec.ofNat 40 s.io.rest.length := (congrArg (fun x : State => x.w.total) hsame :)
      obtain ⟨b, hb⟩ := List.exists_mem_of_ne_nil s.io.rest fun hnil => htotal (by rw [htotal', hnil]; rfl)
      have hsym := distribution_symbols.2 ((freqGet_countTable_ne (by omega) b).2 hb)
      rw [hfreq]
      exact List.ne_nil_of_mem (List.mem_map.1 hsym).choose_spec.1
    · obtain ⟨u, hover, _⟩ := countBlock_overflows (s := s.unfailing) rfl hs (Nat.not_le.1 hlen)
      rw [hover] at hrun
      cases hrun

/-- The block of `CMP.ARITH` (R300, R301). -/
theorem arithCompress_ends : Run.Ends (fun s => s.Bounded ∧ s.io.Sound) arithCompress fun _ _ => True :=
  .update_keep (fun _ h => h) <|
  .bind (countBlock_counts.keeping_and (P := State.Bounded)
    (countBlock_keeps (fun _ _ _ h => h) (fun _ _ h => h) fun _ _ h => h)) fun _ =>
  .update_keep (fun _ h => h) <|
  .bind (rangesBlock_serves.keeping_and (P := State.Bounded)
    (rangesBlock_keeps (fun _ _ _ h => h) (fun _ _ _ h => h) fun _ _ _ h => h)) fun _ =>
  .update_keep (fun _ h => h) <| .read_any fun f =>
  .bind ((writeHeader_halts f).keeping (writeHeader_keeps (fun _ _ h => h) (fun _ _ h => h) f)) fun _ =>
  .read_bind fun _ => .ite (fun _ => .pure fun _ _ => trivial) fun hne s ⟨⟨hbounded, hserves⟩, htotal⟩ =>
    arithSecondPass_ends s ⟨hbounded, rfl, hserves (htotal ▸ hne)⟩

end Sys2Proof.Machine
end

section

namespace Sys2Proof.Machine

/-! ### Every command ends -/

/-- What a block needs to find at its start: streams short enough for the counters of bits and weights (R24, R250), a
tree that `TREE.TRUNC` and `TREE.DERIVE` can walk, a distribution for `BLD.SHANNON` (log entry 21). -/
structure State.Endable (i : Instr) (s : State) : Prop where
  sound : s.io.Sound
  short : 8 * s.io.rest.length < 2 ^ 64
  again : ∀ b, s.io.again = some b → 8 * b.length < 2 ^ 64
  tree : i = .treeTrunc ∨ i = .treeDerive → s.main.Arena
  dist : i = .bldShannon → IsDist s.distList

section
variable {i : Instr} {s : State}

theorem State.Endable.bounded (h : s.Endable i) : s.Bounded :=
  ⟨h.sound.1, fun b hb => by have := h.again b hb; omega⟩

/-- Accepting a command changes nothing of it. -/
theorem State.Endable.start (h : s.Endable i) : (Instr.start i s).Endable i := by
  unfold Instr.start
  split <;> exact ⟨h.sound, h.short, h.again, h.tree, h.dist⟩

end

/-- The block of every primitive and stream command ends or traps (R400). -/
theorem block_ends {i : Instr} (hi : i.cmdClass ≠ .system) : Run.Ends (State.Endable i) (Instr.block i)
    fun _ _ => True := by
  have cmp (m : StaticMethod) : Run.Ends (State.Endable i) (staticCompress m.block) fun _ _ => True :=
    (staticCompress_ends m).under fun _ h => h.bounded
  have dec (m : StaticMethod) : Run.Ends (State.Endable i) (staticDecompress m.block) fun _ _ => True :=
    (staticDecompress_ends m).under fun _ h => h.sound.1
  cases i with
  | nop | reset => exact absurd rfl hi
  | count => exact countBlock_ends.under fun _ h => h.sound.1
  | dist => exact distBlock_halts.ends
  | ranges => exact rangesBlock_halts.ends
  | treeFromScheme => exact withDist_ends fun _ _ => fromSchemeBlock_halts _
  | treeTrunc => exact onMain_ends truncBlock_ends fun _ h => h.tree (.inl rfl)
  | treeDerive => exact onMain_ends deriveBlock_arena_ends fun _ h => h.tree (.inr rfl)
  | bldShannon => exact withDist_ends fun _ h => shannonBlock_halts (h.dist rfl)
  | bldFano => exact withDist_ends fun _ _ => fanoBlock_halts _
  | bldHuffman =>
    exact withDist_ends fun s _ => huffmanBlock_halts ((distList_length s).trans_lt s.w.ndist.isLt)
  | cmpShannon => exact cmp .shannon
  | cmpFano => exact cmp .fano
  | cmpHuffman => exact cmp .huffman
  | cmpContext =>
    have h := @contextCompress_ends
    show Run.Ends _ contextCompress _
    generalize contextCompress = m at h ⊢
    exact h.under fun _ h => h.bounded
  | cmpAdaptive => exact adaptiveCompress_ends.under fun _ h => ⟨h.sound.1, h.short⟩
  | cmpArith => exact arithCompress_ends.under fun _ h => ⟨h.bounded, h.sound⟩
  | decShannon => exact dec .shannon
  | decFano => exact dec .fano
  | decHuffman => exact dec .huffman
  | decContext =>
    have h := @contextDecompress_ends
    show Run.Ends _ contextDecompress _
    generalize contextDecompress = m at h ⊢
    exact h.under fun _ h => h.sound.1
  | decAdaptive => exact adaptiveDecompress_ends.under fun _ h => ⟨h.sound.1, h.short⟩
  | decArith => exact arithDecompress_ends.ends

/-- Settles O20: every loop of every block has the bound it needs: a loop over the input reads a byte a round, a walk or
a descent takes a bit, a decode loop counts a symbol, and a renormalisation doubles the interval. -/
theorem commandsEnd : Obligations.CommandsEnd := by
  intro i s hready hsound hshort hagain htree hdist
  by_cases hi : i.cmdClass = .system
  · obtain rfl | rfl := system_cases hi
    · exact ⟨_, execNop_ready hready⟩
    · exact ⟨_, execReset_idle hready.1⟩
  · rw [exec_ready hi hready]
    exact (block_ends hi).finishes (State.Endable.start ⟨hsound, hshort, hagain, htree, hdist⟩)

end Sys2Proof.Machine
end
